-- ==== Sys2Proof/Word.lean ====
section
/-!
DEFINITION. The word types of the Virrath V960 (R9: bit 0 is the least significant bit).
-/

namespace Sys2Proof

/-- One byte of storage. -/
abbrev Byte := BitVec 8

/-- A lane register, an accumulator entry, a 32-bit immediate. -/
abbrev W32 := BitVec 32

/-- A scalar register, a mask, an address, an instruction word. -/
abbrev W64 := BitVec 64

end Sys2Proof
end

