-- ==== Sys2Proof/Machine/Bits.lean ====
section
/-!
DEFINITION. Bit fields, sign extension and byte order (R9, R12), and the two containers State is made of: sparse
maps of words that list no zero (`SMap`) and lists kept by rising key (`KL`).
-/

namespace Sys2Proof

/-- `bits(x, lo + n - 1, lo)` of R12, as a number. -/
def bits (x lo n : Nat) : Nat := (x >>> lo) % 2 ^ n

/-- Bit `i` of a number. -/
def bitAt (x i : Nat) : Bool := x.testBit i

/-- `sext(x, n)` of R12: the signed value of an n-bit number. -/
def sextI (x n : Nat) : Int := if n = 0 then 0 else if (x % 2 ^ n) < 2 ^ (n - 1) then (x % 2 ^ n : Nat) else (x % 2 ^ n : Nat) - (2 ^ n : Nat)

/-- The 64-bit two's complement of an n-bit field. -/
def sext64 (x n : Nat) : W64 := BitVec.ofInt 64 (sextI x n)

/-- A number of 0 or 1. -/
def b2n (b : Bool) : Nat := if b then 1 else 0

/-- The number of set bits among the low n bits. -/
def popN (x : Nat) : Nat → Nat
  | 0 => 0
  | n + 1 => popN x n + b2n (x.testBit n)

/-- The number of bits up to the highest set bit among the low n. -/
def lenN (x : Nat) : Nat → Nat
  | 0 => 0
  | n + 1 => if x.testBit n then n + 1 else lenN x n

/-- The set bits of the low 64, ascending. -/
def lanesOf (x : W64) : List Nat := (List.range 64).filter (fun i => x.getLsbD i)

/-- The mask of a list of lanes. -/
def maskOf (l : List Nat) : W64 := l.foldl (fun m i => m ||| (1#64 <<< i)) 0#64

/-- The n little-endian bytes of a number (R9). -/
def leBytes (x : Nat) : Nat → List Byte
  | 0 => []
  | n + 1 => BitVec.ofNat 8 x :: leBytes (x / 256) n

/-- The number that little-endian bytes hold (R9). -/
def ofLe : List Byte → Nat
  | [] => 0
  | b :: bs => b.toNat + 256 * ofLe bs

/-- Ceiling division. -/
def cdiv (a b : Nat) : Nat := (a + b - 1) / b

/-! ### Lists by key -/

/-- Entries by rising key. -/
abbrev KL (α : Type) := List (Nat × α)

def KL.find {α : Type} : KL α → Nat → Option α
  | [], _ => none
  | (k, v) :: m, a => if k = a then some v else KL.find m a

def KL.put {α : Type} : KL α → Nat → α → KL α
  | [], a, x => [(a, x)]
  | (k, v) :: m, a, x => if k = a then (a, x) :: m else if a < k then (a, x) :: (k, v) :: m else (k, v) :: KL.put m a x

def KL.del {α : Type} (m : KL α) (a : Nat) : KL α := m.filter (fun p => decide (p.1 ≠ a))

def KL.has {α : Type} (m : KL α) (a : Nat) : Bool := (KL.find m a).isSome

/-- Change the entry at a key, if there is one. -/
def KL.mod {α : Type} (m : KL α) (a : Nat) (f : α → α) : KL α :=
  m.map (fun p => if p.1 = a then (p.1, f p.2) else p)

/-! ### Sparse maps -/

/-- A map from keys to words that reads 0 where it lists nothing: keys rise strictly and no listed word is 0. -/
abbrev SMap (w : Nat) := KL (BitVec w)

/-- The word at a key; 0 where nothing is listed. -/
def SMap.get {w : Nat} (m : SMap w) (a : Nat) : BitVec w := (KL.find m a).getD 0

/-- Write a word, keeping the form: writing 0 removes the entry. -/
def SMap.set {w : Nat} (m : SMap w) (a : Nat) (x : BitVec w) : SMap w := if x = 0 then KL.del m a else KL.put m a x

/-- Write a list of words, in order. -/
def SMap.setAll {w : Nat} (m : SMap w) (l : List (Nat × BitVec w)) : SMap w :=
  l.foldl (fun m p => SMap.set m p.1 p.2) m

/-- Remove every key from `lo` on for `n` keys. -/
def SMap.clear {w : Nat} (m : SMap w) (lo n : Nat) : SMap w := m.filter (fun p => decide (p.1 < lo ∨ lo + n ≤ p.1))

/-- The entries are in canonical form from key `lo` on. -/
def SMap.okFrom {w : Nat} : Nat → SMap w → Bool
  | _, [] => true
  | lo, (k, v) :: m => decide (lo ≤ k) && decide (v ≠ 0) && SMap.okFrom (k + 1) m

/-- The canonical form: keys strictly rising, no listed word 0. -/
def SMap.wf {w : Nat} (m : SMap w) : Bool := SMap.okFrom 0 m

/-- The least number below n that is no key; n when all are. -/
def KL.free {α : Type} (m : KL α) (n : Nat) : Nat := ((List.range n).find? (fun i => !(KL.has m i))).getD n

/-- Replace the i-th element of a list. -/
def setNth {α : Type} : List α → Nat → α → List α
  | [], _, _ => []
  | _ :: xs, 0, y => y :: xs
  | x :: xs, n + 1, y => x :: setNth xs n y

/-- Drop the i-th element of a list. -/
def dropNth {α : Type} : List α → Nat → List α
  | [], _ => []
  | _ :: xs, 0 => xs
  | x :: xs, n + 1 => x :: dropNth xs n

end Sys2Proof
end

