-- ==== Sys2Proof/Syntax.lean ====
section
/-!
DEFINITION. The steps of the Virrath V960: one constructor of `Instr` per row of the table of operations and
events (spec/95). An instruction carries the operand fields of its format (R143, R151 to R155); an event carries
what it happens to, and what the outside world brings with it.
-/

namespace Sys2Proof

/-- The common format C (R143, R144): X, the scalar-substitution bits, D, A, B, C, and the second word of the
long form, whole. -/
structure COps where
  wait  : BitVec 8
  guard : BitVec 4
  neg   : Bool
  x     : BitVec 3
  sa    : Bool
  sb    : Bool
  sc    : Bool
  d     : BitVec 8
  a     : BitVec 8
  b     : BitVec 8
  c     : BitVec 8
  imm   : Option W64
  deriving DecidableEq, Repr

/-- The branch format J (R151). -/
structure JOps where
  wait : BitVec 8
  creg : BitVec 8
  tgt  : BitVec 24
  joff : Option W32
  deriving DecidableEq, Repr

/-- The second word of a long format M instruction (R152). -/
structure MExt where
  pair  : Bool
  sb    : Bool
  scope : BitVec 2
  ord   : BitVec 2
  ext   : BitVec 16
  ofs   : W32
  deriving DecidableEq, Repr

/-- The memory format M (R152). -/
structure MOps where
  wait  : BitVec 8
  guard : BitVec 4
  neg   : Bool
  ty    : BitVec 4
  scale : BitVec 2
  idx   : Bool
  ofs7  : BitVec 7
  d     : BitVec 8
  a     : BitVec 8
  b     : BitVec 8
  long  : Option MExt
  deriving DecidableEq, Repr

/-- The second word of a long format T instruction (R153). -/
structure TExt where
  member : BitVec 4
  ofs    : W32
  deriving DecidableEq, Repr

/-- The tensor format T (R153). -/
structure TOps where
  wait  : BitVec 8
  guard : BitVec 4
  neg   : Bool
  x     : BitVec 3
  sb    : Bool
  tok   : BitVec 3
  cred  : Bool
  bar   : BitVec 4
  d     : BitVec 8
  a     : BitVec 8
  b     : BitVec 8
  long  : Option TExt
  deriving DecidableEq, Repr

/-- The matrix format X (R154). -/
structure XOps where
  wait : BitVec 8
  ty   : BitVec 4
  cmp  : Bool
  hdr  : Bool
  d    : BitVec 8
  a    : BitVec 8
  b    : BitVec 8
  c    : BitVec 8
  deriving DecidableEq, Repr

/-- The mask format K (R155). -/
structure KOps where
  wait : BitVec 8
  psel : BitVec 2
  d    : BitVec 8
  a    : BitVec 8
  b    : BitVec 8
  c    : BitVec 8
  deriving DecidableEq, Repr

/-- The conditions of `brc` (R174): a scalar register against zero. -/
inductive ZCond where
  | z | nz | lt | ge | gt | le
  deriving DecidableEq, Repr

/-- The conditions of the integer compares (R168, R196). -/
inductive ICond where
  | eq | ne | lt | le | gt | ge
  deriving DecidableEq, Repr

/-- The conditions of the float compare (R206). -/
inductive FCond where
  | eq | ne | lt | le | gt | ge | un
  deriving DecidableEq, Repr

/-- SUB 0 to 7 of the packed majors 0x62 and 0x63 (R205). -/
inductive PackOp where
  | add | sub | mul | fma | min | max | abs | neg
  deriving DecidableEq, Repr

/-- The scopes of R291, in rising order; SUB of `fence` (R226) and SCOPE of the atomics (R222). -/
inductive Scope where
  | blk | clu | dev | sys
  deriving DecidableEq, Repr

/-- The mode of a matrix product, SUB[3:2] (R266). -/
inductive MmaMode where
  | numeric | xor | land
  deriving DecidableEq, Repr

/-- A resident group: the block's key (Machine/State.lean) and GRPID. -/
structure GroupRef where
  blk : Nat
  grp : Nat
  deriving DecidableEq, Repr

/-- A live fragment of a resident group, by its entry number. -/
structure FragRef where
  blk : Nat
  grp : Nat
  fid : Nat
  deriving DecidableEq, Repr

/-- Where an error of R114 to R116 is found. `addr` is the key of a byte of the space of State. -/
inductive ErrSite where
  | cleanLine (addr : Nat)
  | dirtyLine (addr : Nat)
  | hbm       (addr : Nat)
  | onchip    (blk : Nat)
  | free      (core : Nat)
  deriving DecidableEq, Repr

/-- A host or peer access (R302, R446, R448): through BAR2, aligned 4-byte words of device memory; through BAR0 of a partition's
function, words read from an offset, or bytes written at one. -/
inductive HostAccess where
  | read  (part : Nat) (pa : Nat) (words : Nat)
  | write (part : Nat) (pa : Nat) (data : List W32)
  | read0 (part : Nat) (off : Nat) (words : Nat)
  | write0 (part : Nat) (off : Nat) (data : List Byte)
  deriving DecidableEq, Repr

/-- An image, record or certificate with its two signatures (R451). -/
structure Signed where
  body : List Byte
  svn  : Nat
  rsa  : List Byte
  slh  : List Byte
  deriving DecidableEq, Repr

/-- A resident kernel that Husk launches as system groups (R338, R339): its descriptor's address and words, its window-format
list, the base of its text, and its arguments' address. -/
structure SysKernel where
  kdAddr : W64
  kd     : List W64
  wf     : List (Nat × Nat)
  base   : W64
  args   : W64
  deriving DecidableEq, Repr

/-- What Husk launches as a partition's supervisor (R339, R362, R377): the image, its kernel, where its arguments lie in
physical memory, the two tables, context 0's table entry, and the firmware kernels launched with it, each with its image (R338,
R451). -/
structure SupervisorBoot where
  image    : Signed
  kernel   : SysKernel
  argsPa   : Nat
  ctxTab   : Nat
  queTab   : Nat
  entry0   : List W64
  firmware : List (Signed × SysKernel)
  deriving DecidableEq, Repr

/-- What bring-up meets, step by step (R454): the images, records and certificates, the decode tables of D-cores and L-cores in
one body, the peer ports that trained, and the supervisor of each partition. -/
structure PowerOn where
  husk       : Signed
  certs      : Signed
  selfTest   : Bool
  record     : Signed
  hbmTrained : Bool
  hbmParams  : List Byte
  portsUp    : Bool
  ports      : List Nat
  tables     : Signed
  setForward : W64
  sups       : List SupervisorBoot
  deriving DecidableEq, Repr

/-- One step of the device: a row of the table of operations and events. -/
inductive Instr where
  /-- R178: Has no effect beyond its token wait. -/
  | nop (o : COps)
  /-- R174: Uniform PC-relative branch that moves the executing fragment whatever its em holds. -/
  | br (o : JOps)
  /-- R174: Writes the return address to the link register and branches PC-relative. -/
  | call (o : JOps)
  /-- R174: Branches to the address held in a scalar register. -/
  | brR (o : COps)
  /-- R174: Calls the address held in a scalar register and writes the link register. -/
  | callR (o : COps)
  /-- R174: Returns to the address held in the link register. -/
  | ret (o : COps)
  /-- R174: Branches when a scalar register compared with zero meets the condition, which is a parameter. -/
  | brc (cc : ZCond) (o : JOps)
  /-- R177: Lane-conditional branch that splits the fragment under R18 and pushes a join record. -/
  | brv (o : JOps)
  /-- R177: Lane-conditional branch taken on the lanes whose mask bit is clear. -/
  | brvN (o : JOps)
  /-- R179: Retires the fragment; the last fragment drains the group's tokens and leaves the block. -/
  | exit (o : COps)
  /-- R183: Raises the TRAP user trap, with its code in TRAPC. -/
  | trap (o : COps)
  /-- R185: Resumes after a user trap at TRAPPC with TRAPEM. -/
  | tret (o : COps)
  /-- R180: Holds the fragment from issue for a given number of nanoseconds. -/
  | sleep (o : COps)
  /-- R180: When TIME passes the wake time, the sleeping fragment becomes ready again. -/
  | sleepWake (who : FragRef)
  /-- R425: Writes one trace record when tracing admits the kernel, or counts a drop when the ring is full. -/
  | mark (o : COps)
  /-- R186: Marks an equivalence point; waits there when a migration is pending. -/
  | mig (o : COps)
  /-- R186: Marks an equivalence point and asks for a migration at it. -/
  | migReq (o : COps)
  /-- R182: Stops the group with a debug event when the context's debug enable is set. -/
  | brk (o : COps)
  /-- R166: Scalar integer add at the typed width. -/
  | scalarAdd (o : COps)
  /-- R166: Scalar integer subtract. -/
  | scalarSub (o : COps)
  /-- R166: Scalar multiply; gives the low w bits. -/
  | scalarMul (o : COps)
  /-- R166: Scalar multiply; gives the high w bits. -/
  | scalarMulh (o : COps)
  /-- R167: Scalar division truncated toward zero, with fixed border results. -/
  | scalarDiv (o : COps)
  /-- R167: Scalar remainder with the sign of the dividend. -/
  | scalarRem (o : COps)
  /-- R166: Scalar bitwise and. -/
  | scalarAnd (o : COps)
  /-- R166: Scalar bitwise or. -/
  | scalarOr (o : COps)
  /-- R166: Scalar bitwise xor. -/
  | scalarXor (o : COps)
  /-- R166: Scalar shift left. -/
  | scalarShl (o : COps)
  /-- R166: Scalar shift right, arithmetic or logical by type. -/
  | scalarShr (o : COps)
  /-- R166: Scalar minimum, signed or unsigned. -/
  | scalarMin (o : COps)
  /-- R166: Scalar maximum, signed or unsigned. -/
  | scalarMax (o : COps)
  /-- R166: Scalar count of leading zeros. -/
  | scalarClz (o : COps)
  /-- R166: Scalar population count. -/
  | scalarPopc (o : COps)
  /-- R166: Scalar bitwise not. -/
  | scalarNot (o : COps)
  /-- R168: Scalar compare that writes 0 or 1; the condition is a parameter. -/
  | scalarCmp (cc : ICond) (o : COps)
  /-- R169: Scalar move of a register or an immediate. -/
  | scalarMov (o : COps)
  /-- R169: Loads a 64-bit immediate into a scalar register. -/
  | li (o : COps)
  /-- R169: Forms a scaled address in a scalar register. -/
  | lea (o : COps)
  /-- R170: Scalar bit-field extract. -/
  | scalarBfx (o : COps)
  /-- R170: Scalar bit-field insert. -/
  | scalarBfi (o : COps)
  /-- R169: Scalar select on a scalar condition register. -/
  | scalarSel (o : COps)
  /-- R171: Reads a special register into a scalar register, or LANEID into a lane register. -/
  | sread (o : COps)
  /-- R171: Writes a special register that has no row of its own. -/
  | swrite (o : COps)
  /-- R233: A write of ROLE has the effect of the role instruction. -/
  | swriteRole (o : COps)
  /-- R134: A write of FPSTAT sets the sticky flags, ordered with later flag-raising instructions. -/
  | swriteFpstat (o : COps)
  /-- R106: A write of WINFMT sets the format word of the region it selects, or raises UNDEF. -/
  | swriteWinfmt (o : COps)
  /-- R171: A write of TRAPPC or TRAPHDL, which raises UNDEF on a misaligned value. -/
  | swriteTrappc (o : COps)
  /-- R352: A write of FQCTL sets the enable, the ring size and the vector, and clears OVF. -/
  | swriteFqctl (o : COps)
  /-- R352: A write of FQHEAD consumes fault records, letting held records be written. -/
  | swriteFqhead (o : COps)
  /-- R347: A write of WDOG sets or disables the watchdog period. -/
  | swriteWdog (o : COps)
  /-- R423: A write of TRCTL, SMCTL or MSCTL configures and enables a ring facility and restarts the counters. -/
  | swriteRingCtl (o : COps)
  /-- R422: A write of TRHEAD, SMHEAD or MSHEAD consumes ring records, or raises UNDEF when out of range. -/
  | swriteRingHead (o : COps)
  /-- R422: A write of TRFILT sets the trace filter, or raises UNDEF on non-zero high bits. -/
  | swriteTrfilt (o : COps)
  /-- R173: Scalar load from memory once per issue. -/
  | scalarLd (o : MOps)
  /-- R173: Scalar store to memory once per issue. -/
  | scalarSt (o : MOps)
  /-- R193: Lane integer add. -/
  | laneAdd (o : COps)
  /-- R193: Lane integer subtract. -/
  | laneSub (o : COps)
  /-- R193: Lane multiply; gives the low bits. -/
  | laneMul (o : COps)
  /-- R193: Lane multiply; gives the high bits. -/
  | laneMulh (o : COps)
  /-- R193: Lane bitwise and. -/
  | laneAnd (o : COps)
  /-- R193: Lane bitwise or. -/
  | laneOr (o : COps)
  /-- R193: Lane bitwise xor. -/
  | laneXor (o : COps)
  /-- R193: Lane shift left. -/
  | laneShl (o : COps)
  /-- R193: Lane shift right. -/
  | laneShr (o : COps)
  /-- R193: Lane integer minimum. -/
  | laneMin (o : COps)
  /-- R193: Lane integer maximum. -/
  | laneMax (o : COps)
  /-- R193: Lane count of leading zeros. -/
  | laneClz (o : COps)
  /-- R193: Lane population count. -/
  | lanePopc (o : COps)
  /-- R194: Lane integer multiply-add. -/
  | mad (o : COps)
  /-- R194: Lane select on a mask bit. -/
  | laneSel (o : COps)
  /-- R195: Lane bit-field extract. -/
  | laneBfx (o : COps)
  /-- R195: Lane bit-field insert. -/
  | laneBfi (o : COps)
  /-- R194: Lane move of a register or an immediate. -/
  | laneMov (o : COps)
  /-- R196: Lane integer compare that writes a mask; the condition is a parameter. -/
  | laneCmp (cc : ICond) (o : COps)
  /-- R197: Moves values between lanes by an indexed source lane. -/
  | shfl (o : COps)
  /-- R197: Moves values from a lower lane. -/
  | shflUp (o : COps)
  /-- R197: Moves values from a higher lane. -/
  | shflDn (o : COps)
  /-- R197: Moves values from the lane found by xor of the lane index. -/
  | shflX (o : COps)
  /-- R198: Writes 1 when the mask is set in every active lane. -/
  | voteAll (o : COps)
  /-- R198: Writes 1 when the mask is set in some active lane. -/
  | voteAny (o : COps)
  /-- R198: Writes the mask restricted to the active lanes to a scalar register. -/
  | ballot (o : COps)
  /-- R198: Gives each active lane the set of active lanes holding an equal value. -/
  | laneMatch (o : COps)
  /-- R199: Inclusive prefix sum over the active lanes. -/
  | scanAdd (o : COps)
  /-- R199: Inclusive prefix maximum over the active lanes. -/
  | scanMax (o : COps)
  /-- R199: Sums the active lanes into a scalar register. -/
  | redAdd (o : COps)
  /-- R199: Minimum of the active lanes, into a scalar register. -/
  | redMin (o : COps)
  /-- R199: Maximum of the active lanes, into a scalar register. -/
  | redMax (o : COps)
  /-- R199: Bitwise or of the active lanes, into a scalar register. -/
  | redOr (o : COps)
  /-- R200: Whole-mask and. -/
  | kand (o : COps)
  /-- R200: Whole-mask or. -/
  | kor (o : COps)
  /-- R200: Whole-mask xor. -/
  | kxor (o : COps)
  /-- R200: Whole-mask and-not. -/
  | kandn (o : COps)
  /-- R200: Sets a whole mask from a scalar register or an immediate. -/
  | kset (o : COps)
  /-- R200: Copies a mask into a scalar register. -/
  | kget (o : COps)
  /-- R201: Binary32 add, rounded once. -/
  | addF32 (o : COps)
  /-- R201: Binary32 subtract. -/
  | subF32 (o : COps)
  /-- R201: Binary32 multiply. -/
  | mulF32 (o : COps)
  /-- R201: Binary32 fused multiply-add with one rounding. -/
  | fmaF32 (o : COps)
  /-- R203: Binary32 minimumNumber. -/
  | minF32 (o : COps)
  /-- R203: Binary32 maximumNumber. -/
  | maxF32 (o : COps)
  /-- R203: Clears the sign bit. -/
  | absF32 (o : COps)
  /-- R203: Inverts the sign bit. -/
  | negF32 (o : COps)
  /-- R201: Binary32 divide, correctly rounded. -/
  | divF32 (o : COps)
  /-- R201: Binary32 square root. -/
  | sqrtF32 (o : COps)
  /-- R201: Binary32 reciprocal. -/
  | rcpF32 (o : COps)
  /-- R201: Binary32 reciprocal square root, rounded once. -/
  | rsqrtF32 (o : COps)
  /-- R204: Binary32 base-2 exponential, correctly rounded. -/
  | exp2F32 (o : COps)
  /-- R204: Binary32 base-2 logarithm. -/
  | log2F32 (o : COps)
  /-- R204: Binary32 sine, with exact argument reduction. -/
  | sinF32 (o : COps)
  /-- R204: Binary32 cosine. -/
  | cosF32 (o : COps)
  /-- R204: Binary32 hyperbolic tangent. -/
  | tanhF32 (o : COps)
  /-- R205: Packed binary16 arithmetic on two elements per register; the operation is selected by SUB. -/
  | packedF16Arith (op : PackOp) (o : COps)
  /-- R205: Packed BF16 arithmetic on two elements per register; the operation is selected by SUB. -/
  | packedBf16Arith (op : PackOp) (o : COps)
  /-- R206: Floating-point compare that writes mask bits. -/
  | floatCmp (cc : FCond) (o : COps)
  /-- R209: Converts between integer, float and binary types in each active lane. -/
  | cvt (o : COps)
  /-- R214: Lane load through a virtual or aperture address. -/
  | ldG (o : MOps)
  /-- R214: Lane store through a virtual or aperture address. -/
  | stG (o : MOps)
  /-- R215: Lane load from the block's own scratchpad window. -/
  | ldS (o : MOps)
  /-- R215: Lane store to the block's own scratchpad window. -/
  | stS (o : MOps)
  /-- R216: Lane load from private memory. -/
  | ldP (o : MOps)
  /-- R216: Lane store to private memory. -/
  | stP (o : MOps)
  /-- R217: Multicast store into the windows of the cluster members in a mask. -/
  | stM (o : MOps)
  /-- R214: A load's values reach the destination and the scoreboard releases it. -/
  | loadCompletion (who : GroupRef)
  /-- R369: A write reaches its home, sets the dirty bit and appends a dirty-log record when needed. -/
  | writeAtHome (who : GroupRef)
  /-- R219: Starts an asynchronous 16-byte-per-lane copy into the window. -/
  | cpy16 (o : MOps)
  /-- R219: Starts an asynchronous 16-byte-per-lane copy out of the window. -/
  | cpy16Out (o : MOps)
  /-- R219: When every lane's copy is done, the token count falls, with any error status. -/
  | copyCompletion (core job : Nat)
  /-- R223: Atomic add at the home of each address, combined across lanes. -/
  | atomAdd (o : MOps)
  /-- R223: Atomic minimum. -/
  | atomMin (o : MOps)
  /-- R223: Atomic maximum. -/
  | atomMax (o : MOps)
  /-- R223: Atomic and. -/
  | atomAnd (o : MOps)
  /-- R223: Atomic or. -/
  | atomOr (o : MOps)
  /-- R223: Atomic xor. -/
  | atomXor (o : MOps)
  /-- R224: Atomic exchange, serving one lane per address per pass. -/
  | atomXchg (o : MOps)
  /-- R224: Atomic compare-and-swap, serving one lane per address per pass. -/
  | atomCas (o : MOps)
  /-- R226: Phase boundary at its scope that both publishes and acquires. -/
  | fence (scope : Scope) (o : COps)
  /-- R228: The fragment takes part in its group's arrival at a barrier and goes on. -/
  | barArrive (o : COps)
  /-- R228: Waits until the phase last arrived in has completed, then acquires. -/
  | barWait (o : COps)
  /-- R228: Arrives at a barrier and waits for the phase to complete. -/
  | barSync (o : COps)
  /-- R229: Adds to the expected credit count of a block barrier's phase. -/
  | barExpect (o : COps)
  /-- R231: Grants new groups to the block atomically and counts them as arrived. -/
  | spawn (o : COps)
  /-- R232: Retires every fragment of the group, drains its tokens and leaves the block. -/
  | leave (o : COps)
  /-- R233: Sets the group's role for issue selection. -/
  | role (o : COps)
  /-- R234: Asks for more lane-register blocks and waits while the request is pending. -/
  | vgrow (o : COps)
  /-- R41: When free blocks allow, the oldest waiting request is granted whole, with zeroed registers. -/
  | vgrowGrant (core : Nat)
  /-- R42: When every user group is waiting, the youngest vgrow request is denied. -/
  | vgrowDeadlockDenial (core : Nat)
  /-- R41: Returns lane-register blocks from the top of the allocation. -/
  | vshrink (o : COps)
  /-- R236: Waits for the named tokens to drain and returns and clears their errors. -/
  | wait (o : COps)
  /-- R236: Yields until the named tokens drain, then resumes at the continuation. -/
  | waitY (o : COps)
  /-- R237: Copies a launch packet into the device launch queue and writes a status. -/
  | launch (o : COps)
  /-- R238: Launches a child grid expanded from a ragged list. -/
  | launchR (o : COps)
  /-- R241: Loads a 512-byte descriptor image into a descriptor register. -/
  | tld (o : TOps)
  /-- R242: Stores a descriptor register's image to memory. -/
  | tst (o : TOps)
  /-- R243: Sets a descriptor's BASE. -/
  | tsetBase (o : TOps)
  /-- R243: Sets a descriptor's FILL. -/
  | tsetFill (o : TOps)
  /-- R243: Sets the extent of one dimension of a descriptor. -/
  | tsetExt (o : TOps)
  /-- R244: Reads one 64-bit word of a descriptor's current image without waiting. -/
  | tq (o : TOps)
  /-- R245: Reads one element per active lane through a descriptor. -/
  | tldE (o : TOps)
  /-- R245: Writes one element per active lane through a descriptor. -/
  | tstE (o : TOps)
  /-- R248: Starts a copy relayout into the destination under its matrix, with conversion. -/
  | trel (o : TOps)
  /-- R253: Starts an in-place relayout to a new matrix. -/
  | tlay (o : TOps)
  /-- R69: The layout engine translates and completes one block of a pass, advancing CURSOR and crediting tiles. -/
  | relayoutBlock (core job : Nat)
  /-- R257: Quantises 512 binary32 values into E2M1S codes and headers. -/
  | xquant (o : COps)
  /-- R258: Decodes E2M1S codes and headers into floats. -/
  | xdequant (o : COps)
  /-- R261: Writes a weight-stream tile record header for a tile in registers. -/
  | xpack (o : COps)
  /-- R262: Expands a weight-stream tile into registers by its header. -/
  | xunpack (o : COps)
  /-- R259: Converts packed elements between formats lane by lane. -/
  | xconv (o : COps)
  /-- R255: The transform pipe replies to a hand-off and releases the destination registers. -/
  | transformPipeReply (core : Nat)
  /-- R268: Solo matrix product of the group into a 64 x 64 tile. -/
  | mmaS (mode : MmaMode) (o : XOps)
  /-- R270: Quad rendezvous matrix product into a 256 x 256 result. -/
  | mmaQ (mode : MmaMode) (o : XOps)
  /-- R271: Pod-pair rendezvous matrix product of eight groups. -/
  | mmaP (mode : MmaMode) (o : XOps)
  /-- R269: Four batched solo products in the quadrant's slice. -/
  | mmaB (mode : MmaMode) (o : XOps)
  /-- R273: A matrix product completes in the array and updates its tile as one step. -/
  | matrixTileUpdate (core : Nat)
  /-- R275: Zeroes selected accumulator columns of active rows. -/
  | accz (o : COps)
  /-- R275: Loads accumulator columns from lane registers. -/
  | accld (o : COps)
  /-- R275: Stores accumulator columns to lane registers. -/
  | accst (o : COps)
  /-- R276: Row maximum of the accumulator. -/
  | accmax (o : COps)
  /-- R276: Row sum of the accumulator, rounded once. -/
  | accsum (o : COps)
  /-- R277: Exponentiates each row against its offset. -/
  | accexp (o : COps)
  /-- R276: Scales each row by a factor. -/
  | accscl (o : COps)
  /-- R278: Converts an accumulator row block into packed matrix operands. -/
  | acccvt (o : COps)
  /-- R282: Loads a mask program into a slot after checking it. -/
  | mkld (o : KOps)
  /-- R283: Classes a tile as empty, full or partial and counts it. -/
  | mkcls (o : KOps)
  /-- R284: Writes minus infinity into the disallowed entries of a score tile. -/
  | mkapply (o : KOps)
  /-- R285: Reads one of the block's mask counters. -/
  | mkcnt (o : KOps)
  /-- R285: Empties a slot and optionally zeroes the counters. -/
  | mkclr (o : KOps)
  /-- R289: Packs the signs of accumulator entries into 64-bit signatures. -/
  | sgpack (o : COps)
  /-- R289: Sets mask bits for signatures within a Hamming radius. -/
  | sgsel (o : COps)
  /-- R289: Counts the signatures within a Hamming radius. -/
  | sgcnt (o : COps)
  /-- R400: Puts a context in HALTING and stops its groups. -/
  | ctxhalt (o : COps)
  /-- R400: When every group has stopped and nothing is in flight, the context is HALTED and the token completes. -/
  | contextHaltComplete (part ctx : Nat)
  /-- R404: Starts writing the image of a halted context. -/
  | ctxsave (o : COps)
  /-- R404: The image is written and the token completes. -/
  | contextSaveComplete (part ctx : Nat)
  /-- R409: Checks an image and starts placing it as a HALTED context. -/
  | ctxload (o : COps)
  /-- R409: The image is placed, or refused with a status, and the token completes. -/
  | contextLoadComplete (part ctx : Nat)
  /-- R412: Resumes a halted context, setting its time offset and acquiring for each group. -/
  | ctxrun (o : COps)
  /-- R354: Ends every grid of a context. -/
  | ctxkill (o : COps)
  /-- R356: Removes a context's translation for one page from every TLB. -/
  | tlbinv (o : COps)
  /-- R356: Removes every translation of a context. -/
  | tlbinvAll (o : COps)
  /-- R357: Resolves a record by letting the stopped group, fragment or engine issue again. -/
  | fltresReplay (o : COps)
  /-- R357: Resolves a record by ending its grid. -/
  | fltresEndGrid (o : COps)
  /-- R357: Resolves a record by killing its context. -/
  | fltresEndContext (o : COps)
  /-- R358: Reads one decode-table entry. -/
  | dtrd (o : COps)
  /-- R359: Loads 8 bytes at a physical address. -/
  | pld (o : COps)
  /-- R359: Stores 8 bytes at a physical address. -/
  | pst (o : COps)
  /-- R360: Makes a migration pending for a block. -/
  | migset (o : COps)
  /-- R360: Withdraws a pending migration for a block. -/
  | migclr (o : COps)
  /-- R361: Sends an MSI-X vector on the partition's host port. -/
  | evsig (o : COps)
  /-- R45: When every group waits at a mig or has left, the block moves to the other core kind. -/
  | blockMigration (blk : Nat)
  /-- R393: A pending migration is withdrawn when groups wait both at a mig and elsewhere. -/
  | migrationWithdrawal (blk : Nat)
  /-- R394: When a grid's resident blocks fall to TAILN, migration is made pending for its migratable blocks. -/
  | tailPolicy (grid : Nat)
  /-- R48: After 64 ready clocks with no issue, a group is raised above every rank. -/
  | starvationGuard (who : GroupRef)
  /-- R448: A host write to a queue doorbell moves TAIL forward, or is refused with a notice. -/
  | doorbellWrite (part queue : Nat) (v : W32)
  /-- R379: A LAUNCH packet taken from a queue creates its grid, or ends it with a launch error. -/
  | launchPacket (part queue : Nat)
  /-- R382: A WAIT packet holds its queue until the counter reaches the value. -/
  | waitPacket (part queue : Nat)
  /-- R379: A NOP packet is taken and does nothing. -/
  | nopPacket (part queue : Nat)
  /-- R382: The WAIT counter is read again after a counter update or every 10 us. -/
  | waitCounterRecheck (part queue : Nat)
  /-- R389: When core resources free, the dispatcher places the next block or cluster of the first-ranked grid. -/
  | blockDispatch (part : Nat)
  /-- R383: A grid whose blocks and children have retired publishes, writes its header, adds the counter and sends its interrupt. -/
  | gridCompletion (grid : Nat)
  /-- R116: An uncorrectable error in a resident block's on-chip storage kills the block or cluster. -/
  | blockKill (blk : Nat)
  /-- R115: An uncorrectable error invalidates a clean line or poisons a sector. -/
  | uncorrectableError (site : ErrSite)
  /-- R114: The patrol scrubber visits words and repairs corrected errors. -/
  | patrolScrub (site : ErrSite)
  /-- R347: A block none of whose groups has issued for the period raises a WATCHDOG fault. -/
  | watchdog (blk : Nat)
  /-- R430: At each period, a quadrant samples one resident user group and its reason. -/
  | stallSample (core quad : Nat)
  /-- R433: The sampled memory instruction's record is completed when its last lane returns. -/
  | memorySample (core : Nat)
  /-- R432: A local FIFO drains a record into its ring when there is room. -/
  | sampleFifoDrain (core quad : Nat) (mem : Bool)
  /-- R302: A host or peer reads or writes device memory in whole aligned words. -/
  | hostWindowAccess (acc : HostAccess)
  /-- R449: A flit lost beyond retry poisons the sector it carried. -/
  | peerFlitLoss (addr : Nat)
  /-- R450: Husk slews the time base toward the host's PTM time. -/
  | timeBaseSteer (ns : W64)
  /-- R452: Husk answers the SPDM GET_VERSION request. -/
  | getVersion
  /-- R452: Husk answers the SPDM GET_CAPABILITIES request. -/
  | getCapabilities
  /-- R452: Husk answers the SPDM NEGOTIATE_ALGORITHMS request. -/
  | negotiateAlgorithms
  /-- R452: Husk answers the SPDM GET_DIGESTS request. -/
  | getDigests
  /-- R452: Husk answers the SPDM GET_CERTIFICATE request. -/
  | getCertificate
  /-- R452: Husk answers the SPDM CHALLENGE request with both signatures. -/
  | challenge (nonce : List Byte)
  /-- R452: Husk returns the measurement registers, signed. -/
  | getMeasurements (nonce : List Byte)
  /-- R418: Mailbox command that takes a partition from IN_SERVICE to DRAINING. -/
  | drain (part : Nat)
  /-- R418: When no user context is left, a draining partition goes OFFLINE. -/
  | drainComplete (part : Nat)
  /-- R453: Mailbox command that applies a new verified configuration record to an offline partition. -/
  | reconfig (part : Nat) (record : Signed)
  /-- R419: Mailbox command that loads firmware and decode tables into an offline partition. -/
  | fwload (part : Nat) (image : Signed) (tables : Signed)
  /-- R420: Mailbox command that retires a D-core site and enables a spare through a new record. -/
  | spare (part : Nat) (record : Signed)
  /-- R418: Mailbox command that trains and launches the supervisor of an offline partition. -/
  | bringup (part : Nat) (boot : SupervisorBoot)
  /-- R454: Germ starts and bring-up runs its steps in order. -/
  | powerOn (boot : PowerOn)
  /-- R454: A supervisor that does not report ready within 10 s fails bring-up. -/
  | supervisorReadyTimeout (part : Nat)
  /-- R455: At 105 degrees C a die's clocks fall to half. -/
  | thermalThrottle (die temp : Nat)
  /-- R455: At 115 degrees C Husk powers the module down and sets FAIL 7. -/
  | thermalShutdown (temp : Nat)
  /-- R455: Husk lowers or raises a partition's clocks in 25 MHz steps to hold its power share. -/
  | powerLimitStep (part : Nat) (draw : Nat)
  /-- R456: Coolant flow below 4.0 L/min holds the module to 2,000 W. -/
  | coolantFlowLow (centilitres : Nat)
  /-- R418: The launched supervisor reports ready, taking its partition from BRINGUP to IN_SERVICE and bring-up to STEP 6. -/
  | supervisorReady (part : Nat)
  /-- R456: Coolant flow rises back to at least 4.0 L/min and Husk lifts the 2,000 W hold. -/
  | coolantFlowRestored (centilitres : Nat)
  deriving DecidableEq, Repr

end Sys2Proof
end

