-- ==== Sys2Proof/Machine/Flags.lean ====
section
/-!
DEFINITION. Number formats and exact arithmetic (R121 to R141): decoding, the one rounding of every operation, the
status flags of R133, the arithmetic of R201 to R209, the quantiser of R135 to R137.
-/

namespace Sys2Proof.Machine

/-- The float formats of R121 that arithmetic and conversions name. -/
inductive Flt where
  | f32 | f16 | bf16 | e4m3 | e5m2
  deriving DecidableEq, Repr

/-- Exponent bits, mantissa bits, width. -/
def Flt.ew : Flt → Nat | .f32 => 8 | .f16 => 5 | .bf16 => 8 | .e4m3 => 4 | .e5m2 => 5
def Flt.mw : Flt → Nat | .f32 => 23 | .f16 => 10 | .bf16 => 7 | .e4m3 => 3 | .e5m2 => 2
def Flt.bias (f : Flt) : Nat := 2 ^ (f.ew - 1) - 1
def Flt.width (f : Flt) : Nat := 1 + f.ew + f.mw

/-- The largest finite magnitude's encoding, without sign (R122). -/
def Flt.maxBits : Flt → Nat | .f32 => 0x7F7FFFFF | .f16 => 0x7BFF | .bf16 => 0x7F7F | .e4m3 => 0x7E | .e5m2 => 0x7B

/-- +∞ (R122); for E4M3, which has none, the positive NaN that R123 gives in its place. -/
def Flt.infBits : Flt → Nat | .f32 => 0x7F800000 | .f16 => 0x7C00 | .bf16 => 0x7F80 | .e4m3 => 0x7F | .e5m2 => 0x7C

/-- The default NaN (R123). -/
def Flt.nan : Flt → Nat | .f32 => 0x7FC00000 | .f16 => 0x7E00 | .bf16 => 0x7FC0 | .e4m3 => 0x7F | .e5m2 => 0x7E

/-- The sign bit in place. -/
def Flt.sgn (f : Flt) (neg : Bool) : Nat := if neg then 2 ^ (f.width - 1) else 0

/-- Rounding modes (R129). -/
inductive RM where
  | rne | rtz | rup | rdn
  deriving DecidableEq, Repr

def RM.of (x : Nat) : RM := match x % 4 with | 0 => .rne | 1 => .rtz | 2 => .rup | _ => .rdn

/-- Status flags of FPSTAT (R133). -/
abbrev Fl := BitVec 6
def NV : Fl := 1
def DZ : Fl := 2
def OF : Fl := 4
def UF : Fl := 8
def NX : Fl := 16
def SAT : Fl := 32

/-- A value: NaN with its sign, its payload left-aligned in 23 bits and whether it is signalling; ±∞; or
±m × 2^e. -/
inductive Num where
  | nan (neg : Bool) (pay : Nat) (snan : Bool)
  | inf (neg : Bool)
  | fin (neg : Bool) (m : Nat) (e : Int)
  deriving DecidableEq, Repr

def Num.isNan : Num → Bool | .nan _ _ _ => true | _ => false
def Num.isSnan : Num → Bool | .nan _ _ s => s | _ => false
def Num.isZero : Num → Bool | .fin _ m _ => m == 0 | _ => false
def Num.neg : Num → Bool | .nan s _ _ => s | .inf s => s | .fin s _ _ => s
def Num.flip : Num → Num | .nan s p q => .nan s p q | .inf s => .inf (!s) | .fin s m e => .fin (!s) m e

/-- The exact value of an encoding (R121, R122). -/
def Flt.decode (f : Flt) (x : Nat) : Num :=
  let s := x.testBit (f.width - 1)
  let e := bits x f.mw f.ew
  let m := x % 2 ^ f.mw
  if f = .e4m3 ∧ x % 128 = 127 then .nan s (2 ^ 22) false
  else if f ≠ .e4m3 ∧ e = 2 ^ f.ew - 1 then
    (if m = 0 then .inf s else .nan s (m * 2 ^ (23 - f.mw)) (!m.testBit (f.mw - 1)))
  else if e = 0 then .fin s m (1 - (f.bias : Int) - f.mw)
  else .fin s (2 ^ f.mw + m) ((e : Int) - f.bias - f.mw)

/-- A NaN converted without arithmetic (R123). -/
def Flt.nanOf (f : Flt) (neg : Bool) (pay : Nat) : Nat :=
  if f = .e4m3 then f.sgn neg + 0x7F
  else f.sgn neg + f.infBits + ((pay / 2 ^ (23 - f.mw)) ||| 2 ^ (f.mw - 1))

/-- The number of bits of a number below 2^2048. -/
def bitLen (m : Nat) : Nat := if m = 0 then 0 else Nat.log2 m + 1

/-- What an overflow gives (R130 step 4). -/
def Flt.overflow (f : Flt) (rm : RM) (sat neg : Bool) : Nat × Fl :=
  let toMax := match rm with | .rne => false | .rtz => true | .rup => neg | .rdn => !neg
  if sat ∧ (f = .e4m3 ∨ f = .e5m2) then (f.sgn neg + f.maxBits, OF ||| NX ||| SAT)
  else (f.sgn neg + (if toMax then f.maxBits else f.infBits), OF ||| NX)

/-- Whether a magnitude k + (rem + sticky) / 2^n is rounded up; `rem` is below 2^n. -/
def roundsUp (rm : RM) (neg : Bool) (k rem n : Nat) (sticky : Bool) : Bool :=
  let inexact := rem != 0 || sticky
  match rm with
  | .rtz => false
  | .rup => inexact && !neg
  | .rdn => inexact && neg
  | .rne =>
    if n = 0 then false
    else if rem > 2 ^ (n - 1) then true
    else if rem = 2 ^ (n - 1) then sticky || k % 2 == 1 else false

/-- `round_to` of R130 for ±(m × 2^e), where `sticky` says that the magnitude exceeds that by less than 2^e. -/
def Flt.roundFin (f : Flt) (rm : RM) (sat neg : Bool) (m : Nat) (e : Int) (sticky : Bool) : Nat × Fl :=
  if m = 0 ∧ ¬ sticky then (f.sgn neg, 0)
  else
    let ev : Int := (bitLen m : Int) - 1 + e
    let emin : Int := 1 - (f.bias : Int)
    let q : Int := (if ev < emin then emin else ev) - f.mw
    let n := (q - e).toNat
    let k := if q ≤ e then m * 2 ^ (e - q).toNat else m >>> n
    let rem := if q ≤ e then 0 else m % 2 ^ n
    let up := roundsUp rm neg k rem n sticky
    let k1 := if up then k + 1 else k
    let inexact := rem != 0 || sticky
    let code := ((q + f.mw + f.bias - 1).toNat * 2 ^ f.mw) + k1
    if f.maxBits < code then f.overflow rm sat neg
    else (f.sgn neg + code, (if inexact then NX else 0) ||| (if inexact && code < 2 ^ f.mw then UF else 0))

/-- `round_to(F, x, rm, sat)` (R130), a NaN handled as a conversion handles it (R123, R209). -/
def Flt.roundTo (f : Flt) (rm : RM) (sat : Bool) : Num → Nat × Fl
  | .nan s p q => (f.nanOf s p, if q then NV else 0)
  | .inf s =>
    if sat ∧ (f = .e4m3 ∨ f = .e5m2) then (f.sgn s + f.maxBits, SAT) else (f.sgn s + f.infBits, 0)
  | .fin s m e => f.roundFin rm sat s m e false

/-- `round_rne` (R130). -/
def Flt.rne (f : Flt) (x : Num) : Nat := (f.roundTo .rne true x).1

/-! ### Exact sums -/

/-- A signed dyadic: value × 2^e. -/
def Num.int (x : Num) (e0 : Int) : Int :=
  match x with
  | .fin s m e => let v : Int := m * 2 ^ (e - e0).toNat; if s then -v else v
  | _ => 0

def Num.exp : Num → Int
  | .fin _ m e => if m = 0 then 4000 else e
  | _ => 4000

/-- The exact sum of finite values, with the sign an exact zero takes. -/
def sumFin (l : List Num) (zeroNeg : Bool) : Num :=
  let e0 := l.foldl (fun a x => if x.exp < a then x.exp else a) 4000
  let v := l.foldl (fun (a : Int) x => a + x.int e0) 0
  if v = 0 then .fin zeroNeg 0 0 else .fin (v < 0) v.natAbs e0

/-- A result that is the default NaN with NV. -/
def Flt.invalid (f : Flt) : Nat × Fl := (f.nan, NV)

/-- The flag a NaN operand raises when signalling. -/
def snanFl (l : List Num) : Fl := if l.any Num.isSnan then NV else 0

/-- The sum of two values (R201, R202). -/
def Flt.add (f : Flt) (rm : RM) (a b : Num) : Nat × Fl :=
  if a.isNan || b.isNan then (f.nan, snanFl [a, b])
  else match a, b with
    | .inf s, .inf t => if s = t then (f.sgn s + f.infBits, 0) else f.invalid
    | .inf s, _ => (f.sgn s + f.infBits, 0)
    | _, .inf t => (f.sgn t + f.infBits, 0)
    | x, y => f.roundTo rm false (sumFin [x, y] (if x.neg = y.neg then x.neg else rm = .rdn))

/-- The exact product of two values that are not NaN; none for 0 × ∞. -/
def mulExact (a b : Num) : Option Num :=
  match a, b with
  | .inf s, y => if y.isZero then none else some (.inf (s != y.neg))
  | x, .inf t => if x.isZero then none else some (.inf (x.neg != t))
  | .fin s m e, .fin t n d => some (.fin (s != t) (m * n) (e + d))
  | x, _ => some x

def Flt.mul (f : Flt) (rm : RM) (a b : Num) : Nat × Fl :=
  if a.isNan || b.isNan then (f.nan, snanFl [a, b])
  else match mulExact a b with | none => f.invalid | some p => f.roundTo rm false p

def Flt.fma (f : Flt) (rm : RM) (a b c : Num) : Nat × Fl :=
  let ab := if a.isNan || b.isNan then some (Num.fin false 0 0) else mulExact a b
  match ab with
  | none => f.invalid
  | some p => if a.isNan || b.isNan || c.isNan then (f.nan, snanFl [a, b, c]) else f.add rm p c

/-- a ÷ b (R201, R202). -/
def Flt.div (f : Flt) (rm : RM) (a b : Num) : Nat × Fl :=
  if a.isNan || b.isNan then (f.nan, snanFl [a, b])
  else match a, b with
    | .inf _, .inf _ => f.invalid
    | .inf s, y => (f.sgn (s != y.neg) + f.infBits, 0)
    | x, .inf t => (f.sgn (x.neg != t), 0)
    | .fin s m e, .fin t n d =>
      if n = 0 then (if m = 0 then f.invalid else (f.sgn (s != t) + f.infBits, DZ))
      else if m = 0 then (f.sgn (s != t), 0)
      else f.roundFin rm false (s != t) ((m * 2 ^ 64) / n) (e - d - 64) ((m * 2 ^ 64) % n != 0)
    | x, _ => f.roundTo rm false x

/-- The integer square root of a number below 4^(n+1), bit by bit: the candidate `r` gains bit i when its square still
fits. -/
def isqrtBits (x : Nat) : Nat → Nat → Nat
  | 0, r => if (r + 1) * (r + 1) ≤ x then r + 1 else r
  | n + 1, r => isqrtBits x n (if (r + 2 ^ (n + 1)) * (r + 2 ^ (n + 1)) ≤ x then r + 2 ^ (n + 1) else r)

def isqrt (x : Nat) : Nat := isqrtBits x (bitLen x / 2 + 1) 0

/-- √a: the mantissa is made even-exponent and widened (R201, R202). -/
def Flt.sqrt (f : Flt) (rm : RM) (a : Num) : Nat × Fl :=
  match a with
  | .nan _ _ q => (f.nan, if q then NV else 0)
  | .inf s => if s then f.invalid else (f.infBits, 0)
  | .fin s m e =>
    if m = 0 then (f.sgn s, 0)
    else if s then f.invalid
    else
      let (m1, e1) := if e % 2 = 0 then (m, e) else (2 * m, e - 1)
      let x := m1 * 2 ^ 64
      let r := isqrt x
      f.roundFin rm false false r ((e1 - 64) / 2) (r * r != x)

/-- 1 ÷ √a, rounded once (R201, R202). -/
def Flt.rsqrt (f : Flt) (rm : RM) (a : Num) : Nat × Fl :=
  match a with
  | .nan _ _ q => (f.nan, if q then NV else 0)
  | .inf s => if s then f.invalid else (0, 0)
  | .fin s m e =>
    if m = 0 then (f.sgn s + f.infBits, DZ)
    else if s then f.invalid
    else
      let (m1, e1) := if e % 2 = 0 then (m, e) else (2 * m, e - 1)
      let r := isqrt (2 ^ 128 / m1)
      f.roundFin rm false false r (-(e1 / 2) - 64) (r * r * m1 != 2 ^ 128)

def Flt.one (f : Flt) : Num := f.decode (f.bias * 2 ^ f.mw)

def Flt.rcp (f : Flt) (rm : RM) (a : Num) : Nat × Fl := f.div rm f.one a

/-! ### Comparison, minimum, maximum -/

/-- Order of two values that are not NaN: less, equal (−0 equals +0), greater. -/
def Num.cmp (a b : Num) : Ordering :=
  match a, b with
  | .inf s, .inf t => if s = t then .eq else if s then .lt else .gt
  | .inf s, _ => if s then .lt else .gt
  | _, .inf t => if t then .gt else .lt
  | x, y =>
    let e0 := if x.exp ≤ y.exp then x.exp else y.exp
    compare (x.int e0) (y.int e0)

def Num.lt (a b : Num) : Bool := a.cmp b == .lt

/-- minimumNumber and maximumNumber on encodings (R203): −0 counts as below +0. -/
def Flt.minmax (f : Flt) (isMax : Bool) (x y : Nat) : Nat × Fl :=
  let a := f.decode x
  let b := f.decode y
  let fl := snanFl [a, b]
  match a.isNan, b.isNan with
  | true, true => (f.nan, fl)
  | true, false => (y, fl)
  | false, true => (x, fl)
  | false, false =>
    let below := a.lt b || (a.isZero && b.isZero && a.neg && !b.neg)
    (if isMax then (if below then y else x) else (if below then x else y), 0)

/-- The float compare (R206). -/
def Flt.compare (f : Flt) (cc : FCond) (x y : Nat) : Bool × Fl :=
  let a := f.decode x
  let b := f.decode y
  if a.isNan || b.isNan then
    (match cc with | .ne | .un => true | _ => false,
     match cc with | .eq | .ne | .un => snanFl [a, b] | _ => NV)
  else
    let o := a.cmp b
    (match cc with
     | .eq => o == .eq
     | .ne => o != .eq
     | .lt => o == .lt
     | .le => o != .gt
     | .gt => o == .gt
     | .ge => o != .lt
     | .un => false, 0)

/-! ### Transcendental functions (R204): fixed point with 448 fraction bits, rounded once -/

def fx : Nat := 448

/-- ⌊π/2 × 2^448⌋. -/
def halfPi : Nat := 1141715598295827886284146596318906581494752591100903810227730751823731837176045890474041405000406875230839359923319856739557922844846190

/-- ⌊ln 2 × 2^448⌋. -/
def ln2 : Nat := 503806212467287336944962318911413164331589999686332526750892113008874715004345470044877937781258350830018788825857087812047298226561348

/-- 1 + t + t²/2! + … , t below 1: `term` is the k-th term. -/
def expSeries (t : Nat) : Nat → Nat → Nat → Nat → Nat
  | 0, _, _, acc => acc
  | n + 1, k, term, acc =>
    let t1 := (term * t) / ((k + 1) * 2 ^ fx)
    expSeries t n (k + 1) t1 (acc + t1)

/-- e^t for t in [0, 1). -/
def fxExp (t : Nat) : Nat := expSeries t 130 0 (2 ^ fx) (2 ^ fx)

/-- Σ z^(2k+1)/(2k+1) for z below 1/3. -/
def atanhSeries (z2 : Nat) : Nat → Nat → Nat → Nat → Nat
  | 0, _, _, acc => acc
  | n + 1, k, p, acc => atanhSeries z2 n (k + 1) ((p * z2) / 2 ^ fx) (acc + p / (2 * k + 1))

/-- ln m for m in [1, 2). -/
def fxLn (m : Nat) : Nat :=
  let z := ((m - 2 ^ fx) * 2 ^ fx) / (m + 2 ^ fx)
  2 * atanhSeries ((z * z) / 2 ^ fx) 150 0 z 0

/-- The alternating series of sine (first term r, k = 1) and cosine (first term 1, k = 0). -/
def trigSeries (r2 : Nat) : Nat → Nat → Nat → Bool → Int → Int
  | 0, _, _, _, acc => acc
  | n + 1, k, term, neg, acc =>
    let acc1 := if neg then acc - term else acc + term
    trigSeries r2 n (k + 2) ((term * r2) / (2 ^ fx * ((k + 1) * (k + 2)))) (!neg) acc1

def fxSin (r : Nat) : Int := trigSeries ((r * r) / 2 ^ fx) 70 1 r false 0
def fxCos (r : Nat) : Int := trigSeries ((r * r) / 2 ^ fx) 70 0 (2 ^ fx) false 0

/-- A magnitude m × 2^e in fixed point; e may be as low as −448. -/
def toFx (m : Nat) (e : Int) : Nat := m * 2 ^ (e + fx).toNat

/-- Round a fixed-point magnitude that is not exact. -/
def Flt.roundFx (f : Flt) (rm : RM) (neg : Bool) (v : Nat) (e : Int) : Nat × Fl := f.roundFin rm false neg v (e - fx) true

/-- Magnitude bound: m × 2^e is below 2^b. -/
def below (m : Nat) (e b : Int) : Bool := decide ((bitLen m : Int) + e ≤ b)

/-- Base-2 exponential: 2^x = 2^n × e^(f ln 2), n the floor of x. -/
def Flt.exp2 (f : Flt) (rm : RM) (a : Num) : Nat × Fl :=
  match a with
  | .nan _ _ q => (f.nan, if q then NV else 0)
  | .inf s => if s then (0, 0) else (f.infBits, 0)
  | .fin s m e =>
    if m = 0 then f.roundFin rm false false 1 0 false
    else if !below m e 12 then (if s then f.roundFin rm false false 1 (-4000) true else f.roundFin rm false false 1 4000 true)
    else
      let v : Int := if s then -(toFx m e : Int) else toFx m e
      let n := v / 2 ^ fx
      let t := (v % 2 ^ fx).toNat
      if t = 0 then f.roundFin rm false false 1 n false
      else f.roundFx rm false (fxExp ((t * ln2) / 2 ^ fx)) n

/-- Base-2 logarithm. -/
def Flt.log2 (f : Flt) (rm : RM) (a : Num) : Nat × Fl :=
  match a with
  | .nan _ _ q => (f.nan, if q then NV else 0)
  | .inf s => if s then f.invalid else (f.infBits, 0)
  | .fin s m e =>
    if m = 0 then (f.sgn true + f.infBits, DZ)
    else if s then f.invalid
    else
      let n : Int := (bitLen m : Int) - 1 + e
      let y := m * 2 ^ (fx - (bitLen m - 1))
      if y = 2 ^ fx then f.roundFin rm false (n < 0) n.natAbs 0 false
      else
        let v : Int := n * 2 ^ fx + ((fxLn y * 2 ^ fx) / ln2 : Nat)
        if v < 0 then f.roundFx rm true (v.natAbs - 1) 0 else f.roundFx rm false v.toNat 0

/-- x less a little: x × (1 − 2^−64 or less), for functions that lie just below their argument. -/
def Flt.justBelow (f : Flt) (rm : RM) (neg : Bool) (m : Nat) (e : Int) : Nat × Fl :=
  f.roundFin rm false neg (m * 2 ^ 64 - 1) (e - 64) true

/-- The quadrant and the remainder of |x| by π/2, exactly reduced (R204). -/
def reduce (m : Nat) (e : Int) : Nat × Nat := ((toFx m e) / halfPi, (toFx m e) % halfPi)

/-- Sine and cosine of a nonzero finite argument by quadrant. -/
def Flt.trig (f : Flt) (rm : RM) (s : Bool) (m : Nat) (e : Int) (cosine : Bool) : Nat × Fl :=
  let (k, r) := reduce m e
  let j := (k + b2n cosine) % 4
  let v := if j % 2 = 0 then fxSin r else fxCos r
  let neg := (decide (2 ≤ j)) != (s && !cosine)
  if v < 0 then f.roundFx rm (!neg) v.natAbs 0 else f.roundFx rm neg v.toNat 0

def Flt.sin (f : Flt) (rm : RM) (a : Num) : Nat × Fl :=
  match a with
  | .nan _ _ q => (f.nan, if q then NV else 0)
  | .inf _ => f.invalid
  | .fin s m e =>
    if m = 0 then (f.sgn s, 0)
    else if below m e (-60) then f.justBelow rm s m e
    else f.trig rm s m e false

def Flt.cos (f : Flt) (rm : RM) (a : Num) : Nat × Fl :=
  match a with
  | .nan _ _ q => (f.nan, if q then NV else 0)
  | .inf _ => f.invalid
  | .fin s m e =>
    if m = 0 then f.roundFin rm false false 1 0 false
    else if below m e (-60) then f.justBelow rm false 1 0
    else f.trig rm s m e true

/-- tanh x = (E − 1) ÷ (E + 1) with E = e^(2|x|) = 2^n × e^r. -/
def Flt.tanh (f : Flt) (rm : RM) (a : Num) : Nat × Fl :=
  match a with
  | .nan _ _ q => (f.nan, if q then NV else 0)
  | .inf s => f.roundFin rm false s 1 0 false
  | .fin s m e =>
    if m = 0 then (f.sgn s, 0)
    else if below m e (-60) then f.justBelow rm s m e
    else if !below m e 6 then f.justBelow rm s 1 0
    else
      let t := toFx (2 * m) e
      let n := t / ln2
      let x := fxExp (t % ln2) * 2 ^ n
      f.roundFx rm s (((x - 2 ^ fx) * 2 ^ fx) / (x + 2 ^ fx)) 0

/-! ### Conversions (R131, R207 to R209) -/

/-- The integer a finite value rounds to, and whether it is inexact. -/
def roundInt (rm : RM) (s : Bool) (m : Nat) (e : Int) : Int × Bool :=
  let n := (-e).toNat
  let k := if 0 ≤ e then m * 2 ^ e.toNat else m >>> n
  let rem := if 0 ≤ e then 0 else m % 2 ^ n
  let k1 := if roundsUp rm s k rem (if 0 ≤ e then 0 else n) false then k + 1 else k
  (if s then -(k1 : Int) else k1, rem != 0)

/-- Saturate to a w-bit integer; the bounds, and whether it clamped. -/
def clampInt (signed : Bool) (w : Nat) (v : Int) : Int × Bool :=
  let lo : Int := if signed then -(2 ^ (w - 1) : Nat) else 0
  let hi : Int := if signed then (2 ^ (w - 1) : Nat) - 1 else (2 ^ w : Nat) - 1
  if v < lo then (lo, true) else if hi < v then (hi, true) else (v, false)

/-- The low n bits of an integer. -/
def intBits (v : Int) (n : Nat) : Nat := (v % (2 ^ n : Nat)).toNat

/-- Float to integer (R131, R209). -/
def toInt (signed : Bool) (w : Nat) (rm : RM) (x : Num) : Int × Fl :=
  match x with
  | .nan _ _ _ => (0, NV)
  | .inf s => ((clampInt signed w (if s then -(2 ^ 70 : Nat) else (2 ^ 70 : Nat))).1, NV ||| SAT)
  | .fin s m e =>
    let (v, inx) := roundInt rm s m e
    let (c, sat) := clampInt signed w v
    (c, if sat then NV ||| SAT else if inx then NX else 0)

/-- An integer as an exact value. -/
def ofInt (v : Int) : Num := .fin (v < 0) v.natAbs 0

/-- The format a float type code names (R148). -/
def fltOf : Nat → Option Flt
  | 8 => some .f32
  | 9 => some .f16
  | 10 => some .bf16
  | 11 => some .e4m3
  | 12 => some .e5m2
  | _ => none

/-- Sign and width of an integer type code (R148). -/
def intOf (t : Nat) : Option (Bool × Nat) := if t < 8 then some (t < 4, 8 * 2 ^ (t % 4)) else none

/-- `cvt` on one value: the source's bits as read, the destination's bits as written (R208, R209). A float type converted to
itself saturates nothing. -/
def cvtOne (dt st : Nat) (rm : RM) (nosat : Bool) (x : Nat) : Nat × Fl :=
  let src : Num ⊕ Int :=
    match fltOf st, intOf st with
    | some f, _ => .inl (f.decode (x % 2 ^ f.width))
    | _, some (sg, w) => .inr (if sg then sextI x w else ((x % 2 ^ w : Nat) : Int))
    | _, _ => .inr (1 - 2 * (x % 2 : Nat))
  match src, fltOf dt, intOf dt with
  | .inl v, some f, _ => f.roundTo rm (!nosat && dt != st && (f = .e4m3 || f = .e5m2)) v
  | .inl v, _, some (sg, w) => let (c, fl) := toInt sg w rm v; (intBits c (if w = 64 then 64 else 32), fl)
  | .inl v, _, _ => (if v.isNan || v.isZero then 0 else b2n v.neg, if v.isSnan then NV else 0)
  | .inr v, some f, _ => f.roundTo rm (!nosat && (f = .e4m3 || f = .e5m2)) (ofInt v)
  | .inr v, _, some (sg, w) =>
    let (c, sat) := clampInt sg w v
    (intBits c (if w = 64 then 64 else 32), if sat then NV ||| SAT else 0)
  | .inr v, _, _ => (b2n (v < 0), 0)

/-! ### E2M1S (R124 to R127) and the quantiser (R135 to R137) -/

/-- Twice the magnitude of an E2M1 code. -/
def e2m1Twice (c : Nat) : Nat := match c % 8 with | 0 => 0 | 1 => 1 | 2 => 2 | 3 => 3 | 4 => 4 | 5 => 6 | 6 => 8 | _ => 12

/-- The value of an ordinary code before scaling. -/
def e2m1Num (c : Nat) : Num := .fin (decide (8 ≤ c) && c != 8) (e2m1Twice c) (-1)

/-- `decode_e2m1s` (R126). A product with a special that is NaN is the default NaN, for every reader (R123; DESIGN CHOICE, notes/assumptions/67.md). -/
def decodeE2m1s (code scale special : Nat) : Num :=
  if scale = 0xFF then .nan false (2 ^ 22) false
  else
    let v := if code = 8 then Flt.e4m3.decode special else e2m1Num code
    match v with
    | .fin s m e => .fin s m (e + scale - 127)
    | _ => .nan false (2 ^ 22) false

/-- The block index of an element in variable-block storage, from the boundary bits of the chunks up to its own, chunk
0 first (R104): a set bit, or eight chunks without one, starts a block. `run` counts chunks since the last start. -/
def blockIndex (bit : Nat → Bool) : Nat → Nat → Nat → Nat → Nat
  | 0, _, _, blk => blk
  | n + 1, c, run, blk =>
    if c = 0 then blockIndex bit n 1 1 0
    else if bit c || run == 8 then blockIndex bit n (c + 1) 1 (blk + 1)
    else blockIndex bit n (c + 1) (run + 1) blk

/-- The magnitude of a binary32 encoding as a comparable number; ∞ and NaN alike are the largest (R135). -/
def mag32 (x : Nat) : Nat := if 0x7F800000 ≤ x % 2 ^ 31 then 0x7F800000 else x % 2 ^ 31

/-- ⌊log2⌋ of a nonzero magnitude; 128 for +∞ (R135). -/
def ex32 (m : Nat) : Int :=
  if m = 0x7F800000 then 128 else if m < 2 ^ 23 then (bitLen m : Int) - 150 else (m / 2 ^ 23 : Nat) - 127

def maxList (l : List Nat) : Nat := l.foldl max 0

/-- The chunk sizes of variable blocks (R135): chunks' maxima in order, the open block's length in chunks and its
maximum; gives the bitmap bits. -/
def splitChunks (t : Nat) : List Nat → Bool → Nat → Nat → List Bool
  | [], _, _, _ => []
  | c :: cs, first, len, mx =>
    let split := !first && (len == 8 || (0 < mx && 0 < c && decide ((t : Int) < |ex32 c - ex32 mx|)))
    if first || split then true :: splitChunks t cs false 1 c
    else false :: splitChunks t cs false (len + 1) (max mx c)

/-- |y − v| of two finite values, as a finite value. -/
def dist (y v : Num) : Num := match sumFin [y, v.flip] false with | .fin _ m e => .fin false m e | x => x

/-- `nearest_ordinary` (R137): of the eight magnitudes, the nearest, an even code on a tie. -/
def nearestE2m1 (y : Num) : Nat :=
  let a := match y with | .fin _ m e => Num.fin false m e | x => x
  let best := [1, 2, 3, 4, 5, 6, 7].foldl (fun (b : Nat) c =>
    let d0 := dist a (e2m1Num b)
    let d1 := dist a (e2m1Num c)
    if d1.lt d0 then c else if d0.lt d1 then b else if c % 2 = 0 then c else b) 0
  if best = 0 then 0 else if y.neg then best + 8 else best

/-- A finite magnitude. -/
def Num.mag : Num → Num | .fin _ m e => .fin false m e | .inf _ => .inf false | x => x

/-- `encode_block` (R136) on exact values: scale, special, codes, flags. Values beyond binary32 can give a scale above
254. -/
def encodeNums (xs : List Num) : Nat × Nat × List Nat × Fl :=
  if xs.any (fun x => match x with | .fin _ _ _ => false | _ => true) then (0xFF, 0, xs.map (fun _ => 0), NV)
  else if xs.all Num.isZero then (0x7F, 0, xs.map (fun _ => 0), 0)
  else
    let m := xs.foldl (fun (a : Num) x => if a.lt x.mag then x.mag else a) (.fin false 0 0)
    let ex : Int := match m with | .fin _ a d => (bitLen a : Int) - 1 + d | _ => 0
    let e : Int := if ex - 2 < -127 then -127 else ex - 2
    let ys := xs.map (fun x => match x with | .fin s a d => Num.fin s a (d - e) | v => v)
    let qs := ys.map nearestE2m1
    let errs := (ys.zip qs).map (fun p => dist p.1 (e2m1Num p.2))
    let worst := (ys.zip errs).foldl (fun (b : Option (Num × Num)) p => match b with
      | none => some p
      | some q => if q.2.lt p.2 then some p else some q) none
    let special := match worst with
      | some (y, d) => if d.isZero then 0 else Flt.e4m3.rne y
      | none => 0
    let sv := Flt.e4m3.decode special
    let codes := (ys.zip (qs.zip errs)).map (fun p => if (dist p.1 sv).lt p.2.2 then 8 else p.2.1)
    let val := fun (c : Nat) => match (if c = 8 then sv else e2m1Num c) with | .fin s a d => Num.fin s a (d + e) | v => v
    let inx := (xs.zip codes).any (fun p => (val p.2).cmp p.1 != .eq)
    ((e + 127).toNat, special, codes, if inx then NX else 0)

/-- `encode_block` on binary32 encodings. -/
def encodeBlock (xs : List Nat) : Nat × Nat × List Nat × Fl := encodeNums (xs.map Flt.f32.decode)

end Sys2Proof.Machine
end

