-- ==== Sys2Proof/Config.lean ====
section
/-!
DEFINITION. What an implementation fixes, and the values the spec leaves open. An opaque constant has no body here:
nothing can be proved of its value.
-/

namespace Sys2Proof.Config

/-- A value the spec leaves open, by the counter `State.free` (DESIGN CHOICE, notes/assumptions/5.md). -/
opaque freeValue : Nat → BitVec 32

/-- Whether an RSASSA-PSS signature with RSA-3072 and SHA-384 over a digest verifies (R451; DESIGN CHOICE, notes/assumptions/9.md). -/
opaque rsaOk : List Byte → List Byte → Bool

/-- Whether an SLH-DSA-SHA2-192s signature over a digest verifies (R451; DESIGN CHOICE, notes/assumptions/9.md). -/
opaque slhOk : List Byte → List Byte → Bool

/-- Husk's two signatures over a transcript hash (R452; PRESUMED, notes/assumptions/10.md). -/
opaque rsaSign : List Byte → List Byte
opaque slhSign : List Byte → List Byte

/-- The peer port, 0 to 15, that a configuration record gives a partition for a peer node (R449; DESIGN CHOICE,
notes/assumptions/21.md). -/
opaque peerPort : List (BitVec 64) → Nat → Nat → Option Nat

/-- The bus address that an address beyond a partition's memory has behind a host port: none where no host aperture lies there
(R359; DESIGN CHOICE, notes/assumptions/51.md). -/
opaque hostBus : Nat → Nat → Option Nat

/-- The bytes of HBM of one stack: 120 GB (R5, R6). -/
def stackBytes : Nat := 120000000000

end Sys2Proof.Config
end

