-- ==== Sys2Proof/Machine/Encoding.lean ====
section
/-!
DEFINITION. The opcode map (R156), the operand classes (R145), and the checks of steps 3 and 4 of decode (R158) with
their UCODEs (R159).
-/

namespace Sys2Proof

/-- The number of a condition, operation, scope or mode in its SUB field (R156). -/
def ICond.subCode : ICond → Nat
  | .eq => 0
  | .ne => 1
  | .lt => 2
  | .le => 3
  | .gt => 4
  | .ge => 5
def ZCond.subCode : ZCond → Nat
  | .z => 0
  | .nz => 1
  | .lt => 2
  | .ge => 3
  | .gt => 4
  | .le => 5
def FCond.subCode : FCond → Nat
  | .eq => 0
  | .ne => 1
  | .lt => 2
  | .le => 3
  | .gt => 4
  | .ge => 5
  | .un => 6
def PackOp.subCode : PackOp → Nat
  | .add => 0
  | .sub => 1
  | .mul => 2
  | .fma => 3
  | .min => 4
  | .max => 5
  | .abs => 6
  | .neg => 7
def Scope.subCode : Scope → Nat
  | .blk => 0
  | .clu => 1
  | .dev => 2
  | .sys => 3
def MmaMode.subCode : MmaMode → Nat
  | .numeric => 0
  | .xor => 4
  | .land => 8

/-- OP and SUB of an instruction (R156); none for an event. -/
def Instr.opSub : Instr → Option (Nat × Nat)
  | .nop _ => some (0x00, 0)
  | .brR _ => some (0x00, 3)
  | .callR _ => some (0x00, 4)
  | .ret _ => some (0x00, 5)
  | .exit _ => some (0x00, 6)
  | .trap _ => some (0x00, 7)
  | .tret _ => some (0x00, 8)
  | .sleep _ => some (0x00, 9)
  | .mark _ => some (0x00, 10)
  | .mig _ => some (0x00, 11)
  | .migReq _ => some (0x00, 12)
  | .brk _ => some (0x00, 13)
  | .scalarAdd _ => some (0x10, 0)
  | .scalarSub _ => some (0x10, 1)
  | .scalarMul _ => some (0x10, 2)
  | .scalarMulh _ => some (0x10, 3)
  | .scalarDiv _ => some (0x10, 4)
  | .scalarRem _ => some (0x10, 5)
  | .scalarAnd _ => some (0x10, 6)
  | .scalarOr _ => some (0x10, 7)
  | .scalarXor _ => some (0x10, 8)
  | .scalarShl _ => some (0x10, 9)
  | .scalarShr _ => some (0x10, 10)
  | .scalarMin _ => some (0x10, 11)
  | .scalarMax _ => some (0x10, 12)
  | .scalarClz _ => some (0x10, 13)
  | .scalarPopc _ => some (0x10, 14)
  | .scalarNot _ => some (0x10, 15)
  | .scalarCmp k _ => some (0x11, k.subCode)
  | .scalarMov _ => some (0x12, 0)
  | .li _ => some (0x12, 1)
  | .lea _ => some (0x12, 2)
  | .scalarBfx _ => some (0x12, 3)
  | .scalarBfi _ => some (0x12, 4)
  | .scalarSel _ => some (0x12, 5)
  | .sread _ => some (0x13, 0)
  | .swrite _ => some (0x13, 1)
  | .swriteRole _ => some (0x13, 1)
  | .swriteFpstat _ => some (0x13, 1)
  | .swriteWinfmt _ => some (0x13, 1)
  | .swriteTrappc _ => some (0x13, 1)
  | .swriteFqctl _ => some (0x13, 1)
  | .swriteFqhead _ => some (0x13, 1)
  | .swriteWdog _ => some (0x13, 1)
  | .swriteRingCtl _ => some (0x13, 1)
  | .swriteRingHead _ => some (0x13, 1)
  | .swriteTrfilt _ => some (0x13, 1)
  | .laneAdd _ => some (0x30, 0)
  | .laneSub _ => some (0x30, 1)
  | .laneMul _ => some (0x30, 2)
  | .laneMulh _ => some (0x30, 3)
  | .laneAnd _ => some (0x30, 4)
  | .laneOr _ => some (0x30, 5)
  | .laneXor _ => some (0x30, 6)
  | .laneShl _ => some (0x30, 7)
  | .laneShr _ => some (0x30, 8)
  | .laneMin _ => some (0x30, 9)
  | .laneMax _ => some (0x30, 10)
  | .laneClz _ => some (0x30, 11)
  | .lanePopc _ => some (0x30, 12)
  | .mad _ => some (0x31, 0)
  | .laneSel _ => some (0x31, 1)
  | .laneBfx _ => some (0x31, 2)
  | .laneBfi _ => some (0x31, 3)
  | .laneMov _ => some (0x31, 4)
  | .laneCmp k _ => some (0x32, k.subCode)
  | .shfl _ => some (0x33, 0)
  | .shflUp _ => some (0x33, 1)
  | .shflDn _ => some (0x33, 2)
  | .shflX _ => some (0x33, 3)
  | .voteAll _ => some (0x34, 0)
  | .voteAny _ => some (0x34, 1)
  | .ballot _ => some (0x34, 2)
  | .laneMatch _ => some (0x34, 3)
  | .scanAdd _ => some (0x35, 0)
  | .scanMax _ => some (0x35, 1)
  | .redAdd _ => some (0x35, 2)
  | .redMin _ => some (0x35, 3)
  | .redMax _ => some (0x35, 4)
  | .redOr _ => some (0x35, 5)
  | .kand _ => some (0x36, 0)
  | .kor _ => some (0x36, 1)
  | .kxor _ => some (0x36, 2)
  | .kandn _ => some (0x36, 3)
  | .kset _ => some (0x36, 4)
  | .kget _ => some (0x36, 5)
  | .addF32 _ => some (0x60, 0)
  | .subF32 _ => some (0x60, 1)
  | .mulF32 _ => some (0x60, 2)
  | .fmaF32 _ => some (0x60, 3)
  | .minF32 _ => some (0x60, 4)
  | .maxF32 _ => some (0x60, 5)
  | .absF32 _ => some (0x60, 6)
  | .negF32 _ => some (0x60, 7)
  | .divF32 _ => some (0x60, 8)
  | .sqrtF32 _ => some (0x60, 9)
  | .rcpF32 _ => some (0x60, 10)
  | .rsqrtF32 _ => some (0x60, 11)
  | .exp2F32 _ => some (0x61, 0)
  | .log2F32 _ => some (0x61, 1)
  | .sinF32 _ => some (0x61, 2)
  | .cosF32 _ => some (0x61, 3)
  | .tanhF32 _ => some (0x61, 4)
  | .packedF16Arith k _ => some (0x62, k.subCode)
  | .packedBf16Arith k _ => some (0x63, k.subCode)
  | .floatCmp k _ => some (0x64, k.subCode)
  | .cvt _ => some (0x65, 0)
  | .fence k _ => some (0x84, k.subCode)
  | .barArrive _ => some (0xA0, 0)
  | .barWait _ => some (0xA0, 1)
  | .barSync _ => some (0xA0, 2)
  | .barExpect _ => some (0xA0, 3)
  | .spawn _ => some (0xA1, 0)
  | .leave _ => some (0xA1, 1)
  | .role _ => some (0xA1, 2)
  | .vgrow _ => some (0xA1, 3)
  | .vshrink _ => some (0xA1, 4)
  | .wait _ => some (0xA2, 0)
  | .waitY _ => some (0xA2, 1)
  | .launch _ => some (0xA3, 0)
  | .launchR _ => some (0xA3, 1)
  | .xquant _ => some (0xC0, 0)
  | .xdequant _ => some (0xC0, 1)
  | .xpack _ => some (0xC0, 2)
  | .xunpack _ => some (0xC0, 3)
  | .xconv _ => some (0xC0, 4)
  | .accz _ => some (0xCA, 0)
  | .accld _ => some (0xCA, 1)
  | .accst _ => some (0xCA, 2)
  | .accmax _ => some (0xCA, 3)
  | .accsum _ => some (0xCA, 4)
  | .accexp _ => some (0xCA, 5)
  | .accscl _ => some (0xCA, 6)
  | .acccvt _ => some (0xCA, 7)
  | .sgpack _ => some (0xE8, 0)
  | .sgsel _ => some (0xE8, 1)
  | .sgcnt _ => some (0xE8, 2)
  | .ctxhalt _ => some (0xF0, 0)
  | .ctxsave _ => some (0xF0, 1)
  | .ctxload _ => some (0xF0, 2)
  | .ctxrun _ => some (0xF0, 3)
  | .ctxkill _ => some (0xF0, 4)
  | .tlbinv _ => some (0xF1, 0)
  | .tlbinvAll _ => some (0xF1, 1)
  | .fltresReplay _ => some (0xF2, 0)
  | .fltresEndGrid _ => some (0xF2, 0)
  | .fltresEndContext _ => some (0xF2, 0)
  | .dtrd _ => some (0xF3, 0)
  | .pld _ => some (0xF4, 0)
  | .pst _ => some (0xF4, 1)
  | .migset _ => some (0xF5, 0)
  | .migclr _ => some (0xF5, 1)
  | .evsig _ => some (0xF6, 0)
  | .br _ => some (0x00, 1)
  | .call _ => some (0x00, 2)
  | .brc k _ => some (0x01, k.subCode)
  | .brv _ => some (0x02, 0)
  | .brvN _ => some (0x02, 1)
  | .scalarLd _ => some (0x14, 0)
  | .scalarSt _ => some (0x14, 1)
  | .ldG _ => some (0x80, 0)
  | .stG _ => some (0x80, 1)
  | .ldS _ => some (0x80, 2)
  | .stS _ => some (0x80, 3)
  | .ldP _ => some (0x80, 4)
  | .stP _ => some (0x80, 5)
  | .stM _ => some (0x80, 6)
  | .cpy16 _ => some (0x81, 0)
  | .cpy16Out _ => some (0x81, 1)
  | .atomAdd _ => some (0x82, 0)
  | .atomMin _ => some (0x82, 1)
  | .atomMax _ => some (0x82, 2)
  | .atomAnd _ => some (0x82, 3)
  | .atomOr _ => some (0x82, 4)
  | .atomXor _ => some (0x82, 5)
  | .atomXchg _ => some (0x83, 0)
  | .atomCas _ => some (0x83, 1)
  | .tld _ => some (0xB0, 0)
  | .tst _ => some (0xB0, 1)
  | .tsetBase _ => some (0xB0, 2)
  | .tsetFill _ => some (0xB0, 2)
  | .tsetExt _ => some (0xB0, 2)
  | .tq _ => some (0xB0, 3)
  | .tldE _ => some (0xB1, 0)
  | .tstE _ => some (0xB1, 1)
  | .trel _ => some (0xB2, 0)
  | .tlay _ => some (0xB2, 1)
  | .mmaS k _ => some (0xC8, k.subCode + 0)
  | .mmaQ k _ => some (0xC8, k.subCode + 1)
  | .mmaP k _ => some (0xC8, k.subCode + 2)
  | .mmaB k _ => some (0xC8, k.subCode + 3)
  | .mkld _ => some (0xE0, 0)
  | .mkcls _ => some (0xE0, 1)
  | .mkapply _ => some (0xE0, 2)
  | .mkcnt _ => some (0xE0, 3)
  | .mkclr _ => some (0xE0, 4)
  | _ => none

/-- The operand classes of R145. `v` is a lane register that SA, SB or SC may turn into a scalar register; `w` is a
lane register that no such bit may replace (a range, or a field whose chapter admits no scalar); `r` is the
destination of `sread` (R171): S, or V for LANEID. -/
inductive Cls where
  | z | s | v | w | k | i | r | bar | acc | t | tk
  deriving DecidableEq, Repr

/-- Whether the long form is refused, permitted or required (R158 step 3). -/
inductive LongPol where
  | no | may | only
  deriving DecidableEq, Repr

/-- What step 4 demands of X (R144). -/
inductive XPol where
  | zero | any | rm
  deriving DecidableEq, Repr

/-- What step 4 demands of C beyond its class. -/
inductive CPol where
  | any | lea | sread | swrite | fcmp | types | wait | cb | acccvt
  deriving DecidableEq, Repr

/-- The row of a format C instruction: classes of D, A, B, C, long form, X, C. -/
structure CRow where
  d : Cls
  a : Cls
  b : Cls
  c : Cls
  long : LongPol
  x : XPol
  cp : CPol
  deriving DecidableEq, Repr

/-- The rows of the packed forms, as those of 0x60 (R205). -/
def PackOp.row : PackOp → CRow
  | .add => ⟨.v, .v, .v, .z, .may, .rm, .any⟩
  | .sub => ⟨.v, .v, .v, .z, .may, .rm, .any⟩
  | .mul => ⟨.v, .v, .v, .z, .may, .rm, .any⟩
  | .fma => ⟨.v, .v, .v, .v, .may, .rm, .any⟩
  | .min => ⟨.v, .v, .v, .z, .may, .rm, .any⟩
  | .max => ⟨.v, .v, .v, .z, .may, .rm, .any⟩
  | .abs => ⟨.v, .v, .z, .z, .no, .rm, .any⟩
  | .neg => ⟨.v, .v, .z, .z, .no, .rm, .any⟩

/-- The fields of a format C instruction and its row. -/
def Instr.cForm : Instr → Option (COps × CRow)
  | .nop o => some (o, ⟨.z, .z, .z, .z, .no, .zero, .any⟩)
  | .brR o => some (o, ⟨.z, .s, .z, .z, .no, .zero, .any⟩)
  | .callR o => some (o, ⟨.s, .s, .z, .z, .no, .zero, .any⟩)
  | .ret o => some (o, ⟨.z, .s, .z, .z, .no, .zero, .any⟩)
  | .exit o => some (o, ⟨.z, .z, .z, .z, .no, .zero, .any⟩)
  | .trap o => some (o, ⟨.z, .z, .z, .i, .no, .zero, .any⟩)
  | .tret o => some (o, ⟨.z, .z, .z, .z, .no, .zero, .any⟩)
  | .sleep o => some (o, ⟨.z, .z, .s, .z, .may, .zero, .any⟩)
  | .mark o => some (o, ⟨.z, .z, .z, .z, .no, .zero, .any⟩)
  | .mig o => some (o, ⟨.z, .z, .z, .z, .no, .zero, .any⟩)
  | .migReq o => some (o, ⟨.z, .z, .z, .z, .no, .zero, .any⟩)
  | .brk o => some (o, ⟨.z, .z, .z, .i, .no, .zero, .any⟩)
  | .scalarAdd o => some (o, ⟨.s, .s, .s, .z, .may, .any, .any⟩)
  | .scalarSub o => some (o, ⟨.s, .s, .s, .z, .may, .any, .any⟩)
  | .scalarMul o => some (o, ⟨.s, .s, .s, .z, .may, .any, .any⟩)
  | .scalarMulh o => some (o, ⟨.s, .s, .s, .z, .may, .any, .any⟩)
  | .scalarDiv o => some (o, ⟨.s, .s, .s, .z, .may, .any, .any⟩)
  | .scalarRem o => some (o, ⟨.s, .s, .s, .z, .may, .any, .any⟩)
  | .scalarAnd o => some (o, ⟨.s, .s, .s, .z, .may, .any, .any⟩)
  | .scalarOr o => some (o, ⟨.s, .s, .s, .z, .may, .any, .any⟩)
  | .scalarXor o => some (o, ⟨.s, .s, .s, .z, .may, .any, .any⟩)
  | .scalarShl o => some (o, ⟨.s, .s, .s, .z, .may, .any, .any⟩)
  | .scalarShr o => some (o, ⟨.s, .s, .s, .z, .may, .any, .any⟩)
  | .scalarMin o => some (o, ⟨.s, .s, .s, .z, .may, .any, .any⟩)
  | .scalarMax o => some (o, ⟨.s, .s, .s, .z, .may, .any, .any⟩)
  | .scalarClz o => some (o, ⟨.s, .s, .z, .z, .no, .any, .any⟩)
  | .scalarPopc o => some (o, ⟨.s, .s, .z, .z, .no, .any, .any⟩)
  | .scalarNot o => some (o, ⟨.s, .s, .z, .z, .no, .any, .any⟩)
  | .scalarCmp _ o => some (o, ⟨.s, .s, .s, .z, .may, .any, .any⟩)
  | .scalarMov o => some (o, ⟨.s, .z, .s, .z, .may, .any, .any⟩)
  | .li o => some (o, ⟨.s, .z, .z, .z, .only, .zero, .any⟩)
  | .lea o => some (o, ⟨.s, .s, .s, .i, .may, .any, .lea⟩)
  | .scalarBfx o => some (o, ⟨.s, .s, .s, .z, .may, .any, .any⟩)
  | .scalarBfi o => some (o, ⟨.s, .s, .s, .z, .may, .any, .any⟩)
  | .scalarSel o => some (o, ⟨.s, .s, .s, .s, .may, .any, .any⟩)
  | .sread o => some (o, ⟨.r, .z, .z, .i, .no, .zero, .sread⟩)
  | .swrite o => some (o, ⟨.z, .s, .z, .i, .no, .zero, .swrite⟩)
  | .swriteRole o => some (o, ⟨.z, .s, .z, .i, .no, .zero, .swrite⟩)
  | .swriteFpstat o => some (o, ⟨.z, .s, .z, .i, .no, .zero, .swrite⟩)
  | .swriteWinfmt o => some (o, ⟨.z, .s, .z, .i, .no, .zero, .swrite⟩)
  | .swriteTrappc o => some (o, ⟨.z, .s, .z, .i, .no, .zero, .swrite⟩)
  | .swriteFqctl o => some (o, ⟨.z, .s, .z, .i, .no, .zero, .swrite⟩)
  | .swriteFqhead o => some (o, ⟨.z, .s, .z, .i, .no, .zero, .swrite⟩)
  | .swriteWdog o => some (o, ⟨.z, .s, .z, .i, .no, .zero, .swrite⟩)
  | .swriteRingCtl o => some (o, ⟨.z, .s, .z, .i, .no, .zero, .swrite⟩)
  | .swriteRingHead o => some (o, ⟨.z, .s, .z, .i, .no, .zero, .swrite⟩)
  | .swriteTrfilt o => some (o, ⟨.z, .s, .z, .i, .no, .zero, .swrite⟩)
  | .laneAdd o => some (o, ⟨.v, .v, .v, .z, .may, .any, .any⟩)
  | .laneSub o => some (o, ⟨.v, .v, .v, .z, .may, .any, .any⟩)
  | .laneMul o => some (o, ⟨.v, .v, .v, .z, .may, .any, .any⟩)
  | .laneMulh o => some (o, ⟨.v, .v, .v, .z, .may, .any, .any⟩)
  | .laneAnd o => some (o, ⟨.v, .v, .v, .z, .may, .any, .any⟩)
  | .laneOr o => some (o, ⟨.v, .v, .v, .z, .may, .any, .any⟩)
  | .laneXor o => some (o, ⟨.v, .v, .v, .z, .may, .any, .any⟩)
  | .laneShl o => some (o, ⟨.v, .v, .v, .z, .may, .any, .any⟩)
  | .laneShr o => some (o, ⟨.v, .v, .v, .z, .may, .any, .any⟩)
  | .laneMin o => some (o, ⟨.v, .v, .v, .z, .may, .any, .any⟩)
  | .laneMax o => some (o, ⟨.v, .v, .v, .z, .may, .any, .any⟩)
  | .laneClz o => some (o, ⟨.v, .v, .z, .z, .no, .any, .any⟩)
  | .lanePopc o => some (o, ⟨.v, .v, .z, .z, .no, .any, .any⟩)
  | .mad o => some (o, ⟨.v, .v, .v, .v, .may, .any, .any⟩)
  | .laneSel o => some (o, ⟨.v, .v, .v, .k, .may, .any, .any⟩)
  | .laneBfx o => some (o, ⟨.v, .v, .v, .z, .may, .any, .any⟩)
  | .laneBfi o => some (o, ⟨.v, .v, .v, .z, .may, .any, .any⟩)
  | .laneMov o => some (o, ⟨.v, .z, .v, .z, .may, .any, .any⟩)
  | .laneCmp _ o => some (o, ⟨.k, .v, .v, .z, .may, .any, .any⟩)
  | .shfl o => some (o, ⟨.v, .v, .v, .z, .may, .any, .any⟩)
  | .shflUp o => some (o, ⟨.v, .v, .v, .z, .may, .any, .any⟩)
  | .shflDn o => some (o, ⟨.v, .v, .v, .z, .may, .any, .any⟩)
  | .shflX o => some (o, ⟨.v, .v, .v, .z, .may, .any, .any⟩)
  | .voteAll o => some (o, ⟨.s, .k, .z, .z, .no, .any, .any⟩)
  | .voteAny o => some (o, ⟨.s, .k, .z, .z, .no, .any, .any⟩)
  | .ballot o => some (o, ⟨.s, .k, .z, .z, .no, .any, .any⟩)
  | .laneMatch o => some (o, ⟨.v, .v, .z, .z, .no, .any, .any⟩)
  | .scanAdd o => some (o, ⟨.v, .v, .z, .z, .no, .any, .any⟩)
  | .scanMax o => some (o, ⟨.v, .v, .z, .z, .no, .any, .any⟩)
  | .redAdd o => some (o, ⟨.s, .v, .z, .z, .no, .any, .any⟩)
  | .redMin o => some (o, ⟨.s, .v, .z, .z, .no, .any, .any⟩)
  | .redMax o => some (o, ⟨.s, .v, .z, .z, .no, .any, .any⟩)
  | .redOr o => some (o, ⟨.s, .v, .z, .z, .no, .any, .any⟩)
  | .kand o => some (o, ⟨.k, .k, .k, .z, .no, .zero, .any⟩)
  | .kor o => some (o, ⟨.k, .k, .k, .z, .no, .zero, .any⟩)
  | .kxor o => some (o, ⟨.k, .k, .k, .z, .no, .zero, .any⟩)
  | .kandn o => some (o, ⟨.k, .k, .k, .z, .no, .zero, .any⟩)
  | .kset o => some (o, ⟨.k, .z, .s, .z, .may, .zero, .any⟩)
  | .kget o => some (o, ⟨.s, .k, .z, .z, .no, .zero, .any⟩)
  | .addF32 o => some (o, ⟨.v, .v, .v, .z, .may, .rm, .any⟩)
  | .subF32 o => some (o, ⟨.v, .v, .v, .z, .may, .rm, .any⟩)
  | .mulF32 o => some (o, ⟨.v, .v, .v, .z, .may, .rm, .any⟩)
  | .fmaF32 o => some (o, ⟨.v, .v, .v, .v, .may, .rm, .any⟩)
  | .minF32 o => some (o, ⟨.v, .v, .v, .z, .may, .rm, .any⟩)
  | .maxF32 o => some (o, ⟨.v, .v, .v, .z, .may, .rm, .any⟩)
  | .absF32 o => some (o, ⟨.v, .v, .z, .z, .no, .rm, .any⟩)
  | .negF32 o => some (o, ⟨.v, .v, .z, .z, .no, .rm, .any⟩)
  | .divF32 o => some (o, ⟨.v, .v, .v, .z, .may, .rm, .any⟩)
  | .sqrtF32 o => some (o, ⟨.v, .v, .z, .z, .no, .rm, .any⟩)
  | .rcpF32 o => some (o, ⟨.v, .v, .z, .z, .no, .rm, .any⟩)
  | .rsqrtF32 o => some (o, ⟨.v, .v, .z, .z, .no, .rm, .any⟩)
  | .exp2F32 o => some (o, ⟨.v, .v, .z, .z, .no, .rm, .any⟩)
  | .log2F32 o => some (o, ⟨.v, .v, .z, .z, .no, .rm, .any⟩)
  | .sinF32 o => some (o, ⟨.v, .v, .z, .z, .no, .rm, .any⟩)
  | .cosF32 o => some (o, ⟨.v, .v, .z, .z, .no, .rm, .any⟩)
  | .tanhF32 o => some (o, ⟨.v, .v, .z, .z, .no, .rm, .any⟩)
  | .packedF16Arith k o => some (o, k.row)
  | .packedBf16Arith k o => some (o, k.row)
  | .floatCmp _ o => some (o, ⟨.k, .v, .v, .i, .may, .rm, .fcmp⟩)
  | .cvt o => some (o, ⟨.v, .v, .z, .i, .no, .any, .types⟩)
  | .fence _ o => some (o, ⟨.z, .z, .z, .z, .no, .zero, .any⟩)
  | .barArrive o => some (o, ⟨.z, .bar, .z, .z, .no, .zero, .any⟩)
  | .barWait o => some (o, ⟨.z, .bar, .z, .z, .no, .zero, .any⟩)
  | .barSync o => some (o, ⟨.z, .bar, .z, .z, .no, .zero, .any⟩)
  | .barExpect o => some (o, ⟨.z, .bar, .s, .z, .may, .zero, .any⟩)
  | .spawn o => some (o, ⟨.s, .s, .s, .i, .may, .zero, .any⟩)
  | .leave o => some (o, ⟨.z, .z, .z, .z, .no, .zero, .any⟩)
  | .role o => some (o, ⟨.z, .z, .z, .i, .no, .zero, .any⟩)
  | .vgrow o => some (o, ⟨.s, .z, .z, .i, .no, .zero, .any⟩)
  | .vshrink o => some (o, ⟨.z, .z, .z, .i, .no, .zero, .any⟩)
  | .wait o => some (o, ⟨.s, .z, .z, .i, .no, .zero, .wait⟩)
  | .waitY o => some (o, ⟨.z, .z, .z, .i, .only, .zero, .wait⟩)
  | .launch o => some (o, ⟨.s, .s, .z, .z, .no, .zero, .any⟩)
  | .launchR o => some (o, ⟨.s, .s, .s, .z, .no, .zero, .any⟩)
  | .xquant o => some (o, ⟨.v, .v, .z, .i, .no, .zero, .any⟩)
  | .xdequant o => some (o, ⟨.v, .v, .z, .i, .no, .zero, .any⟩)
  | .xpack o => some (o, ⟨.s, .v, .z, .i, .no, .zero, .any⟩)
  | .xunpack o => some (o, ⟨.v, .v, .s, .z, .no, .zero, .any⟩)
  | .xconv o => some (o, ⟨.v, .v, .i, .i, .no, .any, .types⟩)
  | .accz o => some (o, ⟨.acc, .z, .z, .i, .no, .zero, .cb⟩)
  | .accld o => some (o, ⟨.acc, .w, .z, .i, .no, .zero, .cb⟩)
  | .accst o => some (o, ⟨.v, .acc, .z, .i, .no, .zero, .cb⟩)
  | .accmax o => some (o, ⟨.v, .acc, .z, .i, .no, .zero, .cb⟩)
  | .accsum o => some (o, ⟨.v, .acc, .z, .i, .no, .zero, .cb⟩)
  | .accexp o => some (o, ⟨.acc, .w, .s, .i, .no, .zero, .cb⟩)
  | .accscl o => some (o, ⟨.acc, .v, .z, .i, .no, .zero, .cb⟩)
  | .acccvt o => some (o, ⟨.v, .acc, .z, .i, .no, .any, .acccvt⟩)
  | .sgpack o => some (o, ⟨.v, .acc, .z, .i, .no, .zero, .any⟩)
  | .sgsel o => some (o, ⟨.k, .v, .s, .i, .no, .zero, .any⟩)
  | .sgcnt o => some (o, ⟨.s, .v, .s, .i, .no, .zero, .any⟩)
  | .ctxhalt o => some (o, ⟨.z, .s, .z, .tk, .no, .zero, .any⟩)
  | .ctxsave o => some (o, ⟨.z, .s, .s, .tk, .no, .zero, .any⟩)
  | .ctxload o => some (o, ⟨.z, .s, .s, .tk, .no, .zero, .any⟩)
  | .ctxrun o => some (o, ⟨.z, .s, .z, .z, .no, .zero, .any⟩)
  | .ctxkill o => some (o, ⟨.z, .s, .z, .z, .no, .zero, .any⟩)
  | .tlbinv o => some (o, ⟨.z, .s, .s, .z, .no, .zero, .any⟩)
  | .tlbinvAll o => some (o, ⟨.z, .s, .z, .z, .no, .zero, .any⟩)
  | .fltresReplay o => some (o, ⟨.z, .s, .s, .z, .no, .zero, .any⟩)
  | .fltresEndGrid o => some (o, ⟨.z, .s, .s, .z, .no, .zero, .any⟩)
  | .fltresEndContext o => some (o, ⟨.z, .s, .s, .z, .no, .zero, .any⟩)
  | .dtrd o => some (o, ⟨.s, .s, .z, .z, .no, .zero, .any⟩)
  | .pld o => some (o, ⟨.s, .s, .z, .z, .no, .zero, .any⟩)
  | .pst o => some (o, ⟨.s, .s, .z, .z, .no, .zero, .any⟩)
  | .migset o => some (o, ⟨.z, .s, .z, .z, .no, .zero, .any⟩)
  | .migclr o => some (o, ⟨.z, .s, .z, .z, .no, .zero, .any⟩)
  | .evsig o => some (o, ⟨.z, .s, .z, .z, .no, .zero, .any⟩)
  | _ => none

/-- The fields of a format J instruction and the class of CREG (R151, R174, R177). -/
def Instr.jForm : Instr → Option (JOps × Cls)
  | .br o => some (o, .z)
  | .call o => some (o, .s)
  | .brc _ o => some (o, .s)
  | .brv o => some (o, .k)
  | .brvN o => some (o, .k)
  | _ => none

/-- The kinds of format M instruction (R152). -/
inductive MKind where
  | scalar | plain | multi | copy | atom | cas
  deriving DecidableEq, Repr

/-- The fields of a format M instruction and its kind. -/
def Instr.mForm : Instr → Option (MOps × MKind)
  | .scalarLd o => some (o, .scalar)
  | .scalarSt o => some (o, .scalar)
  | .ldG o => some (o, .plain)
  | .stG o => some (o, .plain)
  | .ldS o => some (o, .plain)
  | .stS o => some (o, .plain)
  | .ldP o => some (o, .plain)
  | .stP o => some (o, .plain)
  | .stM o => some (o, .multi)
  | .cpy16 o => some (o, .copy)
  | .cpy16Out o => some (o, .copy)
  | .atomAdd o => some (o, .atom)
  | .atomMin o => some (o, .atom)
  | .atomMax o => some (o, .atom)
  | .atomAnd o => some (o, .atom)
  | .atomOr o => some (o, .atom)
  | .atomXor o => some (o, .atom)
  | .atomXchg o => some (o, .atom)
  | .atomCas o => some (o, .cas)
  | _ => none

/-- The kinds of format T instruction (R239). -/
inductive TKind where
  | image | setB | setF | setE | query | elem | copy | inplace
  deriving DecidableEq, Repr

/-- The fields of a format T instruction and its kind. -/
def Instr.tForm : Instr → Option (TOps × TKind)
  | .tld o => some (o, .image)
  | .tst o => some (o, .image)
  | .tsetBase o => some (o, .setB)
  | .tsetFill o => some (o, .setF)
  | .tsetExt o => some (o, .setE)
  | .tq o => some (o, .query)
  | .tldE o => some (o, .elem)
  | .tstE o => some (o, .elem)
  | .trel o => some (o, .copy)
  | .tlay o => some (o, .inplace)
  | _ => none

/-- The fields of a matrix instruction, its mode, and whether it is batched (R266). -/
def Instr.xForm : Instr → Option (XOps × MmaMode × Bool)
  | .mmaS k o => some (o, k, false)
  | .mmaQ k o => some (o, k, false)
  | .mmaP k o => some (o, k, false)
  | .mmaB k o => some (o, k, true)
  | _ => none

/-- The fields of a mask instruction and the classes of D, A, B, C (R281). -/
def Instr.kForm : Instr → Option (KOps × Cls × Cls × Cls × Cls)
  | .mkld o => some (o, .z, .s, .s, .t)
  | .mkcls o => some (o, .s, .s, .s, .z)
  | .mkapply o => some (o, .acc, .s, .s, .i)
  | .mkcnt o => some (o, .s, .z, .z, .i)
  | .mkclr o => some (o, .z, .z, .z, .i)
  | _ => none

/-! ### Lane registers named -/

/-- Lane registers an instruction names: the first, how many, and whether the first must be even (a pair, R145). -/
structure VUse where
  reg  : Nat
  cnt  : Nat
  even : Bool
  deriving DecidableEq, Repr

/-- One register, or a pair, of class V. -/
def VUse.of (r : BitVec 8) (pair : Bool) : VUse := ⟨r.toNat, if pair then 2 else 1, pair⟩

/-- A range of registers (R256, R265, R275). -/
def VUse.rng (r : BitVec 8) (n : Nat) : VUse := ⟨r.toNat, n, false⟩

/-- The n source registers from A on, where A is no scalar register (R146, R256). -/
def usesFrom (o : COps) (n : Nat) : List VUse := if o.sa then [] else [VUse.rng o.a n]

/-- X[1:0] names the 64-bit width (R144, R192). -/
def COps.w64 (o : COps) : Bool := o.x.toNat % 4 == 3

/-- B is read from a lane register. -/
def COps.bLane (o : COps) : Bool := !o.sb && o.imm.isNone

/-- The register count of a weight-stream tile (R260); 1 for an ETAG it does not list. -/
def etagRegs (e : Nat) : Nat :=
  if e = 1 ∨ e = 2 then 32 else if e = 3 ∨ e = 4 ∨ e = 7 then 16 else if e = 5 then 9 else if e = 8 then 2 else 1

/-- The types between which `xconv` converts (R259). -/
def convType (t : Nat) : Bool := t == 0 || (decide (8 ≤ t) && decide (t ≤ 12))

/-- The width in bits of a type code (R148). -/
def typeWidth (t : Nat) : Nat :=
  match t with
  | 0 | 4 | 11 | 12 => 8
  | 1 | 5 | 9 | 10 => 16
  | 2 | 6 | 8 => 32
  | 3 | 7 => 64
  | 13 => 4
  | 14 => 1
  | _ => 32

/-- Whether a type code is `.s64` or `.z64`. -/
def is64 (t : Nat) : Bool := t == 3 || t == 7

/-- D, A, B and C of an integer lane instruction of the given classes: pairs at width 64 (R192). -/
def usesInt (o : COps) (d a b c : Bool) : List VUse :=
  (if d then [VUse.of o.d o.w64] else []) ++ (if a && !o.sa then [VUse.of o.a o.w64] else []) ++
  (if b && o.bLane then [VUse.of o.b o.w64] else []) ++ (if c && !o.sc then [VUse.of o.c o.w64] else [])

/-- Single registers D, A, B, C. -/
def usesOne (o : COps) (d a b c : Bool) : List VUse :=
  (if d then [VUse.of o.d false] else []) ++ (if a && !o.sa then [VUse.of o.a false] else []) ++
  (if b && o.bLane then [VUse.of o.b false] else []) ++ (if c && !o.sc then [VUse.of o.c false] else [])

/-- D and A of a shift, whose count B is one register (R192). -/
def usesShift (o : COps) : List VUse :=
  usesInt o true true false false ++ (if o.bLane then [VUse.of o.b false] else [])

/-- The data, index and atomic registers of a format M instruction (R211, R222). -/
def usesMem (o : MOps) (k : MKind) : List VUse :=
  let pr := is64 o.ty.toNat || (match o.long with | some e => e.pair | none => false)
  match k with
  | .scalar => []
  | _ =>
    [VUse.of o.d (k != .copy && pr)] ++
    (if o.idx && !(match o.long with | some e => e.sb | none => false) then [VUse.of o.b false] else []) ++
    (match o.long, k with
     | some e, .atom => [VUse.of (e.ext.setWidth 8) pr]
     | some e, .cas => [VUse.of (e.ext.setWidth 8) pr, VUse.of ((e.ext >>> 8).setWidth 8) pr]
     | _, _ => [])

/-- Every lane register an instruction names, with its count. -/
def Instr.vUses : Instr → List VUse
  | .sread o => if o.c = 0 then [VUse.of o.d false] else []
  | .laneAdd o | .laneSub o | .laneMul o | .laneMulh o | .laneAnd o | .laneOr o | .laneXor o
  | .laneMin o | .laneMax o | .laneSel o | .laneBfx o | .laneBfi o => usesInt o true true true false
  | .laneShl o | .laneShr o => usesShift o
  | .laneClz o | .lanePopc o | .scanAdd o | .scanMax o => usesInt o true true false false
  | .mad o => usesInt o true true true true
  | .laneMov o => usesInt o true false true false
  | .laneCmp _ o => usesInt o false true true false
  | .shfl o | .shflUp o | .shflDn o | .shflX o =>
    usesInt o true true false false ++ (if o.bLane then [VUse.of o.b false] else [])
  | .laneMatch o => [VUse.of o.d true] ++ usesInt o false true false false
  | .redAdd o | .redMin o | .redMax o | .redOr o => usesInt o false true false false
  | .addF32 o | .subF32 o | .mulF32 o | .minF32 o | .maxF32 o | .divF32 o => usesOne o true true true false
  | .fmaF32 o => usesOne o true true true true
  | .absF32 o | .negF32 o | .sqrtF32 o | .rcpF32 o | .rsqrtF32 o
  | .exp2F32 o | .log2F32 o | .sinF32 o | .cosF32 o | .tanhF32 o => usesOne o true true false false
  | .packedF16Arith k o | .packedBf16Arith k o =>
    usesOne o true true (match k with | .abs | .neg => false | _ => true) (match k with | .fma => true | _ => false)
  | .floatCmp _ o => usesOne o false true true false
  | .cvt o => [VUse.of o.d (is64 (o.c.toNat / 16))] ++ (if o.sa then [] else [VUse.of o.a (is64 (o.c.toNat % 16))])
  | .xquant o => [VUse.rng o.d 2] ++ usesFrom o 8
  | .xdequant o =>
    [VUse.rng o.d (if o.c.toNat % 16 = 8 then 8 else 4)] ++
    usesFrom o 2
  | .xpack o => usesFrom o (etagRegs o.c.toNat)
  | .xunpack o => [VUse.rng o.d 1] ++ usesFrom o 1
  | .xconv o =>
    let k := if 0 < o.b.toNat ∧ o.b.toNat ≤ 16 then o.b.toNat else 1
    (if convType (o.c.toNat / 16) && convType (o.c.toNat % 16) then
      [VUse.rng o.d (cdiv (k * typeWidth (o.c.toNat / 16)) (typeWidth (o.c.toNat % 16)))] else [VUse.rng o.d 1]) ++ usesFrom o k
  | .accld o => [VUse.rng o.a 64]
  | .accst o => [VUse.rng o.d 64]
  | .accmax o | .accsum o => [VUse.rng o.d 1]
  | .accexp o => [VUse.rng o.a 1]
  | .accscl o => if o.sa then [] else [VUse.rng o.a 1]
  | .acccvt o =>
    [VUse.rng o.d (if convType (o.c.toNat / 16) || o.c.toNat / 16 = 2 then 2 * typeWidth (o.c.toNat / 16) else 1)]
  | .sgpack o => [VUse.of o.d true]
  | .sgsel o | .sgcnt o => if o.sa then [] else [VUse.of o.a true]
  | .scalarLd _ | .scalarSt _ => []
  | .ldG o | .stG o | .ldS o | .stS o | .ldP o | .stP o => usesMem o .plain
  | .stM o => usesMem o .multi
  | .cpy16 o | .cpy16Out o => usesMem o .copy
  | .atomAdd o | .atomMin o | .atomMax o | .atomAnd o | .atomOr o | .atomXor o | .atomXchg o => usesMem o .atom
  | .atomCas o => usesMem o .cas
  | .tldE o | .tstE o => [VUse.of o.d false] ++ (if o.sb then [] else [VUse.of o.b true])
  | .mmaS _ o | .mmaQ _ o | .mmaP _ o =>
    [VUse.rng o.a 8, VUse.rng o.b 8] ++ (if o.hdr then [VUse.rng o.c 2] else [])
  | .mmaB _ o => [VUse.rng o.a 32, VUse.rng o.b 32] ++ (if o.hdr then [VUse.rng o.c 8] else [])
  | _ => []

/-! ### The checks of step 4 -/

/-- What the checks of step 4 read of the group: its lane-register allocation (R40) and its privilege level
(R171, R351). -/
structure DecEnv where
  alloc  : Nat
  plevel : Nat
  deriving DecidableEq, Repr

/-- A special-register number that R171 assigns, or, above PLEVEL 0, R351 or R422. -/
def specialOk (plevel n : Nat) : Bool :=
  decide (n ≤ 0x13) || (decide (0x20 ≤ n) && decide (n ≤ 0x2A)) ||
  (decide (0 < plevel) && decide (0x80 ≤ n) && decide (n ≤ 0x99))

/-- A field lies in its class (R145); class Z is checked as an unused field. -/
def Cls.ok (cl : Cls) (f num : BitVec 8) : Bool :=
  match cl with
  | .z | .v | .w | .i => true
  | .s => f.toNat < 64
  | .k | .t => f.toNat < 16
  | .acc => f.toNat < 4
  | .tk => f.toNat < 8
  | .r => num = 0 || f.toNat < 64
  | .bar => f.toNat / 64 < 3 && f.toNat / 16 % 4 = 0 && f.toNat % 16 < (if f.toNat / 64 = 0 then 16 else if f.toNat / 64 = 1 then 8 else 4)

/-- The failing codes of one field: 3 for a class Z field that is not zero, 4 outside its class; a set
substitution bit makes it class S (R146). -/
def fieldCodes (cl : Cls) (sbit : Bool) (f num : BitVec 8) : List Nat :=
  (if cl = .z ∧ f ≠ 0 then [3] else []) ++
  (if sbit ∧ cl = .v then (if f.toNat < 64 then [] else [4]) else if Cls.ok cl f num then [] else [4])

/-- The guard rules of R149. -/
def guardCodes (allowed : Bool) (g : BitVec 4) (neg : Bool) : List Nat :=
  if !allowed && (g ≠ 0 || neg) then [7] else if g = 0 ∧ neg then [7] else []

/-- The majors whose instructions take a guard (R149); `tld.e` and `tst.e` are checked with format T. -/
def guardOp (op : Nat) : Bool := (0x30 ≤ op && op ≤ 0x35) || (0x60 ≤ op && op ≤ 0x83)

def codeIf (b : Bool) (n : Nat) : List Nat := if b then [n] else []

/-- Step 4 for format C (DEDUCED, notes/assumptions/20.md). A `lea` with a C that R169 does not admit is code 3, which the spec does
not name (DESIGN CHOICE, notes/assumptions/66.md). -/
def codesC (env : DecEnv) (op : Nat) (li : Bool) (o : COps) (r : CRow) : List Nat :=
  let sCode := if op = 0xCA then 3 else 4
  fieldCodes r.d false o.d o.c ++ fieldCodes r.a o.sa o.a o.c ++
  (match o.imm with
   | none => fieldCodes r.b o.sb o.b o.c ++ codeIf (o.sb && r.b != .v) sCode
   | some w => codeIf (o.b ≠ 0 || o.sb) 3 ++ codeIf (!li && w.toNat ≥ 2 ^ 32) 3) ++
  fieldCodes r.c o.sc o.c o.c ++
  codeIf (o.sa && r.a != .v) sCode ++ codeIf (o.sc && r.c != .v) sCode ++
  codeIf (match r.x with | .zero => o.x ≠ 0 | .rm => o.x.toNat ≥ 4 | .any => false) 3 ++
  (match r.cp with
   | .any => []
   | .lea => codeIf (o.c.toNat ≥ 4 || (o.imm.isSome && o.c ≠ 0)) 3
   | .sread | .swrite => codeIf (!specialOk env.plevel o.c.toNat) 4
   | .fcmp => codeIf (o.c.toNat ≥ 2 || (o.x.toNat % 4 = 0 && o.c ≠ 0)) 3
   | .types => codeIf (o.c.toNat / 16 = 15 || o.c.toNat % 16 = 15) 3
   | .wait => codeIf (o.wait ≠ 0) 3
   | .cb => codeIf (o.c.toNat ≥ 8) 3
   | .acccvt => codeIf (o.c.toNat / 8 % 2 = 1 || o.c.toNat / 16 = 15) 3) ++
  guardCodes (guardOp op) o.guard o.neg

/-- Step 4 for format J (R151). -/
def codesJ (o : JOps) (cl : Cls) : List Nat := fieldCodes cl false o.creg 0

/-- Step 4 for format M (R152, R210, R211, R218). With no index SCALE must be zero in 0x80 to 0x83 alone (R210). -/
def codesM (op : Nat) (o : MOps) (k : MKind) : List Nat :=
  let atomic := k = .atom ∨ k = .cas
  let float := 8 ≤ o.ty.toNat && o.ty.toNat ≤ 12
  codeIf (if k = .copy then o.ty.toNat ≥ 8 else o.ty.toNat = 15) 3 ++
  codeIf (!o.idx && (o.b ≠ 0 || (k ≠ .scalar && o.scale ≠ 0))) 3 ++
  (if o.a.toNat < 64 then [] else [4]) ++
  (if k = .scalar ∧ 64 ≤ o.d.toNat then [4] else []) ++
  (match o.long with
   | none => if k = .scalar ∧ 64 ≤ o.b.toNat then [4] else []
   | some e =>
     codeIf (o.ofs7 ≠ 0) 3 ++
     codeIf (e.pair && !(op = 0x80 && float)) 3 ++
     codeIf (e.sb && (op = 0x14 || !o.idx)) 3 ++
     codeIf (¬ atomic && (e.scope ≠ 0 || e.ord ≠ 0)) 3 ++
     codeIf (match k with
       | .cas => false
       | .atom => e.ext.toNat ≥ 256
       | .multi => e.ext.toNat ≥ 4096
       | _ => e.ext ≠ 0) 3 ++
     (if (k = .scalar ∨ e.sb) ∧ 64 ≤ o.b.toNat then [4] else [])) ++
  guardCodes (guardOp op) o.guard o.neg

/-- Step 4 for format T (R153, R239). -/
def codesT (o : TOps) (k : TKind) : List Nat :=
  let async := k = .copy ∨ k = .inplace
  let (cd, ca, cb) : Cls × Cls × Cls := match k with
    | .image => (.t, .s, .s)
    | .setB | .setF | .setE => (.t, .s, .i)
    | .query => (.s, .t, .i)
    | .elem => (.v, .t, .v)
    | .copy => (.t, .t, .s)
    | .inplace => (.t, .t, .z)
  fieldCodes cd false o.d 0 ++ fieldCodes ca false o.a 0 ++ fieldCodes cb o.sb o.b 0 ++
  codeIf (o.sb && k ≠ .elem) 3 ++ codeIf (k ≠ .copy && o.x ≠ 0) 3 ++
  codeIf (¬ async && (o.tok ≠ 0 || o.cred || o.bar ≠ 0)) 3 ++
  codeIf (!o.cred && o.bar ≠ 0) 3 ++ codeIf (o.cred && o.tok ≠ 0) 3 ++
  (match o.long with
   | none => []
   | some e => codeIf (if k = .image then e.member ≠ 0 else e.ofs ≠ 0) 3) ++
  guardCodes (k = .elem) o.guard o.neg

/-- Step 4 for format X (R154, R264, R265). -/
def codesX (o : XOps) (m : MmaMode) : List Nat :=
  let t := o.ty.toNat
  codeIf (match m with
    | .numeric => !(t = 9 || t = 10 || t = 11 || t = 12 || t = 13 || t = 0)
    | _ => t ≠ 14) 3 ++
  codeIf (if t = 13 then !(o.cmp && o.hdr) else o.cmp || o.hdr) 3 ++
  codeIf (!o.hdr && o.c ≠ 0) 3 ++ (if o.d.toNat < 4 then [] else [4])

/-- Step 4 for format K (R155, R281). -/
def codesK (o : KOps) (cnt : Bool) (d a b c : Cls) : List Nat :=
  fieldCodes d false o.d 0 ++ fieldCodes a false o.a 0 ++ fieldCodes b false o.b 0 ++ fieldCodes c false o.c 0 ++
  codeIf (cnt && o.psel ≠ 0) 3

/-- Registers at or above the allocation (code 5), odd registers of pairs (code 6): R145, R40. The register after an odd one that a
pair operand names counts as named (DESIGN CHOICE, notes/assumptions/88.md). -/
def codesV (env : DecEnv) (l : List VUse) : List Nat :=
  codeIf (l.any fun u => env.alloc < u.reg + u.cnt) 5 ++ codeIf (l.any fun u => u.even && u.reg % 2 = 1) 6

/-- The row an `fltres` or `swrite` or `tset` word stands for agrees with its register number or selector. -/
def Instr.rowOk : Instr → Bool
  | .swrite o => !(o.c = 0x05 || o.c = 0x07 || o.c = 0x09 || o.c = 0x20 || o.c = 0x29 || o.c = 0x83 || o.c = 0x84 ||
      o.c = 0x88 || o.c = 0x8A || o.c = 0x90 || o.c = 0x95 || o.c = 0x8B || o.c = 0x91 || o.c = 0x96 || o.c = 0x8E)
  | .swriteRole o => o.c = 0x05
  | .swriteFpstat o => o.c = 0x07
  | .swriteWinfmt o => o.c = 0x09
  | .swriteTrappc o => o.c = 0x20 || o.c = 0x29
  | .swriteFqctl o => o.c = 0x83
  | .swriteFqhead o => o.c = 0x84
  | .swriteWdog o => o.c = 0x88
  | .swriteRingCtl o => o.c = 0x8A || o.c = 0x90 || o.c = 0x95
  | .swriteRingHead o => o.c = 0x8B || o.c = 0x91 || o.c = 0x96
  | .swriteTrfilt o => o.c = 0x8E
  | .tsetBase o => o.b = 0
  | .tsetFill o => o.b = 1
  | .tsetExt o => o.b ≠ 0 && o.b ≠ 1
  | _ => true

/-- Step 3 of R158: LONG set on a pair without a long form, or clear on one that has no short form. -/
def Instr.longBad (i : Instr) : Bool :=
  (match i.cForm with
   | some (o, r) => (match r.long with | .no => o.imm.isSome | .may => false | .only => o.imm.isNone)
   | none => false) ||
  (match i with
   | .br o | .call o | .brc _ o => o.joff.isSome
   | .brv o | .brvN o => o.joff.isNone
   | _ => false) ||
  (match i.mForm with
   | some (o, k) => (k = .multi || k = .atom || k = .cas) && o.long.isNone
   | none => false) ||
  (match i.tForm with
   | some (o, k) => (k = .setB || k = .setF || k = .setE || k = .query) && o.long.isSome
   | none => false)

/-- The UCODEs of step 4 that the instruction's fields earn (R159). -/
def Instr.codes (env : DecEnv) (i : Instr) : List Nat :=
  let op := match i.opSub with | some (p, _) => p | none => 0
  (match i.cForm with
   | some (o, r) => codesC env op (match i with | .li _ => true | _ => false) o r
   | none => []) ++
  (match i.jForm with | some (o, c) => codesJ o c | none => []) ++
  (match i.mForm with | some (o, k) => codesM op o k | none => []) ++
  (match i.tForm with | some (o, k) => codesT o k | none => []) ++
  (match i.xForm with | some (o, m, _) => codesX o m | none => []) ++
  (match i.kForm with
   | some (o, d, a, b, c) => codesK o (match i with | .mkcnt _ => true | _ => false) d a b c
   | none => []) ++
  codesV env i.vUses

end Sys2Proof
end

