-- ==== Sys2Proof/WellFormed.lean ====
section
/-!
DEFINITION. Well-formed instructions: those that pass steps 3 and 4 of decode (R158).
-/

namespace Sys2Proof

/-- A group with every lane register and supervisor rights: what an encoding by itself can be held to. -/
def DecEnv.full : DecEnv := ⟨256, 1⟩

/-- An encoded instruction that decode admits in the given environment. -/
def Instr.wf (env : DecEnv) (i : Instr) : Bool :=
  i.opSub.isSome && !i.longBad && (i.codes env).isEmpty && i.rowOk &&
  (match i with | .fltresEndGrid _ | .fltresEndContext _ => false | _ => true)

end Sys2Proof
end

