-- ==== Sys2Proof/Decode.lean ====
section
/-!
DEFINITION. From bytes to instructions and back (R142 to R159): total on any bytes; what is not an instruction is
rejected by the UCODE of R159.
-/

namespace Sys2Proof

/-- A field of a word. -/
def fld (w : W64) (lo n : Nat) : BitVec n := w.extractLsb' lo n

/-- LONG, bit 12 of the first word (R143). -/
def isLong (w0 : W64) : Bool := w0.getLsbD 12

/-- The fields of format C (R143, R144). -/
def cFields (w0 w1 : W64) : COps :=
  { wait := fld w0 18 8, guard := fld w0 13 4, neg := w0.getLsbD 17, x := fld w0 61 3, sc := w0.getLsbD 60,
    sb := w0.getLsbD 59, sa := w0.getLsbD 58, d := fld w0 26 8, a := fld w0 34 8, b := fld w0 42 8, c := fld w0 50 8,
    imm := if isLong w0 then some w1 else none }

/-- The fields of format J (R151). -/
def jFields (w0 w1 : W64) : JOps :=
  { wait := fld w0 18 8, creg := fld w0 26 8, tgt := fld w0 34 24, joff := if isLong w0 then some (fld w1 0 32) else none }

/-- The fields of format M (R152). -/
def mFields (w0 w1 : W64) : MOps :=
  { wait := fld w0 18 8, guard := fld w0 13 4, neg := w0.getLsbD 17, ty := fld w0 60 4, scale := fld w0 58 2,
    idx := w0.getLsbD 57, ofs7 := fld w0 50 7, b := fld w0 42 8, a := fld w0 34 8, d := fld w0 26 8,
    long := if isLong w0 then
        some { pair := w1.getLsbD 53, sb := w1.getLsbD 52, scope := fld w1 50 2, ord := fld w1 48 2, ext := fld w1 32 16, ofs := fld w1 0 32 }
      else none }

/-- The fields of format T (R153). -/
def tFields (w0 w1 : W64) : TOps :=
  { wait := fld w0 18 8, guard := fld w0 13 4, neg := w0.getLsbD 17, x := fld w0 61 3, sb := w0.getLsbD 58,
    tok := fld w0 55 3, cred := w0.getLsbD 54, bar := fld w0 50 4, b := fld w0 42 8, a := fld w0 34 8, d := fld w0 26 8,
    long := if isLong w0 then some { member := fld w1 32 4, ofs := fld w1 0 32 } else none }

/-- The fields of format X (R154). -/
def xFields (w0 : W64) : XOps :=
  { wait := fld w0 18 8, ty := fld w0 60 4, cmp := w0.getLsbD 59, hdr := w0.getLsbD 58, c := fld w0 50 8,
    b := fld w0 42 8, a := fld w0 34 8, d := fld w0 26 8 }

/-- The fields of format K (R155). -/
def kFields (w0 : W64) : KOps :=
  { wait := fld w0 18 8, psel := fld w0 62 2, d := fld w0 26 8, a := fld w0 34 8, b := fld w0 42 8, c := fld w0 50 8 }

/-- The row of `swrite` that its register number selects (R171, R134, R106, R233, R347, R352, R422, R423). -/
def swriteRow (o : COps) : Instr :=
  match o.c.toNat with
  | 0x05 => .swriteRole o
  | 0x07 => .swriteFpstat o
  | 0x09 => .swriteWinfmt o
  | 0x20 | 0x29 => .swriteTrappc o
  | 0x83 => .swriteFqctl o
  | 0x84 => .swriteFqhead o
  | 0x88 => .swriteWdog o
  | 0x8A | 0x90 | 0x95 => .swriteRingCtl o
  | 0x8B | 0x91 | 0x96 => .swriteRingHead o
  | 0x8E => .swriteTrfilt o
  | _ => .swrite o

/-- The row of `tset` that its selector names (R243). -/
def tsetRow (o : TOps) : Instr :=
  match o.b.toNat with
  | 0 => .tsetBase o
  | 1 => .tsetFill o
  | _ => .tsetExt o

/-- The instruction a pair of OP and SUB names, from the fields of the six formats (R156). -/
def ofPair (op sub : Nat) (o : COps) (j : JOps) (m : MOps) (t : TOps) (x : XOps) (k : KOps) : Option Instr :=
  match op, sub with
  | 0x00, 0 => some (.nop o)
  | 0x00, 1 => some (.br j)
  | 0x00, 2 => some (.call j)
  | 0x00, 3 => some (.brR o)
  | 0x00, 4 => some (.callR o)
  | 0x00, 5 => some (.ret o)
  | 0x00, 6 => some (.exit o)
  | 0x00, 7 => some (.trap o)
  | 0x00, 8 => some (.tret o)
  | 0x00, 9 => some (.sleep o)
  | 0x00, 10 => some (.mark o)
  | 0x00, 11 => some (.mig o)
  | 0x00, 12 => some (.migReq o)
  | 0x00, 13 => some (.brk o)
  | 0x01, 0 => some (.brc .z j)
  | 0x01, 1 => some (.brc .nz j)
  | 0x01, 2 => some (.brc .lt j)
  | 0x01, 3 => some (.brc .ge j)
  | 0x01, 4 => some (.brc .gt j)
  | 0x01, 5 => some (.brc .le j)
  | 0x02, 0 => some (.brv j)
  | 0x02, 1 => some (.brvN j)
  | 0x10, 0 => some (.scalarAdd o)
  | 0x10, 1 => some (.scalarSub o)
  | 0x10, 2 => some (.scalarMul o)
  | 0x10, 3 => some (.scalarMulh o)
  | 0x10, 4 => some (.scalarDiv o)
  | 0x10, 5 => some (.scalarRem o)
  | 0x10, 6 => some (.scalarAnd o)
  | 0x10, 7 => some (.scalarOr o)
  | 0x10, 8 => some (.scalarXor o)
  | 0x10, 9 => some (.scalarShl o)
  | 0x10, 10 => some (.scalarShr o)
  | 0x10, 11 => some (.scalarMin o)
  | 0x10, 12 => some (.scalarMax o)
  | 0x10, 13 => some (.scalarClz o)
  | 0x10, 14 => some (.scalarPopc o)
  | 0x10, 15 => some (.scalarNot o)
  | 0x11, 0 => some (.scalarCmp .eq o)
  | 0x11, 1 => some (.scalarCmp .ne o)
  | 0x11, 2 => some (.scalarCmp .lt o)
  | 0x11, 3 => some (.scalarCmp .le o)
  | 0x11, 4 => some (.scalarCmp .gt o)
  | 0x11, 5 => some (.scalarCmp .ge o)
  | 0x12, 0 => some (.scalarMov o)
  | 0x12, 1 => some (.li o)
  | 0x12, 2 => some (.lea o)
  | 0x12, 3 => some (.scalarBfx o)
  | 0x12, 4 => some (.scalarBfi o)
  | 0x12, 5 => some (.scalarSel o)
  | 0x13, 0 => some (.sread o)
  | 0x13, 1 => some (swriteRow o)
  | 0x14, 0 => some (.scalarLd m)
  | 0x14, 1 => some (.scalarSt m)
  | 0x30, 0 => some (.laneAdd o)
  | 0x30, 1 => some (.laneSub o)
  | 0x30, 2 => some (.laneMul o)
  | 0x30, 3 => some (.laneMulh o)
  | 0x30, 4 => some (.laneAnd o)
  | 0x30, 5 => some (.laneOr o)
  | 0x30, 6 => some (.laneXor o)
  | 0x30, 7 => some (.laneShl o)
  | 0x30, 8 => some (.laneShr o)
  | 0x30, 9 => some (.laneMin o)
  | 0x30, 10 => some (.laneMax o)
  | 0x30, 11 => some (.laneClz o)
  | 0x30, 12 => some (.lanePopc o)
  | 0x31, 0 => some (.mad o)
  | 0x31, 1 => some (.laneSel o)
  | 0x31, 2 => some (.laneBfx o)
  | 0x31, 3 => some (.laneBfi o)
  | 0x31, 4 => some (.laneMov o)
  | 0x32, 0 => some (.laneCmp .eq o)
  | 0x32, 1 => some (.laneCmp .ne o)
  | 0x32, 2 => some (.laneCmp .lt o)
  | 0x32, 3 => some (.laneCmp .le o)
  | 0x32, 4 => some (.laneCmp .gt o)
  | 0x32, 5 => some (.laneCmp .ge o)
  | 0x33, 0 => some (.shfl o)
  | 0x33, 1 => some (.shflUp o)
  | 0x33, 2 => some (.shflDn o)
  | 0x33, 3 => some (.shflX o)
  | 0x34, 0 => some (.voteAll o)
  | 0x34, 1 => some (.voteAny o)
  | 0x34, 2 => some (.ballot o)
  | 0x34, 3 => some (.laneMatch o)
  | 0x35, 0 => some (.scanAdd o)
  | 0x35, 1 => some (.scanMax o)
  | 0x35, 2 => some (.redAdd o)
  | 0x35, 3 => some (.redMin o)
  | 0x35, 4 => some (.redMax o)
  | 0x35, 5 => some (.redOr o)
  | 0x36, 0 => some (.kand o)
  | 0x36, 1 => some (.kor o)
  | 0x36, 2 => some (.kxor o)
  | 0x36, 3 => some (.kandn o)
  | 0x36, 4 => some (.kset o)
  | 0x36, 5 => some (.kget o)
  | 0x60, 0 => some (.addF32 o)
  | 0x60, 1 => some (.subF32 o)
  | 0x60, 2 => some (.mulF32 o)
  | 0x60, 3 => some (.fmaF32 o)
  | 0x60, 4 => some (.minF32 o)
  | 0x60, 5 => some (.maxF32 o)
  | 0x60, 6 => some (.absF32 o)
  | 0x60, 7 => some (.negF32 o)
  | 0x60, 8 => some (.divF32 o)
  | 0x60, 9 => some (.sqrtF32 o)
  | 0x60, 10 => some (.rcpF32 o)
  | 0x60, 11 => some (.rsqrtF32 o)
  | 0x61, 0 => some (.exp2F32 o)
  | 0x61, 1 => some (.log2F32 o)
  | 0x61, 2 => some (.sinF32 o)
  | 0x61, 3 => some (.cosF32 o)
  | 0x61, 4 => some (.tanhF32 o)
  | 0x62, 0 => some (.packedF16Arith .add o)
  | 0x62, 1 => some (.packedF16Arith .sub o)
  | 0x62, 2 => some (.packedF16Arith .mul o)
  | 0x62, 3 => some (.packedF16Arith .fma o)
  | 0x62, 4 => some (.packedF16Arith .min o)
  | 0x62, 5 => some (.packedF16Arith .max o)
  | 0x62, 6 => some (.packedF16Arith .abs o)
  | 0x62, 7 => some (.packedF16Arith .neg o)
  | 0x63, 0 => some (.packedBf16Arith .add o)
  | 0x63, 1 => some (.packedBf16Arith .sub o)
  | 0x63, 2 => some (.packedBf16Arith .mul o)
  | 0x63, 3 => some (.packedBf16Arith .fma o)
  | 0x63, 4 => some (.packedBf16Arith .min o)
  | 0x63, 5 => some (.packedBf16Arith .max o)
  | 0x63, 6 => some (.packedBf16Arith .abs o)
  | 0x63, 7 => some (.packedBf16Arith .neg o)
  | 0x64, 0 => some (.floatCmp .eq o)
  | 0x64, 1 => some (.floatCmp .ne o)
  | 0x64, 2 => some (.floatCmp .lt o)
  | 0x64, 3 => some (.floatCmp .le o)
  | 0x64, 4 => some (.floatCmp .gt o)
  | 0x64, 5 => some (.floatCmp .ge o)
  | 0x64, 6 => some (.floatCmp .un o)
  | 0x65, 0 => some (.cvt o)
  | 0x80, 0 => some (.ldG m)
  | 0x80, 1 => some (.stG m)
  | 0x80, 2 => some (.ldS m)
  | 0x80, 3 => some (.stS m)
  | 0x80, 4 => some (.ldP m)
  | 0x80, 5 => some (.stP m)
  | 0x80, 6 => some (.stM m)
  | 0x81, 0 => some (.cpy16 m)
  | 0x81, 1 => some (.cpy16Out m)
  | 0x82, 0 => some (.atomAdd m)
  | 0x82, 1 => some (.atomMin m)
  | 0x82, 2 => some (.atomMax m)
  | 0x82, 3 => some (.atomAnd m)
  | 0x82, 4 => some (.atomOr m)
  | 0x82, 5 => some (.atomXor m)
  | 0x83, 0 => some (.atomXchg m)
  | 0x83, 1 => some (.atomCas m)
  | 0x84, 0 => some (.fence .blk o)
  | 0x84, 1 => some (.fence .clu o)
  | 0x84, 2 => some (.fence .dev o)
  | 0x84, 3 => some (.fence .sys o)
  | 0xA0, 0 => some (.barArrive o)
  | 0xA0, 1 => some (.barWait o)
  | 0xA0, 2 => some (.barSync o)
  | 0xA0, 3 => some (.barExpect o)
  | 0xA1, 0 => some (.spawn o)
  | 0xA1, 1 => some (.leave o)
  | 0xA1, 2 => some (.role o)
  | 0xA1, 3 => some (.vgrow o)
  | 0xA1, 4 => some (.vshrink o)
  | 0xA2, 0 => some (.wait o)
  | 0xA2, 1 => some (.waitY o)
  | 0xA3, 0 => some (.launch o)
  | 0xA3, 1 => some (.launchR o)
  | 0xB0, 0 => some (.tld t)
  | 0xB0, 1 => some (.tst t)
  | 0xB0, 2 => some (tsetRow t)
  | 0xB0, 3 => some (.tq t)
  | 0xB1, 0 => some (.tldE t)
  | 0xB1, 1 => some (.tstE t)
  | 0xB2, 0 => some (.trel t)
  | 0xB2, 1 => some (.tlay t)
  | 0xC0, 0 => some (.xquant o)
  | 0xC0, 1 => some (.xdequant o)
  | 0xC0, 2 => some (.xpack o)
  | 0xC0, 3 => some (.xunpack o)
  | 0xC0, 4 => some (.xconv o)
  | 0xC8, 0 => some (.mmaS .numeric x)
  | 0xC8, 1 => some (.mmaQ .numeric x)
  | 0xC8, 2 => some (.mmaP .numeric x)
  | 0xC8, 3 => some (.mmaB .numeric x)
  | 0xC8, 4 => some (.mmaS .xor x)
  | 0xC8, 5 => some (.mmaQ .xor x)
  | 0xC8, 6 => some (.mmaP .xor x)
  | 0xC8, 7 => some (.mmaB .xor x)
  | 0xC8, 8 => some (.mmaS .land x)
  | 0xC8, 9 => some (.mmaQ .land x)
  | 0xC8, 10 => some (.mmaP .land x)
  | 0xC8, 11 => some (.mmaB .land x)
  | 0xCA, 0 => some (.accz o)
  | 0xCA, 1 => some (.accld o)
  | 0xCA, 2 => some (.accst o)
  | 0xCA, 3 => some (.accmax o)
  | 0xCA, 4 => some (.accsum o)
  | 0xCA, 5 => some (.accexp o)
  | 0xCA, 6 => some (.accscl o)
  | 0xCA, 7 => some (.acccvt o)
  | 0xE0, 0 => some (.mkld k)
  | 0xE0, 1 => some (.mkcls k)
  | 0xE0, 2 => some (.mkapply k)
  | 0xE0, 3 => some (.mkcnt k)
  | 0xE0, 4 => some (.mkclr k)
  | 0xE8, 0 => some (.sgpack o)
  | 0xE8, 1 => some (.sgsel o)
  | 0xE8, 2 => some (.sgcnt o)
  | 0xF0, 0 => some (.ctxhalt o)
  | 0xF0, 1 => some (.ctxsave o)
  | 0xF0, 2 => some (.ctxload o)
  | 0xF0, 3 => some (.ctxrun o)
  | 0xF0, 4 => some (.ctxkill o)
  | 0xF1, 0 => some (.tlbinv o)
  | 0xF1, 1 => some (.tlbinvAll o)
  | 0xF2, 0 => some (.fltresReplay o)
  | 0xF3, 0 => some (.dtrd o)
  | 0xF4, 0 => some (.pld o)
  | 0xF4, 1 => some (.pst o)
  | 0xF5, 0 => some (.migset o)
  | 0xF5, 1 => some (.migclr o)
  | 0xF6, 0 => some (.evsig o)
  | _, _ => none

/-- The instruction of two words: OP and SUB, and the fields of every format (R143, R156). -/
def build (w0 w1 : W64) : Option Instr :=
  ofPair (bits w0.toNat 0 8) (bits w0.toNat 8 4) (cFields w0 w1) (jFields w0 w1) (mFields w0 w1) (tFields w0 w1)
    (xFields w0) (kFields w0)

/-- The reserved bits that no field record holds: GUARD and NEG where a format has none, MOD bits, and the second
word's high bits (R147, R151 to R155). A guard there is code 7, another bit code 3. -/
def reservedCodes (w0 w1 : W64) : Instr → List Nat
  | .br _ | .call _ | .brc _ _ | .brv _ | .brvN _ =>
    codeIf (fld w0 58 6 ≠ 0) 3 ++ codeIf (isLong w0 && fld w1 32 32 ≠ 0) 3 ++ guardCodes false (fld w0 13 4) (w0.getLsbD 17)
  | .mmaS _ _ | .mmaQ _ _ | .mmaP _ _ | .mmaB _ _ => guardCodes false (fld w0 13 4) (w0.getLsbD 17)
  | .mkld _ | .mkcls _ | .mkapply _ | .mkcnt _ | .mkclr _ =>
    codeIf (fld w0 58 4 ≠ 0) 3 ++ guardCodes false (fld w0 13 4) (w0.getLsbD 17)
  | .tld _ | .tst _ | .tsetBase _ | .tsetFill _ | .tsetExt _ | .tq _ | .tldE _ | .tstE _ | .trel _ | .tlay _ =>
    codeIf (fld w0 59 2 ≠ 0) 3 ++ codeIf (isLong w0 && fld w1 36 28 ≠ 0) 3
  | .scalarLd _ | .scalarSt _ | .ldG _ | .stG _ | .ldS _ | .stS _ | .ldP _ | .stP _ | .stM _ | .cpy16 _ | .cpy16Out _
  | .atomAdd _ | .atomMin _ | .atomMax _ | .atomAnd _ | .atomOr _ | .atomXor _ | .atomXchg _ | .atomCas _ =>
    codeIf (isLong w0 && fld w1 54 10 ≠ 0) 3
  | _ => []

/-- LONG on a format that has no long form and whose record does not hold one (R263, R155). -/
def longLost (w0 : W64) : Instr → Bool
  | .mmaS _ _ | .mmaQ _ _ | .mmaP _ _ | .mmaB _ _ | .mkld _ | .mkcls _ | .mkapply _ | .mkcnt _ | .mkclr _ => isLong w0
  | _ => false

/-- The lowest of some codes. -/
def minCode : List Nat → Option Nat
  | [] => none
  | c :: cs => match minCode cs with | none => some c | some d => some (if c ≤ d then c else d)

/-- Steps 2 to 4 of R158 on the words of an instruction (the decode table's classes are the machine's, Step.lean):
the instruction, or the UCODE of R159. -/
def decode (env : DecEnv) (w0 w1 : W64) : Except Nat Instr :=
  match build w0 w1 with
  | none => .error 0
  | some i =>
    if longLost w0 i || i.longBad then .error 2
    else match minCode (reservedCodes w0 w1 i ++ i.codes env) with
      | some c => .error c
      | none => .ok i

/-- Decode from bytes at the program counter, little-endian (R142): the instruction and how many bytes it takes. -/
def decodeBytes (env : DecEnv) (bs : List Byte) : Except Nat (Instr × Nat) :=
  let w0 := BitVec.ofNat 64 (ofLe (bs.take 8))
  let w1 := BitVec.ofNat 64 (ofLe ((bs.drop 8).take 8))
  match decode env w0 w1 with
  | .ok i => .ok (i, if isLong w0 then 16 else 8)
  | .error c => .error c

/-! ### The encoder -/

/-- A field put in its place. -/
def put (f lo : Nat) : W64 := BitVec.ofNat 64 (f <<< lo)

/-- Bits [25:0], common to all formats (R143). -/
def encCommon (op sub : Nat) (long : Bool) (guard : BitVec 4) (neg : Bool) (wait : BitVec 8) : W64 :=
  put op 0 ||| put sub 8 ||| put (b2n long) 12 ||| put guard.toNat 13 ||| put (b2n neg) 17 ||| put wait.toNat 18

def encC (op sub : Nat) (o : COps) : W64 × Option W64 :=
  (encCommon op sub o.imm.isSome o.guard o.neg o.wait ||| put o.d.toNat 26 ||| put o.a.toNat 34 ||| put o.b.toNat 42 |||
    put o.c.toNat 50 ||| put (b2n o.sa) 58 ||| put (b2n o.sb) 59 ||| put (b2n o.sc) 60 ||| put o.x.toNat 61, o.imm)

def encJ (op sub : Nat) (o : JOps) : W64 × Option W64 :=
  (encCommon op sub o.joff.isSome 0 false o.wait ||| put o.creg.toNat 26 ||| put o.tgt.toNat 34,
    o.joff.map (fun j => put j.toNat 0))

def encM (op sub : Nat) (o : MOps) : W64 × Option W64 :=
  (encCommon op sub o.long.isSome o.guard o.neg o.wait ||| put o.d.toNat 26 ||| put o.a.toNat 34 ||| put o.b.toNat 42 |||
    put o.ofs7.toNat 50 ||| put (b2n o.idx) 57 ||| put o.scale.toNat 58 ||| put o.ty.toNat 60,
    o.long.map (fun e => put e.ofs.toNat 0 ||| put e.ext.toNat 32 ||| put e.ord.toNat 48 ||| put e.scope.toNat 50 |||
      put (b2n e.sb) 52 ||| put (b2n e.pair) 53))

def encT (op sub : Nat) (o : TOps) : W64 × Option W64 :=
  (encCommon op sub o.long.isSome o.guard o.neg o.wait ||| put o.d.toNat 26 ||| put o.a.toNat 34 ||| put o.b.toNat 42 |||
    put o.bar.toNat 50 ||| put (b2n o.cred) 54 ||| put o.tok.toNat 55 ||| put (b2n o.sb) 58 ||| put o.x.toNat 61,
    o.long.map (fun e => put e.ofs.toNat 0 ||| put e.member.toNat 32))

def encX (op sub : Nat) (o : XOps) : W64 × Option W64 :=
  (encCommon op sub false 0 false o.wait ||| put o.d.toNat 26 ||| put o.a.toNat 34 ||| put o.b.toNat 42 |||
    put o.c.toNat 50 ||| put (b2n o.hdr) 58 ||| put (b2n o.cmp) 59 ||| put o.ty.toNat 60, none)

def encK (op sub : Nat) (o : KOps) : W64 × Option W64 :=
  (encCommon op sub false 0 false o.wait ||| put o.d.toNat 26 ||| put o.a.toNat 34 ||| put o.b.toNat 42 |||
    put o.c.toNat 50 ||| put o.psel.toNat 62, none)

/-- The words of an instruction, from the same tables (R143 to R156); none for an event. -/
def encode (i : Instr) : Option (W64 × Option W64) :=
  match i.opSub with
  | none => none
  | some (op, sub) =>
    match i.cForm, i.jForm, i.mForm, i.tForm, i.xForm, i.kForm with
    | some (o, _), _, _, _, _, _ => some (encC op sub o)
    | _, some (o, _), _, _, _, _ => some (encJ op sub o)
    | _, _, some (o, _), _, _, _ => some (encM op sub o)
    | _, _, _, some (o, _), _, _ => some (encT op sub o)
    | _, _, _, _, some (o, _), _ => some (encX op sub o)
    | _, _, _, _, _, some (o, _) => some (encK op sub o)
    | _, _, _, _, _, _ => none

/-- The instruction the decoder reads from the bits of a word numbered as the opcode table numbers them: bit 0 is
the least significant bit of the first 64-bit word, the second word's bits count on from 64. -/
def decodeTableWord (_nbits w : Nat) : Option Instr :=
  match decodeBytes .full (leBytes w 16) with
  | .ok (i, _) => some i
  | .error _ => none

end Sys2Proof
end

