-- ==== Sys2Proof/Machine/State.lean ====
section
/-!
DEFINITION. The state of the device, as plain data: every piece of state the spec names (INVENTORY.md lists them with
their rules), and the model's own bookkeeping. `State.reset` is the state when Germ starts (R450, R452, R454).
-/

namespace Sys2Proof.Machine

/-- Why a step can stop the machine. -/
inductive Fault where
  /-- An instruction was executed while no fragment is issuing. Raised by every instruction's meaning through
  `issue`; `step` never does that. Safe: the machine stops, and no run of `step` meets it. -/
  | noIssuer
  deriving DecidableEq, Repr

/-- Why a meaning can be missing. -/
inductive Refusal where
  /-- Raised by an arm of `exec` with no meaning; the mnemonic names it. Safe: the machine stops. -/
  | notModelled (mnemonic : String)
  deriving DecidableEq, Repr

/-- Memory: listed bytes by rising key, none 0 (an unlisted byte reads 0: DESIGN CHOICE, notes/assumptions/2.md). A key is
space * 2^60 + owner * 2^52 + address: space 0 is the HBM of a partition, 1 host memory behind a partition's host
port, 2 a peer node's memory (R366). -/
abbrev Memory := List Host.Cell

/-! ### Groups -/

/-- A token (R15, R220): its count, and the error of its last operation with that operation's address (R80, R150). -/
structure Token where
  count : Nat
  err   : Nat
  addr  : W64
  deriving DecidableEq, Repr

/-- What a fragment is doing (R19, R47). -/
inductive FragSt where
  /-- It may issue. -/
  | run
  /-- Parked at a join record (R19), by the record's number. -/
  | parked (rec : Nat)
  /-- Waits for a phase of a barrier to complete, then acquires (R228). -/
  | barrier (bar phase : Nat)
  /-- Waits at `mma.q` or `mma.p` (R270, R271); `pod` tells them apart. Its instruction, and since when. -/
  | rendezvous (pod : Bool) (mode : MmaMode) (ops : XOps) (since : Nat)
  /-- Waits in `vgrow` for `n` blocks, the answer to go to s[d]; `since` orders requests (R41). -/
  | vgrow (n d since : Nat)
  /-- In `sleep` until context time passes `wake` (R180). -/
  | sleep (wake : Nat)
  /-- In `sleep 0`: gives up one selection round of its quadrant (R180). -/
  | pass
  /-- In `wait.y`, to resume at `cont` when the tokens of `mask` drain (R236). -/
  | waitY (mask : BitVec 8) (cont : W64)
  /-- Waits at a `mig` or `mig.req` (R186). -/
  | mig (req : Bool)
  /-- Held by a replayable fault, by the number of the record (R343, R345). -/
  | fault (rec : Nat)
  /-- Has issued its last `exit` or a `leave`, and waits for the group's tokens (R179). -/
  | drain
  deriving DecidableEq, Repr

/-- A live fragment (R18, R22). `joins` are numbers of join records, innermost first. `partner` is D_OFF and L_OFF
of the last point passed (R43). `spilled` is the entry of the spill area that holds it (R23). `born` stamps its creation,
`issued` its last issue, 0 before the first; `parkedAt` its parking. `why` is the reason code of R430 that last kept it
from issuing, plus 16 at a rendezvous that is complete (R399). `replays` and `began` count the replayable faults of its instruction and keep the time of the first (R433).
`inHandler` marks a fragment created while TRAPACT was 1 (R185), `bpSkip` the PC at which it may issue once over a
breakpoint (R427), `moved` one that a migration has just brought to its point (DEDUCED, notes/assumptions/16.md), `jumped`
one whose last instruction branched to where it stands (R175). `tally` tells of a memory instruction that a replayable fault holds
whether the memory sampler has counted it: 0 no, 1 yes, 2 yes, and it is to be sampled (R433). `phases` are the phases it last arrived in, by barrier
(R228). -/
structure Fragment where
  pc        : W64
  em        : W64
  joins     : List Nat
  st        : FragSt
  partner   : Option (Nat × Nat)
  spilled   : Option Nat
  born      : Nat
  issued    : Nat
  parkedAt  : Nat
  why       : Nat
  replays   : Nat
  began     : Nat
  inHandler : Bool
  bpSkip    : Option W64
  moved     : Bool
  jumped    : Bool
  tally     : Nat
  phases    : KL Nat
  deriving DecidableEq, Repr

/-- A join record (R18). -/
structure JoinRec where
  addr     : W64
  expected : W64
  parked   : W64
  deriving DecidableEq, Repr

/-- The first violation of a group (R113). -/
structure Violation where
  time  : Nat
  addr  : W64
  cause : Nat
  lane  : Nat
  deriving DecidableEq, Repr

/-- The trap registers (R171). -/
structure TrapRegs where
  pc   : W64
  op   : W64
  d    : W64
  a    : W64
  b    : W64
  c    : W64
  mod  : W64
  em   : W64
  part : W64
  hdl  : W64
  act  : W64
  deriving DecidableEq, Repr

/-- Where a buffered store goes: memory of a context; memory by its key, no page table between (`pst`, R359); a lane's
private memory (R95); a block's window; or the issuing block's own window, where it already is, to be shown to other
blocks. -/
inductive StoreTo where
  | mem (ctx : Nat)
  | phys
  | priv (ctx : Nat)
  | window (blk : Nat)
  | own
  deriving DecidableEq, Repr

/-- One byte of a store: its virtual address or window offset, the memory key its translation gave at issue (the stamp of
the store for the own window, 0 for another), and its value. -/
structure StoreByte where
  at_ : Nat
  key : Nat
  val : Byte
  deriving DecidableEq, Repr

/-- Who made a buffered store: the group; an engine, on a token, with the stamp of its end; or an engine, whose
credit to a barrier is the n-th the barrier has taken in all (R298). Only the group's own can be published by its
boundaries, and the engine's after a wait on its token. -/
inductive StoreBy where
  | group
  | token (t at_ : Nat)
  | credit (bar n : Nat)
  deriving DecidableEq, Repr

/-- What a record about a store names of the instruction that made it (R350): its grid, block, core, group, quadrant, PC, PART,
opcode and sub-operation, whether it issued as L, and each lane with its address. `past` are the relayouts whose results the group
had read before it, which it follows (R295). -/
structure Origin where
  grid  : Nat
  blkid : Nat
  core  : Nat
  grp   : Nat
  quad  : Nat
  pc    : W64
  part  : W64
  op    : Nat
  sub   : Nat
  lvar  : Bool
  lanes : List (Nat × Nat)
  past  : List Nat
  deriving DecidableEq, Repr

/-- A store not yet made at its home (R293), whole as its instruction made it, who made it, and the widest scope a
boundary has published it at: 0 none, 1 block, 2 cluster, 3 device, 4 system (R291). `job` is the number of the relayout
whose result it is (R299), `org` what a record about it names. -/
structure StoreEnt where
  dst   : StoreTo
  bytes : List StoreByte
  pub   : Nat
  maker : StoreBy
  job   : Option Nat
  org   : Origin
  deriving DecidableEq, Repr

/-- A lane of an exchange or compare-and-swap that has not had its pass (R224): its place (a block's window, or memory when
`win` is none), its address, its E and F. -/
structure AtomLane where
  lane : Nat
  win  : Option Nat
  at_  : Nat
  va   : Nat
  e    : Nat
  f    : Nat
  deriving DecidableEq, Repr

/-- The passes an exchange or compare-and-swap has still to make (R224): which of the two, its destination, the scope of its
acquire plus one or 0 (R225), its context, the lanes. -/
structure AtomServe where
  cas   : Bool
  d     : Nat
  wide  : Bool
  acq   : Nat
  ctx   : Nat
  lanes : List AtomLane
  deriving DecidableEq, Repr

/-- Values on their way to lane registers (R214): entries are (register * 64 + lane, value). `regs` are the registers
the scoreboard holds. `serve` are the passes of an atomic that has not had them all (R224). -/
structure LoadEnt where
  regs   : List Nat
  writes : List (Nat × W32)
  serve  : Option AtomServe
  deriving DecidableEq, Repr

/-- A debug stop: kind, index, ADDR (R428). -/
structure DebugEvent where
  kind : Nat
  idx  : Nat
  addr : W64
  deriving DecidableEq, Repr

/-- Why no fragment of a group issues: a precise fault's record (R344), or a debug stop's (R428). -/
inductive Stopped where
  | no
  | fault (rec : Nat)
  | debug (rec : Nat) (ev : DebugEvent) (frag : Nat)
  deriving DecidableEq, Repr

/-- A group (R15). Its number in the block is the key it is stored under. `vblk` are the physical blocks of 16 lane
registers it holds (R40). Lane registers are keyed register * 64 + lane, descriptor words t * 64 + word. `waitAt` stamps the last wait on each
token (R298). `seen` are the relayouts whose results it has read through a descriptor (R295, R299). -/
structure Group where
  slot     : Nat
  quad     : Nat
  plevel   : Nat
  role     : BitVec 2
  vblk     : List Nat
  frags    : KL Fragment
  joins    : KL JoinRec
  sregs    : SMap 64
  vregs    : SMap 32
  kregs    : SMap 64
  tregs    : SMap 64
  toks     : List Token
  fpstat   : BitVec 6
  fmask    : W64
  viol     : Option Violation
  trap     : TrapRegs
  handler  : Nat
  winsel   : Nat
  pbase    : Nat
  pend     : KL (W64 × List Nat)
  arrived  : KL Nat
  stores   : List StoreEnt
  loads    : List LoadEnt
  held     : List (Nat × Nat)
  starve   : Nat
  raised   : Bool
  since    : Nat
  stop     : Stopped
  waitAt   : KL Nat
  seen     : List Nat
  deriving DecidableEq, Repr

/-! ### Blocks, clusters, grids -/

/-- A barrier (R27): membership, arrivals, credits, expected credits, how many phases have completed, and how many
credits they have counted in all. -/
structure Barrier where
  m     : Nat
  a     : Nat
  c     : Nat
  x     : Nat
  phase : Nat
  used  : Nat
  deriving DecidableEq, Repr

/-- A mask-program slot (R282): the image, Lq, Lk, and the document descriptor's image when one is bound. -/
structure MaskSlot where
  prog : List Byte
  lq   : W64
  lk   : W64
  doc  : List W64
  deriving DecidableEq, Repr

/-- A migration pending for a block (R393): none, one made by `migset`, one by the tail policy. -/
inductive MigPend where
  | none | set | tail
  deriving DecidableEq, Repr

/-- A block (R26). Its key is (partition * 2^32 + GRIDID) * 2^32 + BLKID. `window` is what its own groups see,
`winPub` what other blocks see, with the stamps of its stores in `winSeq` (R290, R295). A block that has retired keeps its window until its cluster retires (R35). -/
structure Block where
  part    : Nat
  grid    : Nat
  blkid   : Nat
  core    : Nat
  lcore   : Bool
  cluidx  : Nat
  clusize : Nat
  n0      : Nat
  nmax    : Nat
  regblk  : Nat
  legacy  : Bool
  quadk   : Bool
  acc     : Bool
  priv    : Nat
  groups  : KL Group
  winbase : Nat
  winsize : Nat
  window  : SMap 8
  winPub  : SMap 8
  winSeq  : KL Nat
  winfmt  : SMap 16
  bars    : List Barrier
  carr    : KL Nat
  masks   : List (Option MaskSlot)
  nEmpty  : Nat
  nFull   : Nat
  nPart   : Nat
  runs    : Nat
  tstart  : Option Nat
  argbase : W64
  mig     : MigPend
  lastIss : Nat
  retired : Bool
  nfm     : Nat
  rest    : List StoreEnt
  deriving DecidableEq, Repr

/-- A step the completion of a grid or block still has to take (R303, R383, R384, R459): a write to a virtual address of
the grid's context, the counter's add, the interrupt, the publication of what a block's or the grid's groups left, a block's
retirement, the grid's end. -/
inductive Pending where
  | write (va : W64) (data : List Byte)
  | count (va : W64) (n : W64)
  | irq (vec : Nat)
  | publish (blk : Nat)
  | retire (blk : Nat)
  | publishGrid
  | finish
  deriving DecidableEq, Repr

/-- Steps to take in order, the record the first of them waits on (R459), and the block whose steps they are. -/
structure Chain where
  steps : List Pending
  held  : Option Nat
  blk   : Option Nat
  deriving DecidableEq, Repr

/-- The entry of a group that has left with FMASK set: its block, its core, its number, its bytes (R113, R385). -/
structure LeaveEnt where
  blk  : Nat
  core : Nat
  grp  : Nat
  data : List Byte
  deriving DecidableEq, Repr

/-- A record of a ragged list (R238). -/
structure Ragged where
  arg  : W64
  rows : Nat
  deriving DecidableEq, Repr

/-- A grid (R36, R383). Its key is partition * 2^32 + GRIDID. `list` is the ragged list's address and, once read, its
records. `again` are blocks to run again (R117). `todo` are the steps of R459: one chain for each block that retires or entry
that is written, one for the grid's completion. `leaves` are the entries of the groups that left in the clock `leftAt`
(R385). `level` is the PLEVEL of its groups (R338). `open` ends when the grid has begun to complete. -/
structure Grid where
  ctx     : Nat
  queue   : Option Nat
  packet  : List W64
  kd      : List W64
  kdRead  : Bool
  wf      : List (Nat × Nat)
  depth   : Nat
  parent  : Nat
  prio    : Nat
  device  : Bool
  born    : Nat
  level   : Nat
  ragged  : Option W64
  list    : Option (List Ragged)
  nblk    : Nat
  next    : Nat
  retired : Nat
  ran     : Nat
  again   : List Nat
  runs    : KL Nat
  cbs     : KL (List Barrier)
  gbs     : List Barrier
  tstart  : Option Nat
  nent    : Nat
  ndrop   : Nat
  nkill   : Nat
  fseq    : Nat
  fclass  : Nat
  lerr    : Nat
  status  : Nat
  open_   : Bool
  todo    : KL Chain
  rest    : List StoreEnt
  leaves  : List LeaveEnt
  leftAt  : Nat
  deriving DecidableEq, Repr

/-! ### Cores -/

/-- What one group brings to a matrix product: its place, its active lanes, its tile, and its operand registers by
relative number * 64 + lane. -/
structure MmaPart where
  blk  : Nat
  grp  : Nat
  core : Nat
  quad : Nat
  live : W64
  d    : Nat
  a    : SMap 32
  b    : SMap 32
  c    : SMap 32
  deriving DecidableEq, Repr

/-- A matrix product in the array (R263, R273): form 0 solo, 1 quad, 2 Pod pair, 3 batched; `parts` in row order. -/
structure MmaJob where
  form  : Nat
  mode  : MmaMode
  ty    : Nat
  parts : List MmaPart
  deriving DecidableEq, Repr

/-- A transform-pipe hand-off (R255): the `n` registers from `d` that wait for it, and what the reply writes. -/
structure PipeJob where
  blk    : Nat
  grp    : Nat
  d      : Nat
  n      : Nat
  writes : List (Nat × W32)
  deriving DecidableEq, Repr

/-- A level pass (R63): the lowest location bit and the width of its level, and its matrix as row masks. -/
structure Pass where
  lo  : Nat
  w   : Nat
  mat : List Nat
  deriving DecidableEq, Repr

/-- What a hold step reads of a slab entry (R373, R374): the entry's memory key, its fields, and whether it was
moving. -/
structure SlabView where
  key    : Nat
  base   : Nat
  new    : Nat
  moved  : Nat
  log2   : Nat
  moving : Bool
  deriving DecidableEq, Repr

/-- A byte an engine has written and not yet handed to its group: the block whose window it goes to, or none for memory; its
virtual address; its window offset or memory key; its value. -/
structure EngineByte where
  win : Option Nat
  va  : Nat
  at_ : Nat
  val : Byte
  deriving DecidableEq, Repr

/-- A tile of a weight stream as the loader has read it: its ETAG, its payload, none for zeros (R108, R110). -/
structure Tile where
  etag : Nat
  data : Option (List Byte)
  deriving DecidableEq, Repr

/-- A relayout in flight (R69, R83, R248, R253). `quad` is its group's quadrant. `src` and `dst` are descriptor images of 64 words as they stood at
issue, `dst` with L_new; `tdst` is the destination's register; `partner` the partner address of its group then (R350); `lold` is the
engine's copy of L_old as row masks. `n` counts the index bits it runs over, `units` the tiles it credits in all, `credited` those
credited so far. `started` says that what is found before any data moves has been looked for. `sv` and `dv` are the entries of slab
sides; `fail` is a status found at issue. `done` are bytes written and not handed to the group, `fresh` those of the last pass not
credited (R298); `shadow` the lane-register words it has written, by (block * 64 + group) * 2^14 + register * 64 + lane (R100);
`words` the memory words it has read (R457). `gone` says that its group has left, so that no register shows it any more. `tiles`, `slots` and `recAt` are the records of a weight stream read so far, the tile
cache, and the next record's address (R109, R110). -/
structure Relayout where
  inplace  : Bool
  grow     : Bool
  started  : Bool
  blk      : Nat
  grp      : Nat
  quad     : Nat
  ctx      : Nat
  pc       : W64
  partner  : W64
  tok      : Nat
  cred     : Bool
  bar      : Nat
  rm       : Nat
  nosat    : Bool
  scale    : W32
  member   : Nat
  tdst     : Nat
  src      : List W64
  dst      : List W64
  lold     : List Nat
  n        : Nat
  passes   : List Pass
  pass     : Nat
  cursor   : Nat
  credited : Nat
  units    : Nat
  sv       : Option SlabView
  dv       : Option SlabView
  slabs    : List Nat
  fail     : Nat
  heldBy   : Option Nat
  done     : List EngineByte
  fresh    : List EngineByte
  shadow   : KL Nat
  words    : KL Nat
  gone     : Bool
  tiles    : KL Tile
  slots    : KL (List Byte)
  recAt    : Nat
  deriving DecidableEq, Repr

/-- A `cpy16` in flight (R219): lanes still to copy, each with its address and its window offset; the partner address of
its group at the issue (R350); the bytes copied; the memory words it has read (R457); the lanes of the instruction
with their addresses (R350). -/
structure CopyJob where
  out    : Bool
  blk    : Nat
  grp    : Nat
  ctx    : Nat
  pc     : W64
  tok    : Nat
  lanes  : List (Nat × W64 × Nat)
  heldBy : Option Nat
  partner : W64
  done   : List EngineByte
  words  : KL Nat
  every  : List (Nat × Nat)
  deriving DecidableEq, Repr

/-- A quadrant's stall sampler (R430, R432): clocks counted, slot pointer, FIFO of records, and what the selector did in
the clock just gone: fragments with 0 issued, 1 not selected, 2 lost a port conflict. -/
structure Sampler where
  clocks : Nat
  ptr    : Nat
  fifo   : List (List W64)
  seen   : List (FragRef × Nat)
  deriving DecidableEq, Repr

/-- A memory instruction being sampled (R433): the record so far, and its group; whether a lane reaches beyond scratchpads; the
lanes it has not switched off; and what
it waits for: the registers of its loads, the stores it made, its copy with, for one that writes memory, its token and its lanes'
addresses. -/
structure MemSample where
  blk   : Nat
  grp   : Nat
  recd  : List W64
  far   : Bool
  lanes : List Nat
  regs  : List Nat
  made  : List StoreEnt
  copy  : Option Nat
  tok   : Nat
  out   : List Nat
  deriving DecidableEq, Repr

/-- A core (R4, R97): accumulator entries keyed (4 * quadrant + tile) * 0x4000 + row * 256 + column, its engines, its
samplers, and storage no block holds (keyed kind * 2^30 + offset). -/
structure Core where
  acc     : SMap 32
  jobs    : List MmaJob
  pipe    : List PipeJob
  rels    : KL Relayout
  copies  : KL CopyJob
  samp    : List Sampler
  memCnt  : Nat
  memOpen : List MemSample
  memFifo : List (List W64)
  free    : SMap 8
  deriving DecidableEq, Repr

/-! ### Partitions -/

/-- A fault record before SEQ and PHASE are known (R350): its eight words with those fields zero, its number, and
what `fltres` must know of it: outstanding or a notice, and whom it stopped. -/
structure Rec where
  num    : Nat
  words  : List W64
  notice : Bool
  deriving DecidableEq, Repr

/-- What waits on a record, for `fltres` (R357): the group or engine that raised it, its grid, context, class, the
page of a TRANSLATION or COLDTEXT record (R345), the queue it holds (R381), and, once written, its SEQ. -/
structure Outst where
  num   : Nat
  cls   : Nat
  ctx   : Nat
  page  : Option Nat
  grid  : Option Nat
  blk   : Nat
  grp   : Nat
  frag  : Nat
  queue : Option Nat
  sched : Bool
  seq   : Option Nat
  deriving DecidableEq, Repr

/-- A record ring (R422, R423). -/
structure Ring where
  base   : W64
  period : Nat
  log2   : Nat
  en     : Bool
  head   : W32
  tail   : W32
  drop   : W32
  deriving DecidableEq, Repr

/-- The debug slot that applies to a context (R426): its sixteen words. -/
abbrev DebugSlot := List W64

/-- A TLB entry (R368): the TLB that holds it (a core's key, or die * 64 + 63 for the shared TLB of a die), context,
virtual page number at its level, the leaf entry read, and that entry's memory key. -/
structure TlbEnt where
  who   : Nat
  ctx   : Nat
  at_   : Nat
  level : Nat
  leaf  : W64
  key   : Nat
  deriving DecidableEq, Repr

/-- The state of a context (R354). An ended context stays listed while writes of its grids' completion wait (R459). -/
inductive CtxSt where
  | running | halting | halted | ended
  deriving DecidableEq, Repr

/-- A group's token that a context operation completes (R354). -/
structure TokRef where
  blk : Nat
  grp : Nat
  tok : Nat
  deriving DecidableEq, Repr

/-- A context of a partition (R354, R362, R411, R413): the table entry as last read, the offset of TIME, TSAVE,
the tokens that `ctxhalt` completes, the `ctxsave`s in progress in order, whether it is a saved context, whether it was loaded and
has not run, its debug slot. -/
structure Ctx where
  st     : CtxSt
  entry  : List W64
  tofs   : W64
  tsave  : W64
  halt   : List TokRef
  save   : List (W64 × TokRef)
  saved  : Bool
  loaded : Bool
  dbg    : Option DebugSlot
  deriving DecidableEq, Repr

/-- A `ctxload` in progress (R409). -/
structure CtxLoad where
  ctx  : Nat
  addr : W64
  ref  : TokRef
  deriving DecidableEq, Repr

/-- A packet in the device launch queue (R386), and the level of the group that launched it (R338). -/
structure DevLaunch where
  grid   : Nat
  ctx    : Nat
  prio   : Nat
  depth  : Nat
  packet : List W64
  ragged : Option W64
  level  : Nat
  deriving DecidableEq, Repr

/-- A partition (R417). Decode tables are kept as the entries that firmware changed (R157, R419). `lfirst` is the number of the
L-core at which the search for a place begins (notes/assumptions/80.md). -/
structure Part where
  pstate : Nat
  fqbase : W64
  vec    : Nat
  log2n  : Nat
  ovf    : Bool
  en     : Bool
  fqhead : W32
  fqtail : W32
  held   : List Rec
  outs   : List Outst
  wdog   : BitVec 16
  tr     : Ring
  sm     : Ring
  ms     : Ring
  trfilt : W64
  dbg    : W64
  decD   : KL Nat
  decL   : KL Nat
  ctxTab : Nat
  queTab : Nat
  tlb    : List TlbEnt
  ctxs   : KL Ctx
  loads  : List CtxLoad
  devq   : List DevLaunch
  next   : Nat
  qheld  : KL Nat
  routes : KL Nat
  pbump  : Nat
  lfirst : Nat
  clkCut : Nat
  bootAt : Option Nat
  deriving DecidableEq, Repr

/-- A state-mapping table (R44): D_OFF, L_OFF, and entries (CLASS, D_IDX, L_IDX). -/
structure MapTable where
  doff : Nat
  loff : Nat
  ents : List (Nat × Nat × Nat)
  deriving DecidableEq, Repr

/-- Where the loader placed a code object (R307, R311): context of a partition, its kernel descriptors' address
range, its text bases, its state-mapping tables (DESIGN CHOICE, notes/assumptions/13.md). -/
structure Image where
  part   : Nat
  ctx    : Nat
  kdLo   : Nat
  kdHi   : Nat
  dtext  : W64
  ltext  : W64
  tables : List MapTable
  deriving DecidableEq, Repr

/-- Germ and Husk (R447, R450 to R456). `record` is the configuration record in force, `serial` that of the last accepted;
`mailbox` are the statuses answered, newest last; `spdm` the messages of the SPDM connection, oldest first; `steer` what the
time base has still to slew by, two's complement; `raw` the nanoseconds since Germ started, unslewed; `ports` the peer ports that
trained (R449); `winRead` the words of the last host read through BAR2 (R302). -/
structure Husk where
  step    : Nat
  fail    : Nat
  record  : List W64
  serial  : Nat
  meas    : List (List Byte)
  mailbox : List Nat
  spdm    : List (List Byte)
  half    : List Nat
  cool    : Bool
  off     : Bool
  ports   : List Nat
  raw     : Nat
  steer   : W64
  certs   : List Byte
  corrErr : Nat
  uncErr  : Nat
  winRead : List W32
  deriving DecidableEq, Repr

/-- A code object as the loader meets it (R44, R307): where it goes, each state-mapping table with its address, and the lane
registers that its variants are allocated (DESIGN CHOICE, notes/assumptions/13.md). -/
structure CodeObject where
  img    : Image
  tables : List (Nat × List Byte)
  dregs  : Nat
  lregs  : Nat
  deriving DecidableEq, Repr

/-- What `step` does next when no instruction is waiting in `slots`: an event, a clock of a quadrant's selector
(R395), the passing of nanoseconds, the loss of a TLB entry, the issue of one given fragment, the loader's placing of
a code object, the L-core at which a partition's placement begins its search. -/
inductive Choice where
  | event (i : Instr)
  | clock (core quad : Nat)
  | tick (ns : Nat)
  | evict (part idx : Nat)
  | select (who : FragRef)
  | load (obj : CodeObject)
  | place (part core : Nat)
  deriving DecidableEq, Repr

/-- The state of the device. -/
structure State where
  time   : Nat
  mem    : Memory
  poison : List Nat
  blocks : KL Block
  grids  : KL Grid
  cores  : KL Core
  parts  : List Part
  images : List Image
  husk   : Husk
  irqs   : List (Nat × Nat)
  stamp  : Nat
  recNo  : Nat
  jobNo  : Nat
  free   : Nat
  turn   : Nat
  iss    : Bool
  bkey   : Nat
  gkey   : Nat
  fkey   : Nat
  blk    : Block
  grp    : Group
  frag   : Fragment
  slots  : List FragRef
  agenda : List Choice
  deriving DecidableEq, Repr

/-! ### Reset -/

def Token.reset : Token := ⟨0, 0, 0⟩

def Origin.none : Origin := ⟨0, 0, 0, 0, 0, 0, 0, 0, 0, false, [], []⟩

def Fragment.reset : Fragment :=
  { pc := 0, em := 0, joins := [], st := .run, partner := none, spilled := none, born := 0, issued := 0, parkedAt := 0, why := 0,
    replays := 0, began := 0, inHandler := false, bpSkip := none, moved := false, jumped := false, tally := 0, phases := [] }

def TrapRegs.reset : TrapRegs := ⟨0, 0, 0, 0, 0, 0, 0, 0, 0, 0, 0⟩

/-- A group in the state of R32, before its fragment, role, allocation and place are given. -/
def Group.reset : Group :=
  { slot := 0, quad := 0, plevel := 0, role := 0, vblk := [], frags := [], joins := [], sregs := [], vregs := [],
    kregs := [], tregs := [], toks := List.replicate 8 .reset, fpstat := 0, fmask := 0, viol := none, trap := .reset,
    handler := 0, winsel := 0, pbase := 0, pend := [], arrived := [], stores := [], loads := [],
    held := [], starve := 0, raised := false, since := 0, stop := .no, waitAt := [], seen := [] }

def Barrier.reset : Barrier := ⟨0, 0, 0, 0, 0, 0⟩

def Block.reset : Block :=
  { part := 0, grid := 0, blkid := 0, core := 0, lcore := false, cluidx := 0, clusize := 1, n0 := 1, nmax := 1,
    regblk := 1, legacy := false, quadk := false, acc := false, priv := 0, groups := [], winbase := 0, winsize := 0,
    window := [], winPub := [], winSeq := [], winfmt := [], bars := List.replicate 16 .reset, carr := [],
    masks := [none, none, none, none], nEmpty := 0, nFull := 0, nPart := 0, runs := 1, tstart := none, argbase := 0,
    mig := .none, lastIss := 0, retired := false, nfm := 0, rest := [] }

def Sampler.reset : Sampler := ⟨0, 0, [], []⟩

def Core.reset : Core :=
  { acc := [], jobs := [], pipe := [], rels := [], copies := [], samp := List.replicate 4 .reset, memCnt := 0,
    memOpen := [], memFifo := [], free := [] }

def Ring.reset : Ring := ⟨0, 0, 0, false, 0, 0, 0⟩

/-- A partition before bring-up: OFFLINE (R447), every register of R351 and R422 at its reset value, the shipped
decode tables (R157), no context. -/
def Part.reset : Part :=
  { pstate := 0, fqbase := 0, vec := 0, log2n := 0, ovf := false, en := false, fqhead := 0, fqtail := 0, held := [],
    outs := [], wdog := 0, tr := .reset, sm := .reset, ms := .reset, trfilt := 0, dbg := 0, decD := [], decL := [],
    ctxTab := 0, queTab := 0, tlb := [], ctxs := [], loads := [], devq := [], next := 1, qheld := [], routes := [], pbump := 0, lfirst := 0,
    clkCut := 0, bootAt := none }

/-- Husk when Germ starts: STEP 0, FAIL 0 (R447), measurements zero (R452). -/
def Husk.reset : Husk :=
  { step := 0, fail := 0, record := List.replicate 8 0, serial := 0, meas := List.replicate 16 (List.replicate 48 0),
    mailbox := [], spdm := [], half := [], cool := false, off := false, ports := [], raw := 0, steer := 0, certs := [],
    corrErr := 0, uncErr := 0, winRead := [] }

/-- The device when Germ starts: the time base 0 (R450), every partition OFFLINE, nothing resident, no fragment
issuing, memory with nothing listed (DESIGN CHOICE, notes/assumptions/4.md). -/
def State.reset : State :=
  { time := 0, mem := [], poison := [], blocks := [], grids := [], cores := [],
    parts := [.reset, .reset, .reset, .reset], images := [], husk := .reset, irqs := [], stamp := 1, recNo := 1,
    jobNo := 1, free := 0, turn := 0, iss := false, bkey := 0, gkey := 0, fkey := 0, blk := .reset, grp := .reset,
    frag := .reset, slots := [], agenda := [] }

end Sys2Proof.Machine
end

