-- ==== Sys2Proof/Machine/Access.lean ====
section
/-!
DEFINITION. Reading and changing parts of the state by key. The issuing fragment, its group and its block are taken
out of their lists while `iss` holds; every accessor here finds them where they are.
-/

namespace Sys2Proof.Machine

/-- Put the issuing fragment, its group and its block back into their lists. -/
def State.stow (s : State) : State :=
  if s.iss then
    let g := { s.grp with frags := s.grp.frags.put s.fkey s.frag }
    { s with iss := false, blocks := s.blocks.put s.bkey { s.blk with groups := s.blk.groups.put s.gkey g } }
  else s

/-- Put the issuing group back without the fragment that issued: it has ended. -/
def State.stowEnded (s : State) : State :=
  if s.iss then
    { s with iss := false, blocks := s.blocks.put s.bkey { s.blk with groups := s.blk.groups.put s.gkey s.grp } }
  else s

/-- Take a fragment out of its lists, to issue. -/
def State.take (s : State) (r : FragRef) : Option State :=
  match s.blocks.find r.blk with
  | none => none
  | some b =>
    match b.groups.find r.grp with
    | none => none
    | some g =>
      match g.frags.find r.fid with
      | none => none
      | some f =>
        some { s with iss := true, bkey := r.blk, gkey := r.grp, fkey := r.fid, frag := f
                      grp := { g with frags := g.frags.del r.fid }
                      blk := { b with groups := b.groups.del r.grp }
                      blocks := s.blocks.del r.blk }

def State.block (s : State) (b : Nat) : Option Block :=
  if s.iss && b == s.bkey then some s.blk else s.blocks.find b

def State.group (s : State) (b g : Nat) : Option Group :=
  if s.iss && b == s.bkey then (if g = s.gkey then some s.grp else s.blk.groups.find g)
  else match s.blocks.find b with | some x => x.groups.find g | none => none

def State.fragment (s : State) (b g f : Nat) : Option Fragment :=
  if s.iss && b == s.bkey && g == s.gkey && f == s.fkey then some s.frag
  else match s.group b g with | some x => x.frags.find f | none => none

def State.modBlock (s : State) (b : Nat) (f : Block → Block) : State :=
  if s.iss && b == s.bkey then { s with blk := f s.blk } else { s with blocks := s.blocks.mod b f }

def State.modGroup (s : State) (b g : Nat) (f : Group → Group) : State :=
  if s.iss && b == s.bkey then
    (if g = s.gkey then { s with grp := f s.grp } else { s with blk := { s.blk with groups := s.blk.groups.mod g f } })
  else { s with blocks := s.blocks.mod b (fun x => { x with groups := x.groups.mod g f }) }

def State.modFrag (s : State) (b g i : Nat) (f : Fragment → Fragment) : State :=
  if s.iss && b == s.bkey && g == s.gkey && i == s.fkey then { s with frag := f s.frag }
  else s.modGroup b g (fun x => { x with frags := x.frags.mod i f })

/-- Change every group. -/
def State.mapGroups (s : State) (f : Group → Group) : State :=
  let fb := fun (x : Block) => { x with groups := x.groups.map (fun p => (p.1, f p.2)) }
  { s with grp := f s.grp, blk := fb s.blk, blocks := s.blocks.map (fun p => (p.1, fb p.2)) }

/-- Change every fragment. -/
def State.mapFrags (s : State) (f : Fragment → Fragment) : State :=
  { (s.mapGroups (fun g => { g with frags := g.frags.map (fun p => (p.1, f p.2)) })) with frag := f s.frag }

/-- Every resident block with its key, the issuing one included. -/
def State.allBlocks (s : State) : List (Nat × Block) := (if s.iss then [(s.bkey, s.blk)] else []) ++ s.blocks

/-- The groups of a block with their numbers, the issuing one included. -/
def State.groupsOf (s : State) (b : Nat) : List (Nat × Group) :=
  if s.iss && b == s.bkey then s.blk.groups.put s.gkey s.grp
  else match s.blocks.find b with | some x => x.groups | none => []

/-- Every group: block key, block, number, group. -/
def State.allGroups (s : State) : List (Nat × Block × Nat × Group) :=
  s.allBlocks.flatMap (fun p => (s.groupsOf p.1).map (fun q => (p.1, p.2, q.1, q.2)))

def State.core (s : State) (c : Nat) : Core := (s.cores.find c).getD .reset

def State.modCore (s : State) (c : Nat) (f : Core → Core) : State := { s with cores := s.cores.put c (f (s.core c)) }

def State.part (s : State) (p : Nat) : Part := s.parts.getD p .reset

def State.modPart (s : State) (p : Nat) (f : Part → Part) : State := { s with parts := setNth s.parts p (f (s.part p)) }

def State.modGrid (s : State) (g : Nat) (f : Grid → Grid) : State := { s with grids := s.grids.mod g f }

def State.ctx (s : State) (p c : Nat) : Option Ctx := (s.part p).ctxs.find c

def State.modCtx (s : State) (p c : Nat) (f : Ctx → Ctx) : State :=
  s.modPart p (fun x => { x with ctxs := x.ctxs.mod c f })

/-- A context is in a given state. -/
def State.ctxIs (s : State) (p c : Nat) (st : CtxSt) : Bool := match s.ctx p c with | some x => x.st == st | none => false

/-- The key of a grid. -/
def gridKey (part gid : Nat) : Nat := part * 2 ^ 32 + gid

/-- The partition and the GRIDID of a grid's key. Above them a key tells apart grids of one partition that have one GRIDID: a
restored grid keeps its own (R410). -/
def gridPart (gk : Nat) : Nat := gk / 2 ^ 32 % 4
def gridId (gk : Nat) : Nat := gk % 2 ^ 32

/-- The key of a block. -/
def blockKey (grid blkid : Nat) : Nat := grid * 2 ^ 32 + blkid

/-- The key of a core slot of a die (R93): slots 34 to 37 are L-cores. -/
def coreKey (die slot : Nat) : Nat := die * 64 + slot

/-- The context of a block's grid. -/
def State.ctxOf (s : State) (b : Block) : Nat := match s.grids.find b.grid with | some g => g.ctx | none => 0

/-- The context of the issuing group. -/
def State.ctxid (s : State) : Nat := s.ctxOf s.blk

/-- Context TIME (R172): the time base plus the context's offset; it stands still while the context is halted (R411). -/
def State.ctxTime (s : State) (p c : Nat) : Nat :=
  match s.ctx p c with
  | some x => if x.st = .halted then x.tsave.toNat else (s.time + x.tofs.toNat) % 2 ^ 64
  | none => s.time % 2 ^ 64

/-- TIME of the issuing group. -/
def State.now (s : State) : Nat := s.ctxTime s.blk.part s.ctxid

/-- How many partitions the configuration record makes, by PART (R417, R453). -/
def State.partField (s : State) : Nat := bits (s.husk.record.getD 3 0).toNat 42 2

/-- The partition that holds a die (R417). -/
def State.partOfDie (s : State) (die : Nat) : Nat :=
  if s.partField = 0 then 0 else if s.partField = 1 then die / 2 else die

/-- The dies of a partition. -/
def State.diesOf (s : State) (p : Nat) : List Nat := (List.range 4).filter (fun d => s.partOfDie d == p)

/-- The TLB of the scheduler of a partition: its first die's (R368; DESIGN CHOICE, notes/assumptions/64.md). -/
def State.schedTlb (s : State) (p : Nat) : Nat := (s.diesOf p).headD 0 * 64 + 63

/-- The words of a list as bytes, little-endian. -/
def wordsLe (l : List W64) : List Byte := l.flatMap (fun w => leBytes w.toNat 8)

/-- Bytes as words of 64 bits; a short end reads as zeros. -/
def toWords (l : List Byte) : Nat → List W64
  | 0 => []
  | n + 1 => BitVec.ofNat 64 (ofLe (l.take 8)) :: toWords (l.drop 8) n

/-- A list of words as one number. -/
def wordsNat (l : List W64) : Nat := ofLe (wordsLe l)

/-- Bits of a structure of several words, bit 0 first. -/
def wbits (l : List W64) (lo n : Nat) : Nat := bits (wordsNat l) lo n

/-- A number as n words. -/
def natWords (x : Nat) : Nat → List W64
  | 0 => []
  | n + 1 => BitVec.ofNat 64 x :: natWords (x >>> 64) n

/-- Fields (value, low bit) put together in n words. -/
def packWords (n : Nat) (l : List (Nat × Nat)) : List W64 := natWords (l.foldl (fun a f => a ||| (f.1 <<< f.2)) 0) n

end Sys2Proof.Machine
end

