-- ==== Sys2Proof/Machine/Ops.lean ====
section
/-!
DEFINITION. The named operations: memory and its homes, translation, publication, fault records, taking a user trap
and returning from one, fragments and their joins, and the issue of one instruction.
-/

namespace Sys2Proof.Machine

/-! ### Memory -/

def hbmKey (part a : Nat) : Nat := part * 2 ^ 52 + a
/-- A bus address behind a host port as a memory key (R366, R417) (DESIGN CHOICE, notes/assumptions/30.md). -/
def hostKey (port a : Nat) : Nat := 2 ^ 60 + port * 2 ^ 52 + a
def peerKey (node a : Nat) : Nat := 2 * 2 ^ 60 + node * 2 ^ 46 + a

/-- The byte at a key: what nothing has written reads 0. -/
def Memory.byte (m : Memory) (k : Nat) : Byte := SMap.get m k

/-- The canonical form: keys strictly rising, no listed byte 0. -/
def Memory.wf (m : Memory) : Bool := SMap.wf m

def Memory.read (m : Memory) (k n : Nat) : List Byte := (List.range n).map (fun i => m.byte (k + i))

/-- Bytes at consecutive keys. -/
def seqFrom (k : Nat) : List Byte → List (Nat × Byte)
  | [] => []
  | b :: bs => (k, b) :: seqFrom (k + 1) bs

def Memory.write (m : Memory) (k : Nat) (bs : List Byte) : Memory := SMap.setAll m (seqFrom k bs)

/-- A 64-bit word, little-endian (R9). -/
def Memory.word (m : Memory) (k : Nat) : W64 := BitVec.ofNat 64 (ofLe (m.read k 8))

/-- Write listed bytes; a sector all of whose bytes are written loses its poison (R115). -/
def State.poke (s : State) (l : List (Nat × Byte)) : State :=
  { s with mem := SMap.setAll s.mem l
           poison := s.poison.filter (fun q => !((List.range 32).all (fun i => l.any (fun p => p.1 == q * 32 + i)))) }

def State.pokeBytes (s : State) (k : Nat) (bs : List Byte) : State := s.poke (seqFrom k bs)

/-- Fields of structures in memory that the device alone writes (R10): DTAIL of the context table's entries, HEAD and TAIL of the
queue table's (R362, R377). -/
def State.deviceOnly (s : State) (k : Nat) : Bool :=
  let a := k % 2 ^ 52
  let x := s.part (k / 2 ^ 52)
  let within := fun (base len lo hi : Nat) =>
    base != 0 && decide (base ≤ a ∧ a < base + len ∧ lo ≤ (a - base) % 64 ∧ (a - base) % 64 < hi)
  within x.ctxTab (2 ^ 22) 24 28 || within x.queTab 4096 40 48

/-- Bytes that programs and the host write: what is read-only keeps its value (R10). -/
def State.pokeSoft (s : State) (l : List (Nat × Byte)) : State :=
  { s.poke l with mem := SMap.setAll s.mem (l.filter (fun q => !s.deviceOnly q.1)) }

/-- Whether any of n bytes from a key lies in a poisoned sector. -/
def State.poisoned (s : State) (k n : Nat) : Bool := s.poison.any (fun q => decide (q * 32 < k + n ∧ k < q * 32 + 32))

/-! ### Translation -/

/-- The kinds of access that R367 tells apart. -/
inductive Acc where
  | load | store | atomic | fetch
  deriving DecidableEq, Repr

/-- How a translation fails: not present, PROTECTION with its DETAIL, a poisoned table entry, FETCH, COLDTEXT (R115,
R342, R367, R372). -/
inductive XFault where
  | miss
  | poison
  | prot (detail : Nat)
  | fetch
  | cold
  deriving DecidableEq, Repr

/-- A translation: the memory key of the byte, and the format word of its granule. -/
structure Xlat where
  key : Nat
  fmt : BitVec 16
  deriving DecidableEq, Repr

/-- TAG and GEOM of a format word. -/
def fmtTag (w : BitVec 16) : Nat := w.toNat / 4096
def fmtGeom (w : BitVec 16) : Nat := w.toNat % 4096

/-- A well-formed format word (R101). -/
def fmtOk (w : BitVec 16) : Bool :=
  decide (fmtTag w ≤ 9) && (if fmtTag w = 5 ∨ fmtTag w = 6 then fmtGeom w != 0 else fmtGeom w == 0)

/-- The lowest index bit of a level (R363), and so the page size of a leaf there. -/
def lvlShift (l : Nat) : Nat := if l = 3 then 46 else if l = 2 then 36 else if l = 1 then 26 else 16

/-- The bytes of HBM of a partition. -/
def State.hbmBytes (s : State) (p : Nat) : Nat := (s.diesOf p).length * 2 * Config.stackBytes

/-- The stated limits of a leaf entry (R365, R367, R372): the DETAIL it fails with (DEDUCED, notes/assumptions/29.md). -/
def State.leafBad (s : State) (p lvl : Nat) (e : Nat) : Option Nat :=
  let kind := bits e 5 2
  let pa := bits e 16 36 * 65536
  if lvl = 3 ∨ pa % 2 ^ lvlShift lvl ≠ 0 ∨ kind = 3 ∨ bits e 10 2 = 3 ∨ ((bitAt e 3 ∨ bitAt e 4) ∧ ¬ bitAt e 2) ∨
      (bitAt e 9 ∧ (¬ bitAt e 4 ∨ kind ≠ 1)) ∨ (kind = 0 ∧ s.hbmBytes p < pa + 2 ^ lvlShift lvl) then some 6
  else if fmtOk (BitVec.ofNat 16 (bits e 12 4 * 4096 + bits e 52 12)) then none else some 5

/-- The walk of R363 to R367 from a table: the level, the leaf entry and its key. A poisoned entry is UNCORRECTABLE
(R115). -/
def State.walkFrom (s : State) (p va : Nat) : List Nat → Nat → Except XFault (Nat × W64 × Nat)
  | [], _ => .error (.prot 6)
  | lvl :: rest, tbl =>
    let k := hbmKey p (tbl + 8 * bits va (lvlShift lvl) 10)
    let e := (s.mem.word k).toNat
    if s.poisoned k 8 then .error .poison
    else if ¬ bitAt e 0 then .error .miss
    else if bitAt e 1 then
      (match s.leafBad p lvl e with
       | some d => .error (.prot d)
       | none => .ok (lvl, s.mem.word k, k))
    else if lvl = 0 ∨ bits e 52 12 ≠ 0 ∨ bits e 2 11 ≠ 0 then .error (.prot 6)
    else s.walkFrom p va rest (bits e 13 39 * 8192)

/-- The dirty log of an entry of the context table keeps the limits of R362: 2^9 to 2^20 records, aligned to its size, in the
partition's memory. -/
def State.dlogOk (s : State) (p : Nat) (e : List W64) : Bool :=
  let w := (e.getD 2 0).toNat
  let base := bits w 0 52
  let size := 8 * 2 ^ bits w 52 5
  decide (9 ≤ bits w 52 5 ∧ bits w 52 5 ≤ 20 ∧ base % size = 0 ∧ base + size ≤ s.hbmBytes p)

/-- The entry of a context's table as the device last read it is usable for translation (R362): valid, and with the log
it names, when logging is on, within its limits (DEDUCED, notes/assumptions/28.md). -/
def State.ctxEntryOk (s : State) (p : Nat) (e : List W64) : Bool :=
  bitAt (e.getD 0 0).toNat 0 && (!bitAt (e.getD 2 0).toNat 63 || s.dlogOk p e)

/-- The shared TLB of a die (R368), among the names of TLBs. -/
def dieTlb (die : Nat) : Nat := die * 64 + 63

/-- How many entries a TLB holds (R368). -/
def tlbRoom (who : Nat) : Nat := if who % 64 = 63 then 16384 else 256

/-- An entry enters its TLB; a full TLB gives up the one it has held longest (DESIGN CHOICE, notes/assumptions/64.md). -/
def Part.tlbAdd (x : Part) (t : TlbEnt) : Part :=
  let mine := x.tlb.filter (fun u => u.who == t.who)
  { x with tlb := t :: (if tlbRoom t.who ≤ mine.length then x.tlb.erase (mine.getLastD t) else x.tlb) }

/-- The entry of one TLB that maps an address. -/
def Part.tlbHit (x : Part) (who c va : Nat) : Option TlbEnt :=
  x.tlb.find? (fun t => t.who == who && t.ctx == c && t.at_ == va >>> lvlShift t.level)

/-- The leaf that maps an address for a core `h`, or for an agent of a die that has no TLB of its own: from the core's TLB,
else from its die's, else by a walk; whatever was passed over is filled, and a walk sets A (R368, R369). -/
def State.leafOf (s : State) (p h c va : Nat) : State × Except XFault TlbEnt :=
  match (s.part p).tlbHit h c va with
  | some t => (s, .ok t)
  | none =>
    match (s.part p).tlbHit (dieTlb (h / 64)) c va with
    | some t => (s.modPart p (fun y => y.tlbAdd { t with who := h }), .ok { t with who := h })
    | none =>
      match s.ctx p c with
      | none => (s, .error (.prot 6))
      | some x =>
        if s.ctxEntryOk p x.entry then
          match s.walkFrom p va [3, 2, 1, 0] (bits (x.entry.getD 0 0).toNat 13 39 * 8192) with
          | .error f => (s, .error f)
          | .ok (lvl, e, k) =>
            let e1 := e ||| 0x80#64
            let s1 := if e = e1 then s else s.pokeBytes k (leBytes e1.toNat 8)
            let t : TlbEnt := ⟨h, c, va >>> lvlShift lvl, lvl, e1, k⟩
            let shared := fun (y : Part) => if h % 64 = 63 then y else y.tlbAdd { t with who := dieTlb (h / 64) }
            (s1.modPart p (fun y => (shared y).tlbAdd t), .ok t)
        else (s, .error (.prot 6))

/-- The TLB entries that a state has and another had not, the newest first. -/
def State.newTlb (s t : State) (p : Nat) : List TlbEnt := (t.part p).tlb.filter (fun e => !(s.part p).tlb.contains e)

/-- Lookups that were made stay made, in their order: the entries they filled, and the A bits their walks set (R369). -/
def State.refill (s : State) (p : Nat) (l : List TlbEnt) : State :=
  l.foldr (fun e a => (a.leafOf p e.who e.ctx (e.at_ <<< lvlShift e.level)).1) s

/-- The host port of a partition (R417): both ports show one host when there is one partition. -/
def State.hostPort (s : State) (p : Nat) : Nat := if s.partField = 0 then 0 else if s.partField = 1 then p else p / 2

/-- The memory key a leaf gives an address (R366). -/
def State.leafKeyOf (s : State) (p : Nat) (t : TlbEnt) (va : Nat) : Nat :=
  let e := t.leaf.toNat
  let a := bits e 16 36 * 65536 + va % 2 ^ lvlShift t.level
  match bits e 5 2 with
  | 0 => hbmKey p a
  | 1 => hostKey (s.hostPort p) a
  | _ => peerKey (a / 2 ^ 46) (a % 2 ^ 46)

/-- Translate one byte's address for an access (R367, R372, R449). -/
def State.xlate (s : State) (p h c va : Nat) (acc : Acc) : State × Except XFault Xlat :=
  match s.leafOf p h c va with
  | (s1, .error f) => (s1, .error f)
  | (s1, .ok t) =>
    let e := t.leaf.toNat
    let bad := match acc with
      | .load => !bitAt e 2
      | .store => !bitAt e 3
      | .atomic => !(bitAt e 2 && bitAt e 3)
      | .fetch => false
    let r : Except XFault Xlat :=
      if acc = .fetch ∧ ¬ bitAt e 4 then .error .fetch
      else if acc = .fetch ∧ bitAt e 9 then .error .cold
      else if bad then .error (.prot 1)
      else if bits e 5 2 = 2 ∧ ¬ (s1.part p).routes.has (bits e 46 6) then .error (.prot 2)
      else .ok ⟨s1.leafKeyOf p t va, BitVec.ofNat 16 (bits e 12 4 * 4096 + bits e 52 12)⟩
    (s1, r)

/-- Append a dirty-log record for a page (R370, R371). DLOGBASE, DLOG2 and DEN are those last read; DHEAD, DTAIL and
DOVF are at the entry's home. A log that breaks its limits is not written: `homeStop` refuses the write. -/
def State.logDirty (s : State) (p c : Nat) (t : TlbEnt) : State :=
  match s.ctx p c with
  | none => s
  | some x =>
    let w2 := (x.entry.getD 2 0).toNat
    if ¬ bitAt w2 63 ∨ ¬ s.dlogOk p x.entry then s
    else
      let home := hbmKey p ((s.part p).ctxTab + 64 * c)
      let w3 := (s.mem.word (home + 24)).toNat
      let tail := bits w3 0 32
      let n := 2 ^ bits w2 52 5
      if (tail + 2 ^ 32 - bits w3 32 32) % 2 ^ 32 = n then
        s.pokeBytes (home + 16) (leBytes (s.mem.word (home + 16) ||| (1#64 <<< 62)).toNat 8)
      else
        let r := (bits (t.at_ <<< lvlShift t.level) 16 40 <<< 16) ||| (t.level <<< 14)
        (s.pokeBytes (hbmKey p (bits w2 0 52 + 8 * (tail % n))) (leBytes r 8)).pokeBytes (home + 24)
          (leBytes ((tail + 1) % 2 ^ 32) 4)

/-- A write reaches its home: the entry is looked up at that moment; where it has D = 0, D is set first and the dirty log
appended to (R369). Gives the key the entry names. -/
def State.dirty (s : State) (p h c va : Nat) : State × Except XFault Nat :=
  match s.leafOf p h c va with
  | (s1, .error f) => (s1, .error f)
  | (s1, .ok t) =>
    if bitAt t.leaf.toNat 8 then (s1, .ok (s1.leafKeyOf p t va))
    else
      let same := fun (u : TlbEnt) => u.ctx == t.ctx && u.at_ == t.at_ && u.level == t.level && u.key == t.key &&
        (u.who == h || u.who == dieTlb (h / 64))
      let s2 := s1.pokeBytes t.key (leBytes (s1.mem.word t.key ||| 0x100#64).toNat 8)
      let s3 := s2.modPart p (fun y => { y with
        tlb := y.tlb.map (fun u => if same u then { u with leaf := u.leaf ||| 0x100#64 } else u) })
      (s3.logDirty p c t, .ok (s1.leafKeyOf p t va))

/-- What keeps a write from its home: its page or its permission, looked up at that moment (R367, R369); where D is still to be
set, poison in the entry or in the context's (R115), or a dirty log that breaks its limits (R362). -/
def State.homeStop (s : State) (p h c va : Nat) : State × Option XFault :=
  match s.leafOf p h c va with
  | (s1, .error f) => (s1, some f)
  | (s1, .ok t) =>
    match (s1.xlate p h c va .store).2 with
    | .error f => (s1, some f)
    | .ok _ =>
      let e := match s1.ctx p c with | some x => x.entry | none => []
      let log := bitAt (e.getD 2 0).toNat 63
      (s1, if bitAt t.leaf.toNat 8 then none
        else if s1.poisoned t.key 8 || (log && s1.poisoned (hbmKey p ((s1.part p).ctxTab + 64 * c)) 64) then some .poison
        else if log && !s1.dlogOk p e then some (.prot 6)
        else none)

/-- The first of some addresses that cannot be written at its home. -/
def State.lost (s : State) (p h c : Nat) : List Nat → State × Option (Nat × XFault)
  | [] => (s, none)
  | va :: l =>
    match s.homeStop p h c va with
    | (s1, some f) => (s1, some (va, f))
    | (s1, none) => s1.lost p h c l

/-- Bytes written at their homes through a context's translation (R369): all of them, or none where one cannot be. -/
def State.writeVirt (s : State) (p h c : Nat) (l : List StoreByte) : State × Option (Nat × XFault) :=
  match s.lost p h c (l.map (·.at_)) with
  | (s1, some f) => (s1, some f)
  | (s1, none) =>
    let r := l.foldl (fun (a : State × List (Nat × Byte)) b =>
      match a.1.dirty p h c b.at_ with
      | (u, .ok k) => (u, a.2 ++ [(k, b.val)])
      | (u, .error _) => (u, a.2)) (s1, [])
    (r.1.pokeSoft r.2, none)

/-! ### Fault records (R348 to R350) -/

/-- What a fault record says of an access. -/
structure FaultInfo where
  cls    : Nat
  detail : Nat
  addr   : W64
  lanes  : W64
  write  : Bool
  deriving DecidableEq, Repr

/-- The eight words of a record (R350), SEQ and PHASE still zero. -/
def recWords (time : Nat) (f : FaultInfo) (pc part : W64) (grid blk ctx core grp quad op sub : Nat) (replay lvar : Bool) :
    List W64 :=
  packWords 8 [(b2n lvar, 49), (b2n f.write, 50), (b2n replay, 51), (sub, 52), (op, 56), (f.detail, 64), (f.cls, 72),
    (quad, 80), (grp, 82), (core % 64, 88), (core / 64, 94), (ctx, 112), (blk, 128), (grid % 2 ^ 32, 160),
    (f.lanes.toNat, 192), (part.toNat, 256), (pc.toNat, 320), (f.addr.toNat, 384), (time % 2 ^ 64, 448)]

/-- Sleeping fragments of a system group go on. -/
def Group.rouse (g : Group) : Group :=
  if 0 < g.plevel then
    { g with frags := g.frags.map (fun f => (f.1, match f.2.st with | .sleep _ | .pass => { f.2 with st := .run } | _ => f.2)) }
  else g

/-- System groups of a partition end their sleep at every record write (R349), those of the issuing block included. -/
def State.wakeSystem (s : State) (p : Nat) : State :=
  let rouse := fun (b : Block) => if b.part = p then { b with groups := b.groups.map (fun g => (g.1, g.2.rouse)) } else b
  { s with blocks := s.blocks.map (fun b => (b.1, rouse b.2)), blk := rouse s.blk
           grp := if s.blk.part = p then s.grp.rouse else s.grp }

/-- Write held records while the queue is enabled, has room, and no outstanding record carries the SEQ (R348). -/
def State.flushRecs : Nat → State → Nat → State
  | 0, s, _ => s
  | n + 1, s, p =>
    let x := s.part p
    match x.held with
    | [] => s
    | r :: rest =>
      let seq := x.fqtail.toNat % 65536
      if !x.en || (x.fqtail - x.fqhead).toNat == 2 ^ x.log2n then s.modPart p (fun y => { y with ovf := true })
      else if x.outs.any (fun o => o.seq == some seq && o.num != r.num) then s.modPart p (fun y => { y with ovf := true })
      else
        let w := natWords (wordsNat r.words ||| (seq <<< 96) ||| (b2n (x.fqtail.toNat.testBit x.log2n) <<< 48)) 8
        let k := hbmKey p (x.fqbase.toNat + 64 * (x.fqtail.toNat % 2 ^ x.log2n))
        let s1 := (s.pokeBytes k (wordsLe w)).modPart p (fun y => { y with
          held := rest, fqtail := y.fqtail + 1
          outs := y.outs.map (fun o => if o.num = r.num then { o with seq := some seq } else o) })
        let s2 := if x.fqtail = x.fqhead then { s1 with irqs := s1.irqs ++ [(p, x.vec)] } else s1
        State.flushRecs n (s2.wakeSystem p) p

/-- Make a record: it is held, then written as soon as the queue allows. `o` is what waits on it. -/
def State.record (s : State) (p : Nat) (words : List W64) (o : Option Outst) : State :=
  let n := s.recNo
  let s1 := { s with recNo := n + 1 }
  let s2 := s1.modPart p (fun y => { y with
    held := y.held ++ [⟨n, words, o.isNone⟩]
    outs := y.outs ++ (match o with | some x => [{ x with num := n }] | none => []) })
  State.flushRecs ((s2.part p).held.length) s2 p

/-- A partition halted by a double trap of a system group goes OFFLINE, with the cause in the mailbox status
(R340, R453). -/
def State.haltPart (s : State) (p : Nat) : State :=
  { s.modPart p (fun y => { y with pstate := 0 }) with husk := { s.husk with mailbox := s.husk.mailbox ++ [0x100 + p] } }

/-- The unresolved TRANSLATION or COLDTEXT record of a page of a context (R345). -/
def State.waiting (s : State) (p c page : Nat) : Option Nat :=
  ((s.part p).outs.find? (fun o => o.ctx == c && o.page == some page)).map (·.num)

/-! ### Publication (R290 to R303) -/

/-- The scope a boundary needs to publish a store: block for local memory, cluster for a window, system for host and
peer memory (R290, R304); none of them publishes private memory. Scopes are 1 block, 2 cluster, 3 device, 4 system. -/
def StoreEnt.need (e : StoreEnt) : Nat :=
  match e.dst with
  | .mem _ | .phys => if e.bytes.any (fun b => 2 ^ 60 ≤ b.key) then 4 else 1
  | .priv _ => 5
  | .window _ => 2
  | .own => 2

/-- A boundary wide enough has published the store: it may reach its home. -/
def StoreEnt.ready (e : StoreEnt) : Bool := decide (e.need ≤ e.pub)

/-- A publishing boundary of the group can publish the store: the group made it, or has waited on the token of the engine
that did since it was done (R293, R298). -/
def Group.mine (g : Group) (e : StoreEnt) : Bool :=
  match e.maker with
  | .group => true
  | .token t at_ => match g.waitAt.find t with | some w => decide (at_ ≤ w) | none => false
  | .credit _ _ => false

/-- A publishing boundary of a scope marks a store it can publish. A store to the block's own window is published to the
block at every scope (R290). -/
def StoreEnt.mark (scope : Nat) (e : StoreEnt) : StoreEnt :=
  if e.need ≤ scope ∨ e.dst = .own then { e with pub := Nat.max e.pub scope } else e

/-- An earlier entry of a group after a later one, `u`, has gone home: the bytes they share are written, and the earlier store must
not overwrite them any more (R213, R295). What is shown of the own window keeps its order by stamps. -/
def StoreEnt.under (e u : StoreEnt) : StoreEnt :=
  let hit := fun (b : StoreByte) => match e.dst, u.dst with
    | .window t, .window v => t == v && u.bytes.any (fun c => c.at_ == b.at_)
    | .window _, _ | _, .window _ | .own, _ | _, .own => false
    | _, _ => u.bytes.any (fun c => c.key == b.key)
  { e with bytes := e.bytes.filter (fun b => !hit b) }

/-- Earlier entries after a later one has gone home; one that has no byte left is gone. -/
def overtaken (l : List StoreEnt) (u : StoreEnt) : List StoreEnt := (l.map (·.under u)).filter (fun e => !e.bytes.isEmpty)

/-- A group's stores after its entry `e` has gone home. -/
def sentFrom (l : List StoreEnt) (e : StoreEnt) : List StoreEnt :=
  overtaken (l.takeWhile (· != e)) e ++ (l.dropWhile (· != e)).tail

/-- A publishing boundary marks the group's stores (R293). -/
def Group.publish (g : Group) (scope : Nat) : Group :=
  { g with stores := g.stores.map (fun e => if g.mine e then e.mark scope else e) }

/-- Bytes of a window as other blocks see it take values, but not over a later store's; `at_` of a byte is its offset, `key` the
stamp of its store (R295). -/
def Block.showBytes (x : Block) (l : List StoreByte) : Block :=
  l.foldl (fun (y : Block) b =>
    if (y.winSeq.find b.at_).getD 0 ≤ b.key then
      { y with winPub := y.winPub.set b.at_ b.val, winSeq := y.winSeq.put b.at_ b.key }
    else y) x

/-- The lanes of a store that wrote to the page of an address, as a mask. -/
def Origin.pageLanes (o : Origin) (va : Nat) : W64 :=
  maskOf ((o.lanes.filter (fun l => l.2 / 65536 == va / 65536)).map (·.1))

/-- A store that cannot be made, since its page is not present any more, has a TRANSLATION record and waits; on any other
fault it is dropped with a notice (R345, R356, R369) (DEDUCED, notes/assumptions/7.md). The record names the instruction that
made it (R350). -/
def State.homeFault (s : State) (p c : Nat) (o : Origin) (va : Nat) (f : XFault) : State × Bool :=
  let words := fun (cls detail : Nat) (replay : Bool) =>
    recWords s.time ⟨cls, detail, BitVec.ofNat 64 va, o.pageLanes va, true⟩ o.pc o.part o.grid o.blkid c o.core o.grp o.quad o.op
      o.sub replay o.lvar
  match f with
  | .miss =>
    if (s.waiting p c (va / 65536)).isSome then (s, false)
    else (s.record p (words 1 0 true) (some ⟨0, 1, c, some (va / 65536), some o.grid, 0, 0, 0, none, false, none⟩), false)
  | .poison => (s.record p (words 6 0 false) none, true)
  | .prot d => (s.record p (words 2 d false) none, true)
  | .fetch => (s.record p (words 4 0 false) none, true)
  | .cold => (s.record p (words 5 0 false) none, true)

/-- Bytes of memory and windows leave the entries of a buffer that `pick` names. -/
def dropFrom (keys : List Nat) (wins : List (Nat × Nat)) (pick : StoreEnt → Bool) (l : List StoreEnt) : List StoreEnt :=
  (l.map (fun e => if pick e then
      { e with bytes := e.bytes.filter (fun b => match e.dst with
        | .mem _ | .phys | .priv _ => !keys.contains b.key
        | .window t => !wins.contains (t, b.at_)
        | .own => true) } else e)).filter (fun e => !e.bytes.isEmpty)

/-- Whatever waits to go home: of groups, of what groups have left in their blocks, and blocks in their grids. -/
def State.mapStores (s : State) (f : List StoreEnt → List StoreEnt) : State :=
  let s1 := s.mapGroups (fun y => { y with stores := f y.stores })
  { s1 with
    blocks := s1.blocks.map (fun p => (p.1, { p.2 with rest := f p.2.rest })), blk := { s1.blk with rest := f s1.blk.rest }
    grids := s1.grids.map (fun p => (p.1, { p.2 with rest := f p.2.rest })) }

/-- A result of one of some relayouts. -/
def StoreEnt.isOf (e : StoreEnt) (jobs : List Nat) : Bool := match e.job with | some j => jobs.contains j | none => false

/-- The relayouts whose results a group has read. -/
def State.seenOf (s : State) (bk gk : Nat) : List Nat := match s.group bk gk with | some g => g.seen | none => []

/-- Bytes are home that follow the results of some relayouts, for their group had read those: they are not overwritten by them
(R295). -/
def State.overResults (s : State) (jobs keys : List Nat) (wins : List (Nat × Nat)) : State :=
  if jobs.isEmpty then s else s.mapStores (dropFrom keys wins (·.isOf jobs))

/-- A store reaches its home: that of a group of block `b` in partition `p`. Answers whether it has left its group. -/
def State.home (s : State) (b p : Nat) (e : StoreEnt) : State × Bool :=
  let after := fun (t : State) (wins : List (Nat × Nat)) => t.overResults e.org.past (e.bytes.map (·.key)) wins
  let mem := fun (c : Nat) =>
    let h := match s.block b with | some y => y.core | none => dieTlb ((s.diesOf p).headD 0)
    match s.writeVirt p h c e.bytes with
    | (s1, none) => (after s1 [], true)
    | (s1, some f) => s1.homeFault p c e.org f.1 f.2
  match e.dst with
  | .mem c => mem c
  | .priv c => mem c
  | .phys => (after (s.pokeSoft (e.bytes.map (fun y => (y.key, y.val)))) [], true)
  | .window t =>
    (after (s.modBlock t (fun x =>
      ({ x with window := SMap.setAll x.window (e.bytes.map (fun y => (y.at_, y.val))) } : Block).showBytes
        (e.bytes.map (fun y => { y with key := s.stamp })))) (e.bytes.map (fun y => (t, y.at_))), true)
  | .own => (s.modBlock b (fun x => x.showBytes e.bytes), true)

/-- The number of a block's cluster in its grid. -/
def Block.cluster (x : Block) : Nat := x.blkid / (if x.clusize = 0 then 1 else x.clusize)

/-- Stores of a list that `out` names leave it for their homes in order; from the first that must wait on, none does. Gives
those that stay. -/
def State.sendHome (s : State) (bk p : Nat) (out : StoreEnt → Bool) (l : List StoreEnt) : State × List StoreEnt :=
  let r := l.foldl (fun (a : State × List StoreEnt × Bool) e =>
    if out e && !a.2.2 then
      let h := a.1.home bk p e
      if h.2 then (h.1, overtaken a.2.1 e, false) else (h.1, a.2.1 ++ [e], true)
    else (a.1, a.2.1 ++ [e], a.2.2)) (s, [], false)
  (r.1, r.2.1)

/-- Stores of one group that `out` names leave its buffer for their homes. -/
def State.groupHome (s : State) (bk gk : Nat) (out : StoreEnt → Bool) : State :=
  match s.block bk, s.group bk gk with
  | some x, some g =>
    if g.stores.any out then
      let r := s.sendHome bk x.part out g.stores
      r.1.modGroup bk gk (fun y => { y with stores := r.2 })
    else s
  | _, _ => s

/-- The same for what groups have left in their block (R303). -/
def State.restHome (s : State) (bk : Nat) (out : StoreEnt → Bool) : State :=
  match s.block bk with
  | some x =>
    if x.rest.any out then
      let r := s.sendHome bk x.part out x.rest
      r.1.modBlock bk (fun y => { y with rest := r.2 })
    else s
  | none => s

/-- The published stores that `pick` names leave their groups' buffers for their homes, each group's in the order it
issued them. -/
def State.bringHome (s : State) (pick : Nat → Block → Nat → StoreEnt → Bool) : State :=
  s.allGroups.foldl (fun a q => a.groupHome q.1 q.2.2.1 (fun e => e.ready && pick q.1 q.2.1 q.2.2.1 e)) s

/-- The narrowest scope that covers the groups of two blocks of one context (R291). -/
def scopeOf (bk : Nat) (x : Block) (k : Nat) (y : Block) : Nat :=
  if k = bk then 1 else if y.grid = x.grid ∧ y.cluster = x.cluster then 2 else 3

/-- What a group has published at device scope or wider is home: before anything the group issues afterwards can be
seen at that scope (R294). -/
def State.flushAt (s : State) (bk gk : Nat) : State := s.bringHome (fun k _ g e => k == bk && g == gk && decide (3 ≤ e.pub))

def isOwn (e : StoreEnt) : Bool := match e.dst with | .own => true | _ => false

/-- What engines wrote into the block's own window for one of its groups is shown to the block, and then has the own-window
stores' way to other blocks (R290, R298). -/
def State.showEngine (s : State) (bk gk : Nat) (pick : StoreEnt → Bool) : State :=
  match s.group bk gk with
  | none => s
  | some g =>
    let new := fun (e : StoreEnt) => e.dst == .window bk && pick e
    if g.stores.any new then
      let l := (g.stores.filter new).flatMap (fun e => e.bytes.map (fun b => (b.at_, b.val)))
      let own := fun (e : StoreEnt) => if new e then
        { e with dst := .own, bytes := e.bytes.map (fun b => { b with key := s.stamp }) } else e
      (s.modGroup bk gk (fun y => { y with stores := y.stores.map own })).modBlock bk (fun x =>
        { x with window := SMap.setAll x.window l })
    else s

/-- The same for what groups have left in their block. -/
def State.showRest (s : State) (bk : Nat) (pick : StoreEnt → Bool) : State :=
  match s.block bk with
  | none => s
  | some x =>
    let new := fun (e : StoreEnt) => e.dst == .window bk && pick e
    if x.rest.any new then
      let l := (x.rest.filter new).flatMap (fun e => e.bytes.map (fun z => (z.at_, z.val)))
      let own := fun (e : StoreEnt) => if new e then
        { e with dst := .own, bytes := e.bytes.map (fun b => { b with key := s.stamp }) } else e
      s.modBlock bk (fun y => { y with window := SMap.setAll y.window l, rest := y.rest.map own })
    else s

/-- A group's boundary shows what it has waited on. -/
def State.showOwn (s : State) (bk gk : Nat) : State :=
  match s.group bk gk with
  | none => s
  | some g => s.showEngine bk gk g.mine

/-- A group that has read relayouts' results through descriptors publishes them with its own (R296). -/
def State.markRead (s : State) (bk gk scope : Nat) : State :=
  match s.group bk gk with
  | none => s
  | some g =>
    if g.seen.isEmpty then s else s.mapStores (·.map (fun e => if e.isOf g.seen then e.mark scope else e))

/-- A publishing boundary of a group (R292, R293). What it had published at device scope is home first, so that no later
store overtakes it. From cluster scope on it carries the own-window stores that block-mates have published to the block
(R296). At system scope, and for a system group from device scope on, the stores reach their homes at once (R226, R353) (DEDUCED, notes/assumptions/35.md). -/
def State.publishAt (s : State) (bk gk scope : Nat) : State :=
  let s1 := (s.flushAt bk gk).showOwn bk gk
  let s2 : State := match s1.block bk with
    | none => s1
    | some x =>
      if scope < 2 then s1
      else
        let a := (x.rest.filter isOwn).foldl (fun (t : State) e => (t.home bk x.part e).1) s1
        a.modBlock bk (fun y => { y with
          rest := y.rest.filter (fun e => !isOwn e)
          groups := y.groups.map (fun p => (p.1, { p.2 with stores := p.2.stores.map (fun e =>
            if isOwn e && decide (0 < e.pub) then e.mark scope else e) })) })
  let s3 := (s2.markRead bk gk scope).modGroup bk gk (fun g => g.publish scope)
  let sys : Bool := match s3.group bk gk with | some g => decide (0 < g.plevel) | none => false
  if decide (4 ≤ scope) || sys then s3.flushAt bk gk else s3

/-- An acquiring boundary of a group (R294): what the groups of its block, and from cluster scope on of its
cluster, have published at a scope that covers it is home. What groups further away have published at device scope is
home before they can show that they have gone on (DESIGN CHOICE, notes/assumptions/61.md). -/
def State.acquireOf (s : State) (bk : Nat) (x : Block) (gk scope : Nat) : State :=
  s.bringHome (fun k y g e =>
    let lv := scopeOf bk x k y
    !(k == bk && g == gk) && decide (lv ≤ 2 ∧ lv ≤ scope ∧ lv ≤ e.pub))

def State.acquire (s : State) (scope : Nat) : State := s.acquireOf s.bkey s.blk s.gkey scope

/-- The issuing group publishes, and what it has published at device scope or wider is home. -/
def State.release (s : State) (scope : Nat) : State := (s.publishAt s.bkey s.gkey scope).flushAt s.bkey s.gkey

/-- A boundary of the issuing group that publishes and acquires before anything else acts. -/
def State.boundary (s : State) (scope : Nat) : State := (s.release scope).acquire scope

/-! ### Barriers -/

/-- The scope of a barrier number: 0 to 15 block, 16 to 23 cluster, 24 to 27 grid (R291). -/
def barScope (b : Nat) : Nat := if b < 16 then 1 else if b < 24 then 2 else 3

/-- The barrier number of a field of class BAR (R145). -/
def barOf (f : BitVec 8) : Nat := (if f.toNat / 64 = 0 then 0 else if f.toNat / 64 = 1 then 16 else 24) + f.toNat % 16

def State.bar (s : State) (bk b : Nat) : Barrier :=
  match s.block bk with
  | none => .reset
  | some x =>
    if b < 16 then x.bars.getD b .reset
    else match s.grids.find x.grid with
      | none => .reset
      | some g => if b < 24 then ((g.cbs.find x.cluster).getD []).getD (b - 16) .reset else g.gbs.getD (b - 24) .reset

def State.setBar (s : State) (bk b : Nat) (r : Barrier) : State :=
  match s.block bk with
  | none => s
  | some x =>
    if b < 16 then s.modBlock bk (fun y => { y with bars := setNth y.bars b r })
    else if b < 24 then s.modGrid x.grid (fun g =>
      { g with cbs := g.cbs.put x.cluster (setNth ((g.cbs.find x.cluster).getD (List.replicate 8 .reset)) (b - 16) r) })
    else s.modGrid x.grid (fun g => { g with gbs := setNth g.gbs (b - 24) r })

/-- Whether a block shares a barrier with the block at `bk`. -/
def sharesBar (x : Block) (bk b key : Nat) (y : Block) : Bool :=
  if b < 16 then key == bk
  else y.grid == x.grid && (decide (24 ≤ b) || y.cluster == x.cluster)

/-- A fragment waiting for a phase of barrier `b` before `phase` is released. -/
def Fragment.release (f : Fragment) (b phase : Nat) : Fragment :=
  match f.st with
  | .barrier c ph => if c = b ∧ ph < phase then { f with st := .run } else f
  | _ => f

/-- A credit that a barrier has counted, of those it has taken. -/
def StoreEnt.counted (e : StoreEnt) (b used : Nat) : Bool :=
  match e.maker with | .credit c n => c == b && decide (n ≤ used) | _ => false

/-- The completion of a phase publishes what the credits it counts carry, at the barrier's scope (R298): for one group. What went
to another member's window then waits, for a block barrier, for a boundary of cluster scope (R290; DESIGN CHOICE,
notes/assumptions/87.md). -/
def State.creditGroup (s : State) (bk gk b used : Nat) : State :=
  (s.showEngine bk gk (fun e => e.counted b used)).modGroup bk gk (fun g =>
    { g with stores := g.stores.map (fun e =>
        if e.counted b used then { e with maker := .group, pub := Nat.max e.pub (barScope b) } else e) })

/-- The same for groups that have left their block. -/
def State.creditRest (s : State) (bk b used : Nat) : State :=
  match s.block bk with
  | none => s
  | some x =>
    if x.rest.any (·.counted b used) then
      let go := fun (e : StoreEnt) =>
        if e.counted b used then { e with maker := .group, pub := Nat.max e.pub (barScope b) } else e
      ((s.showRest bk (·.counted b used)).modBlock bk (fun y => { y with rest := y.rest.map go })).restHome bk (·.ready)
    else s

/-- The completion test of R27, after an arrival, an expect, a credit or a leave: the phase completes, its waiters are
released, and what the groups that share the barrier have published, and what its credits carry, is home (R294, R298). -/
def State.settle (s : State) (bk b : Nat) : State :=
  let r := s.bar bk b
  if r.a = r.m ∧ 0 < r.m ∧ r.x ≤ r.c then
    match s.block bk with
    | none => s
    | some x =>
      let used := r.used + r.x
      let s1 := s.setBar bk b { r with a := 0, c := r.c - r.x, x := 0, phase := r.phase + 1, used := used }
      let rel := fun (f : Fragment) => f.release b (r.phase + 1)
      let grp := fun (g : Group) => { g with frags := g.frags.map (fun p => (p.1, rel p.2)) }
      let blk := fun (k : Nat) (y : Block) =>
        if sharesBar x bk b k y then { y with groups := y.groups.map (fun p => (p.1, grp p.2)) } else y
      let s2 : State := { s1 with blocks := s1.blocks.map (fun p => (p.1, blk p.1 p.2)) }
      let s3 := if r.x = 0 then s2 else
        (s2.allGroups.filter (fun q => sharesBar x bk b q.1 q.2.1)).foldl (fun a q => a.creditGroup q.1 q.2.2.1 b used)
          ((s2.allBlocks.filter (fun q => sharesBar x bk b q.1 q.2)).foldl (fun a q => a.creditRest q.1 b used) s2)
      s3.bringHome (fun k y _ _ => sharesBar x bk b k y)
  else s

/-- A block has arrived at a cluster or grid barrier when every one of its groups has (R35). -/
def State.blockArrives (s : State) (bk b : Nat) : State :=
  match s.block bk with
  | none => s
  | some x =>
    let r := s.bar bk b
    if x.groups.length ≠ 0 ∧ x.groups.all (fun p => p.2.arrived.find b == some r.phase) ∧ x.carr.find b ≠ some r.phase then
      let s1 := s.modBlock bk (fun y => { y with carr := y.carr.put b r.phase })
      (s1.setBar bk b { r with a := r.a + 1 }).settle bk b
    else s

/-- A group's arrival is counted (R28); it publishes at the barrier's scope (R292). -/
def State.groupArrives (s : State) (bk gk b : Nat) : State :=
  let r := s.bar bk b
  let s1 := (s.publishAt bk gk (barScope b)).modGroup bk gk (fun g =>
    { g with pend := g.pend.del b, arrived := g.arrived.put b r.phase })
  if b < 16 then (s1.setBar bk b { r with a := r.a + 1 }).settle bk b else s1.blockArrives bk b

/-- A live fragment (R22): running or parked, not one that only waits for its group's tokens after `exit`. -/
def Fragment.live (f : Fragment) : Bool := match f.st with | .drain => false | _ => true

/-- Pending arrivals that are now complete: every live fragment has taken part or ended (R28). -/
def State.checkPend (s : State) (bk gk : Nat) : State :=
  match s.group bk gk with
  | none => s
  | some g =>
    (g.pend.filter (fun p => g.frags.all (fun f => !f.2.live || p.2.2.contains f.1))).foldl
      (fun a p => a.groupArrives bk gk p.1) s

/-! ### The code image of a block -/

def State.imageOf (s : State) (b : Block) : Option Image :=
  match s.grids.find b.grid with
  | none => none
  | some g =>
    let kd := (g.packet.getD 1 0).toNat
    s.images.find? (fun im => im.part == b.part && im.ctx == g.ctx && decide (im.kdLo ≤ kd) && decide (kd < im.kdHi))

/-- The partner address of R43: the last point's address in the other variant, plus the offset of PC from it here. -/
def State.partner (s : State) (b : Block) (f : Fragment) : W64 :=
  match f.partner, s.imageOf b with
  | some (d, l), some im =>
    let pd := im.dtext + BitVec.ofNat 64 d
    let pl := im.ltext + BitVec.ofNat 64 l
    if b.lcore then pd + (f.pc - pl) else pl + (f.pc - pd)
  | _, _ => 0

/-- The record of the issuing fragment's instruction, by its OP and SUB (DEDUCED, notes/assumptions/36.md). -/
def State.fragRec (s : State) (op : Nat × Nat) (f : FaultInfo) (replay : Bool) : List W64 :=
  recWords s.time f s.frag.pc (s.partner s.blk s.frag) s.blk.grid s.blk.blkid s.ctxid s.blk.core s.gkey s.grp.quad op.1 op.2
    replay s.blk.lcore

def Outst.ofIssuer (s : State) (cls : Nat) (page : Option Nat) : Outst :=
  { num := 0, cls := cls, ctx := s.ctxid, page := page, grid := some s.blk.grid, blk := s.bkey, grp := s.gkey, frag := s.fkey,
    queue := none, sched := false, seq := none }

/-- OP and SUB of an instruction as records show them. -/
def opOf (i : Instr) : Nat × Nat := i.opSub.getD (0, 0)

/-- What a record about a store of the issuing instruction will name: the lanes with the addresses they write (R350). -/
def State.origin (s : State) (i : Instr) (lanes : List (Nat × Nat)) : Origin :=
  ⟨s.blk.grid, s.blk.blkid, s.blk.core, s.gkey, s.grp.quad, s.frag.pc, s.partner s.blk s.frag, (opOf i).1, (opOf i).2, s.blk.lcore, lanes, s.grp.seen⟩

/-- A precise fault of the issuing fragment stops its group before the instruction takes effect (R344). -/
def State.precise (s : State) (op : Nat × Nat) (f : FaultInfo) : State :=
  let n := s.recNo
  let s1 := s.record s.blk.part (s.fragRec op f false) (some (.ofIssuer s f.cls none))
  { s1 with grp := { s1.grp with stop := .fault n } }

/-- A replayable fault of the issuing fragment: it waits on the page's record, made here when there is none
(R343, R345). It shows reason memory queue. A COLDTEXT fault is none of an issue's (R433). -/
def State.replay (s : State) (op : Nat × Nat) (f : FaultInfo) : State :=
  let page := f.addr.toNat >>> 16
  let t0 := if s.frag.replays = 0 then s.time else s.frag.began
  let fr := fun (n : Nat) => { s.frag with
    st := .fault n, why := 7, replays := if f.cls = 5 then s.frag.replays else s.frag.replays + 1
    began := if f.cls = 5 then s.frag.began else t0 }
  match s.waiting s.blk.part s.ctxid page with
  | some n => { s with frag := fr n }
  | none =>
    let s1 := s.record s.blk.part (s.fragRec op f true) (some (.ofIssuer s f.cls (some page)))
    { s1 with frag := fr s.recNo }

/-! ### User traps (R159, R184, R185, R341) -/

/-- TRAPACT is 1. -/
def Group.inTrap (g : Group) : Bool := g.trap.act != 0

/-- A double trap, or a trap without a handler (R184, R340, R342). -/
def State.doubleTrap (s : State) (op : Nat × Nat) : State :=
  if 0 < s.grp.plevel then
    { s.haltPart s.blk.part with grp := { s.grp with stop := .fault 0 } }
  else s.precise op ⟨8, 0, 0, s.frag.em, false⟩

/-- The trap registers an exception saves into (R159): the fields of the first word `w`. -/
def TrapRegs.save (t : TrapRegs) (cause ucode : Nat) (w pc em part : W64) : TrapRegs :=
  { t with
    pc := pc, em := em, part := part, act := 1
    op := BitVec.ofNat 64 (cause * 2 ^ 60 + ucode * 2 ^ 56 + bits w.toNat 0 26)
    d := BitVec.ofNat 64 (bits w.toNat 26 8), a := BitVec.ofNat 64 (bits w.toNat 34 8)
    b := BitVec.ofNat 64 (bits w.toNat 42 8), c := BitVec.ofNat 64 (bits w.toNat 50 8)
    mod := BitVec.ofNat 64 (bits w.toNat 58 6) }

/-- Taking a user trap: the registers of R159, TRAPACT, and the handler; a double trap when there is no way in. `w`
is the first word, whose low bits are OP and SUB. -/
def State.userTrap (s : State) (w : W64) (cause ucode : Nat) : State :=
  if s.grp.inTrap || s.grp.trap.hdl == 0 then s.doubleTrap (bits w.toNat 0 8, bits w.toNat 8 4)
  else
    { s with
      grp := { s.grp with
        trap := s.grp.trap.save cause ucode w s.frag.pc s.frag.em (s.partner s.blk s.frag), handler := s.fkey }
      frag := { s.frag with pc := s.grp.trap.hdl, why := 0 } }

/-- Returning from a user trap (R185). -/
def State.trapReturn (s : State) : State :=
  { s with
    grp := { s.grp with trap := { s.grp.trap with act := 0 }
                        frags := s.grp.frags.map (fun p => (p.1, { p.2 with inHandler := false })) }
    frag := { s.frag with pc := s.grp.trap.pc, em := s.grp.trap.em, inHandler := false } }

/-! ### Fragments and joins (R18 to R22) -/

/-- Where a fragment issues next: one that waits in `wait.y` at its continuation (R236). -/
def Fragment.nextPc (f : Fragment) : W64 := match f.st with | .waitY _ c => c | _ => f.pc

/-- The spilled fragment that is filled back first: running before parked, older before younger, by their creation (R22)
(DESIGN CHOICE, notes/assumptions/32.md). -/
def Group.nextFill (g : Group) : Option Nat :=
  let pick := fun (parked : Bool) =>
    ((g.frags.filter (fun p => p.2.spilled.isSome && (match p.2.st with | .parked _ => parked | _ => !parked))).foldl
      (fun (a : Option (Nat × Nat)) p => match a with
        | none => some (p.1, p.2.born)
        | some q => if q.2 ≤ p.2.born then a else some (p.1, p.2.born)) none).map (·.1)
  match pick false with
  | some k => some k
  | none => pick true

/-- Fill free split-table entries, `used` of the four being held by fragments that are not in the list (R22). -/
def Group.fillN : Nat → Group → Nat → Group
  | 0, g, _ => g
  | n + 1, g, used =>
    if (g.frags.filter (fun p => p.2.spilled.isNone)).length + used < 4 then
      match g.nextFill with
      | some k => Group.fillN n { g with frags := g.frags.mod k (fun f => { f with spilled := none }) } used
      | none => g
    else g

def Group.fill (g : Group) : Group := g.fillN 4 0

/-- The entry of the spill area that is free (R23). -/
def Group.freeEntry (g : Group) : Nat :=
  ((List.range 28).find? (fun k => g.frags.all (fun p => p.2.spilled != some k))).getD 28

/-- Spill one entry when a split finds the table full: the fragment parked earliest, else the one that last issued
earliest (R22). The issuing fragment has issued last, and is not in the list; `used` is the entry it holds. One that has never issued is taken to
have issued before every other: it is spilled first (DESIGN CHOICE, notes/assumptions/32.md). -/
def Group.spill (g : Group) (used : Nat) : Group :=
  let t := g.frags.filter (fun p => p.2.spilled.isNone)
  if t.length + used < 4 then g
  else
    let parked := t.filter (fun p => match p.2.st with | .parked _ => true | _ => false)
    let least := fun (key : Fragment → Nat) (l : List (Nat × Fragment)) => match l with
      | [] => none
      | x :: xs => some (xs.foldl (fun a b => if key a.2 ≤ key b.2 then a else b) x).1
    match (if parked.isEmpty then least (·.issued) t else least (·.parkedAt) parked) with
    | some k => { g with frags := g.frags.mod k (fun f => { f with spilled := some g.freeEntry }) }
    | none => g

/-- The index of the lowest set bit; 64 for none. -/
def lowLane (m : W64) : Nat := ((List.range 64).find? (fun i => m.getLsbD i)).getD 64

/-- A record leaves every stack and the join storage. -/
def Group.dropJoin (g : Group) (r : Nat) : Group :=
  { g with joins := g.joins.del r, frags := g.frags.map (fun p => (p.1, { p.2 with joins := p.2.joins.filter (· != r) })) }

/-- Parked at record `r`. -/
def Fragment.parkedOn (f : Fragment) (r : Nat) : Bool := match f.st with | .parked k => k == r | _ => false

/-- The fusion test of R20 on one record; gives the fragment that fused, if one did. The entry that survives keeps its
number, and with it its place in pending arrivals, its partner point and the phases it has arrived in (DESIGN CHOICE, notes/assumptions/65.md). -/
def Group.fuse (g : Group) (r : Nat) : Group × Option Nat :=
  match g.joins.find r with
  | none => (g, none)
  | some j =>
    if j.expected = 0 then (g.dropJoin r, none)
    else if j.parked = j.expected then
      let ms := g.frags.filter (fun p => p.2.parkedOn r)
      let win := ms.foldl (fun (a : Option (Nat × Fragment)) p => match a with
        | none => some p
        | some q => if lowLane q.2.em ≤ lowLane p.2.em then some q else some p) none
      match win with
      | none => (g.dropJoin r, none)
      | some w =>
        let f := { w.2 with em := j.expected, pc := j.addr, st := .run }
        let rest := g.frags.filter (fun p => !p.2.parkedOn r)
        let hd := if ms.any (fun p => p.1 == g.handler) then w.1 else g.handler
        ((({ g with frags := KL.put rest w.1 f, handler := hd } : Group).dropJoin r).fill, some w.1)
    else (g, none)

/-- Lanes leave records; each is tested for fusion. Gives the fragments that fused. -/
def Group.leaveJoins (g : Group) (em : W64) (l : List Nat) : Group × List Nat :=
  l.foldl (fun (a : Group × List Nat) r =>
    let g1 := { a.1 with joins := a.1.joins.mod r (fun j => { j with expected := j.expected &&& ~~~em }) }
    let x := g1.fuse r
    (x.1, a.2 ++ x.2.toList)) (g, [])

/-- R19 for fragments whose program counter may stand at a join of theirs; fused fragments are looked at in turn. -/
def Group.arrive : Nat → Group → Nat → List Nat → Group
  | 0, g, _, _ => g
  | _ + 1, g, _, [] => g
  | n + 1, g, now, i :: more =>
    match g.frags.find i with
    | none => g.arrive n now more
    | some f =>
      match f.joins.find? (fun r => match g.joins.find r with | some j => j.addr == f.pc | none => false) with
      | none => g.arrive n now more
      | some r =>
        let above := f.joins.takeWhile (· != r)
        let f1 := { f with st := .parked r, parkedAt := now, joins := f.joins.dropWhile (· != r) }
        let x := ({ g with frags := g.frags.put i f1 } : Group).leaveJoins f.em above
        let g2 := { x.1 with joins := x.1.joins.mod r (fun j => { j with parked := j.parked ||| f.em }) }
        let y := g2.fuse r
        y.1.arrive n now (x.2 ++ y.2.toList ++ more)

/-- How many joins a group can settle at once. -/
def joinFuel : Nat := 100

/-- Whether a fragment stands at a record of its join stack. -/
def State.atJoin (s : State) (pc : W64) : Bool :=
  s.frag.joins.any (fun r => match s.grp.joins.find r with | some j => j.addr == pc | none => false)

/-- Fragments of a group stand where they may join (R19); fusions may complete a pending arrival (R28). -/
def State.settleJoins (s : State) (bk gk : Nat) (l : List Nat) : State :=
  (s.modGroup bk gk (fun g => g.arrive joinFuel s.stamp l)).checkPend bk gk

/-- The issuing fragment's program counter moves; at a join of its stack it parks (R19). -/
def State.goto (s : State) (pc : W64) : State :=
  let s1 := { s with frag := { s.frag with pc := pc } }
  if s.atJoin pc then s1.stow.settleJoins s.bkey s.gkey [s.fkey] else s1

/-! ### Issue -/

end Sys2Proof.Machine

namespace Sys2Proof

/-- The words of an instruction, their length in bytes, and the tokens its WAIT names. -/
def Instr.word0 (i : Instr) : W64 := match encode i with | some (w, _) => w | none => 0

def Instr.len (i : Instr) : Nat := match encode i with | some (_, some _) => 16 | _ => 8

def Instr.waitBits (i : Instr) : BitVec 8 :=
  match i.cForm, i.jForm, i.mForm, i.tForm, i.xForm, i.kForm with
  | some (o, _), _, _, _, _, _ => o.wait
  | _, some (o, _), _, _, _, _ => o.wait
  | _, _, some (o, _), _, _, _ => o.wait
  | _, _, _, some (o, _), _, _ => o.wait
  | _, _, _, _, some (o, _), _ => o.wait
  | _, _, _, _, _, some (o, _) => o.wait
  | _, _, _, _, _, _ => 0

/-- The lane registers an instruction writes. -/
def Instr.vDests (i : Instr) : List VUse :=
  match i.cForm, i.mForm, i with
  | some (o, r), _, _ => if r.d = .v ∨ r.d = .w ∨ r.d = .r then i.vUses.filter (fun u => u.reg == o.d.toNat) else []
  | none, some (o, k), .ldG _ | none, some (o, k), .ldS _ | none, some (o, k), .ldP _ =>
    if k = .plain then i.vUses.filter (fun u => u.reg == o.d.toNat) else []
  | none, some (o, .atom), _ | none, some (o, .cas), _ => i.vUses.filter (fun u => u.reg == o.d.toNat)
  | none, none, .tldE o => i.vUses.filter (fun u => u.reg == o.d.toNat)
  | _, _, _ => []

end Sys2Proof

namespace Sys2Proof.Machine

/-- What keeps an instruction from taking effect. `hold` keeps it from issuing, with the reason of R430; `walked` says what
walks its checks have made, which stay made (R369). -/
inductive Stop where
  | hold (why : Nat)
  | trap (cause ucode : Nat)
  | double
  | precise (f : FaultInfo)
  | replay (f : FaultInfo)
  | engine (tok : Nat)
  | walked (l : List TlbEnt) (e : Stop)
  deriving DecidableEq, Repr

/-- UNDEF raised by an instruction's own rules (UCODE 8). -/
def undef8 : Stop := .trap 1 8

/-- Tokens of a mask, ascending. -/
def maskToks (m : BitVec 8) : List Nat := (List.range 8).filter (fun i => m.getLsbD i)

def Group.tok (g : Group) (t : Nat) : Token := g.toks.getD t .reset

/-- Some named token's operation is outstanding (R150). -/
def Group.waits (g : Group) (m : BitVec 8) : Bool := (maskToks m).any (fun t => (g.tok t).count != 0)

/-- The lowest named token with an error attached. -/
def Group.badTok (g : Group) (m : BitVec 8) : Option Nat := (maskToks m).find? (fun t => (g.tok t).err != 0)

/-- A load is on its way to a register the instruction names (R214). -/
def Group.loading (g : Group) (l : List VUse) : Bool :=
  l.any (fun u => g.loads.any (fun e => e.regs.any (fun r => decide (u.reg ≤ r ∧ r < u.reg + u.cnt))))

/-- The transform pipe is to reply to a register the instruction names (R255). -/
def Group.piped (g : Group) (l : List VUse) : Bool :=
  l.any (fun u => g.held.any (fun h => decide (h.1 < u.reg + u.cnt ∧ u.reg < h.1 + h.2)))

/-- The scoreboard holds a register the instruction names (R158 step 5, R214, R255, R273). -/
def Group.scored (g : Group) (l : List VUse) : Bool := g.loading l || g.piped l

/-- The reason of R430 of a fragment that the scoreboard holds: scoreboard, or transform pipe. -/
def Group.scoreWhy (g : Group) (l : List VUse) : Nat := if g.piped l && !g.loading l then 9 else 3

/-- The registers a fragment waiting at a rendezvous will be read for (R273): no other fragment of the group writes
them until then. -/
def Fragment.owes (f : Fragment) : List VUse :=
  match f.st with
  | .rendezvous _ _ o _ => [VUse.rng o.a 8, VUse.rng o.b 8] ++ (if o.hdr then [VUse.rng o.c 2] else [])
  | _ => []

/-- An atomic of the group has passes left (R224): what follows it in the group waits for them. -/
def Group.serving (g : Group) : Bool := g.loads.any (fun e => e.serve.isSome)

def VUse.meets (a b : VUse) : Bool := decide (a.reg < b.reg + b.cnt) && decide (b.reg < a.reg + a.cnt)

def Group.owed (g : Group) (l : List VUse) : Bool := g.frags.any (fun f => f.2.owes.any (fun a => l.any (VUse.meets a)))

/-- An engine error reaches the instruction that waits on its token (R80, R150): the error is cleared as it is
raised. -/
def State.engineFault (s : State) (i : Instr) (t : Nat) : State :=
  let k := s.grp.tok t
  ({ s with grp := { s.grp with toks := setNth s.grp.toks t { k with err := 0 } } } : State).precise (opOf i)
    ⟨7, k.err, k.addr, s.frag.em, false⟩

/-- A stop met by checks that led from `s` to `t`. -/
def State.stopAt (s t : State) (e : Stop) : Stop :=
  let l := s.newTlb t s.blk.part
  if l.isEmpty then e else .walked l e

/-- What checks that led from `s` to `t` leave when the instruction is stopped: their walks. -/
def State.kept (s t : State) : State := s.refill s.blk.part (s.newTlb t s.blk.part)

/-- The issuing fragment meets a stop (DEDUCED, notes/assumptions/38.md). -/
def State.stopped (s : State) (i : Instr) : Stop → State
  | .walked l e => (s.refill s.blk.part l).stopped i e
  | .hold why => { s with frag := { s.frag with why := why } }
  | .trap cause ucode => s.userTrap i.word0 cause ucode
  | .double => s.doubleTrap (opOf i)
  | .precise f => s.precise (opOf i) f
  | .replay f => s.replay (opOf i) f
  | .engine t => s.engineFault i t

/-- The group has waited on tokens, and they have drained (R298). -/
def Group.waited (g : Group) (m : BitVec 8) (now : Nat) : Group :=
  { g with waitAt := (maskToks m).foldl (fun l t => l.put t now) g.waitAt }

/-- The instruction issues: its place in the issue order, the starvation count (R397), the watchdog (R347), TSTART of
its block (R384). -/
def State.mark (s : State) : State :=
  { s with
    stamp := s.stamp + 1
    frag := { s.frag with issued := s.stamp, why := 0, replays := 0, jumped := false, tally := 0, bpSkip := none }
    grp := { s.grp with starve := 0, raised := false }
    blk := { s.blk with lastIss := s.time, tstart := some (s.blk.tstart.getD s.time) } }

/-- The state in which an instruction has issued, with the waits its WAIT names behind it. -/
def State.marked (s : State) (i : Instr) : State := { s.mark with grp := s.mark.grp.waited i.waitBits s.stamp }

/-- Issue an instruction whose own effect is `body`: the wait on tokens (R150), the scoreboard, then the effect in
the state in which it has issued, or what stops it (DESIGN CHOICE, notes/assumptions/59.md). -/
def issue (i : Instr) (s : State) (body : State → Except Stop State) : Host.Outcome State Fault Refusal :=
  if !s.iss then .fault .noIssuer
  else if s.grp.waits i.waitBits then .next (s.stopped i (.hold 4))
  else match s.grp.badTok i.waitBits with
    | some t => .next (s.engineFault i t)
    | none =>
      if s.grp.scored i.vUses || s.grp.owed i.vDests then .next (s.stopped i (.hold (s.grp.scoreWhy i.vUses)))
      else if s.grp.serving then .next (s.stopped i (.hold 7))
      else match body (s.marked i) with
        | .ok t => .next t
        | .error e => .next (s.stopped i e)

/-- The program counter passes the instruction. -/
def State.advance (s : State) (i : Instr) : State := s.goto (s.frag.pc + BitVec.ofNat 64 i.len)

end Sys2Proof.Machine
end

