-- ==== Sys2Proof/Machine/Operands.lean ====
section
/-!
DEFINITION. The operand forms: scalar registers and their typed reading (R165), masks (R190, R17), active lanes and
guards (R149), lane registers, pairs and substitutions (R146, R188, R192), and what writes them.
-/

namespace Sys2Proof.Machine

/-! ### Registers of the issuing group -/

/-- s[i]; s0 reads zero: no write ever lists it (R32). -/
def State.sreg (s : State) (i : BitVec 8) : W64 := if i = 0 then 0 else s.grp.sregs.get i.toNat

/-- s[i] := v; a write to s0 is discarded (R165). -/
def State.setS (s : State) (i : BitVec 8) (v : W64) : State :=
  if i = 0 then s else { s with grp := { s.grp with sregs := s.grp.sregs.set i.toNat v } }

/-- The lanes a group has: 64, or 32 in legacy-width mode (R17). -/
def laneMask (legacy : Bool) : W64 := if legacy then 0xFFFFFFFF#64 else 0xFFFFFFFFFFFFFFFF#64

/-- k[i]: k0 reads as all ones; absent lanes read as zero (R190, R17). -/
def State.kreg (s : State) (i : BitVec 8) : W64 :=
  (if i = 0 then 0xFFFFFFFFFFFFFFFF#64 else s.grp.kregs.get i.toNat) &&& laneMask s.blk.legacy

/-- k[i] := v, whole; writes to k0 and to absent lanes are discarded. -/
def State.setK (s : State) (i : BitVec 8) (v : W64) : State :=
  if i = 0 then s
  else { s with grp := { s.grp with kregs := s.grp.kregs.set i.toNat (v &&& laneMask s.blk.legacy) } }

/-- k[i] changed only in the bits of `act` (R190). -/
def State.setKLanes (s : State) (i : BitVec 8) (act v : W64) : State :=
  s.setK i ((s.kreg i &&& ~~~act) ||| (v &&& act))

/-- em AND NOT FMASK, of the issuing fragment (R111). -/
def State.live (s : State) : W64 := s.frag.em &&& ~~~s.grp.fmask

/-- The lanes on which a guarded instruction acts (R149). -/
def State.active (s : State) (guard : BitVec 4) (neg : Bool) : W64 :=
  let g := if guard = 0 then 0xFFFFFFFFFFFFFFFF#64 else if neg then ~~~(s.kreg (guard.setWidth 8)) else s.kreg (guard.setWidth 8)
  s.live &&& g

/-- v[r] of a lane. -/
def Group.v (g : Group) (r lane : Nat) : W32 := g.vregs.get (r * 64 + lane)

/-- The pair v[r]:v[r+1] of a lane, as a number (R188). -/
def Group.vpair (g : Group) (r lane : Nat) : Nat := (g.v r lane).toNat + 2 ^ 32 * (g.v (r + 1) lane).toNat

/-- Writes to lane registers, in order; entries are (register * 64 + lane, value). -/
def State.writeV (s : State) (l : List (Nat × W32)) : State :=
  { s with grp := { s.grp with vregs := SMap.setAll s.grp.vregs l } }

/-- The writes of one lane's result: a pair when `wide`. -/
def laneWrites (d : Nat) (wide : Bool) (lane v : Nat) : List (Nat × W32) :=
  if wide then [(d * 64 + lane, BitVec.ofNat 32 v), ((d + 1) * 64 + lane, BitVec.ofNat 32 (v >>> 32))]
  else [(d * 64 + lane, BitVec.ofNat 32 v)]

/-- OR status flags into FPSTAT (R134). -/
def State.raise (s : State) (f : Fl) : State := { s with grp := { s.grp with fpstat := s.grp.fpstat ||| f } }

end Sys2Proof.Machine

namespace Sys2Proof

/-! ### Typed integers (R144, R165, R192) -/

/-- The width X[1:0] names. -/
def COps.w (o : COps) : Nat := 8 * 2 ^ (o.x.toNat % 4)

/-- X[2] = 0: signed. -/
def COps.signed (o : COps) : Bool := o.x.toNat < 4

/-- opnd and lopnd: the low w bits, sign- or zero-extended. -/
def COps.opnd (o : COps) (x : Nat) : Int := if o.signed then sextI x o.w else ((x % 2 ^ o.w : Nat) : Int)

/-- result and lresult: y modulo 2^w, extended by the type to 64 bits. -/
def COps.result (o : COps) (y : Int) : W64 :=
  let r := (y % (2 ^ o.w : Nat)).toNat
  if o.signed then sext64 r o.w else BitVec.ofNat 64 r

end Sys2Proof

namespace Sys2Proof.Machine

/-- B of a scalar instruction: s[B], or IMM32 sign-extended (R146, R165). -/
def State.sB (s : State) (o : COps) : W64 := match o.imm with | some w => sext64 w.toNat 32 | none => s.sreg o.b

/-! ### Lane operands (R146, R188) -/

/-- Operand A of a lane, in 64 bits when `wide`, else in 32. -/
def State.lA (s : State) (o : COps) (wide : Bool) (i : Nat) : Nat :=
  if o.sa then (if wide then (s.sreg o.a).toNat else (s.sreg o.a).toNat % 2 ^ 32)
  else if wide then s.grp.vpair o.a.toNat i else (s.grp.v o.a.toNat i).toNat

/-- Operand B of a lane: register, scalar register or IMM32 sign-extended. -/
def State.lB (s : State) (o : COps) (wide : Bool) (i : Nat) : Nat :=
  match o.imm with
  | some w => if wide then (sext64 w.toNat 32).toNat else w.toNat % 2 ^ 32
  | none =>
    if o.sb then (if wide then (s.sreg o.b).toNat else (s.sreg o.b).toNat % 2 ^ 32)
    else if wide then s.grp.vpair o.b.toNat i else (s.grp.v o.b.toNat i).toNat

/-- Operand C of a lane. -/
def State.lC (s : State) (o : COps) (wide : Bool) (i : Nat) : Nat :=
  if o.sc then (if wide then (s.sreg o.c).toNat else (s.sreg o.c).toNat % 2 ^ 32)
  else if wide then s.grp.vpair o.c.toNat i else (s.grp.v o.c.toNat i).toNat

/-- Every active lane i writes `f i` to D, all operands having been read (R187). -/
def State.mapLanes (s : State) (o : COps) (wide : Bool) (f : Nat → Nat) : State :=
  s.writeV ((lanesOf (s.active o.guard o.neg)).flatMap (fun i => laneWrites o.d.toNat wide i (f i)))

/-- Every active lane i writes the value of `f i` and raises its flags. -/
def State.mapFlags (s : State) (o : COps) (wide : Bool) (f : Nat → Nat × Fl) : State :=
  let l := (lanesOf (s.active o.guard o.neg)).map (fun i => (i, f i))
  (s.writeV (l.flatMap (fun p => laneWrites o.d.toNat wide p.1 p.2.1))).raise (l.foldl (fun a p => a ||| p.2.2) 0)

end Sys2Proof.Machine
end

