-- ==== Sys2Proof/Machine/Float.lean ====
section
/-!
DEFINITION. Lane floating-point and conversion instructions: majors 0x60 to 0x65 (R201 to R209).
-/

namespace Sys2Proof.Machine

/-- The rounding mode X[1:0] names (R144). -/
def rmOf (o : COps) : RM := RM.of o.x.toNat

/-- A binary32 operation on each active lane: encodings of A, B and C to result and flags. -/
def f32Op (i : Instr) (o : COps) (s : State) (f : RM → Nat → Nat → Nat → Nat × Fl) : Host.Outcome State Fault Refusal :=
  issue i s (fun s => .ok ((s.mapFlags o false (fun l =>
    f (rmOf o) (s.lA o false l) (s.lB o false l) (s.lC o false l))).advance i))

/-- The eight operations that 0x60, 0x62 and 0x63 share (R201, R205), in format F. -/
def packOne (f : Flt) (op : PackOp) (rm : RM) (a b c : Nat) : Nat × Fl :=
  match op with
  | .add => f.add rm (f.decode a) (f.decode b)
  | .sub => f.add rm (f.decode a) (f.decode b).flip
  | .mul => f.mul rm (f.decode a) (f.decode b)
  | .fma => f.fma rm (f.decode a) (f.decode b) (f.decode c)
  | .min => f.minmax false a b
  | .max => f.minmax true a b
  | .abs => (a % 2 ^ (f.width - 1), 0)
  | .neg => (a ^^^ 2 ^ (f.width - 1), 0)

def execAddF32 (o : COps) (s : State) := f32Op (.addF32 o) o s (packOne .f32 .add)
def execSubF32 (o : COps) (s : State) := f32Op (.subF32 o) o s (packOne .f32 .sub)
def execMulF32 (o : COps) (s : State) := f32Op (.mulF32 o) o s (packOne .f32 .mul)
def execFmaF32 (o : COps) (s : State) := f32Op (.fmaF32 o) o s (packOne .f32 .fma)
def execMinF32 (o : COps) (s : State) := f32Op (.minF32 o) o s (packOne .f32 .min)
def execMaxF32 (o : COps) (s : State) := f32Op (.maxF32 o) o s (packOne .f32 .max)
def execAbsF32 (o : COps) (s : State) := f32Op (.absF32 o) o s (packOne .f32 .abs)
def execNegF32 (o : COps) (s : State) := f32Op (.negF32 o) o s (packOne .f32 .neg)

def execDivF32 (o : COps) (s : State) := f32Op (.divF32 o) o s (fun rm a b _ => Flt.f32.div rm (Flt.f32.decode a) (Flt.f32.decode b))
def execSqrtF32 (o : COps) (s : State) := f32Op (.sqrtF32 o) o s (fun rm a _ _ => Flt.f32.sqrt rm (Flt.f32.decode a))
def execRcpF32 (o : COps) (s : State) := f32Op (.rcpF32 o) o s (fun rm a _ _ => Flt.f32.rcp rm (Flt.f32.decode a))
def execRsqrtF32 (o : COps) (s : State) := f32Op (.rsqrtF32 o) o s (fun rm a _ _ => Flt.f32.rsqrt rm (Flt.f32.decode a))
def execExp2F32 (o : COps) (s : State) := f32Op (.exp2F32 o) o s (fun rm a _ _ => Flt.f32.exp2 rm (Flt.f32.decode a))
def execLog2F32 (o : COps) (s : State) := f32Op (.log2F32 o) o s (fun rm a _ _ => Flt.f32.log2 rm (Flt.f32.decode a))
def execSinF32 (o : COps) (s : State) := f32Op (.sinF32 o) o s (fun rm a _ _ => Flt.f32.sin rm (Flt.f32.decode a))
def execCosF32 (o : COps) (s : State) := f32Op (.cosF32 o) o s (fun rm a _ _ => Flt.f32.cos rm (Flt.f32.decode a))
def execTanhF32 (o : COps) (s : State) := f32Op (.tanhF32 o) o s (fun rm a _ _ => Flt.f32.tanh rm (Flt.f32.decode a))

/-- Two elements per register, each on its own (R205). -/
def packTwo (f : Flt) (op : PackOp) (rm : RM) (a b c : Nat) : Nat × Fl :=
  let x := packOne f op rm (a % 65536) (b % 65536) (c % 65536)
  let y := packOne f op rm (a / 65536) (b / 65536) (c / 65536)
  (x.1 + 65536 * y.1, x.2 ||| y.2)

def execPackedF16Arith (op : PackOp) (o : COps) (s : State) := f32Op (.packedF16Arith op o) o s (packTwo .f16 op)
def execPackedBf16Arith (op : PackOp) (o : COps) (s : State) := f32Op (.packedBf16Arith op o) o s (packTwo .bf16 op)

/-- The float compare (R206): X[1:0] names the type, C[0] the element. -/
def execFloatCmp (cc : FCond) (o : COps) (s : State) := issue (.floatCmp cc o) s (fun s =>
  let t := o.x.toNat % 4
  if t = 3 then .error undef8
  else
    let f : Flt := if t = 0 then .f32 else if t = 1 then .f16 else .bf16
    let el := fun (x : Nat) => if t = 0 then x else if o.c.getLsbD 0 then x / 65536 else x % 65536
    let act := s.active o.guard o.neg
    let rs := (lanesOf act).map (fun l => (l, f.compare cc (el (s.lA o false l)) (el (s.lB o false l))))
    .ok (((s.setKLanes o.d act (maskOf ((rs.filter (fun p => p.2.1)).map (·.1)))).raise
      (rs.foldl (fun a p => a ||| p.2.2) 0)).advance (.floatCmp cc o)))

/-- `cvt` (R207 to R209). -/
def execCvt (o : COps) (s : State) := issue (.cvt o) s (fun s =>
  let dt := o.c.toNat / 16
  let st := o.c.toNat % 16
  let nosat := o.x.getLsbD 2
  if dt = 13 ∨ st = 13 ∨ (nosat ∧ dt ≠ 11 ∧ dt ≠ 12) then .error undef8
  else .ok ((s.mapFlags o (is64 dt) (fun l => cvtOne dt st (rmOf o) nosat (s.lA o (is64 st) l))).advance (.cvt o)))

end Sys2Proof.Machine
end

