-- ==== Sys2Proof/Machine/Life.lean ====
section
/-!
DEFINITION. The life of groups, blocks, clusters and grids: placing and starting groups (R31 to R33, R390), barriers
and their phases (R27 to R30, R228, R229), fragments' and groups' ends (R21, R30, R179), retirement, completion and its
writes (R303, R383 to R385, R459), the ending of grids (R357, R388), kills (R116, R117).
-/

namespace Sys2Proof.Machine

/-! ### Packets and kernel descriptors -/

/-- Fields of a grid's launch packet (R379) and kernel descriptor (R311). -/
def Grid.pk (g : Grid) (lo n : Nat) : Nat := wbits g.packet lo n
def Grid.kdb (g : Grid) (lo n : Nat) : Nat := wbits g.kd lo n
def Grid.recAddr (g : Grid) : Nat := g.pk 320 64
def Grid.recLen (g : Grid) : Nat := g.pk 384 32

/-! ### Leaving barriers -/

/-- A group leaves every barrier (R30); its block may thereby arrive at cluster and grid barriers. -/
def State.leaveBars (s : State) (bk : Nat) (g : Group) : State :=
  let s1 := (List.range 16).foldl (fun (a : State) b =>
    let r := a.bar bk b
    let back := if g.arrived.find b = some r.phase then 1 else 0
    (a.setBar bk b { r with m := r.m - 1, a := r.a - back }).settle bk b) s
  ((List.range 12).map (16 + ·)).foldl (fun (a : State) b => a.blockArrives bk b) s1

/-! ### Resources of cores (R4, R33, R390) -/

def slotsPerQuad (lcore : Bool) : Nat := if lcore then 8 else 16
def coreQuads (lcore : Bool) : Nat := if lcore then 1 else 4
def coreVblks (lcore : Bool) : Nat := if lcore then 128 else 256
def coreWin64 (lcore : Bool) : Nat := if lcore then 512 else 1536

/-- Blocks resident on a core, retired ones that keep their window included. -/
def State.onCore (s : State) (c : Nat) : List (Nat × Block) := s.allBlocks.filter (fun p => p.2.core == c)

/-- Groups resident on a core. -/
def State.coreGroups (s : State) (c : Nat) : List Group :=
  (s.onCore c).flatMap (fun p => (s.groupsOf p.1).map (·.2))

/-- Group slots taken, as (quadrant, slot); system slots of an L-core count on from 8 (R339). -/
def State.slotsTaken (s : State) (c : Nat) : List (Nat × Nat) := (s.coreGroups c).map (fun g => (g.quad, g.slot))

def State.vblksTaken (s : State) (c : Nat) : List Nat := (s.coreGroups c).flatMap (·.vblk)

/-- The n lowest free blocks of 16 lane registers of a core (DESIGN CHOICE, notes/assumptions/18.md). -/
def State.freeVblks (s : State) (c : Nat) (lcore : Bool) (n : Nat) : List Nat :=
  ((List.range (coreVblks lcore)).filter (fun i => !(s.vblksTaken c).contains i)).take n

/-- How many system slots each L-core has (SYSSLOT of R453). -/
def State.sysSlots (s : State) : Nat := bits (s.husk.record.getD 3 0).toNat 44 4

/-- The free slots of a quadrant: user slots, or the system slots that an L-core alone has (R339). -/
def State.freeSlots (s : State) (taken : List (Nat × Nat)) (lcore sup : Bool) (q : Nat) : List Nat :=
  let all := if sup then (if lcore then (List.range s.sysSlots).map (8 + ·) else []) else List.range (slotsPerQuad lcore)
  all.filter (fun i => !taken.contains (q, i))

/-- Whether an accumulator-using block other than `bk` has a group in a quadrant of a core (R97). -/
def State.accTaken (s : State) (c bk q : Nat) : Bool :=
  (s.onCore c).any (fun p => p.1 != bk && p.2.acc && (s.groupsOf p.1).any (fun g => g.2.quad == q))

/-- The quadrants of a core in which no group of a block may be placed: those whose accumulators another block holds, when
the block uses them (R97) (DEDUCED, notes/assumptions/22.md). -/
def State.shut (s : State) (c bk : Nat) (lcore acc : Bool) : List Nat :=
  if acc then (List.range (coreQuads lcore)).filter (fun q => s.accTaken c bk q) else []

/-- The free slots of a quadrant in which groups may be placed. -/
def State.openSlots (s : State) (taken : List (Nat × Nat)) (no : List Nat) (lcore sup : Bool) (q : Nat) : List Nat :=
  if no.contains q then [] else s.freeSlots taken lcore sup q

/-- The quadrant with the most free slots, the lowest on a tie (R33). -/
def State.bestQuad (s : State) (taken : List (Nat × Nat)) (no : List Nat) (lcore sup : Bool) : Nat :=
  (List.range (coreQuads lcore)).foldl (fun b q =>
    if (s.openSlots taken no lcore sup b).length < (s.openSlots taken no lcore sup q).length then q else b) 0

/-- Places for more groups, by their numbers, in quadrants not in `no` (R33); none when they do not all fit. -/
def State.places (s : State) (lcore sup quadk : Bool) (no : List Nat) : List Nat → List (Nat × Nat) → Option (List (Nat × Nat))
  | [], _ => some []
  | g :: gs, taken =>
    let q := if quadk && !lcore then g % 4 else s.bestQuad taken no lcore sup
    match s.openSlots taken no lcore sup q with
    | [] => none
    | i :: _ =>
      match s.places lcore sup quadk no gs ((q, i) :: taken) with
      | none => none
      | some l => some ((q, i) :: l)

/-- The lowest window base with room for n units of 64 KiB on a core (DESIGN CHOICE, notes/assumptions/68.md: R96 gives no place). -/
def State.winBase (s : State) (c : Nat) (lcore : Bool) (n : Nat) : Option Nat :=
  let used := (s.onCore c).map (fun p => (p.2.winbase, p.2.winbase + p.2.winsize / 65536))
  (0 :: used.map (·.2)).foldl (fun (b : Option Nat) x =>
    if x + n ≤ coreWin64 lcore ∧ used.all (fun u => decide (x + n ≤ u.1 ∨ u.2 ≤ x ∨ n = 0)) then
      (match b with | some y => some (if x < y then x else y) | none => some x)
    else b) none

/-! ### Starting groups (R31, R32) -/

/-- Where a block's code object lies; text bases 0 for code that no loader has placed (DESIGN CHOICE, notes/assumptions/13.md). -/
def State.codeOf (s : State) (x : Block) : Image := (s.imageOf x).getD ⟨x.part, 0, 0, 0, 0, 0, []⟩

/-- The handler and entry of the running variant (R311). -/
def Grid.entry (g : Grid) (im : Image) (lcore : Bool) : W64 :=
  if lcore then im.ltext + BitVec.ofNat 64 (g.kdb 160 32) else im.dtext + BitVec.ofNat 64 (g.kdb 128 32)

def Grid.handler (g : Grid) (im : Image) (lcore : Bool) : W64 :=
  let h := if lcore then g.kdb 288 32 else g.kdb 256 32
  if h = 0xFFFFFFFF then 0 else (if lcore then im.ltext else im.dtext) + BitVec.ofNat 64 h

/-- The bytes of a group's private allocation, spill area included (R23, R95). -/
def privBytes (p : Nat) : Nat := cdiv (1024 + p * 64) 256 * 256

/-- A group as it starts (R32): place, registers and entry given. -/
def startGroup (quad slot plevel : Nat) (role : BitVec 2) (vblk : List Nat) (pc hdl em : W64) (pbase since : Nat)
    (args : List (Nat × W64)) : Group :=
  { Group.reset with
    slot := slot, quad := quad, plevel := plevel, role := role, vblk := vblk, pbase := pbase, since := since
    sregs := SMap.setAll [] args
    trap := { TrapRegs.reset with hdl := hdl }
    frags := [(0, { Fragment.reset with pc := pc, em := em })] }

/-- Put a started group into a block, with its private memory: the next range of its context's addresses below those given
before (R95; DESIGN CHOICE, notes/assumptions/12.md). -/
def State.addGroup (s : State) (bk gid : Nat) (pl : Nat × Nat) (plevel : Nat) (role : BitVec 2) (pc hdl em : W64)
    (args : List (Nat × W64)) (arrived : KL Nat) : State :=
  match s.block bk with
  | none => s
  | some x =>
    let v := s.freeVblks x.core x.lcore x.regblk
    let bump := (s.part x.part).pbump + privBytes x.priv
    let base := 2 ^ 55 - bump
    let g := startGroup pl.1 pl.2 plevel role v pc hdl em base s.stamp args
    let s1 := s.modBlock bk (fun y => { y with groups := y.groups.put gid { g with arrived := arrived } })
    { s1.modPart x.part (fun y => { y with pbump := bump }) with stamp := s.stamp + 1 }

/-! ### Discarding operations (R116, R357) -/

/-- A slab's hold is released at the entry's home (R119, R374). Holds are kept as keys of entries. Of an entry that is poisoned
nothing is read (R115). -/
def State.releaseHold (s : State) (key : Nat) : State :=
  let w := s.mem.word key
  let h := bits w.toNat 12 20
  if h = 0 ∨ s.poisoned key 8 then s else s.pokeBytes key (leBytes (w.toNat - 4096) 8)

/-- Outstanding operations of a block are discarded. -/
def State.discard (s : State) (bk : Nat) : State :=
  let slabs := s.cores.flatMap (fun p => (p.2.rels.filter (fun r => r.2.blk == bk)).flatMap (fun r => r.2.slabs))
  let c := fun (x : Core) => { x with
    jobs := x.jobs.filter (fun j => j.parts.all (fun q => q.blk != bk))
    pipe := x.pipe.filter (fun j => j.blk != bk)
    rels := x.rels.filter (fun j => j.2.blk != bk)
    copies := x.copies.filter (fun j => j.2.blk != bk)
    memOpen := x.memOpen.filter (fun j => j.blk != bk) }
  slabs.foldl (fun a k => a.releaseHold k) { s with cores := s.cores.map (fun p => (p.1, c p.2)) }

/-! ### Records that belong to no group (R458) and the writes of completion (R459) -/

/-- A record of R458. -/
def schedWords (s : State) (cls detail ctx grid : Nat) (addr : W64) (replay write : Bool) : List W64 :=
  recWords s.time ⟨cls, detail, addr, 0, write⟩ 0 0 grid 0 ctx 0 0 0 0 0 replay false

/-- Write a notice. -/
def State.notice (s : State) (p cls detail ctx grid : Nat) (addr : W64) (write : Bool) : State :=
  s.record p (schedWords s cls detail ctx grid addr false write) none

/-- Wait on a page's record, made when there is none: the number of the record. -/
def State.schedMiss (s : State) (p ctx : Nat) (grid queue : Option Nat) (addr : Nat) (write : Bool) : State × Nat :=
  match s.waiting p ctx (addr >>> 16) with
  | some n => (s, n)
  | none =>
    let o : Outst := ⟨0, 1, ctx, some (addr >>> 16), grid, 0, 0, 0, queue, true, none⟩
    (s.record p (schedWords s 1 0 ctx (match grid with | some g => g | none => 0) (BitVec.ofNat 64 addr) true write) (some o),
      s.recNo)

/-- What a failed translation writes as CLASS and DETAIL. -/
def XFault.cls : XFault → Nat × Nat
  | .miss => (1, 0)
  | .poison => (6, 0)
  | .prot d => (2, d)
  | .fetch => (4, 0)
  | .cold => (5, 0)

/-- A store to a window, or what is shown of the own one. -/
def StoreEnt.toWindow (e : StoreEnt) : Bool := match e.dst with | .window _ | .own => true | _ => false

/-- Every store that a block's groups have made reaches its home, private ones and engine results with the others; one whose
page is gone waits among its grid's, as the grid's completion publishes them (R117, R303, R459) (DEDUCED, notes/assumptions/25.md). -/
def State.flushBlock (s : State) (bk : Nat) : State :=
  match s.blocks.find bk with
  | none => s
  | some x =>
    let l := x.groups.flatMap (fun g => g.2.stores) ++ x.rest
    let clear := s.modBlock bk (fun y => { y with rest := [], groups := y.groups.map (fun g => (g.1, { g.2 with stores := [] })) })
    let a := clear.sendHome bk x.part (·.toWindow) l
    let r := a.1.sendHome bk x.part (fun _ => true) a.2
    r.1.modGrid x.grid (fun g => { g with rest := g.rest ++ r.2.map (fun e => { e with pub := 4 }) })

/-- A block's window goes back to its core's storage, with what the block left in it (R93; DESIGN CHOICE, notes/assumptions/18.md). -/
def State.keepWindow (s : State) (x : Block) : State :=
  let lo := x.winbase * 65536
  s.modCore x.core (fun c => { c with
    free := SMap.setAll (c.free.filter (fun e => decide (e.1 < lo ∨ lo + x.winsize ≤ e.1))) (x.window.map (fun e => (lo + e.1, e.2))) })

/-- The grid's first block started no later than one of its blocks (R383). -/
def Grid.begun (g : Grid) (t : Option Nat) : Grid :=
  { g with tstart := match g.tstart, t with | some a, some b => some (Nat.min a b) | a, none => a | none, b => b }

/-- Free a grid's blocks: their groups stop, what they had in flight is discarded, and what they have stored is published
(R357, R383). -/
def State.dropBlocks (s : State) (gk : Nat) : State :=
  let s1 := (s.blocks.filter (fun p => p.2.grid == gk)).foldl (fun a p =>
    let b := (a.flushBlock p.1).discard p.1
    (match b.blocks.find p.1 with | some x => b.keepWindow x | none => b).modGrid gk (fun g => g.begun p.2.tstart)) s
  { s1 with blocks := s1.blocks.filter (fun p => p.2.grid != gk) }

/-- A block's retirement takes effect (R30, R35, R303): its stores have reached cluster scope, the rest go on with the grid;
it leaves the cluster and grid barriers, and the last of its cluster releases every window of it: a relayout still in flight then, which
only credits can be waiting for, is given up (DESIGN CHOICE, notes/assumptions/73.md). -/
def State.retireNow (s : State) (bk : Nat) : State :=
  match s.blocks.find bk with
  | none => s
  | some x =>
    let later := x.rest
    let s1 := s
    let s2 := s1.modBlock bk (fun y => { y with retired := true, rest := [] })
    let s3 := s2.modGrid x.grid (fun g => { g with rest := g.rest ++ later, retired := g.retired + 1 })
    let s4 := ((List.range 12).map (16 + ·)).foldl (fun (a : State) b =>
      let r := a.bar bk b
      let back := if x.carr.find b = some r.phase then 1 else 0
      (a.setBar bk b { r with m := r.m - 1, a := r.a - back }).settle bk b) s3
    let mates := s4.blocks.filter (fun p => p.2.grid == x.grid && p.2.cluster == x.cluster)
    if mates.all (fun p => p.2.retired) then
      let s5 := mates.foldl (fun (a : State) m => (a.discard m.1).keepWindow m.2) s4
      { s5 with blocks := s5.blocks.filter (fun p => !(p.2.grid == x.grid && p.2.cluster == x.cluster)) }
    else s4

/-- One write to memory through a grid's context: done, dropped with a notice, or waiting on a record (R459). An address that
is not virtual is an invalid one. -/
def State.gridWrite (s : State) (gk : Nat) (g : Grid) (va : Nat) (acc : Acc) (f : State → Nat → List Byte) : State × Option Nat :=
  let p := gridPart gk
  let h := s.schedTlb p
  if 2 ^ 55 ≤ va then (s.notice p 2 4 g.ctx gk (BitVec.ofNat 64 va) true, none)
  else match s.xlate p h g.ctx va acc with
  | (s1, .ok x) =>
    let bs := f s1 x.key
    let bad := acc = .atomic ∧ s1.poisoned x.key bs.length
    if bad then (s1.notice p 6 0 g.ctx gk (BitVec.ofNat 64 va) true, none)
    else
      let l := (seqFrom 0 bs).map (fun q => (⟨va + q.1, x.key + q.1, q.2⟩ : StoreByte))
      (match s1.writeVirt p h g.ctx l with
       | (s2, none) => (s2, none)
       | (s2, some f) => (s2.notice p f.2.cls.1 f.2.cls.2 g.ctx gk (BitVec.ofNat 64 f.1) true, none))
  | (s1, .error .miss) => let r := s1.schedMiss p g.ctx (some gk) none va true; (r.1, some r.2)
  | (s1, .error e) => (s1.notice p e.cls.1 e.cls.2 g.ctx gk (BitVec.ofNat 64 va) true, none)

/-- An ended context is gone when the last of its grids is. -/
def State.reap (s : State) (p c : Nat) : State :=
  if s.ctxIs p c .ended && !(s.grids.any (fun q => gridPart q.1 == p && q.2.ctx == c)) then
    s.modPart p (fun y => { y with ctxs := y.ctxs.del c, tlb := y.tlb.filter (fun t => t.ctx != c) })
  else s

/-- The record that a store which cannot be made waits on. -/
def State.storeWaits (s : State) (p : Nat) (e : StoreEnt) : Option Nat :=
  let c := match e.dst with | .mem c => c | .priv c => c | _ => 0
  (e.bytes.map (fun b => s.waiting p c (b.at_ / 65536))).findSome? id

/-- One step of a chain: done, or not yet, or waiting on a record. -/
def State.takeStep (s : State) (gk : Nat) (g : Grid) : Pending → State × Bool × Option Nat
  | .write va data => let r := s.gridWrite gk g va.toNat .store (fun _ _ => data); (r.1, r.2.isNone, r.2)
  | .count va k =>
    let r := s.gridWrite gk g va.toNat .atomic (fun a key => leBytes (a.mem.word key + k).toNat 8)
    (r.1, r.2.isNone, r.2)
  | .irq v => ({ s with irqs := s.irqs ++ [(gridPart gk, v)] }, true, none)
  | .publish bk =>
    (match s.blocks.find bk with
     | none => (s, true, none)
     | some x =>
       match x.rest.find? (fun e => decide (e.need ≤ 2)) with
       | none => (s, true, none)
       | some e =>
         let h := s.home bk x.part e
         if h.2 then (h.1.modBlock bk (fun y => { y with rest := sentFrom y.rest e }), false, none)
         else (h.1, false, h.1.storeWaits x.part e))
  | .retire bk => (s.retireNow bk, true, none)
  | .publishGrid =>
    (match g.rest with
     | [] => (s, true, none)
     | e :: rest =>
       let h := s.home 0 (gridPart gk) e
       if h.2 then (h.1.modGrid gk (fun y => { y with rest := rest }), false, none)
       else (h.1, false, h.1.storeWaits (gridPart gk) e))
  | .finish => (({ s with grids := s.grids.del gk } : State).reap (gridPart gk) g.ctx, true, none)

/-- Take the steps of one chain of a grid in order, until one waits (R459). While its context is halted nothing is written
(R415). -/
def State.pump : Nat → State → Nat → Nat → State
  | 0, s, _, _ => s
  | n + 1, s, gk, id =>
    match s.grids.find gk with
    | none => s
    | some g =>
      if s.ctxIs (gridPart gk) g.ctx .halted then s
      else match g.todo.find id with
      | none => s
      | some c =>
        match c.held, c.steps with
        | some _, _ => s
        | none, [] => s.modGrid gk (fun y => { y with todo := y.todo.del id })
        | none, t :: rest =>
          match s.takeStep gk g t with
          | (s1, _, some k) => s1.modGrid gk (fun y => { y with todo := y.todo.mod id (fun q => { q with held := some k }) })
          | (s1, true, none) => State.pump n (s1.modGrid gk (fun y => { y with todo := y.todo.mod id (fun q => { q with steps := rest }) })) gk id
          | (s1, false, none) => State.pump n s1 gk id

def pumpFuel : Nat := 100000

/-- Take every chain of a grid as far as it goes. -/
def State.pumpAll (s : State) (gk : Nat) : State :=
  match s.grids.find gk with
  | none => s
  | some g => g.todo.foldl (fun a c => State.pump pumpFuel a gk c.1) s

/-- Add a chain of steps to a grid and take them; those of a block follow what its chain still has to do (R385). -/
def State.todo (s : State) (gk : Nat) (bk : Option Nat) (l : List Pending) : State :=
  match s.grids.find gk with
  | none => s
  | some g =>
    match g.todo.find? (fun c => bk.isSome && c.2.blk == bk) with
    | some c => State.pump pumpFuel (s.modGrid gk (fun y => { y with todo := y.todo.mod c.1 (fun q => { q with steps := q.steps ++ l }) })) gk c.1
    | none =>
      let id := match g.todo.getLast? with | some c => c.1 + 1 | none => 0
      State.pump pumpFuel (s.modGrid gk (fun y => { y with todo := y.todo.put id ⟨l, none, bk⟩ })) gk id

/-- The 64-byte record of a block (R384). -/
def blockRec (s : State) (x : Block) : List Byte :=
  wordsLe (packWords 8 [(1, 0), (x.core % 64, 236), (x.core / 64, 242), (x.runs, 244), (x.nfm % 256, 248), (x.blkid, 256),
    (x.nPart % 2 ^ 32, 288), (x.nFull % 2 ^ 32, 320), (x.nEmpty % 2 ^ 32, 352), (x.tstart.getD s.time, 384), (s.time, 448)])

/-- A block none of whose groups is left retires: its record first, then the rest (R30, R384). -/
def State.retireBlock (s : State) (bk : Nat) : State :=
  match s.blocks.find bk with
  | none => s
  | some x =>
    match s.grids.find x.grid with
    | none => s
    | some g =>
      let rec_ := if g.recAddr ≠ 0 ∧ 64 + 64 * g.nblk ≤ g.recLen then
        [Pending.write (BitVec.ofNat 64 (g.recAddr + 64 + 64 * x.blkid)) (blockRec s x)] else []
      (s.modGrid x.grid (fun y => y.begun (some (x.tstart.getD s.time)))).todo x.grid (some bk) (rec_ ++ [.publish bk, .retire bk])

/-- The entry of R113, in the first 32 of the 64 bytes of R385. -/
def violEntry (gid blkid : Nat) (fmask : W64) (v : Violation) : List W64 :=
  packWords 8 [(gid, 0), (v.lane, 6), (v.cause, 12), (fmask.toNat, 64), (v.addr.toNat, 128), (v.time % 2 ^ 64, 192), (blkid, 256)]

/-- How many fault-mask entries a grid's record has room for (R385). -/
def Grid.entRoom (g : Grid) : Nat :=
  if g.recAddr = 0 ∨ g.recLen < 64 + 64 * g.nblk then 0 else (g.recLen - 64 - 64 * g.nblk) / 64

/-- An entry's place among those of one clock: by die and core slot, then group (R385). -/
def putLeave (e : LeaveEnt) (l : List LeaveEnt) : List LeaveEnt :=
  let before := fun (u : LeaveEnt) => decide (u.core < e.core ∨ (u.core = e.core ∧ u.grp ≤ e.grp))
  l.takeWhile before ++ e :: l.dropWhile before

/-- An entry goes to another place of the record. A write of it that still waits goes there instead, or nowhere when the place does
not fit; one that was made is made again, before its block's record where that still waits, else with the steps of block `bk`. -/
def State.moveEntry (s : State) (gk bk : Nat) (e : LeaveEnt) (old new : Nat) (fits : Bool) : State :=
  match s.grids.find gk with
  | none => s
  | some g =>
    let put := fun (c : Nat × Chain) (q : Chain) =>
      State.pump pumpFuel (s.modGrid gk (fun y => { y with todo := y.todo.put c.1 q })) gk c.1
    let was := fun (t : Pending) => t == .write (BitVec.ofNat 64 old) e.data
    let now : Pending := .write (BitVec.ofNat 64 new) e.data
    match g.todo.find? (fun c => c.2.steps.any was) with
    | some c =>
      let first := match c.2.steps with | t :: _ => was t | [] => false
      put c { c.2 with
        steps := if fits then c.2.steps.map (fun t => if was t then now else t) else c.2.steps.filter (fun t => !was t)
        held := if first then none else c.2.held }
    | none =>
      if !fits then s
      else match g.todo.find? (fun c => c.2.blk == some e.blk) with
        | some c => put c { c.2 with steps := now :: c.2.steps, held := none }
        | none => s.todo gk (some bk) [now]

/-- The entry a group that leaves with FMASK set adds to the grid's record (R113, R385). Entries of groups that left earlier in
the same clock move up where it goes before them. -/
def State.fmaskEntry (s : State) (bk : Nat) (x : Block) (gid : Nat) (g : Group) : State :=
  if g.fmask = 0 then s
  else
    match s.grids.find x.grid, g.viol with
    | some gr, some v =>
      let e : LeaveEnt := ⟨bk, x.core, gid, wordsLe (violEntry gid x.blkid g.fmask v)⟩
      let same := if gr.leftAt = s.time then gr.leaves else []
      let l := putLeave e same
      let total := gr.nent + gr.ndrop + 1
      let base := total - l.length
      let room := gr.entRoom
      let kept := Nat.min room total
      let place := fun (i : Nat) => gr.recAddr + 64 + 64 * gr.nblk + 64 * (base + i)
      let k := (l.takeWhile (· != e)).length
      let s1 := s.modGrid x.grid (fun y => { y with leaves := l, leftAt := s.time, nent := kept, ndrop := total - kept })
      let s2 := ((List.range same.length).filter (fun i => decide (k ≤ i ∧ base + i < room))).reverse.foldl (fun (a : State) i =>
        match same[i]? with
        | some u => a.moveEntry x.grid bk u (place i) (place (i + 1)) (decide (base + i + 1 < room))
        | none => a) s1
      if base + k < room then s2.todo x.grid (some bk) [.write (BitVec.ofNat 64 (place k)) e.data] else s2
    | _, _ => s

/-- Waiting at a rendezvous ends, to be tried again at the same instruction. -/
def Fragment.unmeet (f : Fragment) : Fragment := match f.st with | .rendezvous _ _ _ _ => { f with st := .run } | _ => f

/-- A store of a group that leaves its block, as it goes on without the group, published at block scope (R179, R298, R303): what an
engine wrote into the own window on a token is shown to the block; a credit's writes wait for the phase that counts it. -/
def State.leaveEnt (s : State) (bk : Nat) (e : StoreEnt) : State × StoreEnt :=
  match e.maker with
  | .credit _ _ => (s, e)
  | _ =>
    let pub := Nat.max e.pub 1
    if e.dst = .window bk then
      (s.modBlock bk (fun y => { y with window := SMap.setAll y.window (e.bytes.map (fun z => (z.at_, z.val))) }),
        { e with dst := .own, maker := .group, pub := pub, bytes := e.bytes.map (fun z => { z with key := s.stamp }) })
    else (s, { e with maker := .group, pub := pub })

/-- The relayouts that only credits wait for go on when their group has left (R179). -/
def State.orphan (s : State) (bk gk : Nat) : State :=
  { s with cores := s.cores.map (fun c => (c.1, { c.2 with rels := c.2.rels.map (fun r =>
      (r.1, if r.2.blk = bk ∧ r.2.grp = gk then { r.2 with gone := true } else r.2)) })) }

/-- The issuing group leaves its block (R30, R179): publication at block scope (R303), its fault-mask entry, the
barriers, waiting partners of a rendezvous, and the block's retirement when it was the last. -/
def State.leaveGroup (s : State) : State :=
  let g := s.grp
  let x := s.blk
  let bk := s.bkey
  let s0 := { s with iss := false, blocks := s.blocks.put bk { x with nfm := x.nfm + (if g.fmask = 0 then 0 else 1) } }
  let l := g.stores.foldl (fun (a : State × List StoreEnt) e => let r := a.1.leaveEnt bk e; (r.1, a.2 ++ [r.2]))
    (s0.orphan bk s.gkey, [])
  let r := l.1.sendHome bk x.part (fun e => e.maker == .group && (e.ready || decide (e.need = 5))) l.2
  let s2 := r.1.modBlock bk (fun y => { y with rest := y.rest ++ r.2 })
  let s3 := (s2.fmaskEntry bk x s.gkey g).leaveBars bk g
  let wake := fun (p : Nat × Block) =>
    if p.2.grid == x.grid && p.2.cluster == x.cluster then
      (p.1, { p.2 with groups := p.2.groups.map (fun q =>
        (q.1, { q.2 with frags := q.2.frags.map (fun f => (f.1, f.2.unmeet)) })) })
    else p
  let s4 := { s3 with blocks := s3.blocks.map wake }
  match s4.blocks.find bk with
  | some y => if y.groups.isEmpty then s4.retireBlock bk else s4
  | none => s4

/-- The issuing fragment ends (R21): its lanes leave its joins, whose fusions follow, and pending arrivals are looked
at again. The group has other live fragments. -/
def State.exitFrag (s : State) : State :=
  let f := s.frag
  let strip := fun (p : Nat × (W64 × List Nat)) => (p.1, (p.2.1, p.2.2.filter (· != s.fkey)))
  let x := ({ s.grp with pend := s.grp.pend.map strip } : Group).leaveJoins f.em f.joins
  let g := x.1.fill
  let s1 := ({ s with grp := g } : State).stowEnded
  s1.settleJoins s.bkey s.gkey x.2

/-! ### Grids complete (R383) -/

/-- The grid header as it stands (R383). -/
def Grid.header (g : Grid) (gk now : Nat) : List W64 :=
  packWords 8 [(g.status, 136), (g.lerr, 140), (g.depth, 148), (g.fclass, 152), (g.fseq, 160), (g.ctx, 176),
    (gk % 2 ^ 32, 192), (g.parent, 224), (g.nkill, 256), (g.ndrop, 288), (g.nent, 320), (g.ran, 352),
    ((g.tstart.getD now) % 2 ^ 64, 384), (now % 2 ^ 64, 448)]

/-- The steps of R383: publication, header, counter, interrupt. -/
def State.completeGrid (s : State) (gk : Nat) : State :=
  match s.grids.find gk with
  | none => s
  | some g =>
    let s1 := s.modGrid gk (fun y => { y with open_ := false })
    let hdr := if g.recAddr ≠ 0 then [Pending.write (BitVec.ofNat 64 g.recAddr) (wordsLe (g.header gk s.time))] else []
    let cnt := if g.pk 192 64 ≠ 0 then [Pending.count (BitVec.ofNat 64 (g.pk 192 64)) (BitVec.ofNat 64 (g.pk 256 64))] else []
    let irq := if g.pk 10 1 = 1 ∧ !g.device then [Pending.irq (g.pk 11 11)] else []
    s1.todo gk none ([.publishGrid] ++ hdr ++ cnt ++ irq ++ [.finish])

/-- The grid at `gk` launched another: one of its partition and context that names its GRIDID as PARENT (R383, R386). -/
def Grid.parentOf (g : Grid) (gk ck : Nat) (c : Grid) : Bool :=
  gridPart ck == gridPart gk && c.ctx == g.ctx && c.parent == gridId gk

/-- Whether a grid's blocks and child grids have all retired (R37, R383). -/
def State.gridDone (s : State) (gk : Nat) : Bool :=
  match s.grids.find gk with
  | none => false
  | some g =>
    g.open_ && g.kdRead && g.todo.isEmpty && decide (g.retired = g.nblk) && decide (g.next = g.nblk) && g.again.isEmpty &&
    (g.ragged.isNone || g.list.isSome) &&
    !(s.grids.any (fun p => g.parentOf gk p.1 p.2)) &&
    !((s.part (gridPart gk)).devq.any (fun d => d.grid == gk))

/-- A new grid (R379, R383), before its descriptor is read. -/
def newGrid (ctx : Nat) (queue : Option Nat) (packet : List W64) (depth parent prio : Nat) (device : Bool) (born : Nat)
    (ragged : Option W64) (lerr level : Nat) : Grid :=
  { ctx := ctx, queue := queue, packet := packet, kd := [], kdRead := false, wf := [], depth := depth, parent := parent,
    prio := prio, device := device, born := born, level := level, ragged := ragged, list := none,
    nblk := bits (packet.getD 0 0).toNat 32 32, next := 0, retired := 0, ran := 0, again := [], runs := [], cbs := [],
    gbs := [], tstart := none, nent := 0, ndrop := 0, nkill := 0, fseq := 0, fclass := 0, lerr := lerr,
    status := if lerr = 0 then 0 else 1, open_ := true, todo := [], rest := [], leaves := [], leftAt := 0 }

/-- The next GRIDID of a partition from a count on: it skips 0 (R383), and those that restored grids hold (DESIGN CHOICE,
notes/assumptions/48.md). -/
def State.nextGrid (s : State) (p : Nat) : Nat → Nat → Nat
  | 0, id => id
  | n + 1, id => if id = 0 ∨ s.grids.any (fun q => gridPart q.1 == p && gridId q.1 == id) then s.nextGrid p n ((id + 1) % 2 ^ 32) else id

/-- Create a grid with the partition's next GRIDID (R383). Gives its key. -/
def State.createGrid (s : State) (p : Nat) (g : Grid) : State × Nat :=
  let id := s.nextGrid p (s.grids.length + 2) (s.part p).next
  let k := gridKey p id
  ({ s.modPart p (fun y => { y with next := (id + 1) % 2 ^ 32 }) with grids := s.grids.put k g, stamp := s.stamp + 1 }, k)

/-- A grid that ends with a launch error (R380). Only a restored grid can have blocks then. -/
def State.launchError (s : State) (gk code : Nat) : State :=
  ((s.dropBlocks gk).modGrid gk (fun g => { g with lerr := code, status := 1, nblk := if g.ragged.isSome then 0 else g.nblk })).completeGrid gk

/-! ### Ending grids (R357, R388) and kills (R116, R117) -/

/-- A context is HALTING or HALTED. -/
def State.stopping (s : State) (p c : Nat) : Bool := s.ctxIs p c .halting || s.ctxIs p c .halted

/-- What an engine or a chain of a context that waited on a record waits on after REPLAY: nothing, or, while the context is HALTING
or HALTED, until it next runs (R354), for which the number 0 stands. -/
def State.heldAfter (s : State) (p c : Nat) : Option Nat := if s.stopping p c then some 0 else none

/-- Everything that waits on a record goes on: fragments, engines, scheduler reads and completion writes. -/
def State.releaseRec (s : State) (p n : Nat) : State :=
  let s1 := s.mapFrags (fun f => match f.st with | .fault k => if k = n then { f with st := .run } else f | _ => f)
  let free := fun (c : Nat) (h : Option Nat) => if h = some n then s.heldAfter p c else h
  let c := fun (x : Core) => { x with
    rels := x.rels.map (fun (r : Nat × Relayout) => (r.1, { r.2 with heldBy := free r.2.ctx r.2.heldBy }))
    copies := x.copies.map (fun (r : Nat × CopyJob) => (r.1, { r.2 with heldBy := free r.2.ctx r.2.heldBy })) }
  let s2 := { s1 with cores := s1.cores.map (fun (q : Nat × Core) => (q.1, c q.2)) }
  s2.modPart p (fun y => { y with qheld := y.qheld.filter (fun q => q.2 != n) })

/-- The chains of a grid go on from a record; `drop` gives up the step that waited (R459). -/
def State.freeChains (s : State) (gk n : Nat) (drop : Bool) : State :=
  match s.grids.find gk with
  | none => s
  | some g =>
    let then_ := if drop || n == 0 then none else s.heldAfter (gridPart gk) g.ctx
    let go := fun (c : Chain) => if c.held = some n then { c with steps := if drop then c.steps.tail else c.steps, held := then_ } else c
    let ids := (g.todo.filter (fun c => c.2.held == some n)).map (·.1)
    ids.foldl (fun a id => State.pump pumpFuel a gk id) (s.modGrid gk (fun y => { y with todo := y.todo.map (fun c => (c.1, go c.2)) }))

/-- What waited on a record is tried again: completion writes, and stores whose page was gone. -/
def State.retryWrites (s : State) (n : Nat) : State :=
  (s.grids.filter (fun q => q.2.todo.any (fun c => c.2.held == some n))).foldl (fun a q => a.freeChains q.1 n false)
    ((s.allBlocks.foldl (fun (a : State) b => a.restHome b.1 (·.ready)) s).bringHome (fun _ _ _ _ => true))

/-- Forget the outstanding records that satisfy `f`; what else waited on them is released (R357). -/
def State.dropRecs (s : State) (p : Nat) (f : Outst → Bool) : State :=
  let l := (s.part p).outs.filter f
  let s1 := s.modPart p (fun y => { y with outs := y.outs.filter (fun o => !f o) })
  let s2 := l.foldl (fun a o => (a.releaseRec p o.num).retryWrites o.num) s1
  State.flushRecs ((s2.part p).held.length) s2 p

/-- A grid ends: its blocks stop, their operations are discarded, and it completes with a status; `silent` grids of a
saved context complete nowhere (R357, R388, R413). -/
def State.endOne (s : State) (gk status fcls fseq : Nat) (silent : Bool) : State :=
  match s.grids.find gk with
  | none => s
  | some g =>
    let p := gridPart gk
    let s1 := (s.dropBlocks gk).dropRecs p (fun o => o.grid == some gk && !o.sched)
    if silent then { s1 with grids := s1.grids.del gk }
    else if g.open_ then
      (s1.modGrid gk (fun y => { y with status := status, fclass := fcls, fseq := fseq, todo := [] })).completeGrid gk
    else s1

/-- The grids that a grid launched, to any depth, deepest first, itself last, by their keys. -/
def State.progeny (s : State) : Nat → Nat → List Nat
  | 0, gk => [gk]
  | n + 1, gk =>
    (match s.grids.find gk with
     | none => []
     | some g => (s.grids.filter (fun q => g.parentOf gk q.1 q.2)).flatMap (fun q => s.progeny n q.1)) ++ [gk]

/-- Packets in the device launch queue of an ending grid become grids, to complete as ended (R388). -/
def State.adoptQueued (s : State) (p gk : Nat) : State :=
  let l := (s.part p).devq.filter (fun d => d.grid == gk)
  let s1 := s.modPart p (fun y => { y with devq := y.devq.filter (fun d => d.grid != gk) })
  l.foldl (fun a d =>
    (a.createGrid p (newGrid d.ctx none d.packet d.depth (gridId gk) d.prio true a.stamp d.ragged 0 d.level)).1) s1

/-- END_GRID: a grid and every grid it has launched end (R357, R388). -/
def State.endGrid (s : State) (gk status fcls fseq : Nat) (silent : Bool) : State :=
  let p := gridPart gk
  let s0 := s.stow
  let s1 := (s0.progeny 10 gk).foldl (fun a k => a.adoptQueued p k) s0
  (s1.progeny 10 gk).foldl (fun a k => a.endOne k status fcls fseq silent) s1

/-- A block is killed (R116, R117): the KILL notice, its groups leave every barrier, its operations are discarded, its
whole cluster with it; an idempotent kernel's blocks are launched again at most twice. A block that is not run again has its record written, which tells which one it was (R384; DEDUCED, notes/assumptions/69.md). -/
def State.killBlock (s : State) (bk : Nat) : State :=
  let s0 := s.stow
  match s0.blocks.find bk with
  | none => s0
  | some x =>
    match s0.grids.find x.grid with
    | none => s0
    | some g =>
      let mates := s0.blocks.filter (fun p => p.2.grid == x.grid && p.2.cluster == x.cluster)
      let again := g.kdb 9 1 = 1 ∧ mates.all (fun p => p.2.runs < 3)
      let s1 := s0.record x.part (recWords s0.time ⟨10, 0, 0, 0, false⟩ 0 0 x.grid x.blkid g.ctx x.core 0 0 0 0 false x.lcore) none
      let s2 := mates.foldl (fun (a : State) m =>
        let a0 := a.flushBlock m.1
        let a1 := m.2.groups.foldl (fun (c : State) q => (c.modBlock m.1 (fun y => { y with groups := y.groups.del q.1 })).leaveBars m.1 q.2) a0
        let a2 := if m.2.retired then a1 else ((List.range 12).map (16 + ·)).foldl (fun (c : State) b =>
          let r := c.bar m.1 b
          let back := if m.2.carr.find b = some r.phase then 1 else 0
          (c.setBar m.1 b { r with m := r.m - 1, a := r.a - back }).settle m.1 b) a1
        let a3 := a2.discard m.1
        match a3.blocks.find m.1 with | some y => a3.keepWindow y | none => a3) s1
      let s3 := { s2 with blocks := s2.blocks.filter (fun p => !(p.2.grid == x.grid && p.2.cluster == x.cluster)) }
      let s4 := s3.dropRecs x.part (fun o => mates.any (fun m => m.1 == o.blk) && !o.sched && o.grid == some x.grid)
      let ids := mates.map (fun m => (m.2.blkid, m.2.runs, m.2.retired))
      let back := (ids.filter (fun i => i.2.2)).length
      let s5 := s4.modGrid x.grid (fun y => mates.foldl (fun (z : Grid) m => z.begun m.2.tstart) y)
      if again then
        s5.modGrid x.grid (fun y => { y with
          again := y.again ++ ids.map (·.1), retired := y.retired - back
          runs := ids.foldl (fun a i => a.put i.1 i.2.1) y.runs })
      else
        let s6 := s5.modGrid x.grid (fun y => { y with
          nkill := y.nkill + ids.length, status := 4, retired := y.retired + ids.length - back })
        mates.foldl (fun (a : State) m =>
          if !m.2.retired && g.recAddr != 0 && decide (64 + 64 * g.nblk ≤ g.recLen) then
            a.todo x.grid (some m.1) [.write (BitVec.ofNat 64 (g.recAddr + 64 + 64 * m.2.blkid)) (blockRec a m.2)]
          else a) s6

end Sys2Proof.Machine
end

