-- ==== Sys2Proof/Machine/Layout.lean ====
section
/-!
DEFINITION. Tensor descriptors and their matrices over GF(2) (R52 to R67): the parsed descriptor, its well-formedness,
its levels, and the factorisation of a change matrix into level passes. A matrix is a list of rows, a row a number
whose bit c is the entry of column c.
-/

namespace Sys2Proof.Machine

/-! ### Matrices over GF(2) -/

/-- The XOR of the rows a mask names: a row vector times a matrix. -/
def rowComb (rows : List Nat) (c : Nat) : Nat :=
  (rows.foldl (fun (a : Nat × Nat) r => (if c.testBit a.2 then a.1 ^^^ r else a.1, a.2 + 1)) (0, 0)).1

/-- A matrix times a column vector. -/
def mulVec (rows : List Nat) (x : Nat) : Nat :=
  (rows.foldl (fun (a : Nat × Nat) r => (if popN (r &&& x) 64 % 2 = 1 then a.1 + 2 ^ a.2 else a.1, a.2 + 1)) (0, 0)).1

def matMul (a b : List Nat) : List Nat := a.map (rowComb b)

def identMat (n : Nat) : List Nat := (List.range n).map (2 ^ ·)

/-- One column of Gauss and Jordan's elimination on rows with the identity written beside them. -/
def gfStep (a : Option (List Nat)) (c : Nat) : Option (List Nat) :=
  match a with
  | none => none
  | some l =>
    match (List.range l.length).find? (fun i => decide (c ≤ i) && (l.getD i 0).testBit c) with
    | none => none
    | some i =>
      let p := l.getD i 0
      let m := setNth (setNth l i (l.getD c 0)) c p
      some ((List.range m.length).map (fun j => if j ≠ c ∧ (m.getD j 0).testBit c then m.getD j 0 ^^^ p else m.getD j 0))

/-- The inverse of an n × n matrix; none when there is none. -/
def gfInverse (n : Nat) (rows : List Nat) : Option (List Nat) :=
  let aug := (List.range n).map (fun i => rows.getD i 0 % 2 ^ n + 2 ^ (n + i))
  match (List.range n).foldl gfStep (some aug) with
  | none => none
  | some l => some (l.map (· >>> n))

/-! ### Descriptors (R52 to R60) -/

/-- A descriptor's fields: NBITS as the sum of BITS, the dimensions in use as (extent, bits), the first n rows. -/
structure Desc where
  kind   : Nat
  ew     : Nat
  ndim   : Nat
  n      : Nat
  split  : Nat
  rowlog : Nat
  base   : Nat
  fill   : Nat
  state  : Nat
  pass   : Nat
  npass  : Nat
  cursor : Nat
  dims   : List (Nat × Nat)
  rows   : List Nat
  deriving DecidableEq, Repr

/-- A word of an image. -/
def imgWord (w : List W64) (i : Nat) : Nat := (w.getD i 0).toNat

/-- The dimensions in use of an image. -/
def imgDims (w : List W64) : List (Nat × Nat) :=
  (List.range (bits (imgWord w 0) 20 3 + 1)).map (fun d => (bits (imgWord w (4 + d)) 0 49, bits (imgWord w (4 + d)) 58 6))

/-- NBITS (R53, R241). -/
def imgBits (w : List W64) : Nat := ((imgDims w).map (·.2)).foldl (· + ·) 0

def Desc.of (w : List W64) : Desc :=
  let c := imgWord w 0
  let p := imgWord w 3
  { kind := bits c 0 3, ew := bits c 17 3, ndim := bits c 20 3, n := imgBits w, split := bits c 34 6
    rowlog := bits c 29 5, base := imgWord w 1, fill := imgWord w 2, state := bits p 62 2, pass := bits p 58 4
    npass := bits p 54 4, cursor := bits p 0 48, dims := imgDims w
    rows := (List.range (imgBits w)).map (fun j => bits (imgWord w (16 + j)) 0 48) }

/-- The null descriptor (R57). -/
def imgNull (w : List W64) : Bool := (List.range 64).all (fun i => imgWord w i == 0)

/-- log2 of the element width in bits (R53). -/
def Desc.e (d : Desc) : Nat := match d.ew with | 0 => 0 | 1 => 2 | 2 => 3 | 3 => 4 | 4 => 5 | _ => 6

/-- The element width. -/
def Desc.width (d : Desc) : Nat := 2 ^ d.e

/-- The end of each level's offset bit positions, finest first (R59). -/
def Desc.tops (d : Desc) : List Nat :=
  match d.kind with
  | 0 => [8, 11, 19, 59]
  | 1 => [9, 15, d.split, d.split + 4]
  | 2 => [5, 13, 19, 23]
  | 3 => [5, 11, 19, 21]
  | _ => [d.rowlog + 3, d.rowlog + 33]

/-- The touched levels, finest first, as (first location bit, width) (R60). -/
def Desc.levels (d : Desc) : List (Nat × Nat) :=
  (d.tops.foldl (fun (a : List (Nat × Nat) × Nat) t =>
    let hi := Nat.min (t - d.e) d.n
    (if a.2 < hi then a.1 ++ [(a.2, hi - a.2)] else a.1, Nat.max a.2 hi)) ([], 0)).1

/-- The footprint in bytes (R58). -/
def Desc.foot (d : Desc) : Nat :=
  let b := if d.kind = 1 then Nat.min (d.e + d.n) d.split else d.e + d.n
  2 ^ (b - 3)

/-- The index bits of the row of a slab descriptor. -/
def Desc.rowBits (d : Desc) : Nat := d.n - 30

/-- BASE is aligned and of its kind (R56, R58, R84). -/
def Desc.baseOk (d : Desc) : Bool :=
  match d.kind with
  | 0 => decide (d.base < 2 ^ 56) && d.base % d.foot == 0
  | 4 => decide (d.base < 2 ^ 32)
  | k => d.base == 0 || (decide (d.base < 2 ^ 56) && bitAt d.base 55 && bits d.base 32 23 == 0 &&
      bits d.base 30 2 == k - 1 && bits d.base 0 30 % d.foot == 0)

/-- The slab rules of R84. -/
def Desc.slabOk (d : Desc) : Bool :=
  d.e + d.rowBits == d.rowlog + 3 && decide (30 ≤ d.n) &&
  (List.range d.n).all (fun j => if j < d.rowBits then decide (d.rows.getD j 0 < 2 ^ d.rowBits) else d.rows.getD j 0 == 2 ^ j)

/-- A well-formed image (R56). -/
def imgOk (w : List W64) : Bool :=
  let d := Desc.of w
  let c := imgWord w 0
  decide (d.kind ≤ 4) && decide (d.ew ≤ 5) && (d.kind != 2 || d.ew == 4) && (d.kind != 3 || decide (d.ew ≤ 4)) &&
  decide (d.n ≤ 48) &&
  (List.range 8).all (fun j => decide (j ≤ d.ndim) || imgWord w (4 + j) == 0) &&
  (List.range (d.ndim + 1)).all (fun j =>
    let (x, b) := d.dims.getD j (0, 0)
    if d.kind = 4 ∧ j = d.ndim then b == 30 && decide (x ≤ 2 ^ 30) else decide (b ≤ 48) && decide (1 ≤ x) && decide (x ≤ 2 ^ b)) &&
  (List.range 48).all (fun j => if j < d.n then decide (imgWord w (16 + j) < 2 ^ d.n) else imgWord w (16 + j) == 2 ^ j) &&
  (gfInverse d.n d.rows).isSome && (d.n == 0 || decide (d.e + d.n ≤ d.tops.getLastD 0)) &&
  (if d.kind = 1 then decide (15 ≤ d.split) && decide (d.split ≤ 30) else d.split == 0) &&
  (if d.kind = 4 then decide (5 ≤ d.rowlog) && decide (d.rowlog ≤ 16) && d.slabOk else d.rowlog == 0) &&
  d.baseOk && decide (d.fill < 2 ^ d.width) &&
  bits c 40 24 == 0 && bits c 3 14 == 0 && bits (imgWord w 3) 48 3 == 0 &&
  (List.range 4).all (fun j => imgWord w (12 + j) == 0) &&
  (List.range 8).all (fun j => bits (imgWord w (4 + j)) 49 9 == 0)

/-- The CTL word with NBITS set to the sum of BITS (R241). -/
def imgSetBits (w : List W64) : List W64 :=
  let c := imgWord w 0
  setNth w 0 (BitVec.ofNat 64 (c - bits c 23 6 * 2 ^ 23 + imgBits w % 64 * 2 ^ 23))

/-- The location of an index (R58). -/
def Desc.locate (d : Desc) (i : Nat) : Nat := mulVec d.rows i

/-- An index that lies at or above the extent in some dimension (R61). -/
def Desc.phantom (d : Desc) (i : Nat) : Bool :=
  (d.dims.foldl (fun (a : Bool × Nat) p => (a.1 || decide (p.1 ≤ (i >>> a.2) % 2 ^ p.2), a.2 + p.2)) (false, 0)).1

/-- A word of PROG (R55). -/
def progWord (state pass npass status cursor : Nat) : W64 :=
  BitVec.ofNat 64 (state * 2 ^ 62 + pass % 16 * 2 ^ 58 + npass % 16 * 2 ^ 54 + status % 8 * 2 ^ 51 + cursor % 2 ^ 48)

/-! ### Factorisation (R65, R66) -/

/-- `reduce`: a row vector cleared of its columns below `lo` by rows below `lo`, with the rows used as a mask; `rinv` is
the inverse of those rows in those columns. -/
def reduceBy (rinv rows : List Nat) (lo v : Nat) : Nat × Nat :=
  let c := rowComb rinv (v % 2 ^ lo)
  (v ^^^ rowComb rows c, c)

/-- What is left of a vector after a basis, each of whose vectors was itself reduced by the ones before it. -/
def spanRed (basis : List Nat) (v : Nat) : Nat :=
  basis.foldl (fun v x => if v.testBit (Nat.log2 x) then v ^^^ x else v) v

/-- Put the rows of one level into the identity. -/
def levelMat (n lo w : Nat) (rows : List Nat) : List Nat := (identMat n).take lo ++ rows ++ (identMat n).drop (lo + w)

/-- The pass of the descending sweep at a level: the pivot insertion, then the reduction. -/
def pivotPass (n : Nat) (x : List Nat) (lo w : Nat) : List Nat :=
  let rinv := (gfInverse lo ((x.take lo).map (· % 2 ^ lo))).getD []
  let z := fun (u : Nat) => bits (reduceBy rinv x lo (x.getD u 0)).1 lo w
  let r := (List.range w).foldl (fun (a : List Nat × List Nat) k =>
    let q := lo + k
    let v := spanRed a.1 (z q)
    if v ≠ 0 then (a.1 ++ [v], a.2 ++ [2 ^ q])
    else
      let u := ((List.range n).find? (fun u => decide (lo + w ≤ u) && spanRed a.1 (z u) != 0)).getD q
      (a.1 ++ [spanRed a.1 (z q ^^^ z u)], a.2 ++ [2 ^ q ^^^ 2 ^ u])) ([], [])
  levelMat n lo w (r.2.map (fun m => m ^^^ (reduceBy rinv x lo (rowComb x m)).2))

/-- The pass of the ascending sweep at a level. -/
def backPass (n : Nat) (x : List Nat) (lo w : Nat) : List Nat :=
  let inv := (gfInverse w (((x.drop lo).take w).map (fun r => bits r lo w))).getD []
  let r := (List.range w).map (fun k => 2 ^ (lo + k) ^^^ ((x.getD (lo + k) 0 >>> (lo + w)) <<< (lo + w)))
  levelMat n lo w (inv.map (rowComb r))

/-- One sweep over some levels: the matrix left, and the passes in order. -/
def sweep (f : List Nat → Nat → Nat → List Nat) (x : List Nat) (l : List (Nat × Nat)) : List Nat × List Pass :=
  l.foldl (fun (a : List Nat × List Pass) q => let p := f a.1 q.1 q.2; (matMul p a.1, a.2 ++ [⟨q.1, q.2, p⟩])) (x, [])

/-- Merge neighbours of one level and remove identities, once (R66). -/
def tidyOnce (n : Nat) (l : List Pass) : List Pass :=
  ((l.filter (fun p => p.mat != identMat n)).foldl (fun (a : List Pass) p => match a with
    | q :: rest => if q.lo = p.lo ∧ q.w = p.w then ⟨q.lo, q.w, matMul p.mat q.mat⟩ :: rest else p :: a
    | [] => [p]) []).reverse

/-- The executed passes of a change matrix (R65, R66). -/
def factorise (n : Nat) (levels : List (Nat × Nat)) (m : List Nat) : List Pass :=
  let a := sweep (pivotPass n) m levels
  let b := sweep (backPass n) a.1 levels.reverse
  let q := (a.2 ++ b.2).reverse.map (fun p => (⟨p.lo, p.w, (gfInverse n p.mat).getD p.mat⟩ : Pass))
  (List.range 16).foldl (fun l _ => tidyOnce n l) q

/-- The passes from one placement to another (R64, R67); a copy runs at least one. -/
def passesOf (d : Desc) (lold lnew : List Nat) (copy : Bool) : List Pass :=
  let m := matMul lnew ((gfInverse d.n lold).getD (identMat d.n))
  let l := factorise d.n d.levels m
  if copy ∧ l.isEmpty then [⟨0, (d.levels.headD (0, 0)).2, identMat d.n⟩] else l

/-- The block number of a location (R63). -/
def Pass.blockNo (p : Pass) (l : Nat) : Nat := l % 2 ^ p.lo + (l >>> (p.lo + p.w)) <<< p.lo

/-- The k-th location of a block. -/
def Pass.locOf (p : Pass) (blk k : Nat) : Nat := blk % 2 ^ p.lo + k * 2 ^ p.lo + (blk >>> p.lo) <<< (p.lo + p.w)

end Sys2Proof.Machine
end

