-- ==== Sys2Proof/Machine/Hash.lean ====
section
/-!
DEFINITION. SHA-384 over bytes (R414, R451, R452) and CRC-32C (R405).
-/

namespace Sys2Proof.Machine

/-- The words packed in a number, the first lowest. -/
def unpack (n x : Nat) : List W64 := (List.range n).map (fun i => BitVec.ofNat 64 (x / 2 ^ (64 * i)))

/-- The round constants of SHA-384 (FIPS 180-4): fraction bits of the cube roots of the first 80 primes, twenty packed in
each number. -/
def shaRoots : List Nat := [
  0x240ca1cc77ac9c650fc19dc68b8cd5b5efbe4786384f25e3e49b69c19ef14ad2c19bf174cf6926949bdc06a725c7123580deb1fe3b1696b172be5d74f27b896f550c7dc3d5ffb4e2243185be4ee4b28c12835b0145706fbed807aa98a3030242ab1c5ed5da6d8118923f82a4af194f9b59f111f1b605d0193956c25bf348b538e9b5dba58189dbbcb5c0fbcfec4d3b2f7137449123ef65cd428a2f98d728ae22,
  0x92722c851482353b81c2c92e47edaee6766a0abb3c77b2a8650a73548baf63de53380d139d95b3df4d2c6dfc5ac42aed2e1b21385c26c92627b70a8546d22ffc142929670a0e6e7006ca6351e003826fd5a79147930aa725c6e00bf33da88fc2bf597fc7beef0ee4b00327c898fb213fa831c66d2db43210983e5152ee66dfab76f988da831153b55cb0a9dcbd41fbd44a7484aa6ea6e4832de92c6f592b0275,
  0x8cc702081a6439ec84c87814a1f0ab7278a5636f43172f60748f82ee5defb2fc682e6ff3d6b2b8a35b9cca4f7763e3734ed8aa4ae3418acb391c0cb3c5c95a6334b0bcb5e19b48a82748774cdf8eeb991e376c085141ab5319a4c116b8d2d0c8106aa07032bbd1b8f40e35855771202ad69906245565a910d192e819d6ef5218c76c51a30654be30c24b8b70d0f89791a81a664bbc423001a2bfe8a14cf10364,
  0x6c44198c4a4758175fcb6fab3ad6faec597f299cfc657e2a4cc5d4becb3e42b6431d67c49c100d4c3c9ebe0a15c9bebc32caab7b40c7249328db77f523047d841b710b35131c471b113f9804bef90dae0a637dc5a2c898a606f067aa72176fbaf57d4f7fee6ed178eada7dd6cde0eb1ed186b8c721c0c207ca273eceea26619cc67178f2e372532bbef9a3f7b2c67915a4506cebde82bde990befffa23631e28]

def shaK : List W64 := shaRoots.flatMap (unpack 20)

/-- The initial hash value of SHA-384. -/
def shaInit : List W64 := unpack 8
  0x47b5481dbefa4fa4db0c2e0d64f98fa78eb44a876858151167332667ffc00b31152fecd8f70e59399159015a3070dd17629a292a367cd507cbbb9d5dc1059ed8

/-- A number of big-endian bytes. -/
def ofBe (l : List Byte) : Nat := l.foldl (fun a b => a * 256 + b.toNat) 0

/-- The n big-endian bytes of a number. -/
def beBytes (x n : Nat) : List Byte := (leBytes x n).reverse

/-- The exclusive or of a word's rotations to the right. -/
def spins (x : W64) (l : List Nat) : W64 := l.foldl (fun r n => r ^^^ x.rotateRight n) 0

/-- The message words of a block: the last sixteen, newest first, grow by n. -/
def shaSchedule : Nat → List W64 → List W64
  | 0, w => w
  | n + 1, w =>
    let small := fun (i : Nat) (l : List Nat) (k : Nat) => spins (w.getD i 0) l ^^^ (w.getD i 0 >>> k)
    shaSchedule n ((w.getD 15 0 + small 14 [1, 8] 7 + w.getD 6 0 + small 1 [19, 61] 6) :: w)

/-- One round on the eight working variables, in a list: they move up by one, and the first and the fifth are new. -/
def shaRound (h : List W64) (kw : W64) : List W64 :=
  let v := fun (i : Nat) => h.getD i 0
  let pick := (v 4 &&& (v 5 ^^^ v 6)) ^^^ v 6
  let most := (v 0 &&& (v 1 ||| v 2)) ||| (v 1 &&& v 2)
  let t := v 7 + kw + pick + spins (v 4) [14, 18, 41]
  (t + most + spins (v 0) [28, 34, 39]) :: (h.take 3 ++ (v 3 + t) :: (h.drop 4).take 3)

def shaBlock (h : List W64) (blk : List Byte) : List W64 :=
  let w0 := ((List.range 16).map (fun i => BitVec.ofNat 64 (ofBe ((blk.drop (8 * i)).take 8)))).reverse
  let w := (shaSchedule 64 w0).reverse
  let r := (shaK.zip w).foldl (fun a p => shaRound a (p.1 + p.2)) h
  List.zipWith (· + ·) h r

def shaBlocks : Nat → List W64 → List Byte → List W64
  | 0, h, _ => h
  | n + 1, h, m => shaBlocks n (shaBlock h (m.take 128)) (m.drop 128)

/-- SHA-384: 48 bytes. -/
def sha384 (m : List Byte) : List Byte :=
  let n := m.length
  let zeros := (128 - (n + 17) % 128) % 128
  let p := m ++ [0x80#8] ++ List.replicate zeros 0 ++ beBytes (8 * n) 16
  ((shaBlocks (p.length / 128) shaInit p).take 6).flatMap (fun w => beBytes w.toNat 8)

/-- One bit of CRC-32C, reflected polynomial 0x82F63B78. -/
def crcBits : Nat → Nat → Nat
  | 0, c => c
  | n + 1, c => crcBits n (if c % 2 = 1 then (c / 2) ^^^ 0x82F63B78 else c / 2)

/-- CRC-32C of bytes. -/
def crc32c (m : List Byte) : Nat :=
  (m.foldl (fun c b => crcBits 8 (c ^^^ b.toNat)) 0xFFFFFFFF) ^^^ 0xFFFFFFFF

end Sys2Proof.Machine
end

