-- ==== Sys2Proof/Machine/Debug.lean ====
section
/-!
DEFINITION. Record rings, trace and debug (R421 to R429): writing a ring's record, a context's debug slot and its
events, the identity of a decode table (R414).
-/

namespace Sys2Proof.Machine

/-! ### Rings (R422 to R424): 0 trace, 1 stall samples, 2 memory samples -/

def Part.ring (x : Part) (r : Nat) : Ring := if r = 0 then x.tr else if r = 1 then x.sm else x.ms

def Part.setRing (x : Part) (r : Nat) (v : Ring) : Part :=
  if r = 0 then { x with tr := v } else if r = 1 then { x with sm := v } else { x with ms := v }

/-- Bytes of a record (R423). -/
def ringSize (r : Nat) : Nat := if r = 0 then 16 else if r = 1 then 32 else 64

def Ring.full (v : Ring) : Bool := (v.tail - v.head).toNat == 2 ^ v.log2

/-- Write a record at TAIL, which then counts it; the ring is not full (R424). -/
def State.ringPush (s : State) (p r : Nat) (words : List W64) : State :=
  let v := (s.part p).ring r
  let k := hbmKey p (v.base.toNat + ringSize r * (v.tail.toNat % 2 ^ v.log2))
  (s.pokeBytes k (wordsLe words)).modPart p (fun y => y.setRing r { v with tail := v.tail + 1 })

def State.ringDrop (s : State) (p r n : Nat) : State :=
  s.modPart p (fun y => y.setRing r { y.ring r with drop := (y.ring r).drop + BitVec.ofNat 32 n })

/-- The trace record of a `mark` (R425): none when tracing does not admit it, a drop when the ring is full. -/
def State.trace (s : State) : State :=
  let p := s.blk.part
  let x := s.part p
  let kd := match s.grids.find s.blk.grid with | some g => g.packet.getD 1 0 | none => 0
  if x.tr.en && (x.trfilt == 0 || x.trfilt == kd) then
    (if x.tr.full then s.ringDrop p 0 1
     else s.ringPush p 0 (packWords 2 [(s.grp.role.toNat, 24), (s.gkey, 26), (s.blk.blkid, 32), (s.now, 64)]))
  else s

/-! ### Debug slots (R426) -/

def DebugSlot.en (d : DebugSlot) : Bool := bitAt (d.getD 0 0).toNat 0
def DebugSlot.ctx (d : DebugSlot) : Nat := bits (d.getD 0 0).toNat 48 16
def DebugSlot.sstep (d : DebugSlot) : Bool := bitAt (d.getD 0 0).toNat 2

/-- WLOG, WKIND and base of watch range j. -/
def DebugSlot.watch (d : DebugSlot) (j : Nat) : Nat × Nat × Nat :=
  let w := (d.getD 0 0).toNat
  (bits w (8 + 8 * j) 6, bits w (14 + 8 * j) 2, (d.getD (1 + j) 0).toNat)

/-- The stated limits of a slot (R426). Its reserved bits are ignored (R10). -/
def DebugSlot.ok (d : DebugSlot) : Bool :=
  let w := (d.getD 0 0).toNat
  ([0, 1].all (fun j => let (l, _, a) := d.watch j; decide (l ≤ 47) && a % 2 ^ l == 0)) &&
  ([4, 5, 6, 7].all (fun i => let b := (d.getD i 0).toNat; bits b 0 3 == 0 && bits b 56 7 == 0)) &&
  bits w 48 16 != 0

/-- A slot of the debug table as it stands in memory. -/
def State.slotAt (s : State) (p base i : Nat) : DebugSlot :=
  (List.range 16).map (fun j => s.mem.word (hbmKey p (base + 128 * i + 8 * j)))

/-- The slot that applies to a context among those from number `i` on. One that names the context and breaks a limit, enabled
or not, or is enabled and names no context, writes a record and counts as off (DEDUCED, notes/assumptions/55.md). -/
def State.findSlot (s : State) (p c base : Nat) : Nat → Nat → State × Option DebugSlot
  | 0, _ => (s, none)
  | n + 1, i =>
    let d := s.slotAt p base i
    if (d.ctx == c || (d.ctx == 0 && d.en)) && !d.ok then
      (s.notice p 2 6 c 0 (BitVec.ofNat 64 (base + 128 * i)) false).findSlot p c base n (i + 1)
    else if d.en && d.ctx == c then (s, some d)
    else s.findSlot p c base n (i + 1)

/-- The device reads a context's slot (R426). A table that is not aligned, or not in the partition's memory, is a malformed
structure: no slot of it applies (R13, R422). -/
def State.readDebug (s : State) (p c : Nat) : State :=
  let base := (s.part p).dbg.toNat
  let r := if base = 0 then (s, none)
    else if base % 2048 ≠ 0 ∨ s.hbmBytes p < base + 2048 then (s.notice p 2 6 c 0 (BitVec.ofNat 64 base) false, none)
    else s.findSlot p c base 16 0
  r.1.modCtx p c (fun x => { x with dbg := r.2 })

/-- The first poisoned slot that the device reads as it looks for a context's, from number `i` on (R115). -/
def State.slotBadFrom (s : State) (p c base : Nat) : Nat → Nat → Option Nat
  | 0, _ => none
  | n + 1, i =>
    if s.poisoned (hbmKey p (base + 128 * i)) 128 then some (base + 128 * i)
    else
      let d := s.slotAt p base i
      if d.en && d.ctx == c && d.ok then none else s.slotBadFrom p c base n (i + 1)

def State.slotBad (s : State) (p c : Nat) : Option Nat :=
  let base := (s.part p).dbg.toNat
  if base = 0 ∨ base % 2048 ≠ 0 ∨ s.hbmBytes p < base + 2048 then none else s.slotBadFrom p c base 16 0

/-- The debug slot that applies to the issuing group's context. -/
def State.slot (s : State) : Option DebugSlot := match s.ctx s.blk.part s.ctxid with | some x => x.dbg | none => none

/-- An event stops the issuing group (R428): its DEBUG record, with the address at which the fragment issues next, and no fragment issues until REPLAY (DEDUCED, notes/assumptions/55.md). -/
def State.debugStop (s : State) (op : Nat × Nat) (ev : DebugEvent) : State :=
  let n := s.recNo
  let next : State := { s with frag := { s.frag with pc := s.frag.nextPc } }
  let s1 := s.record s.blk.part (next.fragRec op ⟨11, ev.kind + 16 * ev.idx, ev.addr, s.frag.em, false⟩ false)
    (some (.ofIssuer s 11 none))
  { s1 with grp := { s1.grp with stop := .debug n ev s.fkey } }

/-! ### Decode tables (R157, R414) -/

/-- The shipped class of an entry: 0 native or micro-sequence, 2 emulate, 3 privileged-only. -/
def shippedClass (lcore : Bool) (e : Nat) : Nat :=
  match build (BitVec.ofNat 64 (e / 16 + e % 16 * 256)) 0 with
  | none => 2
  | some _ =>
    if 0xF0 ≤ e / 16 then 3 else if lcore ∧ e / 16 = 0xC8 ∧ e % 4 ≠ 0 then 2 else 0

/-- The class of an entry in a partition's current table: 1 is micro-sequence. -/
def Part.decClass (x : Part) (lcore : Bool) (e : Nat) : Nat :=
  match (if lcore then x.decL else x.decD).find e with | some c => c | none => shippedClass lcore e

/-- The two-bit codes of four entries: native and micro-sequence alike are 0. -/
def idByte (x : Part) (lcore : Bool) (b : Nat) : Byte :=
  BitVec.ofNat 8 ((List.range 4).foldl (fun a j =>
    let c := x.decClass lcore (4 * b + j)
    a + (if c = 1 then 0 else c) * 4 ^ j) 0)

/-- The decode-table identity of a core kind (R414). -/
def Part.identity (x : Part) (lcore : Bool) : W64 :=
  BitVec.ofNat 64 (ofLe ((sha384 (3#8 :: (List.range 1024).map (idByte x lcore))).take 8))

end Sys2Proof.Machine
end

