-- ==== Sys2Proof/Machine/Scalar.lean ====
section
/-!
DEFINITION. Scalar integer instructions: majors 0x10 to 0x12 (R164 to R170).
-/

namespace Sys2Proof.Machine

/-- A scalar instruction that writes `v` to s[D] and goes on. -/
def scalarOp (i : Instr) (o : COps) (s : State) (v : State → W64) : Host.Outcome State Fault Refusal :=
  issue i s (fun s => .ok ((s.setS o.d (v s)).advance i))

/-- opnd(s[A]) and opnd(s[B]) combined, and the result extended (R165). -/
def scalarBin (i : Instr) (o : COps) (s : State) (f : Int → Int → Int) : Host.Outcome State Fault Refusal :=
  scalarOp i o s (fun s => o.result (f (o.opnd (s.sreg o.a).toNat) (o.opnd (s.sB o).toNat)))

/-- Bitwise operations on the low bits of two integers. -/
def intAnd (w : Nat) (a b : Int) : Int := (intBits a w &&& intBits b w : Nat)
def intOr (w : Nat) (a b : Int) : Int := (intBits a w ||| intBits b w : Nat)
def intXor (w : Nat) (a b : Int) : Int := (intBits a w ^^^ intBits b w : Nat)

/-- Quotient and remainder with the border cases of R167. -/
def divInt (a b : Int) : Int := if b = 0 then -1 else a.tdiv b
def remInt (a b : Int) : Int := if b = 0 then a else a.tmod b

/-- The shift count of `shl` and `shr`. -/
def shiftCount (x : Nat) : Nat := x % 256

/-- Leading zeros among the low w bits. -/
def clzN (x w : Nat) : Nat := w - lenN x w

/-- The compare conditions (R168, R196). -/
def condHolds (cc : ICond) (a b : Int) : Bool :=
  match cc with
  | .eq => a == b
  | .ne => a != b
  | .lt => decide (a < b)
  | .le => decide (a ≤ b)
  | .gt => decide (b < a)
  | .ge => decide (b ≤ a)

/-- Bit-field extract at width W with position and length fields of `pb` and 8 bits (R170, R195). -/
def bfx (W pb : Nat) (signed : Bool) (a b : Nat) : Nat :=
  let p := b % 2 ^ pb
  let n := Nat.min (bits b 8 (pb + 1)) W
  let f := (a >>> p) % 2 ^ n
  if n = 0 then 0 else if signed then intBits (sextI f n) W else f

/-- Bit-field insert: what D becomes (R170, R195). -/
def bfi (W pb : Nat) (d a b : Nat) : Nat :=
  let p := b % 2 ^ pb
  let n := Nat.min (bits b 8 (pb + 1)) W
  let m := ((2 ^ n - 1) <<< p) % 2 ^ W
  (d &&& (2 ^ W - 1 - m)) ||| ((((a % 2 ^ n) <<< p)) &&& m)

def execScalarAdd (o : COps) (s : State) := scalarBin (.scalarAdd o) o s (· + ·)
def execScalarSub (o : COps) (s : State) := scalarBin (.scalarSub o) o s (· - ·)
def execScalarMul (o : COps) (s : State) := scalarBin (.scalarMul o) o s (· * ·)
def execScalarMulh (o : COps) (s : State) := scalarBin (.scalarMulh o) o s (fun a b => (a * b) / (2 ^ o.w : Nat))
def execScalarDiv (o : COps) (s : State) := scalarBin (.scalarDiv o) o s divInt
def execScalarRem (o : COps) (s : State) := scalarBin (.scalarRem o) o s remInt
def execScalarAnd (o : COps) (s : State) := scalarBin (.scalarAnd o) o s (intAnd o.w)
def execScalarOr (o : COps) (s : State) := scalarBin (.scalarOr o) o s (intOr o.w)
def execScalarXor (o : COps) (s : State) := scalarBin (.scalarXor o) o s (intXor o.w)
def execScalarMin (o : COps) (s : State) := scalarBin (.scalarMin o) o s min
def execScalarMax (o : COps) (s : State) := scalarBin (.scalarMax o) o s max

def execScalarShl (o : COps) (s : State) := scalarOp (.scalarShl o) o s (fun s =>
  o.result (o.opnd (s.sreg o.a).toNat * (2 ^ shiftCount (s.sB o).toNat : Nat)))

def execScalarShr (o : COps) (s : State) := scalarOp (.scalarShr o) o s (fun s =>
  o.result (o.opnd (s.sreg o.a).toNat / (2 ^ shiftCount (s.sB o).toNat : Nat)))

def execScalarClz (o : COps) (s : State) := scalarOp (.scalarClz o) o s (fun s =>
  BitVec.ofNat 64 (clzN (s.sreg o.a).toNat o.w))

def execScalarPopc (o : COps) (s : State) := scalarOp (.scalarPopc o) o s (fun s =>
  BitVec.ofNat 64 (popN (s.sreg o.a).toNat o.w))

def execScalarNot (o : COps) (s : State) := scalarOp (.scalarNot o) o s (fun s =>
  o.result (-(o.opnd (s.sreg o.a).toNat) - 1))

def execScalarCmp (cc : ICond) (o : COps) (s : State) := scalarOp (.scalarCmp cc o) o s (fun s =>
  BitVec.ofNat 64 (b2n (condHolds cc (o.opnd (s.sreg o.a).toNat) (o.opnd (s.sB o).toNat))))

def execScalarMov (o : COps) (s : State) := scalarOp (.scalarMov o) o s (fun s => o.result (o.opnd (s.sB o).toNat))

def execLi (o : COps) (s : State) := scalarOp (.li o) o s (fun _ => match o.imm with | some w => w | none => 0)

/-- `lea` (R169): the sum is formed in 64 bits and then taken at the width X names. -/
def execLea (o : COps) (s : State) := scalarOp (.lea o) o s (fun s =>
  o.result (((s.sreg o.a).toNat + (s.sB o).toNat * 2 ^ (o.c.toNat % 4) : Nat)))

/-- `bfx` and `bfi` want width 64 (R170). -/
def execScalarBfx (o : COps) (s : State) := issue (.scalarBfx o) s (fun s =>
  if o.x.toNat % 4 ≠ 3 then .error undef8
  else .ok ((s.setS o.d (BitVec.ofNat 64 (bfx 64 6 o.signed (s.sreg o.a).toNat (s.sB o).toNat))).advance (.scalarBfx o)))

def execScalarBfi (o : COps) (s : State) := issue (.scalarBfi o) s (fun s =>
  if o.x.toNat % 4 ≠ 3 then .error undef8
  else .ok ((s.setS o.d (BitVec.ofNat 64 (bfi 64 6 (s.sreg o.d).toNat (s.sreg o.a).toNat (s.sB o).toNat))).advance
    (.scalarBfi o)))

def execScalarSel (o : COps) (s : State) := scalarOp (.scalarSel o) o s (fun s =>
  o.result (if s.sreg o.c ≠ 0 then o.opnd (s.sreg o.a).toNat else o.opnd (s.sB o).toNat))

end Sys2Proof.Machine
end

