-- ==== Sys2Proof/Machine/Control.lean ====
section
/-!
DEFINITION. Control instructions: majors 0x00 to 0x02 (R174 to R186).
-/

namespace Sys2Proof.Machine

/-- A PC-relative target (R151, R174). -/
def State.target (s : State) (o : JOps) : W64 := s.frag.pc + sext64 (o.tgt.toNat * 8) 27

/-- The issuing fragment goes to the target of a branch (R175). -/
def State.jump (s : State) (pc : W64) : State := State.goto { s with frag := { s.frag with jumped := true } } pc

def execNop (o : COps) (s : State) := issue (.nop o) s (fun s => .ok (s.advance (.nop o)))

def execBr (o : JOps) (s : State) := issue (.br o) s (fun s => .ok (s.jump (s.target o)))

def execCall (o : JOps) (s : State) := issue (.call o) s (fun s =>
  .ok ((s.setS o.creg (s.frag.pc + 8)).jump (s.target o)))

/-- The conditions of `brc` on a signed 64-bit value (R174). -/
def zHolds (cc : ZCond) (v : W64) : Bool :=
  match cc with
  | .z => v == 0
  | .nz => v != 0
  | .lt => v.msb
  | .ge => !v.msb
  | .gt => !v.msb && v != 0
  | .le => v.msb || v == 0

def execBrc (cc : ZCond) (o : JOps) (s : State) := issue (.brc cc o) s (fun s =>
  .ok (if zHolds cc (s.sreg o.creg) then s.jump (s.target o) else s.goto (s.frag.pc + 8)))

/-- A register target must be 8-byte aligned (R175). -/
def jumpTo (i : Instr) (o : COps) (s : State) (link : State → State) : Host.Outcome State Fault Refusal :=
  issue i s (fun s =>
    let t := s.sreg o.a
    if t.toNat % 8 ≠ 0 then .error undef8
    else .ok ((link s).jump t))

def execBrR (o : COps) (s : State) := jumpTo (.brR o) o s id
def execCallR (o : COps) (s : State) := jumpTo (.callR o) o s (fun s => s.setS o.d (s.frag.pc + 8))
def execRet (o : COps) (s : State) := jumpTo (.ret o) o s id

/-- Bytes of the group's private allocation from an offset on, of values the spec does not lay out, are stored where the page
is present (R23; DESIGN CHOICE, notes/assumptions/32.md). -/
def State.spillBytes (s : State) (org : Origin) (ofs n : Nat) : State :=
  let va := s.grp.pbase + ofs
  match s.xlate s.blk.part s.blk.core s.ctxid va .store with
  | (_, .error _) => s
  | (s1, .ok x) =>
    let bs := (List.range n).map (fun i => (⟨va + i, x.key + i, (Config.freeValue (s1.free + i)).setWidth 8⟩ : StoreByte))
    { s1 with free := s1.free + n, grp := { s1.grp with stores := s1.grp.stores ++ [⟨.priv s1.ctxid, bs, 0, .group, none, org⟩] } }

/-- What a split writes to the spill area (R23): the entry that is spilled, and the join records once there are more than the
core's join storage holds (DESIGN CHOICE, notes/assumptions/32.md: four). -/
def State.spillArea (s : State) (org : Origin) (before after : Group) : State :=
  let s1 := match after.frags.find? (fun p => p.2.spilled.isSome && (match before.frags.find p.1 with
      | some f => f.spilled.isNone | none => false)) with
    | some p => s.spillBytes org (32 * p.2.spilled.getD 0) 32
    | none => s
  if 4 < after.joins.length then s1.spillBytes org 896 128 else s1

/-- Split the issuing fragment (R18): the taken lanes keep its entry and go to `target`; the others become a new
fragment at `next`, which has taken part in no pending arrival (DESIGN CHOICE, notes/assumptions/65.md); both share the new join
record. -/
def State.split (s : State) (i : Instr) (taken target next join : W64) : State :=
  let r := KL.free s.grp.joins 64
  let g0 := s.grp.spill (if s.frag.spilled.isNone then 1 else 0)
  let nf := (((List.range 32).find? (fun k => k != s.fkey && !(g0.frags.has k)))).getD 32
  let f := { s.frag with em := taken, pc := target, joins := r :: s.frag.joins, jumped := true }
  let n : Fragment := { Fragment.reset with
    pc := next, em := s.frag.em &&& ~~~taken, joins := r :: s.frag.joins, partner := s.frag.partner, born := s.stamp
    phases := s.frag.phases, inHandler := s.grp.inTrap }
  let g : Group := { g0 with
    joins := g0.joins.put r ⟨join, s.frag.em, 0⟩
    frags := g0.frags.put nf n
    pend := g0.pend.map (fun p => (p.1, (p.2.1, p.2.2.filter (· != nf)))) }
  let s1 := ({ s with grp := g, frag := f } : State).spillArea (s.origin i []) s.grp g
  s1.stow.settleJoins s.bkey s.gkey [s.fkey, nf]

/-- How many live fragments the issuing group has. -/
def State.liveFrags (s : State) : Nat := s.grp.frags.length + 1

/-- The lane-conditional branch (R177, R18); JOFF is a multiple of 8 (R151). -/
def branchV (i : Instr) (o : JOps) (s : State) (cond : W64 → W64) : Host.Outcome State Fault Refusal :=
  issue i s (fun s =>
    let t := s.live &&& cond (s.kreg o.creg)
    let next := s.frag.pc + 16
    let joff := match o.joff with | some j => j.toNat | none => 0
    let join := s.frag.pc + sext64 joff 32
    if joff % 8 ≠ 0 then .error undef8
    else if t = 0 then .ok (s.goto next)
    else if t = s.frag.em then .ok (s.jump (s.target o))
    else if s.liveFrags = 32 then .error (.trap 5 0)
    else .ok (s.split i t (s.target o) next join))

def execBrv (o : JOps) (s : State) := branchV (.brv o) o s id
def execBrvN (o : JOps) (s : State) := branchV (.brvN o) o s (~~~ ·)

/-- The group's last instruction: it waits for every token, raises an attached error, and then leaves (R179, R232). -/
def State.finish (s : State) : Except Stop State :=
  if s.grp.waits 0xFF then .ok { s with frag := { s.frag with st := .drain } }
  else match s.grp.badTok 0xFF with
    | some t => .error (.engine t)
    | none => .ok s.leaveGroup

def execExit (o : COps) (s : State) := issue (.exit o) s (fun s =>
  if s.grp.frags.isEmpty then s.finish else .ok s.exitFrag)

/-- `leave` (R232): every other fragment of the group ends at once. -/
def execLeave (o : COps) (s : State) := issue (.leave o) s (fun s =>
  ({ s with grp := { s.grp with frags := [], joins := [], pend := [] }, frag := { s.frag with joins := [] } } : State).finish)

/-- `trap` (R183, R185): it issues, and its own effect is to enter the handler; where there is no way in, it is a double trap. -/
def execTrap (o : COps) (s : State) := issue (.trap o) s (fun s =>
  if s.grp.inTrap || s.grp.trap.hdl == 0 then .error (.trap 2 0) else .ok (s.userTrap (Instr.trap o).word0 2 0))

/-- `tret` (R185): no other fragment created inside the handler may be left. -/
def execTret (o : COps) (s : State) := issue (.tret o) s (fun s =>
  if !s.grp.inTrap then .error undef8
  else if s.grp.frags.any (fun p => p.2.inHandler) then .error .double
  else .ok (s.trapReturn.goto s.grp.trap.pc))

/-- The duration of a `sleep` in ns (R180). -/
def sleepNs (v : W64) : Nat := Nat.min v.toNat 1048575

/-- `sleep` (R180): of no time, it gives up one selection round. -/
def execSleep (o : COps) (s : State) := issue (.sleep o) s (fun s =>
  let n := sleepNs (s.sB o)
  .ok { s with frag := { s.frag with
    pc := s.frag.pc + BitVec.ofNat 64 (Instr.sleep o).len, st := if n = 0 then .pass else .sleep (s.now + n) } })

/-- A sleeping fragment is ready again when TIME has passed its wake time (R180) (DEDUCED, notes/assumptions/31.md). -/
def execSleepWake (who : FragRef) (s : State) : Host.Outcome State Fault Refusal :=
  match s.block who.blk, s.fragment who.blk who.grp who.fid with
  | some b, some f =>
    (match f.st with
     | .sleep wake =>
       if wake ≤ s.ctxTime b.part (s.ctxOf b) then .next (s.modFrag who.blk who.grp who.fid (fun y => { y with st := .run }))
       else .next s
     | _ => .next s)
  | _, _ => .next s

def execMark (o : COps) (s : State) := issue (.mark o) s (fun s => .ok (s.trace.advance (.mark o)))

/-- `brk` (R182): a debug event when the context's debug enable is set. -/
def execBrk (o : COps) (s : State) := issue (.brk o) s (fun s =>
  let s1 := { s with frag := { s.frag with pc := s.frag.pc + 8 } }
  match s.slot with
  | some _ => .ok (s1.debugStop (0, 13) ⟨1, 0, BitVec.ofNat 64 o.c.toNat⟩)
  | none => .ok (s.advance (.brk o)))

/-! ### Migration points (R43 to R45, R186) -/

/-- The state-mapping table whose point is at the issuing fragment's PC in the running variant (R44, R186). -/
def State.pointHere (s : State) : Option MapTable :=
  match s.imageOf s.blk with
  | none => none
  | some im => im.tables.find? (fun t =>
      if s.blk.lcore then im.ltext + BitVec.ofNat 64 t.loff == s.frag.pc else im.dtext + BitVec.ofNat 64 t.doff == s.frag.pc)

/-- The enabled D-core slots of a die in ascending order (R93, R453). -/
def State.dSlots (s : State) (die : Nat) : List Nat :=
  (List.range 34).filter (fun i => bitAt (wbits s.husk.record (248 + 34 * die) 34) i)

/-- The cores of the other kind on a block's die, in the order the scheduler looks at them (R393). -/
def State.targets (s : State) (x : Block) : List Nat :=
  let die := x.core / 64
  if x.lcore then (s.dSlots die).map (coreKey die) else (List.range 4).map (fun i => coreKey die (34 + i))

/-- Whether a block as it stands fits a core of the other kind, its groups placed by their numbers (R33, R390, R393). -/
def State.fitsOther (s : State) (x : Block) (groups : KL Group) (c : Nat) : Bool :=
  let l := !x.lcore
  let need := (groups.map (fun g => g.2.vblk.length)).foldl (· + ·) 0
  (s.places l false x.quadk (s.shut c 0 l x.acc) (groups.map (·.1)) (s.slotsTaken c)).isSome &&
  decide ((s.freeVblks c l need).length = need) && (s.winBase c l (x.winsize / 65536)).isSome

/-- A block the scheduler may migrate at all (R45). -/
def State.migratable (s : State) (bk : Nat) (x : Block) : Bool :=
  x.clusize == 1 && decide ((s.groupsOf bk).length ≤ (if x.lcore then 64 else 8)) &&
  (match s.grids.find x.grid with | some g => g.kdb 6 1 == 1 && g.level == 0 | none => false) &&
  (s.targets x).any (fun c => (s.winBase c (!x.lcore) (x.winsize / 65536)).isSome)

/-- `mig` and `mig.req` (R45, R186) (DEDUCED, notes/assumptions/53.md). -/
def migPoint (i : Instr) (req : Bool) (s : State) : Host.Outcome State Fault Refusal :=
  issue i s (fun s =>
    match s.pointHere with
    | none => .ok (s.advance i)
    | some t =>
      if s.grp.inTrap then .ok (s.advance i)
      else
        let s1 := { s with frag := { s.frag with partner := some (t.doff, t.loff), moved := false } }
        if !s.frag.moved && (req || s.blk.mig != .none) && s.grp.frags.isEmpty && s.migratable s.bkey s.blk then
          .ok { s1 with frag := { s1.frag with st := .mig req } }
        else .ok (s1.advance i))

def execMig (o : COps) (s : State) := migPoint (.mig o) false s
def execMigReq (o : COps) (s : State) := migPoint (.migReq o) true s

end Sys2Proof.Machine
end

