-- ==== Sys2Proof/Machine/Special.lean ====
section
/-!
DEFINITION. Special registers: major 0x13 (R171, R172, R106, R133, R351, R352, R422, R423).
-/

namespace Sys2Proof.Machine

/-- The control register of a ring as it reads (R423). -/
def Ring.ctl (v : Ring) : W64 := BitVec.ofNat 64 (b2n v.en + v.log2 * 2 ^ 16 + v.period * 2 ^ 48)

/-- FQCTL as it reads (R352). -/
def Part.fqctl (x : Part) : W64 := BitVec.ofNat 64 (b2n x.en + 2 * b2n x.ovf + x.log2n * 2 ^ 16 + x.vec * 2 ^ 21)

/-- The value of a special register (R171, R351, R422). -/
def State.special (s : State) (n : Nat) : W64 :=
  let x := s.part s.blk.part
  let g := s.grids.find s.blk.grid
  match n with
  | 0x01 => BitVec.ofNat 64 s.gkey
  | 0x02 => BitVec.ofNat 64 s.blk.blkid
  | 0x03 => BitVec.ofNat 64 s.blk.cluidx
  | 0x04 => BitVec.ofNat 64 s.blk.clusize
  | 0x05 => s.grp.role.setWidth 64
  | 0x06 => BitVec.ofNat 64 s.now
  | 0x07 => s.grp.fpstat.setWidth 64
  | 0x08 => s.grp.fmask
  | 0x09 => BitVec.ofNat 64 (s.grp.winsel * 2 ^ 32 + (s.blk.winfmt.get s.grp.winsel).toNat)
  | 0x0A => s.frag.em
  | 0x0B => BitVec.ofNat 64 (s.blk.groups.length + 1)
  | 0x0C => BitVec.ofNat 64 (16 * s.grp.vblk.length)
  | 0x0D => s.frag.pc
  | 0x0E => s.blk.argbase
  | 0x0F => BitVec.ofNat 64 (gridId s.blk.grid)
  | 0x10 => BitVec.ofNat 64 (match g with | some y => y.nblk | none => 0)
  | 0x11 => BitVec.ofNat 64 (b2n s.blk.lcore)
  | 0x12 => BitVec.ofNat 64 s.grp.quad
  | 0x13 => BitVec.ofNat 64 (match g with | some y => y.depth | none => 0)
  | 0x20 => s.grp.trap.pc
  | 0x21 => s.grp.trap.op
  | 0x22 => s.grp.trap.d
  | 0x23 => s.grp.trap.a
  | 0x24 => s.grp.trap.b
  | 0x25 => s.grp.trap.c
  | 0x26 => s.grp.trap.mod
  | 0x27 => s.grp.trap.em
  | 0x28 => s.grp.trap.part
  | 0x29 => s.grp.trap.hdl
  | 0x2A => s.grp.trap.act
  | 0x80 => BitVec.ofNat 64 s.grp.plevel
  | 0x81 => BitVec.ofNat 64 s.blk.part
  | 0x82 => x.fqbase
  | 0x83 => x.fqctl
  | 0x84 => x.fqhead.setWidth 64
  | 0x85 => x.fqtail.setWidth 64
  | 0x86 => x.identity false
  | 0x87 => x.identity true
  | 0x88 => x.wdog.setWidth 64
  | 0x89 => x.tr.base
  | 0x8A => x.tr.ctl
  | 0x8B => x.tr.head.setWidth 64
  | 0x8C => x.tr.tail.setWidth 64
  | 0x8D => x.tr.drop.setWidth 64
  | 0x8E => x.trfilt
  | 0x8F => x.sm.base
  | 0x90 => x.sm.ctl
  | 0x91 => x.sm.head.setWidth 64
  | 0x92 => x.sm.tail.setWidth 64
  | 0x93 => x.sm.drop.setWidth 64
  | 0x94 => x.ms.base
  | 0x95 => x.ms.ctl
  | 0x96 => x.ms.head.setWidth 64
  | 0x97 => x.ms.tail.setWidth 64
  | 0x98 => x.ms.drop.setWidth 64
  | 0x99 => x.dbg
  | _ => 0

/-- `sread` (R171): LANEID goes to the active lanes of a lane register, every other register to s[D]. -/
def execSread (o : COps) (s : State) := issue (.sread o) s (fun s =>
  let s1 := if o.c = 0 then s.writeV ((lanesOf s.live).map (fun l => (o.d.toNat * 64 + l, BitVec.ofNat 32 l)))
    else s.setS o.d (s.special o.c.toNat)
  .ok (s1.advance (.sread o)))

/-- A write to a special register of the issuing group's partition or group, then on. -/
def swriteOp (i : Instr) (s : State) (f : State → Except Stop State) : Host.Outcome State Fault Refusal :=
  issue i s (fun s => match f s with | .ok t => .ok (t.advance i) | .error e => .error e)

/-- A change to the issuing group's partition. -/
def State.modMyPart (s : State) (f : Part → Part) : State := s.modPart s.blk.part f

/-- The base address of a ring takes effect while EN is 0 (R423); bits [63:52] are ignored (R422). -/
def Part.setBase (x : Part) (r : Nat) (v : W64) : Part :=
  if (x.ring r).en then x else x.setRing r { x.ring r with base := BitVec.ofNat 64 (v.toNat % 2 ^ 52) }

/-- The registers without a row of their own: bases and drop counts are written, read-only ones are not (R10). -/
def State.swritePlain (s : State) (n : Nat) (v : W64) : State :=
  match n with
  | 0x82 => s.modMyPart (fun x => if x.en then x else { x with fqbase := BitVec.ofNat 64 (v.toNat % 2 ^ 52 / 64 * 64) })
  | 0x89 => s.modMyPart (fun x => x.setBase 0 v)
  | 0x8F => s.modMyPart (fun x => x.setBase 1 v)
  | 0x94 => s.modMyPart (fun x => x.setBase 2 v)
  | 0x8D => s.modMyPart (fun x => x.setRing 0 { x.tr with drop := v.setWidth 32 })
  | 0x93 => s.modMyPart (fun x => x.setRing 1 { x.sm with drop := v.setWidth 32 })
  | 0x98 => s.modMyPart (fun x => x.setRing 2 { x.ms with drop := v.setWidth 32 })
  | 0x99 => s.modMyPart (fun x => { x with dbg := v })
  | _ => s

def execSwrite (o : COps) (s : State) := swriteOp (.swrite o) s (fun s => .ok (s.swritePlain o.c.toNat (s.sreg o.a)))

/-- ROLE := the value's two bits (R38, R233). -/
def State.setRole (s : State) (r : BitVec 2) : State := { s with grp := { s.grp with role := r } }

def execSwriteRole (o : COps) (s : State) := swriteOp (.swriteRole o) s (fun s => .ok (s.setRole ((s.sreg o.a).setWidth 2)))

def execSwriteFpstat (o : COps) (s : State) := swriteOp (.swriteFpstat o) s (fun s =>
  .ok { s with grp := { s.grp with fpstat := (s.sreg o.a).setWidth 6 } })

/-- WINFMT (R106): a region below the window's, and a well-formed word. -/
def execSwriteWinfmt (o : COps) (s : State) := swriteOp (.swriteWinfmt o) s (fun s =>
  let v := (s.sreg o.a).toNat
  let region := bits v 32 16
  let w := BitVec.ofNat 16 v
  if s.blk.winsize / 65536 ≤ region ∨ !fmtOk w then .error undef8
  else .ok { s with blk := { s.blk with winfmt := s.blk.winfmt.set region w }, grp := { s.grp with winsel := region } })

/-- TRAPPC and TRAPHDL want 8-byte aligned values (R171). -/
def execSwriteTrappc (o : COps) (s : State) := swriteOp (.swriteTrappc o) s (fun s =>
  let v := s.sreg o.a
  if v.toNat % 8 ≠ 0 then .error undef8
  else if o.c = 0x20 then .ok { s with grp := { s.grp with trap := { s.grp.trap with pc := v } } }
  else .ok { s with grp := { s.grp with trap := { s.grp.trap with hdl := v } } })

/-- A write of FQCTL (R351, R352), before held records are looked at again. -/
def Part.setFqctl (x : Part) (v : Nat) : Part :=
  let l := if x.en ∨ bits v 16 5 < 6 ∨ 16 < bits v 16 5 then x.log2n else bits v 16 5
  let ok := 6 ≤ l ∧ l ≤ 16 ∧ x.fqbase.toNat % (64 * 2 ^ l) = 0
  { x with log2n := l, vec := bits v 21 11, ovf := x.ovf && !bitAt v 1, en := bitAt v 0 && (x.en || decide ok) }

/-- Held records are written as far as the queue now allows. -/
def State.reflush (s : State) : State := State.flushRecs ((s.part s.blk.part).held.length) s s.blk.part

def execSwriteFqctl (o : COps) (s : State) := swriteOp (.swriteFqctl o) s (fun s =>
  .ok (s.modMyPart (fun x => x.setFqctl (s.sreg o.a).toNat)).reflush)

/-- FQHEAD stays within 2^LOG2N of FQTAIL (R352). -/
def execSwriteFqhead (o : COps) (s : State) := swriteOp (.swriteFqhead o) s (fun s =>
  let v : W32 := (s.sreg o.a).setWidth 32
  let x := s.part s.blk.part
  if 2 ^ x.log2n < (x.fqtail - v).toNat then .error undef8
  else .ok (s.modMyPart (fun x => { x with fqhead := v })).reflush)

def execSwriteWdog (o : COps) (s : State) := swriteOp (.swriteWdog o) s (fun s =>
  .ok (s.modMyPart (fun x => { x with wdog := (s.sreg o.a).setWidth 16 })))

/-- Which ring a control or head register belongs to. -/
def ringOf (n : BitVec 8) : Nat := if n = 0x8A ∨ n = 0x8B then 0 else if n = 0x90 ∨ n = 0x91 then 1 else 2

/-- The ranges of LOG2 and PERIOD (R423). -/
def ringRanges (r l p : Nat) : Bool :=
  decide (4 ≤ l) && decide (l ≤ 20) && (r == 0 || (decide ((if r = 1 then 16 else 1) ≤ p) && decide (p ≤ 65535)))

/-- A write of a ring's control register (R423) (DEDUCED, notes/assumptions/34.md). -/
def Ring.setCtl (x : Ring) (r v : Nat) : Ring :=
  let l := bits v 16 5
  let p := bits v 48 16
  if bitAt v 0 then
    (if x.en then x
     else { x with en := ringRanges r x.log2 x.period && x.base.toNat % (ringSize r * 2 ^ x.log2) == 0 })
  else if x.en then { x with en := false }
  else { x with
    log2 := if 4 ≤ l ∧ l ≤ 20 then l else x.log2
    period := if r = 0 then 0 else if (if r = 1 then 16 else 1) ≤ p then p else x.period }

/-- The cores of a partition's dies. -/
def State.partCore (s : State) (p c : Nat) : Bool := s.partOfDie (c / 64) == p

/-- Setting EN restarts a sampler's counters (R430, R433); clearing it discards its FIFOs, each record counted as a
drop (R432, R433). -/
def State.restartSampler (s : State) (p r : Nat) (was now : Bool) : State :=
  if was = now ∨ r = 0 then s
  else if now then
    let f := fun (x : Core) =>
      if r = 1 then { x with samp := x.samp.map (fun y => { y with clocks := 0, ptr := 0 }) } else { x with memCnt := 0 }
    { s with cores := s.cores.map (fun q => if s.partCore p q.1 then (q.1, f q.2) else q) }
  else
    let lost := (s.cores.filter (fun q => s.partCore p q.1)).foldl (fun n q =>
      n + (if r = 1 then (q.2.samp.map (fun y => y.fifo.length)).foldl (· + ·) 0 else q.2.memFifo.length)) 0
    let f := fun (x : Core) =>
      if r = 1 then { x with samp := x.samp.map (fun y => { y with fifo := [] }) } else { x with memFifo := [], memOpen := [] }
    ({ s with cores := s.cores.map (fun q => if s.partCore p q.1 then (q.1, f q.2) else q) } : State).ringDrop p r lost

def execSwriteRingCtl (o : COps) (s : State) := swriteOp (.swriteRingCtl o) s (fun s =>
  let r := ringOf o.c
  let p := s.blk.part
  let v := (s.part p).ring r
  let v1 := v.setCtl r (s.sreg o.a).toNat
  .ok ((s.modMyPart (fun x => x.setRing r v1)).restartSampler p r v.en v1.en))

def execSwriteRingHead (o : COps) (s : State) := swriteOp (.swriteRingHead o) s (fun s =>
  let r := ringOf o.c
  let x := (s.part s.blk.part).ring r
  let v : W32 := (s.sreg o.a).setWidth 32
  if 2 ^ x.log2 < (x.tail - v).toNat then .error undef8
  else .ok (s.modMyPart (fun y => y.setRing r { x with head := v })))

def execSwriteTrfilt (o : COps) (s : State) := swriteOp (.swriteTrfilt o) s (fun s =>
  let v := s.sreg o.a
  if 2 ^ 56 ≤ v.toNat then .error undef8 else .ok (s.modMyPart (fun x => { x with trfilt := v })))

end Sys2Proof.Machine
end

