-- ==== Sys2Proof/Machine/Memory.lean ====
section
/-!
DEFINITION. Memory instructions: majors 0x14, 0x80, 0x81 (R173, R210 to R221), the check of each lane's access
(R212), the conversions of format words (R105), and the completion of loads and copies.
-/

namespace Sys2Proof.Machine

/-! ### Places -/

/-- Where a lane's bytes are: at a memory key, in a block's window, or in a lane's private memory, whose words lie apart: the
keys of the access's first byte and of its second word, and how far on (R95). -/
inductive Place where
  | mem (key : Nat)
  | win (blk off : Nat)
  | priv (k0 k1 ofs : Nat)
  deriving DecidableEq, Repr

/-- Headers of E2M1S data (R104): where the header granule starts, the element index of the first element in its data
granule, the data granule's number, and whether blocks are variable. -/
structure Header where
  at_   : Place
  first : Nat
  gran  : Nat
  var   : Bool
  deriving DecidableEq, Repr

/-- The outcome of the checks of R212 on one lane. -/
inductive LaneRes where
  | viol (cause : Nat)
  | misal
  | miss (va : Nat)
  | prot (detail va : Nat)
  | poison (va : Nat)
  | ok (pl : Place) (va : Nat) (fmt : BitVec 16) (hdr : Option Header)
  deriving DecidableEq, Repr

/-- A place some bytes further on. -/
def Place.add : Place → Nat → Place
  | .mem k, n => .mem (k + n)
  | .win b o, n => .win b (o + n)
  | .priv k0 k1 o, n => .priv k0 k1 (o + n)

/-- The memory key of a byte of memory, private memory included. -/
def Place.key : Place → Option Nat
  | .mem k => some k
  | .win _ _ => none
  | .priv k0 k1 o => some (if o < 4 then k0 + o else k1 + (o - 4))

/-- The number of the 4-byte word a byte lies in. -/
def Place.word : Place → Nat
  | .win b o => 2 * (b * 2 ^ 30 + o / 4) + 1
  | p => 2 * (p.key.getD 0 / 4)

/-- The byte of its word that a place is, and where the word starts. -/
def Place.inWord : Place → Nat × Place
  | .win b o => (o % 4, .win b (o / 4 * 4))
  | .mem k => (k % 4, .mem (k / 4 * 4))
  | p => (0, p)

/-- A byte of a source as an engine has it: of a word that it has read before, or as a reader sees it now; an engine reads each word
of its source once (R457). -/
def cachedByte (words : KL Nat) (see : Place → Byte) (p : Place) : Byte :=
  match words.find p.word with
  | some w => BitVec.ofNat 8 (bits w (8 * p.inWord.1) 8)
  | none => see p

/-- The words of some bytes are read now, those read before excepted. -/
def noteAll (see : Place → Byte) (words : KL Nat) (l : List Place) : KL Nat :=
  l.foldl (fun a p => if a.has p.word then a else a.put p.word (ofLe ((List.range 4).map (fun i => see (p.inWord.2.add i))))) words

/-- The virtual address of private byte a of a lane (R95). -/
def privAddr (pbase lane a : Nat) : Nat := pbase + 1024 + a / 4 * 256 + lane * 4 + a % 4

/-- The last byte a group's buffered stores hold for a memory key (R213). -/
def ownMem (l : List StoreEnt) (key : Nat) : Option Byte :=
  l.foldl (fun r e => match e.dst with
    | .mem _ | .phys | .priv _ => e.bytes.foldl (fun q b => if b.key = key then some b.val else q) r
    | _ => r) none

/-- The same for a byte of a window that is not written at once. -/
def ownWin (l : List StoreEnt) (blk off : Nat) : Option Byte :=
  l.foldl (fun r e => match e.dst with
    | .window t => if t = blk then e.bytes.foldl (fun q b => if b.at_ = off then some b.val else q) r else r
    | _ => r) none

/-- A byte as a group of block `bk` with some buffered stores sees it (R213, R249, R290, R457). -/
def State.seenBy (s : State) (bk : Nat) (l : List StoreEnt) (pl : Place) : Byte :=
  match pl with
  | .win b o =>
    (ownWin l b o).getD (match s.block b with | some x => if b = bk then x.window.get o else x.winPub.get o | none => 0)
  | q => match q.key with | some k => (ownMem l k).getD (s.mem.byte k) | none => 0

/-- The results of ended relayouts that have not reached their homes and that `pick` names, by the block that they wait in: what groups
hold, what groups have left in their blocks, and blocks in their grids. -/
def State.resultsWhere (s : State) (pick : Option Block → StoreEnt → Bool) : List StoreEnt :=
  let of := fun (x : Option Block) (l : List StoreEnt) => l.filter (fun e => e.job.isSome && pick x e)
  s.allBlocks.flatMap (fun b => of (some b.2) (b.2.rest ++ (s.groupsOf b.1).flatMap (fun g => g.2.stores))) ++
    s.grids.flatMap (fun g => of none g.2.rest)

/-- Those of some relayouts. A reader of block `bk` has what it has read of its own window there (`State.noteResults`). -/
def State.resultsOf (s : State) (bk : Nat) (jobs : List Nat) : List StoreEnt :=
  if jobs.isEmpty then [] else s.resultsWhere (fun _ e => e.isOf jobs && e.dst != .window bk)

/-- The stores that a group's loads see before they are home: its own, over the results of relayouts that it has read through a
descriptor, for its loads of a word do not go back (R295, R299) (DEDUCED, notes/assumptions/79.md). -/
def State.viewOf (s : State) (bk : Nat) (g : Group) : List StoreEnt := s.resultsOf bk g.seen ++ g.stores

/-- A byte as the issuing group's load sees it (R213, R290) (DESIGN CHOICE, notes/assumptions/6.md). -/
def State.see (s : State) (pl : Place) : Byte := s.seenBy s.bkey (s.viewOf s.bkey s.grp) pl

def State.seeN (s : State) (pl : Place) (n : Nat) : List Byte := (List.range n).map (fun i => s.see (pl.add i))

/-- One of a group's buffered stores covers a sector whole (DEDUCED, notes/assumptions/26.md). -/
def coversSector (l : List StoreEnt) (q : Nat) : Bool :=
  l.any (fun e => match e.dst with
    | .mem _ | .phys | .priv _ => (List.range 32).all (fun i => e.bytes.any (fun b => b.key == q * 32 + i))
    | _ => false)

/-- Whether a group that has made these stores reads a poisoned sector among n bytes from a key: a store of a whole sector
clears the poison (R115). -/
def State.poisonedFor (s : State) (l : List StoreEnt) (k n : Nat) : Bool :=
  s.poison.any (fun q => decide (q * 32 < k + n ∧ k < q * 32 + 32) && !coversSector l q)

/-- A place's bytes lie in a poisoned sector (R115). -/
def State.bad (s : State) (pl : Place) (n : Nat) : Bool :=
  match pl with
  | .mem k => s.poisonedFor (s.viewOf s.bkey s.grp) k n
  | .win _ _ => false
  | q => (List.range n).any (fun i => match (q.add i).key with | some k => s.poisonedFor (s.viewOf s.bkey s.grp) k 1 | none => false)

/-- The block of a cluster member (R90). -/
def State.member (s : State) (j : Nat) : Option Nat :=
  (s.allBlocks.find? (fun p => p.2.grid == s.blk.grid && p.2.cluster == s.blk.cluster && p.2.cluidx == j)).map (·.1)

/-! ### Shapes of accesses (R105, R211) -/

/-- Element width of a storage tag (R102). -/
def tagWidth (t : Nat) : Nat := match t with | 1 | 2 => 16 | 3 | 4 | 7 => 8 | 5 | 6 => 4 | 8 => 1 | _ => 0

/-- What a lane access is: element type and PAIR of the instruction, and what it does. -/
structure Shape where
  ty    : Nat
  pair  : Bool
  acc   : Acc
  deriving DecidableEq, Repr

/-- The float format when the format word matters: a float type (R105). -/
def Shape.flt (h : Shape) : Option Flt := fltOf h.ty

/-- Register bytes: 4, or 8 for a pair. -/
def Shape.regBytes (h : Shape) : Nat := if is64 h.ty || h.pair then 8 else 4

/-- Storage bytes under tag 0, and of integer, E2M1S and binary types under any tag. -/
def Shape.plain (h : Shape) : Nat := if h.ty < 8 then 2 ^ (h.ty % 4) else h.regBytes

/-- Values a float-typed access moves. -/
def Shape.vals (h : Shape) (f : Flt) : Nat := h.regBytes * 8 / f.width

/-- Bytes under a format word; none where the access is a FORMAT violation (R105, R211). -/
def Shape.nb (h : Shape) (fmt : BitVec 16) : Option Nat :=
  match h.flt with
  | none => some h.plain
  | some f =>
    let t := fmtTag fmt
    if t = 0 then some h.plain
    else if h.acc = .atomic ∨ 8 ≤ t ∨ ((t = 5 ∨ t = 6) ∧ h.acc = .store) then none
    else if h.vals f * tagWidth t % 8 = 0 then some (h.vals f * tagWidth t / 8) else none

/-- The bytes an access reaches over, a FORMAT violation's with them: those its values would take under the tag. -/
def Shape.span (h : Shape) (fmt : BitVec 16) : Nat :=
  match h.nb fmt, h.flt with
  | some n, _ => n
  | none, some f => if h.acc = .atomic then h.plain else cdiv (h.vals f * tagWidth (fmtTag fmt)) 8
  | none, none => h.plain

/-- Headers matter: a float-typed load of tag 5 or 6. -/
def Shape.hdr (h : Shape) (fmt : BitVec 16) : Bool := h.flt.isSome && (fmtTag fmt == 5 || fmtTag fmt == 6)

/-- The number of the header granule of a data granule (R104). -/
def hdrGranule (fmt : BitVec 16) (g : Nat) : Int :=
  ((if fmtTag fmt = 5 then g / 8 * 8 else g : Nat) : Int) + sextI (fmtGeom fmt) 12

/-- Header bytes of an element: offset of its scale in the header granule, given the bitmap (R104). -/
def hdrOffset (h : Header) (bit : Nat → Bool) (k : Nat) : Nat :=
  if h.var then 2048 + 2 * blockIndex bit (k / 8 + 1) 0 0 0 else h.gran % 8 * 8192 + 2 * (k / 32)

/-- Whether the header bytes an access reads are poisoned, for a reader of bytes and its test for poison. -/
def badHeader (see : Place → Byte) (bad : Place → Nat → Bool) (h : Header) (n : Nat) : Bool :=
  let bit := fun (c : Nat) => (see (h.at_.add (c / 8))).getLsbD (c % 8)
  (h.var && bad h.at_ ((h.first + n) / 64 + 1)) || (List.range n).any (fun j => bad (h.at_.add (hdrOffset h bit (h.first + j))) 2)

def State.badHdr (s : State) (h : Header) (n : Nat) : Bool := badHeader s.see s.bad h n

/-! ### The checks of R212 on one lane -/

/-- A byte of a window: bounds, format and headers, alignment, in the order of R212; a lane that is a FORMAT violation is not
tested for alignment. `bk` is the member's block. -/
def State.checkWin (s : State) (h : Shape) (bk off : Nat) : LaneRes :=
  match s.block bk with
  | none => .viol 2
  | some x =>
    if x.winsize ≤ off ∨ x.winsize < off + h.span (x.winfmt.get (off / 65536)) then .viol 1
    else
      let fmt := x.winfmt.get (off / 65536)
      match h.nb fmt with
      | none => .viol 4
      | some nb =>
        if h.hdr fmt then
          let hg := hdrGranule fmt (off / 65536)
          if hg < 0 ∨ (x.winsize / 65536 : Nat) ≤ hg then .viol 1
          else if fmtTag (x.winfmt.get hg.toNat) ≠ 0 then .viol 4
          else if off % nb ≠ 0 then .misal
          else .ok (.win bk off) 0 fmt (some ⟨.win bk (hg.toNat * 65536), off % 65536 * 2, off / 65536, fmtTag fmt == 6⟩)
        else if off % nb ≠ 0 then .misal
        else .ok (.win bk off) 0 fmt none

/-- A failed translation as a lane's outcome. -/
def XFault.lane (f : XFault) (va : Nat) : LaneRes :=
  match f with
  | .miss => .miss va
  | .poison => .poison va
  | e => .prot e.cls.2 va

/-- The format word of a leaf. -/
def TlbEnt.fmt (t : TlbEnt) : BitVec 16 := BitVec.ofNat 16 (bits t.leaf.toNat 12 4 * 4096 + bits t.leaf.toNat 52 12)

/-- A virtual address, its rows of R212 in order. One whose translation is not present is not tested for alignment (DEDUCED,
notes/assumptions/15.md); a header granule that no virtual address names is an ADDRESS violation (DESIGN CHOICE, notes/assumptions/70.md). -/
def State.checkVirt (s : State) (h : Shape) (va : Nat) : State × LaneRes :=
  let p := s.blk.part
  let c := s.ctxid
  let k := s.blk.core
  match s.leafOf p k c va with
  | (s1, .error f) =>
    (s1, if f ≠ .miss ∧ h.flt.isNone ∧ va % h.plain ≠ 0 then .misal else f.lane va)
  | (s1, .ok t) =>
    let data := (s1.xlate p k c va h.acc).2
    match h.nb t.fmt with
    | none => (s1, match data with | .error e => e.lane va | .ok _ => .viol 4)
    | some n =>
      if h.hdr t.fmt then
        let hg := hdrGranule t.fmt (va / 65536)
        let hva := hg.toNat * 65536
        if hg < 0 ∨ (2 ^ 39 : Nat) ≤ hg then (s1, .viol 2)
        else match s1.leafOf p k c hva with
        | (s2, .error .miss) => (s2, .miss hva)
        | (s2, .error e) => (s2, if va % n ≠ 0 then .misal else e.lane hva)
        | (s2, .ok u) =>
          match data, (s2.xlate p k c hva .load).2 with
          | .error e, _ => (s2, if fmtTag u.fmt = 0 ∧ va % n ≠ 0 then .misal else e.lane va)
          | .ok _, .error e => (s2, if fmtTag u.fmt = 0 ∧ va % n ≠ 0 then .misal else e.lane hva)
          | .ok x, .ok y =>
            let hd : Header := ⟨.mem y.key, va % 65536 * 2, va / 65536, fmtTag t.fmt == 6⟩
            if fmtTag u.fmt ≠ 0 then (s2, .viol 4)
            else if va % n ≠ 0 then (s2, .misal)
            else if s2.bad (.mem x.key) n || s2.badHdr hd (2 * n) then (s2, .poison va)
            else (s2, .ok (.mem x.key) va t.fmt (some hd))
      else if va % n ≠ 0 then (s1, .misal)
      else match data with
      | .error e => (s1, e.lane va)
      | .ok x =>
        if h.acc ≠ .store ∧ s1.bad (.mem x.key) n then (s1, .poison va) else (s1, .ok (.mem x.key) va t.fmt none)

/-- An address of R89: virtual, or an aperture address of KIND 0 (R90 to R92). -/
def State.checkAddr (s : State) (h : Shape) (a : Nat) : State × LaneRes :=
  if 2 ^ 56 ≤ a then (s, .viol 2)
  else if a < 2 ^ 55 then s.checkVirt h a
  else if bits a 36 19 ≠ 0 ∨ bits a 30 2 ≠ 0 ∨ s.blk.clusize ≤ bits a 32 4 then (s, .viol 2)
  else match s.member (bits a 32 4) with
    | none => (s, .viol 2)
    | some bk => (s, s.checkWin h bk (bits a 0 30))

/-- An offset into the issuing block's own window (R215). -/
def State.checkOwn (s : State) (h : Shape) (a : Nat) : State × LaneRes :=
  if 2 ^ 30 ≤ a then (s, .viol 2) else (s, s.checkWin h s.bkey a)

/-- A private address (R216), which lies at virtual addresses of the group's allocation (R95): bounds, then translation that is
not present, alignment, permission, poison (R212). -/
def State.checkPriv (s : State) (h : Shape) (lane a : Nat) : State × LaneRes :=
  if s.blk.priv < a + h.plain then (s, .viol 1)
  else
    let va := privAddr s.grp.pbase lane a
    let vb := privAddr s.grp.pbase lane ((a + h.plain - 1) / 4 * 4)
    let skew := a % h.plain ≠ 0
    let x := s.xlate s.blk.part s.blk.core s.ctxid va h.acc
    let y := x.1.xlate s.blk.part s.blk.core s.ctxid vb h.acc
    match x.2, y.2 with
    | .error .miss, _ => (x.1, .miss va)
    | _, .error .miss => (y.1, .miss vb)
    | .error e, _ => (x.1, if skew then .misal else e.lane va)
    | .ok _, .error e => (y.1, if skew then .misal else e.lane vb)
    | .ok p, .ok q =>
      if skew then (y.1, .misal)
      else if h.acc ≠ .store ∧ y.1.bad (.priv p.key q.key 0) h.plain then (y.1, .poison va)
      else (y.1, .ok (.priv p.key q.key 0) va 0 none)

/-! ### All lanes (R212) -/

/-- A checked lane: its number, its address, the outcome. -/
abbrev Checked := Nat × Nat × LaneRes

/-- Check every lane in ascending order. -/
def State.checkAll (s : State) (chk : State → Nat → State × LaneRes) (ea : Nat → Nat) (ls : List Nat) : State × List Checked :=
  ls.foldl (fun (a : State × List Checked) l => let r := chk a.1 l; (r.1, a.2 ++ [(l, ea l, r.2)])) (s, [])

/-- The lanes of some outcomes as a mask. -/
def lanesWith (l : List Checked) (f : LaneRes → Bool) : W64 := maskOf ((l.filter (fun c => f c.2.2)).map (·.1))

def isMisal : LaneRes → Bool | .misal => true | _ => false
def isMiss : LaneRes → Bool | .miss _ => true | _ => false
def isProt : LaneRes → Bool | .prot _ _ => true | _ => false
def isPoison : LaneRes → Bool | .poison _ => true | _ => false
def isViol : LaneRes → Bool | .viol _ => true | _ => false
def isOk : LaneRes → Bool | .ok _ _ _ _ => true | _ => false

/-- What stops the whole instruction: rows two, three, four and six of R212, in that order. -/
def laneStop (l : List Checked) (write : Bool) : Option Stop :=
  match l.find? (fun c => isMisal c.2.2) with
  | some c => some (.precise ⟨2, 3, BitVec.ofNat 64 c.2.1, lanesWith l isMisal, write⟩)
  | none =>
    match l.find? (fun c => isMiss c.2.2) with
    | some (_, _, .miss va) => some (.replay ⟨1, 0, BitVec.ofNat 64 va, lanesWith l isMiss, write⟩)
    | _ =>
      match l.find? (fun c => isProt c.2.2) with
      | some (_, _, .prot d va) => some (.precise ⟨2, d, BitVec.ofNat 64 va, lanesWith l isProt, write⟩)
      | _ =>
        match l.find? (fun c => isPoison c.2.2) with
        | some (_, _, .poison va) => some (.precise ⟨6, 0, BitVec.ofNat 64 va, lanesWith l isPoison, write⟩)
        | _ => none

/-- Lanes that committed a violation are switched off; the first violation of the group is kept (R111 to R113). -/
def State.switchOff (s : State) (l : List Checked) : State :=
  let m := lanesWith l isViol
  let v := match l.find? (fun c => isViol c.2.2) with
    | some (lane, a, .viol cause) => some (⟨s.time, BitVec.ofNat 64 a, cause, lane⟩ : Violation)
    | _ => none
  { s with grp := { s.grp with fmask := s.grp.fmask ||| m, viol := match s.grp.viol with | some x => some x | none => v } }

/-! ### Values -/

/-- Storage bits of one element of a tag, as an exact value. -/
def tagNum (t x : Nat) : Num :=
  match t with
  | 1 => Flt.bf16.decode x
  | 2 => Flt.f16.decode x
  | 3 => Flt.e4m3.decode x
  | 4 => Flt.e5m2.decode x
  | _ => ofInt (sextI x 8)

/-- A value as one element of a tag (R105): RNE with saturation. -/
def numTag (t : Nat) (x : Num) : Nat :=
  match t with
  | 1 => Flt.bf16.rne x
  | 2 => Flt.f16.rne x
  | 3 => Flt.e4m3.rne x
  | 4 => Flt.e5m2.rne x
  | _ => intBits (toInt true 8 .rne x).1 8

/-- n fields of w bits, put together from the low end (R103). -/
def packFields (w : Nat) (l : List Nat) : Nat :=
  (l.foldl (fun (a : Nat × Nat) x => (a.1 + (x % 2 ^ w) * 2 ^ a.2, a.2 + w)) (0, 0)).1

/-- The register bits a load gives (R105, R211). -/
def State.loadValue (s : State) (h : Shape) (pl : Place) (fmt : BitVec 16) (hdr : Option Header) : Nat :=
  match h.flt, h.nb fmt with
  | some f, some nb =>
    let x := ofLe (s.seeN pl nb)
    let t := fmtTag fmt
    if t = 0 then x
    else
      let w := tagWidth t
      packFields f.width ((List.range (h.vals f)).map (fun j =>
        match hdr with
        | some hd =>
          let bit := fun (c : Nat) => (s.see (hd.at_.add (c / 8))).getLsbD (c % 8)
          let o := hd.at_.add (hdrOffset hd bit (hd.first + j))
          f.rne (decodeE2m1s (bits x (4 * j) 4) (s.see o).toNat (s.see (o.add 1)).toNat)
        | none => f.rne (tagNum t (bits x (w * j) w))))
  | _, _ =>
    let x := ofLe (s.seeN pl h.plain)
    if h.ty < 4 then intBits (sextI x (8 * h.plain)) (8 * h.regBytes) else x

/-- The storage bytes a store writes (R105, R211). -/
def storeBytes (h : Shape) (fmt : BitVec 16) (x : Nat) : List Byte :=
  match h.flt, h.nb fmt with
  | some f, some nb =>
    let t := fmtTag fmt
    if t = 0 then leBytes x nb
    else leBytes (packFields (tagWidth t) ((List.range (h.vals f)).map (fun j => numTag t (f.decode (bits x (f.width * j) f.width))))) nb
  | _, _ => leBytes x h.plain

/-! ### Effective addresses (R210) -/

/-- The byte offset field. -/
def MOps.ofs (o : MOps) : W64 := match o.long with | some e => sext64 e.ofs.toNat 32 | none => sext64 o.ofs7.toNat 7

/-- ea(i) of a lane. -/
def State.ea (s : State) (o : MOps) (lane : Nat) : Nat :=
  let idx := if !o.idx then 0
    else if (match o.long with | some e => e.sb | none => false) then (s.sreg o.b).toNat else (s.grp.v o.b.toNat lane).toNat
  (s.sreg o.a + BitVec.ofNat 64 (idx <<< o.scale.toNat) + MOps.ofs o).toNat

/-! ### Stores and loads -/

/-- Bytes leave the entries of a group's buffer that `pick` names. -/
def Group.dropBytes (g : Group) (keys : List Nat) (wins : List (Nat × Nat)) (pick : StoreEnt → Bool) : Group :=
  { g with stores := dropFrom keys wins pick g.stores }

/-- The bytes of windows among some places. -/
def winPlaces (l : List (Place × Nat × Byte)) : List (Nat × Nat) :=
  l.filterMap (fun e => match e.1 with | .win b o => some (b, o) | _ => none)

/-- What a group's private memory and its own window are to hold is of nobody's concern but the block's: there later writes of the group
replace what waits in its buffer. Every other store stays until it is home, for a boundary may have published it (R293). -/
def Group.replace (g : Group) (bk : Nat) (l : List (Place × Nat × Byte)) : Group :=
  g.dropBytes (l.filterMap (·.1.key)) (winPlaces l) (fun e => match e.dst with | .priv _ => true | .window t => t == bk | _ => false)

/-- The buffer entries of some bytes written for a group of a context, by destination. `va` of a byte of memory is its
virtual address. -/
def entsOf (ctx : Nat) (maker : StoreBy) (job : Option Nat) (org : Origin) (l : List (Place × Nat × Byte)) : List StoreEnt :=
  let mem := fun (far : Bool) => l.filterMap (fun e => match e.1 with
    | .mem k => if decide (2 ^ 60 ≤ k) = far then some (⟨e.2.1, k, e.2.2⟩ : StoreByte) else none | _ => none)
  let prv := l.filterMap (fun e => match e.1 with
    | .priv _ _ _ => e.1.key.map (fun k => (⟨e.2.1, k, e.2.2⟩ : StoreByte)) | _ => none)
  let wins := l.filterMap (fun e => match e.1 with | .win b o => some (b, o, e.2.2) | _ => none)
  let ent := fun (d : StoreTo) (bs : List StoreByte) => if bs.isEmpty then [] else [(⟨d, bs, 0, maker, job, org⟩ : StoreEnt)]
  ent (.mem ctx) (mem false) ++ ent (.mem ctx) (mem true) ++ ent (.priv ctx) prv ++
    (wins.map (·.1)).eraseDups.flatMap (fun b => ent (.window b) ((wins.filter (fun e => e.1 == b)).map (fun e => ⟨e.2.1, 0, e.2.2⟩)))

/-- The virtual address of a byte of a store that starts at `va`: the second word of private memory is a row further on
(R95). -/
def byteAddr (pl : Place) (va i : Nat) : Nat :=
  match pl with | .priv _ _ _ => if i < 4 then va + i else va + 256 + (i - 4) | _ => va + i

/-- Put a store of the issuing group where it goes: bytes of the own window at once with a note to show them to other blocks,
the rest into the store buffer. -/
def State.store (s : State) (org : Origin) (l : List (Place × Nat × List Byte)) : State :=
  let flat := l.flatMap (fun e => (List.range e.2.2.length).map (fun i => (e.1.add i, byteAddr e.1 e.2.1 i, e.2.2.getD i 0)))
  let mine := fun (e : Place × Nat × Byte) => match e.1 with | .win b _ => b == s.bkey | _ => false
  let own := (flat.filter mine).filterMap (fun e => match e.1 with | .win _ o => some (o, e.2.2) | _ => none)
  let new := entsOf s.ctxid .group none org (flat.filter (fun e => !mine e)) ++
    (if own.isEmpty then [] else [⟨.own, own.map (fun e => ⟨e.1, s.stamp, e.2⟩), 0, .group, none, org⟩])
  let g := s.grp.replace s.bkey flat
  { s with blk := { s.blk with window := SMap.setAll s.blk.window own }, grp := { g with stores := g.stores ++ new } }

/-- Bytes of the own window that another group of the block stored and has not shown to other blocks: a group that
reads them publishes them with its own (R296). -/
def State.noteRead (s : State) (l : List Place) : State :=
  let offs := l.filterMap (fun p => match p with | .win b o => if b = s.bkey then some o else none | _ => none)
  if offs.isEmpty then s
  else
    let others := s.blk.groups.flatMap (fun g => g.2.stores.flatMap (fun e => if isOwn e then e.bytes else []))
    let last := fun (o : Nat) => others.foldl (fun (r : Option StoreByte) b =>
      if b.at_ = o then (match r with | some q => if q.key ≤ b.key then some b else r | none => some b) else r) none
    let hit := offs.filterMap last
    if hit.isEmpty then s else { s with grp := { s.grp with stores := s.grp.stores ++ [⟨.own, hit, 0, .group, none, .none⟩] } }

/-- Loaded values on their way to D (R214). -/
def State.inFlight (s : State) (d : Nat) (wide : Bool) (vals : List (Nat × Nat)) : State :=
  if vals.isEmpty then s
  else { s with grp := { s.grp with loads := s.grp.loads ++
    [⟨if wide then [d, d + 1] else [d], vals.flatMap (fun p => laneWrites d wide p.1 p.2), none⟩] } }

/-- The header bytes that an access to n elements reads (R104, R105). -/
def headerPlaces (see : Place → Byte) (h : Header) (n : Nat) : List Place :=
  let bit := fun (c : Nat) => (see (h.at_.add (c / 8))).getLsbD (c % 8)
  (if h.var then (List.range ((h.first + n) / 64 + 1)).map h.at_.add else []) ++
    (List.range n).flatMap (fun j => let o := hdrOffset h bit (h.first + j); [h.at_.add o, h.at_.add (o + 1)])

/-- The bytes that the surviving lanes of a load read, as places, those of headers included. -/
def okPlaces (see : Place → Byte) (h : Shape) (l : List Checked) : List Place :=
  l.flatMap (fun c => match c.2.2 with
    | .ok pl _ fmt hdr =>
      let n := (h.nb fmt).getD 0
      (List.range n).map pl.add ++ (match hdr with | some hd => headerPlaces see hd (2 * n) | none => [])
    | _ => [])

/-- A lane load (R214): checked, then the values read at once, to arrive later. -/
def laneLoad (i : Instr) (o : MOps) (s : State) (chk : State → Shape → Nat → State × LaneRes) :
    Host.Outcome State Fault Refusal :=
  issue i s (fun s =>
    let h : Shape := ⟨o.ty.toNat, match o.long with | some e => e.pair | none => false, .load⟩
    let r := s.checkAll (fun a l => chk a h l) (fun l => s.ea o l) (lanesOf (s.active o.guard o.neg))
    match laneStop r.2 false with
    | some e => .error (s.stopAt r.1 e)
    | none =>
      let s1 := r.1.switchOff r.2
      let vals := r.2.filterMap (fun c => match c.2.2 with
        | .ok pl _ fmt hdr => some (c.1, s1.loadValue h pl fmt hdr)
        | _ => none)
      .ok (((s1.noteRead (okPlaces s1.see h r.2)).inFlight o.d.toNat (h.regBytes == 8) vals).advance i))

/-- The register bits a store reads. -/
def State.storeData (s : State) (h : Shape) (d lane : Nat) : Nat :=
  if h.regBytes = 8 then s.grp.vpair d lane else (s.grp.v d lane).toNat

/-- A lane store (R213, R214). -/
def laneStore (i : Instr) (o : MOps) (s : State) (chk : State → Shape → Nat → State × LaneRes) :
    Host.Outcome State Fault Refusal :=
  issue i s (fun s =>
    let h : Shape := ⟨o.ty.toNat, match o.long with | some e => e.pair | none => false, .store⟩
    let r := s.checkAll (fun a l => chk a h l) (fun l => s.ea o l) (lanesOf (s.active o.guard o.neg))
    match laneStop r.2 true with
    | some e => .error (s.stopAt r.1 e)
    | none =>
      let s1 := r.1.switchOff r.2
      let l := r.2.filterMap (fun c => match c.2.2 with
        | .ok pl va fmt _ => some (pl, va, storeBytes h fmt (s1.storeData h o.d.toNat c.1))
        | _ => none)
      .ok ((s1.store (s1.origin i (r.2.map (fun c => (c.1, c.2.1)))) l).advance i))

def execLdG (o : MOps) (s : State) := laneLoad (.ldG o) o s (fun a h l => a.checkAddr h (a.ea o l))
def execStG (o : MOps) (s : State) := laneStore (.stG o) o s (fun a h l => a.checkAddr h (a.ea o l))
def execLdS (o : MOps) (s : State) := laneLoad (.ldS o) o s (fun a h l => a.checkOwn h (a.ea o l))
def execStS (o : MOps) (s : State) := laneStore (.stS o) o s (fun a h l => a.checkOwn h (a.ea o l))
def execLdP (o : MOps) (s : State) := laneLoad (.ldP o) o s (fun a h l => a.checkPriv h l (a.ea o l))
def execStP (o : MOps) (s : State) := laneStore (.stP o) o s (fun a h l => a.checkPriv h l (a.ea o l))

/-- The members of an `st.m` mask (R217). -/
def multiMask (o : MOps) : List Nat :=
  (List.range 12).filter (fun j => match o.long with | some e => e.ext.getLsbD j | none => false)

/-- One lane of `st.m` at every member: out of bounds at one is out for all; then a format violation, then misalignment at
one. -/
def State.checkMulti (s : State) (h : Shape) (ms : List Nat) (a : Nat) : LaneRes :=
  let l := ms.map (fun bk => s.checkWin h bk a)
  match l.find? (· == .viol 1), l.find? isViol, l.find? isMisal with
  | some r, _, _ => r
  | none, some r, _ => r
  | none, none, some r => r
  | none, none, none => l.getLastD (.ok (.win s.bkey a) 0 0 none)

/-- `st.m` (R217). The cause MULTICAST is no lane's: its record's ADDR is that of the lowest active lane, 0 with none (DESIGN CHOICE,
notes/assumptions/81.md). -/
def execStM (o : MOps) (s : State) := issue (.stM o) s (fun s =>
  let ms := multiMask o
  let lanes := lanesOf (s.active o.guard o.neg)
  let at_ := match lanes with | l :: _ => s.ea o l | [] => 0
  if ms.any (fun j => decide (s.blk.clusize ≤ j)) then .error (.precise ⟨3, 0, BitVec.ofNat 64 at_, s.frag.em, true⟩)
  else
    let h : Shape := ⟨o.ty.toNat, match o.long with | some e => e.pair | none => false, .store⟩
    let bks := ms.filterMap (fun j => s.member j)
    let r := s.checkAll (fun a l => (a, if ms.isEmpty then .ok (.win a.bkey 0) 0 0 none
      else if 2 ^ 30 ≤ a.ea o l then .viol 2 else a.checkMulti h bks (a.ea o l)))
      (fun l => s.ea o l) lanes
    match laneStop r.2 true with
    | some e => .error (s.stopAt r.1 e)
    | none =>
      let s1 := r.1.switchOff r.2
      let fmtOf := fun (bk off : Nat) => match s1.block bk with | some x => x.winfmt.get (off / 65536) | none => 0
      let l := bks.flatMap (fun bk => (r.2.filter (fun c => isOk c.2.2)).map (fun c =>
        (Place.win bk c.2.1, 0, storeBytes h (fmtOf bk c.2.1) (s1.storeData h o.d.toNat c.1))))
      .ok ((s1.store (s1.origin (.stM o) (r.2.map (fun c => (c.1, c.2.1)))) l).advance (.stM o)))

/-! ### Scalar memory (R173) -/

/-- The address of a scalar access; its index is s[B]. -/
def State.scalarEa (s : State) (o : MOps) : Nat :=
  (s.sreg o.a + (if o.idx then s.sreg o.b <<< o.scale.toNat else 0) + MOps.ofs o).toNat

/-- A scalar access's outcome as what stops it: invalid and misaligned addresses are precise protection faults. -/
def scalarStop (s : State) (a : Nat) (write : Bool) : LaneRes → Option Stop
  | .viol _ => some (.precise ⟨2, 4, BitVec.ofNat 64 a, s.frag.em, write⟩)
  | .misal => some (.precise ⟨2, 3, BitVec.ofNat 64 a, s.frag.em, write⟩)
  | .miss va => some (.replay ⟨1, 0, BitVec.ofNat 64 va, s.frag.em, write⟩)
  | .prot d va => some (.precise ⟨2, d, BitVec.ofNat 64 va, s.frag.em, write⟩)
  | .poison va => some (.precise ⟨6, 0, BitVec.ofNat 64 va, s.frag.em, write⟩)
  | .ok _ _ _ _ => none

/-- An aligned scalar access to nb bytes, checked. -/
def State.checkScalar (s : State) (ty a : Nat) (acc : Acc) : State × LaneRes :=
  if a % 2 ^ (ty % 4) ≠ 0 then (s, .misal) else s.checkAddr ⟨ty, false, acc⟩ a

def execScalarLd (o : MOps) (s : State) := issue (.scalarLd o) s (fun s =>
  let t := o.ty.toNat
  if 8 ≤ t then .error undef8
  else
    let a := s.scalarEa o
    let r := s.checkScalar t a .load
    match scalarStop s a false r.2, r.2 with
    | some e, _ => .error (s.stopAt r.1 e)
    | none, .ok pl _ _ _ =>
      let n := 2 ^ (t % 4)
      let v := ofLe (r.1.seeN pl n)
      let x : W64 := if t < 4 then sext64 v (8 * n) else BitVec.ofNat 64 v
      .ok (((r.1.noteRead ((List.range n).map (fun i => pl.add i))).setS o.d x).advance (.scalarLd o))
    | none, _ => .ok (r.1.advance (.scalarLd o)))

def execScalarSt (o : MOps) (s : State) := issue (.scalarSt o) s (fun s =>
  let t := o.ty.toNat
  if 8 ≤ t then .error undef8
  else
    let a := s.scalarEa o
    let r := s.checkScalar t a .store
    match scalarStop s a true r.2, r.2 with
    | some e, _ => .error (s.stopAt r.1 e)
    | none, .ok pl va _ _ =>
      .ok ((r.1.store (r.1.origin (.scalarSt o) ((lanesOf s.frag.em).map (fun l => (l, a))))
        [(pl, va, leBytes (s.sreg o.d).toNat (2 ^ (t % 4)))]).advance (.scalarSt o))
    | none, _ => .ok (r.1.advance (.scalarSt o)))

/-! ### Completions -/

/-- The oldest published store of a group reaches its home (R369). -/
def execWriteAtHome (who : GroupRef) (s : State) : Host.Outcome State Fault Refusal :=
  match s.block who.blk, s.group who.blk who.grp with
  | some b, some g =>
    (match g.stores.find? (·.ready) with
     | none => .next s
     | some e =>
       let r := s.home who.blk b.part e
       .next (if r.2 then r.1.modGroup who.blk who.grp (fun x => { x with stores := sentFrom x.stores e }) else r.1))
  | _, _ => .next s

/-! ### Tokens -/

/-- An operation takes a token: its count rises; at 255 it does not issue (R220). -/
def Group.tokUp (g : Group) (t : Nat) : Group :=
  { g with toks := setNth g.toks t { g.tok t with count := (g.tok t).count + 1 } }

/-- An operation on a token is done with a status (R219, R80); an error stays attached until an instruction has raised or
taken it (R150). When the group only waits for its tokens and all have
drained, its last instruction may issue again (R179) (DEDUCED, notes/assumptions/11.md). -/
def Group.tokDown (g : Group) (t status : Nat) (addr : W64) (now : Nat) : Group :=
  let k := g.tok t
  let g1 := { g with toks := setNth g.toks t { count := k.count - 1, err := if status = 0 then k.err else status, addr := if status = 0 then k.addr else addr } }
  let wake := fun (f : Fragment) => match f.st with
    | .drain => if g1.waits 0xFF then f else { f with st := .run }
    | .waitY m c => if g1.waits m then f else { f with st := .run, pc := c }
    | _ => f
  let drained := g1.frags.foldl (fun (a : BitVec 8) p => match p.2.st with | .waitY m _ => if g1.waits m then a else a ||| m | _ => a) 0
  ({ g1 with frags := g1.frags.map (fun p => (p.1, wake p.2)) } : Group).waited drained now

/-- Tokens of a group anywhere. -/
def State.tokDone (s : State) (bk gk t status : Nat) (addr : W64) : State :=
  s.modGroup bk gk (fun g => g.tokDown t status addr s.stamp)

/-! ### Asynchronous copies (R218 to R221) -/

/-- The checks of one lane of a copy, on both sides (R219): the window side as in R215, the address side as in R212 (DEDUCED, notes/assumptions/57.md). -/
def State.checkCopy (a : State) (o : MOps) (out : Bool) (l : Nat) : State × LaneRes :=
  let h : Shape := ⟨7, true, if out then .store else .load⟩
  let ea := a.ea o l
  let w := (a.grp.v o.d.toNat l).toNat
  match a.checkOwn h w with
  | (_, .viol c) => (a, LaneRes.viol c)
  | _ =>
    let r := a.checkAddr h ea
    let q := r.1.checkAddr h (ea + 8)
    match r.2, q.2 with
    | .viol c, _ => (r.1, .viol c)
    | x, y =>
      if a.blk.winsize < w + 16 then (a, .viol 1)
      else if 2 ^ 55 ≤ ea ∧ isViol y then (a, y)
      else if isMiss x then (r.1, x)
      else if ea % 16 ≠ 0 ∨ w % 16 ≠ 0 then (a, .misal)
      else (q.1, match x, y with | .ok _ _ _ _, .poison v => .poison v | _, _ => x)

/-- A copy of sixteen bytes per lane. -/
def copyOp (i : Instr) (o : MOps) (out : Bool) (s : State) : Host.Outcome State Fault Refusal :=
  issue i s (fun s =>
    let t := o.ty.toNat % 8
    if 255 ≤ (s.grp.tok t).count then .error (.hold 4)
    else
      let r := s.checkAll (fun a l => a.checkCopy o out l) (fun l => s.ea o l) (lanesOf (s.active o.guard o.neg))
      match laneStop r.2 out with
      | some e => .error (s.stopAt r.1 e)
      | none =>
        let s1 := r.1.switchOff r.2
        let ok := r.2.filter (fun c => isOk c.2.2)
        if ok.isEmpty then .ok (({ s1 with grp := (s1.grp.tokUp t).tokDown t 0 0 s1.stamp } : State).advance i)
        else
          let job : CopyJob := ⟨out, s1.bkey, s1.gkey, s1.ctxid, s1.frag.pc, t,
            ok.map (fun c => (c.1, BitVec.ofNat 64 c.2.1, (s1.grp.v o.d.toNat c.1).toNat)), none, s1.partner s1.blk s1.frag, [], [],
            ok.map (fun c => (c.1, c.2.1))⟩
          let s2 := { s1 with grp := s1.grp.tokUp t, jobNo := s1.jobNo + 1 }
          .ok ((s2.modCore s2.blk.core (fun x => { x with copies := x.copies.put s1.jobNo job })).advance i))

def execCpy16 (o : MOps) (s : State) := copyOp (.cpy16 o) o false s
def execCpy16Out (o : MOps) (s : State) := copyOp (.cpy16Out o) o true s

/-- Bytes as an engine of a group of block `bk` reads them: what the group's own loads would see (R249, R457). -/
def engineByte (s : State) (bk : Nat) (g : Group) (pl : Place) : Byte := s.seenBy bk (s.viewOf bk g) pl

/-- Bytes an engine has written for a group wait as stores of its maker until the group has waited on them and publishes, or a
phase counts them (R298). They follow the group's older stores to the same bytes (R221). Of a group that has left, they wait in
its block. -/
def State.engineStore (s : State) (bk gk ctx : Nat) (gone : Bool) (maker : StoreBy) (job : Option Nat) (org : Origin)
    (l : List (Place × Nat × Byte)) : State :=
  let new := entsOf ctx maker job org l
  if gone then s.modBlock bk (fun x => { x with rest := x.rest ++ new })
  else s.modGroup bk gk (fun g => let h := g.replace bk l; { h with stores := h.stores ++ new })

/-- Where an engine's access to an address of a block's cluster lands; the status of R81 when it cannot. -/
def State.enginePlace (s : State) (bk : Nat) (x : Block) (ctx a : Nat) (acc : Acc) : State × (Place ⊕ XFault) :=
  if a < 2 ^ 55 then
    match s.xlate x.part x.core ctx a acc with
    | (s1, .ok t) => (s1, .inl (.mem t.key))
    | (s1, .error e) => (s1, .inr e)
  else
    match s.allBlocks.find? (fun p => p.2.grid == x.grid && p.2.cluster == x.cluster && p.2.cluidx == bits a 32 4) with
    | some p => (s, .inl (.win p.1 (bits a 0 30)))
    | none => (s, .inl (.win bk (bits a 0 30)))

/-- What the records of an engine's own faults name: the group that issued the operation, at that instruction, and a copy's lanes
with their addresses; OP and SUB are 0 (R350) (DEDUCED, notes/assumptions/58.md). -/
def engineOrigin (gk quad : Nat) (x : Block) (pc part : W64) (lanes : List (Nat × Nat)) (past : List Nat) : Origin :=
  ⟨x.grid, x.blkid, x.core, gk, quad, pc, part, 0, 0, x.lcore, lanes, past⟩

/-- An engine meets a page that is not present: the record it waits on, made when there is none (R82, R345). -/
def State.engineMiss (s : State) (bk : Nat) (x : Block) (ctx a : Nat) (o : Origin) (write : Bool) : State × Nat :=
  match s.waiting x.part ctx (a / 65536) with
  | some n => (s, n)
  | none =>
    let w := recWords s.time ⟨1, 0, BitVec.ofNat 64 a, o.pageLanes a, write⟩ o.pc o.part x.grid x.blkid ctx x.core o.grp o.quad 0 0
      true x.lcore
    (s.record x.part w (some ⟨0, 1, ctx, some (a / 65536), some x.grid, bk, o.grp, 0, none, false, none⟩), s.recNo)

/-- One lane's copy: its bytes, or the record that holds it, or the status it ends with. -/
inductive CopyRes where
  | done (l : List (Place × Nat × Byte)) | held (n : Nat) | failed (status : Nat) (addr : W64)
  deriving DecidableEq, Repr

/-- What records about a copy name. -/
def CopyJob.origin (j : CopyJob) (x : Block) (g : Group) : Origin :=
  engineOrigin j.grp g.quad x j.pc j.partner j.every g.seen

/-- One lane's copy, and the words of its source noted (R457). -/
def State.copyLane (s : State) (j : CopyJob) (x : Block) (g : Group) (a : W64) (w : Nat) : State × KL Nat × CopyRes :=
  let acc : Acc := if j.out then .store else .load
  match s.enginePlace j.blk x j.ctx a.toNat acc with
  | (s1, .inr .miss) => let r := s1.engineMiss j.blk x j.ctx a.toNat (j.origin x g) j.out; (r.1, j.words, .held r.2)
  | (s1, .inr .poison) => (s1, j.words, .failed 2 a)
  | (s1, .inr _) => (s1, j.words, .failed 1 a)
  | (s1, .inl pl) =>
    let bad := match pl with | .mem k => !j.out && s1.poisonedFor (s1.viewOf j.blk g) k 16 | _ => false
    if bad then (s1, j.words, .failed 2 a)
    else
      let n := List.range 16
      let own := n.map (fun i => Place.win j.blk (w + i))
      let far := n.map (fun i => pl.add i)
      let (src, dst) := if j.out then (own, far) else (far, own)
      let see := engineByte s1 j.blk g
      (s1, noteAll see j.words src,
        .done (n.map (fun i => (dst.getD i pl, a.toNat + i, cachedByte j.words see (src.getD i pl)))))

/-- Copy lanes in order until one is held or fails; gives what is left, the bytes copied, the words read. -/
def State.copyLanes (s : State) (j : CopyJob) (x : Block) (g : Group) (out : List (Place × Nat × Byte)) :
    List (Nat × W64 × Nat) → State × List (Nat × W64 × Nat) × List (Place × Nat × Byte) × KL Nat × CopyRes
  | [] => (s, [], out, j.words, .done [])
  | l :: rest =>
    match s.copyLane j x g l.2.1 l.2.2 with
    | (s1, ws, .done b) => s1.copyLanes { j with words := ws } x g (out ++ b) rest
    | (s1, ws, r) => (s1, l :: rest, out, ws, r)

/-- Bytes as their own, with their destinations in the form the state holds. -/
def flatBytes (l : List (Place × Nat × Byte)) : List EngineByte := l.filterMap (fun e => match e.1 with
  | .win b o => some ⟨some b, e.2.1, o, e.2.2⟩
  | q => q.key.map (fun k => ⟨none, e.2.1, k, e.2.2⟩))

def placedBytes (l : List EngineByte) : List (Place × Nat × Byte) := l.map (fun e => match e.win with
  | some b => (.win b e.at_, e.va, e.val)
  | none => (.mem e.at_, e.va, e.val))

/-- A copy's lanes are done, or it waits for a page, or it ends with an error status (R219): then the lanes before the one that failed
have been copied, in ascending order, and none after it (DESIGN CHOICE, notes/assumptions/82.md). The group's loads see the old
bytes until then (R221). -/
def execCopyCompletion (core job : Nat) (s : State) : Host.Outcome State Fault Refusal :=
  match (s.core core).copies.find job with
  | none => .next s
  | some j =>
    match j.heldBy, s.block j.blk, s.group j.blk j.grp with
    | none, some x, some g =>
      if s.ctxIs x.part j.ctx .halted then .next s
      else
      let r := s.copyLanes j x g (placedBytes j.done) j.lanes
      let finish := fun (status : Nat) (a : W64) =>
        ((r.1.modCore core (fun c => { c with copies := c.copies.del job })).engineStore j.blk j.grp j.ctx false
          (.token j.tok s.stamp) none (j.origin x g) r.2.2.1).tokDone j.blk j.grp j.tok status a
      (match r.2.2.2.2 with
       | .held n => .next (r.1.modCore core (fun c => { c with
           copies := c.copies.put job { j with lanes := r.2.1, done := flatBytes r.2.2.1, heldBy := some n, words := r.2.2.2.1 } }))
       | .done _ => .next (finish 0 0)
       | .failed st a => .next (finish st a))
    | _, _, _ => .next s

end Sys2Proof.Machine
end

