-- ==== Sys2Proof/Machine/Sync.lean ====
section
/-!
DEFINITION. Atomics, fences, barriers, membership, lane-register grants, token waits and device launches: majors 0x82
to 0x84 and 0xA0 to 0xA3 (R222 to R238), with the grants of R41 and R42.
-/

namespace Sys2Proof.Machine

/-! ### Atomics (R222 to R225, R140) -/

/-- A byte at its home, under a group's own earlier stores to it, which an atomic publishes first (R297). -/
def State.homeByte (s : State) (l : List StoreEnt) : Place → Byte
  | .win b o => (ownWin l b o).getD (match s.block b with | some x => x.window.get o | none => 0)
  | q => match q.key with | some k => (ownMem l k).getD (s.mem.byte k) | none => 0

/-- A word at its home. -/
def State.homeWord (s : State) (l : List StoreEnt) (pl : Place) (n : Nat) : Nat :=
  ofLe ((List.range n).map (fun i => s.homeByte l (pl.add i)))

/-- Write a word at its home for a group: its own buffered bytes there are done with, as are relayouts' results that it has read,
and no older store of a window overtakes it (R295, R297). -/
def State.setHome (s : State) (bk gk ctx : Nat) (pl : Place) (va n v : Nat) : State :=
  let l := seqFrom 0 (leBytes v n)
  let keys := l.filterMap (fun q => (pl.add q.1).key)
  let wins := l.filterMap (fun q => match pl.add q.1 with | .win b o => some (b, o) | _ => none)
  let s1 := (s.modGroup bk gk (fun g => g.dropBytes keys wins (fun _ => true))).overResults (s.seenOf bk gk) keys wins
  match pl with
  | .win b o =>
    s1.modBlock b (fun x => ({ x with window := SMap.setAll x.window (l.map (fun q => (o + q.1, q.2))) } : Block).showBytes
      (l.map (fun q => ⟨o + q.1, s1.stamp, q.2⟩)))
  | q =>
    match s.block bk with
    | none => s1
    | some x =>
      let bs := l.filterMap (fun b => (q.add b.1).key.map (fun k => (⟨va + b.1, k, b.2⟩ : StoreByte)))
      match s1.writeVirt x.part x.core ctx bs with
      | (s2, none) => s2
      | (s2, some _) => s2.pokeSoft (bs.map (fun b => (b.key, b.val)))

/-- What the lanes that name one address do there, in ascending order: from the old value and each lane's E and F to the
values they receive and the new value. -/
abbrev AtomStep := Nat → List (Nat × Nat × Nat) → List (Nat × Nat) × Nat

/-- The combinable integer forms (R223): lane k receives old combined with the lower lanes. -/
def combine (op : Nat → Nat → Nat) : AtomStep := fun old l =>
  l.foldl (fun (a : List (Nat × Nat) × Nat) x => (a.1 ++ [(x.1, a.2)], op a.2 x.2.1)) ([], old)

/-- The binary32 add (R140): the lanes' values are folded left to right, and each lane receives old plus the fold of the
lower ones. -/
def combineF32 : AtomStep := fun old l =>
  let add := fun (x y : Nat) => (Flt.f32.add .rne (Flt.f32.decode x) (Flt.f32.decode y)).1
  let r := l.foldl (fun (a : List (Nat × Nat) × Option Nat) x => match a.2 with
    | none => (a.1 ++ [(x.1, old)], some x.2.1)
    | some p => (a.1 ++ [(x.1, add old p)], some (add p x.2.1))) ([], none)
  (r.1, match r.2 with | some p => add old p | none => old)

/-- Exchange and compare-and-swap serve one lane at a time (R224). -/
def serveXchg : AtomStep := combine (fun _ e => e)
def serveCas : AtomStep := fun old l =>
  l.foldl (fun (a : List (Nat × Nat) × Nat) x => (a.1 ++ [(x.1, a.2)], if a.2 = x.2.2 then x.2.1 else a.2)) ([], old)

/-- An operation at the width and sign of a type. -/
def atomInt (ty : Nat) (f : Int → Int → Int) (a b : Nat) : Nat :=
  let w := if is64 ty then 64 else 32
  let v := fun (x : Nat) => if ty < 4 then sextI x w else ((x % 2 ^ w : Nat) : Int)
  intBits (f (v a) (v b)) w

def AtomLane.place (a : AtomLane) : Place := match a.win with | some b => .win b a.at_ | none => .mem a.at_

/-- Lanes that name one place share an address, whichever virtual addresses lead there (DESIGN CHOICE, notes/assumptions/71.md). -/
def AtomLane.meets (a b : AtomLane) : Bool := a.place == b.place

/-- The work of some lanes of an atomic of a group: one indivisible step for each address (R223). -/
def State.atomWork (s : State) (bk gk ctx : Nat) (wide : Bool) (step : AtomStep) (l : List AtomLane) : State × List (Nat × Nat) :=
  let n := if wide then 8 else 4
  let addrs := l.foldl (fun (r : List AtomLane) p => if r.any p.meets then r else r ++ [p]) []
  addrs.foldl (fun (a : State × List (Nat × Nat)) p =>
    let own := match a.1.group bk gk with | some g => a.1.viewOf bk g | none => []
    let q := step (a.1.homeWord own p.place n) ((l.filter p.meets).map (fun c => (c.lane, c.e, c.f)))
    (a.1.setHome bk gk ctx p.place p.va n q.2, a.2 ++ q.1)) (s, [])

/-- The lanes that one pass serves, the lowest of each address, and those left (R224). -/
def passLanes (l : List AtomLane) : List AtomLane × List AtomLane :=
  l.foldl (fun (r : List AtomLane × List AtomLane) p => if r.1.any p.meets then (r.1, r.2 ++ [p]) else (r.1 ++ [p], r.2)) ([], [])

def AtomServe.step (v : AtomServe) : AtomStep := if v.cas then serveCas else serveXchg

/-- The oldest load of a group completes: its values reach the registers, and the scoreboard lets go (R214). An atomic that has
passes left makes the next one; other instructions' atomics may have come between. After the last one comes its acquiring
boundary (R224, R225). -/
def execLoadCompletion (who : GroupRef) (s : State) : Host.Outcome State Fault Refusal :=
  match s.block who.blk, s.group who.blk who.grp with
  | some x, some g =>
    (match g.loads with
     | [] => .next s
     | e :: rest =>
       match e.serve with
       | none => .next (s.modGroup who.blk who.grp (fun y => { y with loads := rest, vregs := SMap.setAll y.vregs e.writes }))
       | some v =>
         let p := passLanes v.lanes
         let r := s.atomWork who.blk who.grp v.ctx v.wide v.step p.1
         let e1 : LoadEnt := { e with
           writes := e.writes ++ r.2.flatMap (fun q => laneWrites v.d v.wide q.1 q.2)
           serve := if p.2.isEmpty then none else some { v with lanes := p.2 } }
         let s1 := r.1.modGroup who.blk who.grp (fun y => { y with loads := e1 :: rest })
         .next ({ (if p.2.isEmpty ∧ v.acq ≠ 0 then s1.acquireOf who.blk x who.grp v.acq else s1) with stamp := s.stamp + 1 }))
  | _, _ => .next s

/-- An atomic (R222 to R225): types refused, lanes checked, the release boundary, the step on each address or, where lanes are
served one at a time, its first pass, the acquire boundary. Lanes that a first pass leaves are served by later ones. -/
def atomOp (i : Instr) (o : MOps) (f32 : Bool) (passes : Option Bool) (step : AtomStep) (s : State) :
    Host.Outcome State Fault Refusal :=
  issue i s (fun s =>
    let ty := o.ty.toNat
    if !(ty == 2 || ty == 3 || ty == 6 || ty == 7 || (f32 && ty == 8)) then .error undef8
    else
      let e := o.long.getD ⟨false, false, 0, 0, 0, 0⟩
      let h : Shape := ⟨ty, false, .atomic⟩
      let r := s.checkAll (fun a l => a.checkAddr h (a.ea o l)) (fun l => s.ea o l) (lanesOf (s.active o.guard o.neg))
      match laneStop r.2 true with
      | some x => .error (s.stopAt r.1 x)
      | none =>
        let s1 := r.1.switchOff r.2
        let s2 := if e.ord.getLsbD 1 then s1.release (e.scope.toNat + 1) else s1.flushAt s1.bkey s1.gkey
        let wide := is64 ty
        let reg := fun (r l : Nat) => if wide then s.grp.vpair r l else (s.grp.v r l).toNat
        let lanes := r.2.filterMap (fun c =>
          let lane := fun (w : Option Nat) (a va : Nat) =>
            some (⟨c.1, w, a, va, reg (e.ext.toNat % 256) c.1, reg (e.ext.toNat / 256) c.1⟩ : AtomLane)
          match c.2.2 with
          | .ok (.mem k) va _ _ => lane none k va
          | .ok (.win b q) va _ _ => lane (some b) q va
          | _ => none)
        let p := if passes.isSome then passLanes lanes else (lanes, [])
        let done := s2.atomWork s2.bkey s2.gkey s2.ctxid wide step p.1
        let s3 := done.1.inFlight o.d.toNat wide done.2
        let acq := if e.ord.getLsbD 0 then e.scope.toNat + 1 else 0
        match passes, p.2 with
        | some cas, l@(_ :: _) =>
          let last := fun (x : LoadEnt) => { x with serve := some ⟨cas, o.d.toNat, wide, acq, s2.ctxid, l⟩ }
          let g := s3.grp
          .ok (({ s3 with grp := { g with loads := g.loads.dropLast ++ (g.loads.getLast?.map last).toList } } : State).advance i)
        | _, _ => .ok ((if acq ≠ 0 then s3.acquire acq else s3).advance i))

def execAtomAdd (o : MOps) (s : State) :=
  atomOp (.atomAdd o) o true none (if o.ty = 8 then combineF32 else combine (atomInt o.ty.toNat (· + ·))) s
def execAtomMin (o : MOps) (s : State) := atomOp (.atomMin o) o false none (combine (atomInt o.ty.toNat min)) s
def execAtomMax (o : MOps) (s : State) := atomOp (.atomMax o) o false none (combine (atomInt o.ty.toNat max)) s
def execAtomAnd (o : MOps) (s : State) := atomOp (.atomAnd o) o false none (combine (· &&& ·)) s
def execAtomOr (o : MOps) (s : State) := atomOp (.atomOr o) o false none (combine (· ||| ·)) s
def execAtomXor (o : MOps) (s : State) := atomOp (.atomXor o) o false none (combine (· ^^^ ·)) s
def execAtomXchg (o : MOps) (s : State) := atomOp (.atomXchg o) o false (some false) serveXchg s
def execAtomCas (o : MOps) (s : State) := atomOp (.atomCas o) o false (some true) serveCas s

/-! ### Fences and barriers -/

/-- A fence is a boundary at its scope, publishing and acquiring (R226). -/
def execFence (scope : Scope) (o : COps) (s : State) := issue (.fence scope o) s (fun s =>
  .ok (((s.publishAt s.bkey s.gkey (scope.subCode + 1)).acquire (scope.subCode + 1)).advance (.fence scope o)))

/-- The grid was launched co-resident (R36). -/
def State.coResident (s : State) : Bool := match s.grids.find s.blk.grid with | some g => g.pk 9 1 == 1 | none => false

/-- A grid barrier in a grid not launched co-resident (R36, R227). -/
def State.barBad (s : State) (b : Nat) : Bool := decide (24 ≤ b) && !s.coResident

/-- The issuing fragment takes part in its group's arrival (R28, R228): the phase it is recorded for, and the group
with the pending arrival; none when that stands at another program counter (DEDUCED, notes/assumptions/14.md). -/
def State.arriving (s : State) (b : Nat) : Option (Nat × Group) :=
  let ph := (s.bar s.bkey b).phase
  if s.grp.arrived.find b = some ph then some (ph, s.grp)
  else match s.grp.pend.find b with
    | none => some (ph, { s.grp with pend := s.grp.pend.put b (s.frag.pc, [s.fkey]) })
    | some (pc, l) => if pc = s.frag.pc then some (ph, { s.grp with pend := s.grp.pend.put b (pc, s.fkey :: l) }) else none

/-- `bar.arrive`, and with `wait` `bar.sync` (R228). -/
def arriveOp (i : Instr) (o : COps) (wait : Bool) (s : State) : Host.Outcome State Fault Refusal :=
  issue i s (fun s =>
    let b := barOf o.a
    if s.barBad b then .error undef8
    else match s.arriving b with
      | none => .error (.trap 4 0)
      | some (ph, g) =>
        let s1 := { s with grp := g, frag := { s.frag with phases := s.frag.phases.put b ph } }
        let s2 := if wait then { s1 with frag := { s1.frag with pc := s1.frag.pc + 8, st := .barrier b ph } } else s1.advance i
        .ok (s2.stow.checkPend s.bkey s.gkey))

def execBarArrive (o : COps) (s : State) := arriveOp (.barArrive o) o false s
def execBarSync (o : COps) (s : State) := arriveOp (.barSync o) o true s

def execBarWait (o : COps) (s : State) := issue (.barWait o) s (fun s =>
  let b := barOf o.a
  if s.barBad b then .error undef8
  else match s.frag.phases.find b with
    | none => .error undef8
    | some ph =>
      if ph < (s.bar s.bkey b).phase then .ok ((s.acquire (barScope b)).advance (.barWait o))
      else .ok { s with frag := { s.frag with pc := s.frag.pc + 8, st := .barrier b ph } })

/-- The unsigned 32-bit operand of `bar.expect` and `spawn`'s immediate. -/
def expectN (s : State) (o : COps) : Nat := (match o.imm with | some w => w | none => s.sreg o.b).toNat % 2 ^ 32

def execBarExpect (o : COps) (s : State) := issue (.barExpect o) s (fun s =>
  let b := barOf o.a
  if 16 ≤ b then .error undef8
  else
    let r := s.bar s.bkey b
    let x := r.x + expectN s o
    if 2 ^ 31 < x then .error undef8
    else .ok (((s.setBar s.bkey b { r with x := x }).advance (.barExpect o)).stow.settle s.bkey b))

/-- A credit reaches a block barrier (R229). -/
def State.credit (s : State) (bk b n : Nat) : State :=
  let r := s.bar bk b
  (s.setBar bk b { r with c := (r.c + n) % 2 ^ 32 }).settle bk b

/-! ### Membership (R230 to R233) -/

/-- GRPIDs a spawn can give, lowest first; whole quads in a quad kernel (R31, R33). -/
def freeIds (x : Block) (live : List Nat) : List Nat :=
  if x.quadk then
    ((List.range (x.nmax / 4)).filter (fun j => (List.range 4).all (fun i => !live.contains (4 * j + i)))).flatMap
      (fun j => (List.range 4).map (4 * j + ·))
  else (List.range x.nmax).filter (fun i => !live.contains i)

/-- Whether more groups of the issuing block, by their numbers, fit its core, and where (R231, R33, R97). -/
def State.roomFor (s : State) (ids : List Nat) : Option (List (Nat × Nat)) :=
  let x := s.blk
  match s.places x.lcore (0 < s.grp.plevel) x.quadk (s.shut x.core s.bkey x.lcore x.acc) ids (s.slotsTaken x.core) with
  | none => none
  | some l =>
    if (s.freeVblks x.core x.lcore (ids.length * x.regblk)).length = ids.length * x.regblk then some l else none

/-- The largest grant not above n. -/
def State.grant (s : State) (ids : List Nat) : Nat → List (Nat × Nat)
  | 0 => []
  | n + 1 =>
    if s.blk.quadk ∧ (n + 1) % 4 ≠ 0 then s.grant ids n
    else match s.roomFor (ids.take (n + 1)) with
      | some l => l
      | none => s.grant ids n

/-- The phases a granted group counts as arrived in (R29). -/
def State.allPhases (s : State) (bk : Nat) : KL Nat := (List.range 28).map (fun b => (b, (s.bar bk b).phase))

/-- `spawn` (R231, R29): decided at issue, one atomic change. -/
def execSpawn (o : COps) (s : State) := issue (.spawn o) s (fun s =>
  let entry := s.sreg o.a
  if entry.toNat % 8 ≠ 0 ∨ 4 ≤ o.c.toNat then .error undef8
  else
    let r := match o.imm with | some _ => expectN s o | none => (s.sreg o.b).toNat
    let live := (s.groupsOf s.bkey).map (·.1)
    let ids := freeIds s.blk live
    let want := Nat.min (Nat.min r (s.blk.nmax - live.length)) ids.length
    let pls := s.grant ids want
    let arr := s.allPhases s.bkey
    let s1 := ((ids.zip pls)).foldl (fun (a : State) p =>
      a.addGroup a.bkey p.1 p.2 a.grp.plevel (o.c.setWidth 2) entry
        (match a.grids.find a.blk.grid with | some g => g.handler (a.codeOf a.blk) a.blk.lcore | none => 0)
        (laneMask a.blk.legacy) [] arr) s
    let n := pls.length
    let s2 := { s1 with blk := { s1.blk with bars := s1.blk.bars.map (fun (b : Barrier) => { b with m := b.m + n, a := b.a + n }) } }
    .ok (((if n = 0 then s2 else s2.bringHome (fun k _ g _ => k == s2.bkey && g == s2.gkey)).setS o.d (BitVec.ofNat 64 n)).advance (.spawn o)))

def execRole (o : COps) (s : State) := issue (.role o) s (fun s =>
  if 4 ≤ o.c.toNat then .error undef8 else .ok ((s.setRole (o.c.setWidth 2)).advance (.role o)))

/-! ### Lane-register grants (R40 to R42, R234, R235) -/

def execVgrow (o : COps) (s : State) := issue (.vgrow o) s (fun s =>
  let n := o.c.toNat
  if 15 < n then .error undef8
  else if n = 0 then .ok ((s.setS o.d 0).advance (.vgrow o))
  else if 16 < s.grp.vblk.length + n then .ok ((s.setS o.d 1).advance (.vgrow o))
  else .ok { s with frag := { s.frag with pc := s.frag.pc + 8, st := .vgrow n o.d.toNat s.stamp } })

/-- Registers at or above a number lose their contents, values on their way included (R41). -/
def Group.cutRegs (g : Group) (r : Nat) : Group :=
  { g with vregs := g.vregs.filter (fun p => decide (p.1 < r * 64))
           loads := g.loads.map (fun e => { e with regs := e.regs.filter (fun x => decide (x < r)), writes := e.writes.filter (fun w => decide (w.1 < r * 64)) })
           held := g.held.filterMap (fun h => if h.1 < r then some (h.1, Nat.min h.2 (r - h.1)) else none) }

/-- The same for what the transform pipe is still to reply to a group. -/
def Core.cutPipe (c : Core) (bk gk r : Nat) : Core :=
  { c with pipe := c.pipe.map (fun j => if j.blk = bk ∧ j.grp = gk then
      { j with n := Nat.min j.n (r - j.d), writes := j.writes.filter (fun w => decide (w.1 < r * 64)) } else j) }

def execVshrink (o : COps) (s : State) := issue (.vshrink o) s (fun s =>
  let n := o.c.toNat
  if 15 < n then .error undef8
  else
    let k := Nat.max 1 (s.grp.vblk.length - n)
    let s1 := { s with grp := { s.grp with vblk := s.grp.vblk.take k }.cutRegs (16 * k) }
    .ok ((s1.modCore s1.blk.core (fun c => c.cutPipe s1.bkey s1.gkey (16 * k))).advance (.vshrink o)))

/-- A waiting request: block, group, fragment, blocks asked for, s register, when. -/
structure VReq where
  blk   : Nat
  grp   : Nat
  frag  : Nat
  n     : Nat
  d     : Nat
  since : Nat
  deriving DecidableEq, Repr

/-- The requests waiting on a core. Those of a context that is being halted, or is halted, are not met until it goes on (R401). -/
def State.vreqs (s : State) (core : Nat) : List VReq :=
  ((s.onCore core).filter (fun p => !(s.ctxIs p.2.part (s.ctxOf p.2) .halting || s.ctxIs p.2.part (s.ctxOf p.2) .halted))).flatMap (fun p => (s.groupsOf p.1).flatMap (fun q => q.2.frags.filterMap (fun f => match f.2.st with
    | .vgrow n d t => some ⟨p.1, q.1, f.1, n, d, t⟩
    | _ => none)))

def oldestReq (l : List VReq) : Option VReq :=
  l.foldl (fun (b : Option VReq) r => match b with | none => some r | some x => if r.since < x.since then some r else some x) none

/-- A request ends: the answer goes to s[D], and the fragment goes on. -/
def State.answer (s : State) (r : VReq) (v : W64) : State :=
  s.modGroup r.blk r.grp (fun g => { g with
    sregs := if r.d = 0 then g.sregs else g.sregs.set r.d v
    frags := g.frags.mod r.frag (fun f => { f with st := .run }) })

/-- The oldest request of a core is granted whole, with zeroed registers, when the free blocks allow (R41) (DEDUCED, notes/assumptions/37.md). -/
def execVgrowGrant (core : Nat) (s : State) : Host.Outcome State Fault Refusal :=
  match oldestReq (s.vreqs core) with
  | none => .next s
  | some r =>
    match s.block r.blk, s.group r.blk r.grp with
    | some x, some g =>
      let v := s.freeVblks core x.lcore r.n
      if 16 < g.vblk.length + r.n then .next (s.answer r 1)
      else if v.length = r.n then
        .next ((s.modGroup r.blk r.grp (fun y => { y with vblk := y.vblk ++ v })).answer r 0)
      else .next s
    | _, _ => .next s

/-- The reason rendezvous, 6, of a fragment whose `mma.q` has not begun to wait because a group it would meet is stopped or in a
trap (R399), told apart by 32: it counts as waiting there (R42, R270). -/
def whyQuad : Nat := 38

/-- Waiting in the sense of R42. -/
def Fragment.stuck (f : Fragment) : Bool :=
  match f.st with | .run => f.why == whyQuad | .vgrow _ _ _ => true | .barrier b _ => decide (b < 16) | .rendezvous pod _ _ _ => !pod | .parked _ => true | _ => false

/-- Every resident user group of a core is waiting, one of them in `vgrow`: the request of the youngest such group is denied (R42).
Of several requests that one group waits with, the one of the fragment with the lowest number is denied (DESIGN CHOICE,
notes/assumptions/72.md). -/
def execVgrowDeadlockDenial (core : Nat) (s : State) : Host.Outcome State Fault Refusal :=
  let gs := ((s.onCore core).flatMap (fun p => s.groupsOf p.1)).filter (fun q => q.2.plevel == 0)
  let user := fun (r : VReq) => match s.group r.blk r.grp with | some g => g.plevel == 0 | none => false
  let rs := (s.vreqs core).filter user
  let age : VReq → Nat := fun r => match s.group r.blk r.grp with | some g => g.since | none => 0
  let fits := match oldestReq (s.vreqs core) with
    | some r => (match s.block r.blk with | some x => (s.freeVblks core x.lcore r.n).length == r.n | none => false)
    | none => false
  if !fits && gs.all (fun q => q.2.frags.all (fun f => f.2.stuck)) then
    match rs.foldl (fun (b : Option VReq) (r : VReq) => match b with
      | none => some r
      | some x => if age x < age r ∨ (age x = age r ∧ x.grp < r.grp) then some r else some x) none with
    | some r => .next (s.answer r 1)
    | none => .next s
  else .next s

/-! ### Token waits (R236) -/

def execWait (o : COps) (s : State) := issue (.wait o) s (fun s =>
  if s.grp.waits o.c then .error (.hold 4)
  else
    let bad := (maskToks o.c).filter (fun t => (s.grp.tok t).err != 0)
    let v := bad.foldl (fun a t => a + 2 ^ t) 0 + (match bad with | t :: _ => (s.grp.tok t).err * 2 ^ 16 | [] => 0)
    let g := { s.grp with toks := bad.foldl (fun l t => setNth l t { (s.grp.tok t) with err := 0 }) s.grp.toks }
    .ok ((({ s with grp := g.waited o.c s.stamp } : State).setS o.d (BitVec.ofNat 64 v)).advance (.wait o)))

def execWaitY (o : COps) (s : State) := issue (.waitY o) s (fun s =>
  let coff := (match o.imm with | some w => w.toNat | none => 0) % 2 ^ 32
  if coff % 8 ≠ 0 then .error undef8
  else
    let cont := s.frag.pc + sext64 coff 32
    if s.grp.waits o.c then .ok { s with frag := { s.frag with st := .waitY o.c cont } }
    else .ok (State.goto { s with grp := s.grp.waited o.c s.stamp } cont))

/-! ### Device launch (R237, R386) -/

/-- Read eight words as scalar loads of the issuing group: the words, or what stops. -/
def State.loadWords (s : State) (a : Nat) : Nat → Nat → State × Except Stop (List W64)
  | 0, _ => (s, .ok [])
  | n + 1, j =>
    let r := s.checkScalar 7 (a + 8 * j) .load
    match scalarStop s (a + 8 * j) false r.2, r.2 with
    | some e, _ => (r.1, .error e)
    | none, .ok pl _ _ _ =>
      let w : W64 := BitVec.ofNat 64 (ofLe (r.1.seeN pl 8))
      (match (r.1.noteRead ((List.range 8).map pl.add)).loadWords a n (j + 1) with
       | (s2, .ok l) => (s2, .ok (w :: l))
       | (s2, .error e) => (s2, .error e))
    | none, _ => (r.1, .ok [])

def devQueueMax : Nat := 4096

/-- `launch` and `launch.r`: a boundary at device scope, then the packet is read, and copied into the device launch queue, or the
launch is denied with a status (DEDUCED, notes/assumptions/33.md). -/
def launchOp (i : Instr) (o : COps) (ragged : Bool) (s : State) : Host.Outcome State Fault Refusal :=
  issue i s (fun s =>
    let a := s.sreg o.a
    let b := s.sreg o.b
    let s1 := s.boundary 3
    let status := fun (t : State) (n : Nat) => Except.ok ((t.setS o.d (BitVec.ofNat 64 n)).advance i)
    if a.toNat % 64 ≠ 0 then status s1 3
    else match s1.loadWords a.toNat 8 0 with
      | (s2, .error e) => .error (s.stopAt s2 e)
      | (s2, .ok ws) =>
        if ragged ∧ b.toNat % 16 ≠ 0 then status s2 3
        else match s2.grids.find s2.blk.grid with
        | none => status s2 1
        | some g =>
          if 10 ≤ g.depth then status s2 1
          else if devQueueMax ≤ (s2.part s2.blk.part).devq.length then status s2 2
          else
            let d : DevLaunch := ⟨s.blk.grid, g.ctx, g.prio, g.depth + 1, ws, if ragged then some b else none, s.grp.plevel⟩
            status (s2.modPart s.blk.part (fun x => { x with devq := x.devq ++ [d] })) 0)

def execLaunch (o : COps) (s : State) := launchOp (.launch o) o false s
def execLaunchR (o : COps) (s : State) := launchOp (.launchR o) o true s

end Sys2Proof.Machine
end

