-- ==== Sys2Proof/Machine/Tensor.lean ====
section
/-!
DEFINITION. Descriptor instructions: majors 0xB0 and 0xB1 (R239 to R247); where an element lies (R58, R84 to R88, R97,
R98, R240), slab entries (R373, R374), and the waits for relayouts in flight (R69 to R73, R86).
-/

namespace Sys2Proof.Machine

/-! ### Descriptor registers -/

def Group.timg (g : Group) (t : Nat) : List W64 := (List.range 64).map (fun i => g.tregs.get (t * 64 + i))

def Group.setTimg (g : Group) (t : Nat) (w : List W64) : Group :=
  { g with tregs := SMap.setAll g.tregs ((List.range 64).map (fun i => (t * 64 + i, w.getD i 0))) }

/-- t[t] is the register of a relayout in flight (R69). -/
def Group.inFlightT (g : Group) (t : Nat) : Bool :=
  let st := bits (g.tregs.get (t * 64 + 3)).toNat 62 2
  st == 1 || st == 2

/-! ### Slab entries -/

/-- What the look at a slab entry gives: no slab (R87), the entry taken, HOLD full (retry), not to be held (a
violation, R373, R374), a malformed structure. -/
inductive SlabRes where
  | absent
  | held (v : SlabView)
  | later
  | viol
  | bad
  | poison
  deriving DecidableEq, Repr

/-- The memory key of a slab entry of a context: none for an index out of range; `bad` for a context entry that breaks
a stated limit, or whose table reaches beyond the partition's memory there (R13, R362, R373); reserved bits are ignored (R10). -/
def State.slabKey (s : State) (p c idx : Nat) : SlabRes ⊕ Nat :=
  match s.ctx p c with
  | none => .inl .bad
  | some x =>
    let w := (x.entry.getD 1 0).toNat
    if ¬ bitAt (x.entry.getD 0 0).toNat 0 ∨ bits w 0 5 ≠ 0 ∨ 24 < bits w 56 5 then .inl .bad
    else if 2 ^ bits w 56 5 ≤ idx then .inl .viol
    else if s.hbmBytes p < bits w 0 52 + 32 * idx + 32 then .inl .bad
    else .inr (hbmKey p (bits w 0 52 + 32 * idx))

/-- The hold step of R374: tests the entry, counts the hold and reads the other fields in one step; a poisoned entry is
uncorrectable (R115). -/
def State.slabHold (s : State) (p c : Nat) (d : Desc) : State × SlabRes :=
  if d.base = 0xFFFFFFFF then (s, .absent)
  else match s.slabKey p c d.base with
    | .inl r => (s, r)
    | .inr k =>
      let w0 := (s.mem.word k).toNat
      let w2 := (s.mem.word (k + 16)).toNat
      let w3 := (s.mem.word (k + 24)).toNat
      let st := bits w0 9 3
      if s.poisoned k 32 then (s, .poison)
      else if bits w0 12 20 = 2 ^ 20 - 1 then (s, .later)
      else if st ≠ 1 ∧ st ≠ 2 then (s, .viol)
      else if bits w2 56 5 ≠ d.rowlog ∨ 30 < bits w0 0 5 then (s, .bad)
      else
        let w := (w0 + 4096) ||| 256
        (s.pokeBytes k (leBytes w 8), .held ⟨k, bits w2 0 56, bits w3 0 56, bits (s.mem.word (k + 8)).toNat 0 32, bits w0 0 5, st == 2⟩)

/-- Where position `pos`, byte `o` of its row, lies (R85). -/
def SlabView.addr (v : SlabView) (rowlog pos o : Nat) : Nat :=
  let b := if ¬ v.moving then v.base else if pos < v.moved ∨ 2 ^ (v.log2 - 1) ≤ pos then v.new else v.base
  (b + pos * 2 ^ rowlog + o) % 2 ^ 64

/-! ### Places of elements -/

/-- Where an element's bits start: a byte and a bit in it, an accumulator entry, a lane register. -/
inductive EPlace where
  | byte (pl : Place) (bit : Nat)
  | acc (core idx : Nat)
  | reg (blk grp key bit : Nat)
  deriving DecidableEq, Repr

/-- What the checks of one element give (R212, R245). -/
inductive ERes where
  | viol (cause : Nat)
  | miss (va : Nat)
  | prot (detail va : Nat)
  | poison (va : Nat)
  | later
  | fill
  | ok (pl : EPlace) (va : Nat) (fmt : BitVec 16)
  deriving DecidableEq, Repr

/-- The block of a member of a block's cluster (R90). -/
def State.memberOf (s : State) (x : Block) (j : Nat) : Option (Nat × Block) :=
  if x.clusize ≤ j then none
  else s.allBlocks.find? (fun p => p.2.grid == x.grid && p.2.cluster == x.cluster && p.2.cluidx == j)

/-- Bytes an element of the width touches. -/
def Desc.bytes (d : Desc) : Nat := Nat.max 1 (d.width / 8)

/-- An element of an on-chip kind at a location (R59, R97, R98, R240) (DEDUCED, notes/assumptions/39.md). -/
def State.onChip (s : State) (x : Block) (d : Desc) (l mem : Nat) : ERes :=
  let p := l <<< d.e
  let off0 := bits d.base 0 30
  if d.base = 0 then .viol 2
  else if d.kind = 1 then
    match s.memberOf x ((p >>> d.split) ^^^ mem) with
    | none => .viol 2
    | some (bk, y) =>
      let off := off0 + p % 2 ^ d.split / 8
      if y.winsize < off + d.bytes then .viol 1
      else .ok (.byte (.win bk off) (p % 8)) 0 (y.winfmt.get (off / 65536))
  else match s.memberOf x mem with
    | none => .viol 2
    | some (bk, y) =>
      let off := off0 + p / 8
      if d.kind = 2 then
        let q := off / 0x40000
        if 2 ^ 20 ≤ off ∨ (y.lcore ∧ (4 ≤ off / 65536 ∨ 64 ≤ off / 4 % 256)) ∨ ¬ y.acc ∨
            ¬ (s.groupsOf bk).any (fun g => g.2.quad == q) then .viol 1
        else .ok (.acc y.core (off / 4)) 0 0
      else match s.group bk (off / 65536) with
        | none => .viol 1
        | some g =>
          let r := off / 256 % 256
          let ln := off / 4 % 64
          if 16 * g.vblk.length ≤ r ∨ (y.legacy ∧ 32 ≤ ln) then .viol 1
          else .ok (.reg bk (off / 65536) (r * 64 + ln) (off % 4 * 8 + p % 8)) 0 0

/-- An element at a virtual address: translation and permission. -/
def State.atVirt (s : State) (p h c va bit : Nat) (acc : Acc) : State × ERes :=
  if 2 ^ 55 ≤ va then (s, .viol 2)
  else match s.xlate p h c va acc with
    | (s1, .error .miss) => (s1, .miss va)
    | (s1, .error .poison) => (s1, .poison va)
    | (s1, .error e) => (s1, .prot e.cls.2 va)
    | (s1, .ok x) => (s1, .ok (.byte (.mem x.key) bit) va x.fmt)

/-- An element of a descriptor at a location, for a block of context `c`; a slab side by the entry's values. -/
def State.placeAt (s : State) (x : Block) (c : Nat) (d : Desc) (v : Option SlabView) (l mem : Nat) (acc : Acc) : State × ERes :=
  match d.kind with
  | 0 => s.atVirt x.part x.core c (d.base + (l <<< d.e) / 8) ((l <<< d.e) % 8) acc
  | 4 =>
    (match v with
     | none => (s, .fill)
     | some v =>
       let o := (l % 2 ^ d.rowBits) <<< d.e
       s.atVirt x.part x.core c (v.addr d.rowlog (l >>> d.rowBits) (o / 8)) (o % 8) acc)
  | _ => (s, s.onChip x d l mem)

/-- The header granule of an element of tag 5 or 6 storage, and where its headers are (R104; DESIGN CHOICE,
notes/assumptions/70.md for a granule that no virtual address names). -/
def State.elemHeader (s : State) (x : Block) (c : Nat) (pl : EPlace) (va : Nat) (fmt : BitVec 16) (acc : Acc) :
    State × (ERes ⊕ Header) :=
  match pl with
  | .byte (.win bk off) bit =>
    let hg := hdrGranule fmt (off / 65536)
    (match s.block bk with
     | none => (s, .inl (.viol 1))
     | some y =>
       if hg < 0 ∨ (y.winsize / 65536 : Nat) ≤ hg then (s, .inl (.viol 1))
       else if fmtTag (y.winfmt.get hg.toNat) ≠ 0 then (s, .inl (.viol 4))
       else (s, .inr ⟨.win bk (hg.toNat * 65536), off % 65536 * 2 + bit / 4, off / 65536, fmtTag fmt == 6⟩))
  | .byte (.mem _) bit =>
    let hg := hdrGranule fmt (va / 65536)
    if hg < 0 ∨ (2 ^ 39 : Nat) ≤ hg then (s, .inl (.viol 2))
    else (match s.xlate x.part x.core c (hg.toNat * 65536) acc with
      | (s1, .error .miss) => (s1, .inl (.miss (hg.toNat * 65536)))
      | (s1, .error .poison) => (s1, .inl (.poison (hg.toNat * 65536)))
      | (s1, .error e) => (s1, .inl (.prot e.cls.2 (hg.toNat * 65536)))
      | (s1, .ok y) =>
        if fmtTag y.fmt ≠ 0 then (s1, .inl (.viol 4))
        else (s1, .inr ⟨.mem y.key, va % 65536 * 2 + bit / 4, va / 65536, fmtTag fmt == 6⟩))
  | _ => (s, .inl (.viol 4))

/-- The bits of an element, given how bytes and registers are seen. -/
def State.elemBits (s : State) (see : Place → Byte) (pl : EPlace) (w : Nat) : Nat :=
  match pl with
  | .byte p bit => bits (ofLe ((List.range (Nat.max 1 (w / 8))).map (fun i => see (p.add i)))) bit w
  | .acc core idx => ((s.core core).acc.get idx).toNat
  | .reg bk gk key bit => (match s.group bk gk with | some g => bits (g.vregs.get key).toNat bit w | none => 0)

/-- A word with w bits from `bit` on replaced. -/
def insBits (x bit w v : Nat) : Nat := x - bits x bit w * 2 ^ bit + v % 2 ^ w * 2 ^ bit

/-- Write an accumulator entry or part of a lane register. -/
def State.setElemReg (s : State) (pl : EPlace) (w v : Nat) : State :=
  match pl with
  | .acc core idx => s.modCore core (fun c => { c with acc := c.acc.set idx (BitVec.ofNat 32 v) })
  | .reg bk gk key bit =>
    s.modGroup bk gk (fun g => { g with vregs := g.vregs.set key (BitVec.ofNat 32 (insBits (g.vregs.get key).toNat bit w v)) })
  | .byte _ _ => s

/-- The bytes a store of an element writes. -/
def elemBytes (see : Place → Byte) (p : Place) (bit w v : Nat) : List Byte :=
  if 8 ≤ w then leBytes v (w / 8) else [BitVec.ofNat 8 (insBits (see p).toNat bit w v)]

/-! ### Relayouts in flight -/

/-- A stretch of storage: its space and offsets. -/
abbrev Foot := List (Nat × Nat × Nat)

/-- The storage a descriptor covers, for a block of context c (R58, R240). -/
def State.footOf (s : State) (x : Block) (c : Nat) (d : Desc) (mem : Nat) : Foot :=
  match d.kind with
  | 0 => [(c * 8, d.base, d.base + d.foot)]
  | 4 => if d.base = 0xFFFFFFFF then [] else [((c * 2 ^ 32 + d.base) * 8 + 4, 0, 1)]
  | k =>
    if d.base = 0 then []
    else
      let off := bits d.base 0 30
      let ms := if k = 1 then (List.range (2 ^ (d.e + d.n - d.split))).map (· ^^^ mem) else [mem]
      ms.filterMap (fun m => match s.memberOf x m with
        | none => none
        | some (b, y) => some ((if k = 2 then y.core * 8 + 2 else b * 8 + k, off, off + d.foot)))

def Foot.meets (a b : Foot) : Bool := a.any (fun x => b.any (fun y => x.1 == y.1 && decide (x.2.1 < y.2.2) && decide (y.2.1 < x.2.2)))

/-- The member a relayout's source reaches (R240): MEMBER goes with the destination (R99) (DEDUCED, notes/assumptions/42.md). -/
def srcMember (x : Block) (d : Desc) : Nat := if d.kind = 2 ∨ d.kind = 3 then x.cluidx else 0

/-- The storage of the two sides of a relayout in flight. -/
def State.jobFoots (s : State) (j : Relayout) : Foot × Foot :=
  match s.block j.blk with
  | none => ([], [])
  | some x =>
    let src := if j.inplace then [] else s.footOf x j.ctx (Desc.of j.src) (srcMember x (Desc.of j.src))
    (src, s.footOf x j.ctx (Desc.of j.dst) j.member)

/-- An access through a register other than that of the relayout waits for it (R72, R73); growth moves forward
accesses instead (R85, R86). -/
def State.busyWith (s : State) (f : Foot) (t : Nat) (write : Bool) : Bool :=
  (s.core s.blk.core).rels.any (fun r =>
    let j := r.2
    let mine := !j.gone && j.blk == s.bkey && j.grp == s.gkey && j.tdst == t
    let (a, b) := s.jobFoots j
    !mine && !j.grow && (Foot.meets f b || (write && Foot.meets f a)))

/-- The relayout in flight of a register of the issuing group. -/
def State.jobOf (s : State) (t : Nat) : Option Relayout :=
  ((s.core s.blk.core).rels.find? (fun r => !r.2.gone && r.2.blk == s.bkey && r.2.grp == s.gkey && r.2.tdst == t)).map (·.2)

/-- Where a relayout in flight has an element by now: none while the read must wait (R70, R71). -/
def Relayout.locNow (j : Relayout) (d : Desc) (i : Nat) : Option Nat :=
  if j.inplace then
    let l := (j.passes.take j.pass).foldl (fun l p => mulVec p.mat l) (mulVec j.lold i)
    match j.passes[j.pass]? with
    | none => some l
    | some p =>
      if p.blockNo l < j.cursor then some (mulVec p.mat l) else if p.blockNo l = j.cursor then none else some l
  else if j.pass + 1 < j.passes.length then none
  else match j.passes.getLast? with
    | none => some (d.locate i)
    | some p =>
      let l := d.locate i
      if p.blockNo l < j.cursor ∨ j.passes.length ≤ j.pass then some l else none

/-! ### Loading, storing, setting, querying -/

/-- The address of a `tld` or `tst` (R241). -/
def State.timgAddr (s : State) (o : TOps) : Nat :=
  (s.sreg o.a + s.sreg o.b + (match o.long with | some e => sext64 e.ofs.toNat 32 | none => 0)).toNat

def execTld (o : TOps) (s : State) := issue (.tld o) s (fun s =>
  let a := s.timgAddr o
  if s.grp.inFlightT o.d.toNat then .error (.hold 15)
  else if 2 ^ 56 ≤ a then .error (.precise ⟨2, 4, BitVec.ofNat 64 a, s.frag.em, false⟩)
  else if a % 64 ≠ 0 then .error (.precise ⟨2, 3, BitVec.ofNat 64 a, s.frag.em, false⟩)
  else match s.loadWords a 64 0 with
    | (s1, .error e) => .error (s.stopAt s1 e)
    | (s1, .ok w) =>
      if bits (imgWord w 3) 62 2 ≠ 0 ∨ !imgOk w then .error (s.stopAt s1 undef8)
      else .ok (({ s1 with grp := s1.grp.setTimg o.d.toNat (setNth (imgSetBits w) 3 0) } : State).advance (.tld o)))

/-- The places of 64 words a scalar store writes, or what stops. -/
def State.storePlaces (s : State) (a : Nat) : Nat → Nat → State × Except Stop (List (Place × Nat))
  | 0, _ => (s, .ok [])
  | n + 1, j =>
    let r := s.checkScalar 7 (a + 8 * j) .store
    match scalarStop s (a + 8 * j) true r.2, r.2 with
    | some e, _ => (r.1, .error e)
    | none, .ok pl va _ _ =>
      (match r.1.storePlaces a n (j + 1) with
       | (s2, .ok l) => (s2, .ok ((pl, va) :: l))
       | (s2, .error e) => (s2, .error e))
    | none, _ => (r.1, .ok [])

def execTst (o : TOps) (s : State) := issue (.tst o) s (fun s =>
  let a := s.timgAddr o
  if s.grp.inFlightT o.d.toNat then .error (.hold 15)
  else if 2 ^ 56 ≤ a then .error (.precise ⟨2, 4, BitVec.ofNat 64 a, s.frag.em, true⟩)
  else if a % 64 ≠ 0 then .error (.precise ⟨2, 3, BitVec.ofNat 64 a, s.frag.em, true⟩)
  else match s.storePlaces a 64 0 with
    | (s1, .error e) => .error (s.stopAt s1 e)
    | (s1, .ok l) =>
      let w := s.grp.timg o.d.toNat
      let org := s1.origin (.tst o) ((lanesOf s.frag.em).flatMap (fun k => [(k, a), (k, a + 504)]))
      .ok ((s1.store org ((l.zip w).map (fun q => (q.1.1, q.1.2, leBytes q.2.toNat 8)))).advance (.tst o)))

/-- `tset` (R243): one field changed, refused when the result is not well formed. -/
def tsetOp (i : Instr) (o : TOps) (s : State) (f : List W64 → W64 → Option (List W64)) : Host.Outcome State Fault Refusal :=
  issue i s (fun s =>
    let w := s.grp.timg o.d.toNat
    match f w (s.sreg o.a) with
    | none => .error undef8
    | some w1 =>
      if s.grp.inFlightT o.d.toNat then .error (.hold 15)
      else if !imgOk w1 then .error undef8
      else .ok (({ s with grp := s.grp.setTimg o.d.toNat w1 } : State).advance i))

def execTsetBase (o : TOps) (s : State) := tsetOp (.tsetBase o) o s (fun w v => some (setNth w 1 v))
def execTsetFill (o : TOps) (s : State) := tsetOp (.tsetFill o) o s (fun w v => some (setNth w 2 v))

def execTsetExt (o : TOps) (s : State) := tsetOp (.tsetExt o) o s (fun w v =>
  let d := o.b.toNat - 8
  if o.b.toNat < 8 ∨ 15 < o.b.toNat ∨ (Desc.of w).ndim < d then none
  else some (setNth w (4 + d) (BitVec.ofNat 64 (bits v.toNat 0 49 + imgWord w (4 + d) / 2 ^ 49 * 2 ^ 49))))

def execTq (o : TOps) (s : State) := issue (.tq o) s (fun s =>
  if 64 ≤ o.b.toNat then .error undef8
  else .ok ((s.setS o.d ((s.grp.timg o.a.toNat).getD o.b.toNat 0)).advance (.tq o)))

/-! ### Element access (R245 to R247) -/

/-- The index of a lane. -/
def State.elemIndex (s : State) (o : TOps) (lane : Nat) : Nat := if o.sb then (s.sreg o.b).toNat else s.grp.vpair o.b.toNat lane

/-- The member an element access or a destination reaches: none where MEMBER must be zero and is not (R240). -/
def memberArg (x : Block) (d : Desc) (long : Option TExt) : Option Nat :=
  match long with
  | none => some (if d.kind = 2 ∨ d.kind = 3 then x.cluidx else 0)
  | some e => if (d.kind = 0 ∨ d.kind = 4) ∧ e.member ≠ 0 then none else some e.member.toNat

/-- A lane's checked element: where it is, its header when one is read, and whether it is a phantom. -/
structure Elem where
  res : ERes
  hdr : Option Header
  ph  : Bool
  deriving DecidableEq, Repr

/-- A slab hold taken for one access is given back with it (R119). -/
def State.unhold (s : State) (v : Option SlabView) : State := match v with | some x => s.releaseHold x.key | none => s

/-- The results of a relayout that its group has not been handed, as stores (R298). -/
def Relayout.ents (j : Relayout) : List StoreEnt := entsOf j.ctx .group none .none (placedBytes (j.done ++ j.fresh))

/-- A block on the issuing group's core. -/
def State.isNear (s : State) (x : Option Block) : Bool := match x with | some y => y.core == s.blk.core | none => false

/-- The results of ended relayouts of the issuing group's core that are not its own (R299). -/
def State.nearResults (s : State) : List StoreEnt :=
  let own := s.grp.stores.filterMap (·.job)
  s.resultsWhere (fun x e => s.isNear x && !e.isOf own)

/-- The stores that a descriptor read of the issuing group sees: its own, over what the engine of its core has written for
others (R299), under what its own relayouts in flight have written (R70, R71). -/
def State.elemView (s : State) : List StoreEnt :=
  let own := (s.core s.blk.core).rels.filter (fun r => !r.2.gone && r.2.blk == s.bkey && r.2.grp == s.gkey)
  s.resultsWhere (fun x e => s.isNear x || (e.isOf s.grp.seen && e.dst != .window s.bkey)) ++ s.grp.stores ++
    own.flatMap (fun r => r.2.ents)

/-- The issuing group has read bytes through a descriptor. Results of relayouts that it has read there, in its block's window, are
shown to the block; what it has read elsewhere its later loads see, for its loads of a word do not go back (R290, R295) (DEDUCED,
notes/assumptions/79.md). -/
def State.noteResults (s : State) (l : List Place) : State :=
  let hit := fun (e : StoreEnt) => e.bytes.any (fun b => l.any (fun p => match e.dst, p with
    | .window t, .win k o => t == k && o == b.at_
    | .own, .win _ _ | .window _, _ => false
    | _, q => q.key == some b.key))
  let jobs := (s.nearResults.filter hit).filterMap (·.job)
  if jobs.isEmpty then s
  else
    let show_ := fun (e : StoreEnt) => e.isOf jobs && hit e
    let s1 := ((s.groupsOf s.bkey).filter (·.1 != s.gkey)).foldl (fun t q => t.showEngine s.bkey q.1 show_) (s.showRest s.bkey show_)
    { s1 with grp := { s1.grp with seen := (s.grp.seen ++ jobs).eraseDups } }

/-- A byte as a descriptor read sees it. -/
def State.seeElem (s : State) (pl : Place) : Byte := s.seenBy s.bkey s.elemView pl

/-- Its bytes lie in a poisoned sector. -/
def State.badElem (s : State) (pl : Place) (n : Nat) : Bool :=
  match pl with | .mem k => s.poisonedFor s.elemView k n | _ => false

/-- The checks of R245 on one lane. -/
def State.checkElem (s : State) (t : Nat) (w : List W64) (d : Desc) (mem x : Nat) (write : Bool) : State × Elem × Option SlabView :=
  let stop := fun (a : State) (r : ERes) => (a, (⟨r, none, false⟩ : Elem), (none : Option SlabView))
  if (d.kind = 1 ∨ d.kind = 2 ∨ d.kind = 3) ∧ d.base = 0 then stop s (.viol 2)
  else if 2 ^ d.n ≤ x ∨ imgNull w ∨ d.state = 3 then stop s (.viol 3)
  else
    let (s1, sl) := if d.kind = 4 then s.slabHold s.blk.part s.ctxid d else (s, .absent)
    let pos := x >>> d.rowBits
    match sl with
    | .later => stop s1 .later
    | .viol => stop s1 (.viol 3)
    | .bad => stop s1 (.prot 6 d.base)
    | .poison => stop s1 (.poison d.base)
    | _ =>
      let v := match sl with | .held v => some v | _ => none
      let box := match v with | some y => 2 ^ y.log2 | none => 1
      let old := match v with | some y => y.moving && decide (pos < 2 ^ (y.log2 - 1)) | none => false
      let growing := match v with
        | some y => (s1.core s1.blk.core).rels.any (fun r => r.2.grow && r.2.slabs.contains y.key)
        | none => false
      if d.kind = 4 ∧ box ≤ pos then stop (s1.unhold v) (.viol 3)
      else if write && old && growing then stop (s1.unhold v) .later
      else
        let ph := d.phantom x || (d.kind == 4 && v.isNone)
        let l := match s1.jobOf t with | some j => if j.grow then some (d.locate x) else j.locNow d x | none => some (d.locate x)
        match l with
        | none => stop (s1.unhold v) .later
        | some l =>
          let (s2, r) := s1.placeAt s1.blk s1.ctxid d v l mem (if write then .store else .load)
          (match r with
           | .ok pl va fmt =>
             let tag := fmtTag fmt
             if tag = 9 ∨ (tag ≠ 0 ∧ tagWidth tag ≠ d.width) ∨ (write ∧ (tag = 5 ∨ tag = 6)) then (s2, ⟨.viol 4, none, ph⟩, v)
             else
               let nb := d.bytes
               let bad := !write && !ph && (match pl with | .byte p _ => s2.badElem p nb | _ => false)
               if tag = 5 ∨ tag = 6 then
                 (match s2.elemHeader s2.blk s2.ctxid pl va fmt .load with
                  | (s3, .inl e) => (s3, ⟨e, none, ph⟩, v)
                  | (s3, .inr h) =>
                    if bad || badHeader s3.seeElem s3.badElem h 1 then (s3, ⟨.poison va, none, ph⟩, v) else (s3, ⟨r, some h, ph⟩, v))
               else if bad then (s2, ⟨.poison va, none, ph⟩, v) else (s2, ⟨r, none, ph⟩, v)
           | e => (s2, ⟨e, none, ph⟩, v))

/-- An element's outcome as the outcome of a lane access. -/
def ERes.lane : ERes → LaneRes
  | .viol c => .viol c
  | .miss va => .miss va
  | .prot d va => .prot d va
  | .poison va => .poison va
  | .later | .fill => .ok (.priv 0 0 0) 0 0 none
  | .ok _ va fmt => .ok (.priv 0 0 0) va fmt none

/-- The value of an element's bits under a tag, as `tld.e` writes it (R246). -/
def State.elemValue (s : State) (tag x : Nat) (hdr : Option Header) : Nat :=
  match tag with
  | 0 => x
  | 5 | 6 =>
    (match hdr with
     | some h =>
       let bit := fun (c : Nat) => (s.seeElem (h.at_.add (c / 8))).getLsbD (c % 8)
       let o := h.at_.add (hdrOffset h bit h.first)
       Flt.f32.rne (decodeE2m1s x (s.seeElem o).toNat (s.seeElem (o.add 1)).toNat)
     | none => 0)
  | 7 => intBits (sextI x 8) 32
  | 8 => x
  | t => Flt.f32.rne (tagNum t x)

/-- The bits that `tst.e` stores (R246). -/
def elemCode (tag w v : Nat) : Nat :=
  match tag with
  | 0 => v % 2 ^ w
  | 8 => v % 2
  | t => numTag t (Flt.f32.decode (v % 2 ^ 32))

/-- A matrix product that has yet to update a tile of a core: later readers and writers of the tile wait (R273). -/
def State.tileBusy (s : State) (core tile : Nat) : Bool :=
  s.cores.any (fun c => c.2.jobs.any (fun j => j.parts.any (fun p => p.core == core && 4 * p.quad + p.d == tile)))

/-- All lanes checked in order; a hold taken for a lane is released when the instruction is done. -/
def State.checkElems (s : State) (o : TOps) (w : List W64) (d : Desc) (mem : Nat) (write : Bool) :
    State × List (Nat × Nat × Elem) × List (Option SlabView) :=
  (lanesOf (s.active o.guard o.neg)).foldl (fun (a : State × List (Nat × Nat × Elem) × List (Option SlabView)) l =>
    let x := a.1.elemIndex o l
    let r := a.1.checkElem o.a.toNat w d mem x write
    (r.1, a.2.1 ++ [(l, x, r.2.1)], a.2.2 ++ [r.2.2])) (s, [], [])

/-- The scoreboard of the issuing group holds a lane register that an element lies in, for what the group issued earlier, or a
rendezvous still has to read it (R247, R255, R273): the reason to hold. -/
def State.elemHeld (s : State) (write : Bool) : EPlace → Option Nat
  | .reg b g key _ =>
    if b = s.bkey ∧ g = s.gkey then
      (let u := [VUse.rng (BitVec.ofNat 8 (key / 64)) 1]
       if s.grp.scored u then some (s.grp.scoreWhy u) else if write && s.grp.owed u then some 3 else none)
    else none
  | .acc core idx => if s.tileBusy core (idx / 0x4000) then some 3 else none
  | .byte _ _ => none

/-- What the two element forms share: the waits, the checks of every lane, then the access. -/
def elemOp (i : Instr) (o : TOps) (write : Bool) (s : State)
    (act : State → Desc → List (Nat × Nat × Elem) → State) : Host.Outcome State Fault Refusal :=
  issue i s (fun s =>
    let w := s.grp.timg o.a.toNat
    let d := Desc.of w
    let wide := d.ew == 5
    if wide ∧ o.d.toNat % 2 = 1 then .error (.trap 1 6)
    else if wide ∧ 16 * s.grp.vblk.length ≤ o.d.toNat + 1 then .error (.trap 1 5)
    else if wide && (s.grp.scored [VUse.of o.d true] || (!write && s.grp.owed [VUse.of o.d true])) then
      .error (.hold (s.grp.scoreWhy [VUse.of o.d true]))
    else match memberArg s.blk d o.long with
      | none => .error undef8
      | some mem =>
        let none_ := (lanesOf (s.active o.guard o.neg)).isEmpty
        let flight := s.grp.inFlightT o.a.toNat && !(match s.jobOf o.a.toNat with | some j => j.grow | none => false)
        if !none_ && ((write && flight) || s.busyWith (s.footOf s.blk s.ctxid d mem) o.a.toNat write) then .error (.hold 15)
        else
          let (s1, l, vs) := s.checkElems o w d mem write
          let cl := l.map (fun e => (e.1, e.2.1, e.2.2.res.lane))
          match laneStop cl write with
          | some e => .error (s.stopAt s1 e)
          | none =>
            if l.any (fun e => e.2.2.res == .later) then .error (s.stopAt s1 (.hold 15))
            else match l.findSome? (fun e => match e.2.2.res with | .ok pl _ _ => if e.2.2.ph then none else s1.elemHeld write pl | _ => none) with
            | some why => .error (s.stopAt s1 (.hold why))
            | none =>
              .ok ((vs.foldl State.unhold (act (s1.switchOff cl) d l)).advance i))

def execTldE (o : TOps) (s : State) := elemOp (.tldE o) o false s (fun s d l =>
  let vals := l.filterMap (fun e => match e.2.2.res with
    | .ok pl _ fmt =>
      let x := if e.2.2.ph then d.fill else s.elemBits s.seeElem pl d.width
      some (e.1, s.elemValue (fmtTag fmt) x e.2.2.hdr)
    | .fill => some (e.1, d.fill)
    | _ => none)
  let pls := l.flatMap (fun e => match e.2.2.res with
    | .ok (.byte p _) _ _ => (if e.2.2.ph then [] else (List.range d.bytes).map p.add) ++
        (match e.2.2.hdr with | some h => headerPlaces s.seeElem h 1 | none => [])
    | _ => [])
  ((s.noteRead pls).noteResults pls).inFlight o.d.toNat (d.ew == 5) vals)

/-- One lane's element stored, as a store of the group (R290; DEDUCED, notes/assumptions/41.md: the hold covers the issue). Of less
than a byte, the whole byte is stored, its other bits as the group sees them at the issue (DESIGN CHOICE, notes/assumptions/83.md). -/
def State.storeElem (s : State) (org : Origin) (d : Desc) (pl : EPlace) (va v : Nat) : State :=
  match pl with
  | .byte p bit => s.store org [(p, va, elemBytes s.see p bit d.width v)]
  | _ => s.setElemReg pl d.width v

def execTstE (o : TOps) (s : State) := elemOp (.tstE o) o true s (fun s d l =>
  let org := s.origin (.tstE o) (l.filterMap (fun e => match e.2.2.res with | .ok _ va _ => some (e.1, va) | _ => none))
  l.foldl (fun (a : State) e => match e.2.2.res with
    | .ok pl va fmt =>
      if e.2.2.ph then a
      else a.storeElem org d pl va (elemCode (fmtTag fmt) d.width (if d.ew = 5 then s.grp.vpair o.d.toNat e.1 else (s.grp.v o.d.toNat e.1).toNat))
    | _ => a) s)

end Sys2Proof.Machine
end

