-- ==== Sys2Proof/Machine/Relayout.lean ====
section
/-!
DEFINITION. Relayouts: major 0xB2 (R248 to R254) and the layout engine's work, one block of one pass at a time (R63 to
R88), weight streams (R108 to R110), conversion (R250, R251), completion (R252).
-/

namespace Sys2Proof.Machine

/-! ### Geometry of a job -/

/-- How many positions of a level lie in the box a job runs over. -/
def Relayout.inBlock (j : Relayout) (p : Pass) : Nat := 2 ^ (Nat.min (p.lo + p.w) j.n - p.lo)

/-- How many blocks a pass has. -/
def Relayout.blocks (j : Relayout) (p : Pass) : Nat := 2 ^ j.n / j.inBlock p

/-- The matrix from index to location before pass k. -/
def Relayout.before (j : Relayout) (k : Nat) : List Nat := (j.passes.take k).foldl (fun m p => matMul p.mat m) j.lold

/-- The slab values each side translates with: a growth move reads at the old base and writes at the new one,
whatever the forwarding (R254). -/
def Relayout.srcView (j : Relayout) : Option SlabView := if j.grow then j.sv.map (fun v => { v with moving := false }) else j.sv
def Relayout.dstView (j : Relayout) : Option SlabView :=
  if j.grow then j.dv.map (fun v => { v with moving := false, base := v.new }) else j.dv

/-! ### What the engine sees and has written -/

def EngineByte.isAt (e : EngineByte) (p : Place) : Bool :=
  match p, e.win with
  | .win b o, some c => b == c && o == e.at_
  | .mem k, none => k == e.at_
  | _, _ => false

/-- A byte the job has itself written. -/
def Relayout.wrote (j : Relayout) (p : Place) : Option Byte :=
  match j.fresh.find? (·.isAt p) with
  | some e => some e.val
  | none => (j.done.find? (·.isAt p)).map (·.val)

/-- The stores that the job's group sees: its own, or what was left in its block once it has gone (R249, R457). -/
def State.jobStores (s : State) (j : Relayout) (x : Block) : List StoreEnt :=
  if j.gone then x.rest else match s.group j.blk j.grp with | some g => s.viewOf j.blk g | none => x.rest

/-- A byte as the engine sees it: written by the job, or of a word it has read before, or as its group's load would see it now
(R249, R457). -/
def State.engineSee (s : State) (j : Relayout) (own : List StoreEnt) (p : Place) : Byte :=
  (j.wrote p).getD (cachedByte j.words (s.seenBy j.blk own) p)

/-- The words of some bytes that the job has read: it reads each word once (R457). -/
def State.noteWords (s : State) (j : Relayout) (own : List StoreEnt) (l : List Place) : Relayout :=
  { j with words := noteAll (s.seenBy j.blk own) j.words (l.filter (fun p => (j.wrote p).isNone)) }

/-- Bytes the job reads lie in a poisoned sector (R80, R115). -/
def State.engineBad (s : State) (j : Relayout) (own : List StoreEnt) (p : Place) (n : Nat) : Bool :=
  match p with
  | .mem k => s.poisonedFor own k n && !((List.range n).all (fun i => (j.wrote (p.add i)).isSome))
  | _ => false

/-- The word of a lane register as the job has it (R100). -/
def regWord (bk gk key : Nat) : Nat := (bk * 64 + gk) * 2 ^ 14 + key

/-- The bits of an element. -/
def State.engineBits (s : State) (j : Relayout) (own : List StoreEnt) (pl : EPlace) (w : Nat) : Nat :=
  match pl with
  | .reg bk gk key bit =>
    (match j.shadow.find (regWord bk gk key) with
     | some x => bits x bit w
     | none => s.elemBits (s.engineSee j own) pl w)
  | _ => s.elemBits (s.engineSee j own) pl w

/-! ### What one element brings -/

/-- A source element: its format (none for a lane register, 16 for binary32), its bits, its header, and whether it
comes from a weight stream. -/
structure SrcElem where
  fmt    : Option Nat
  x      : Nat
  scale  : Nat
  spec   : Nat
  stream : Bool
  deriving DecidableEq, Repr

/-- What a block cannot be translated for: a page to wait on, or a status of R81. -/
inductive Halt where
  | miss (va : Nat) (write : Bool)
  | stop (status : Nat)
  deriving DecidableEq, Repr

/-- A failed place as a halt. -/
def ERes.halt (write : Bool) : ERes → Halt
  | .miss va => .miss va write
  | .prot _ _ => .stop 1
  | .poison _ => .stop 2
  | .viol 4 => .stop 4
  | _ => .stop 5

/-- Where a source element is once its block is translated (R78): nothing to read, since it is FILL; an element that the loader
of a stream has brought; a place, with its header's (R104). -/
inductive Src where
  | fill
  | const (e : SrcElem)
  | at_ (fmt : Option Nat) (pl : EPlace) (hdr : Option Header)
  deriving DecidableEq, Repr

def Src.fmt : Src → Option Nat
  | .fill => some 0
  | .const e => e.fmt
  | .at_ f _ _ => f

/-- The format of a side (R250). -/
def sideFmt (d : Desc) (fmt : BitVec 16) : Option Nat := if d.kind = 3 then none else if d.kind = 2 then some 16 else some (fmtTag fmt)

/-- The two header bytes of an element. -/
def hdrBytes (see : Place → Byte) (h : Header) : Nat × Nat :=
  let bit := fun (c : Nat) => (see (h.at_.add (c / 8))).getLsbD (c % 8)
  let o := h.at_.add (hdrOffset h bit h.first)
  ((see o).toNat, (see (o.add 1)).toNat)

/-! ### Weight streams (R108 to R110) -/

/-- Bytes of a weight stream, in `k` pieces of sixteen, each within one page of tag 9. -/
def State.streamBytes (s : State) (j : Relayout) (x : Block) (own : List StoreEnt) : Nat → Nat → State × (Halt ⊕ List Byte)
  | 0, _ => (s, .inr [])
  | k + 1, a =>
    match s.atVirt x.part x.core j.ctx a 0 .load with
    | (s1, .ok (.byte p _) _ fmt) =>
      if fmtTag fmt ≠ 9 then (s1, .inl (.stop 4))
      else if s1.engineBad j own p 16 then (s1, .inl (.stop 2))
      else
        let l := (List.range 16).map (fun i => s1.engineSee j own (p.add i))
        (match s1.streamBytes j x own k (a + 16) with
         | (s2, .inr r) => (s2, .inr (l ++ r))
         | r => r)
    | (s1, e) => (s1, .inl (e.halt false))

/-- The payload bytes of a LIT tile (R108). -/
def litLen (etag : Nat) : Nat := 4096 * tagWidth etag / 8 + (if etag = 5 then 256 else 0)

/-- The loader reads the next record, its payload with it (R109, R110; DEDUCED, notes/assumptions/43.md). -/
def State.readTile (s : State) (j : Relayout) (x : Block) (own : List StoreEnt) : State × (Halt ⊕ Relayout) :=
  match s.streamBytes j x own 1 j.recAt with
  | (s1, .inl h) => (s1, .inl h)
  | (s1, .inr hd) =>
    let w := ofLe (hd.take 8)
    let kind := bits w 62 2
    let slot := bits w 56 6
    let etag := bits w 51 4
    let plen := bits w 0 32
    let bad := kind == 3 || !([1, 2, 3, 4, 5, 7, 8].contains etag) || plen != (if kind = 0 then litLen etag else 0) ||
      j.tiles.any (fun t => t.2.etag != etag) || (kind == 2 && !(j.slots.has slot))
    let next := j.recAt + 16 + cdiv plen 16 * 16
    let add := fun (a : Relayout) (d : Option (List Byte)) => { a with tiles := a.tiles.put a.tiles.length ⟨etag, d⟩, recAt := next }
    if bad then (s1, .inl (.stop 4))
    else if kind = 1 then (s1, .inr (add j none))
    else if kind = 2 then (s1, .inr (add j (j.slots.find slot)))
    else match s1.streamBytes j x own (cdiv plen 16) (j.recAt + 16) with
      | (s2, .inl h) => (s2, .inl h)
      | (s2, .inr d) => (s2, .inr (add (if bitAt w 55 then { j with slots := j.slots.put slot d } else j) (some d)))

/-- Tile number `t`: the records are read in ascending order up to it. `n` bounds how many are still to read. -/
def State.tileAt (s : State) (x : Block) (own : List StoreEnt) (t : Nat) : Nat → Relayout → (State × Relayout) × (Halt ⊕ Tile)
  | 0, j => ((s, j), .inl (.stop 4))
  | n + 1, j =>
    match j.tiles.find t with
    | some v => ((s, j), .inr v)
    | none =>
      match s.readTile j x own with
      | (s1, .inl h) => ((s1, j), .inl h)
      | (s1, .inr j1) => s1.tileAt x own t n j1

/-- An element of a weight stream: its layout the identity, its BASE a record's (R108, R109). -/
def State.streamElem (s : State) (j : Relayout) (x : Block) (own : List StoreEnt) (d : Desc) (l : Nat) :
    (State × Relayout) × (Halt ⊕ SrcElem) :=
  if j.lold ≠ identMat d.n ∨ d.base % 16 ≠ 0 then ((s, j), .inl (.stop 4))
  else match s.tileAt x own (l / 4096) (l / 4096 + 2) j with
    | (a, .inl h) => (a, .inl h)
    | (a, .inr t) =>
      if tagWidth t.etag ≠ d.width then (a, .inl (.stop 4))
      else
        let k := l % 4096
        let bit := k * d.width
        (a, .inr (match t.data with
          | none => ⟨some t.etag, 0, 0x7F, 0, true⟩
          | some bs =>
            let h := fun (i : Nat) => if t.etag = 5 then (bs.getD (2048 + 2 * (k / 32) + i) 0).toNat else 0
            ⟨some t.etag, bits (ofLe ((bs.drop (bit / 8)).take d.bytes)) (bit % 8) d.width, h 0, h 1, true⟩))

/-- The source is a weight stream: its base lies in a page of tag 9. A base whose page is not present is waited for. -/
def State.isStream (s : State) (j : Relayout) (x : Block) (d : Desc) : State × (Halt ⊕ Bool) :=
  if d.kind = 0 ∧ ¬ j.inplace then
    match s.atVirt x.part x.core j.ctx d.base 0 .load with
    | (s1, .ok _ _ fmt) => (s1, .inr (fmtTag fmt == 9))
    | (s1, .miss va) => (s1, .inl (.miss va false))
    | (s1, _) => (s1, .inr false)
  else (s, .inr false)

/-! ### Other sources -/

/-- A position beyond the box of a slab side (R84, R87). -/
def beyond (d : Desc) (v : Option SlabView) (l : Nat) : Bool :=
  d.kind == 4 && (match v with | some y => decide (2 ^ y.log2 ≤ l >>> d.rowBits) | none => decide (0 < l >>> d.rowBits))

/-- The element at a location of a side that is read, translated, its width checked. A phantom element beyond the side's box is
FILL; another there is BOUNDS (DEDUCED, notes/assumptions/40.md). -/
def State.sideAt (s : State) (j : Relayout) (x : Block) (d : Desc) (v : Option SlabView) (l mem : Nat) (ph : Bool) : State × (Halt ⊕ Src) :=
  if beyond d v l then (s, if ph then .inr .fill else .inl (.stop 5))
  else match s.placeAt x j.ctx d v l mem .load with
    | (s1, .fill) => (s1, .inr .fill)
    | (s1, .ok pl va fmt) =>
      let tag := fmtTag fmt
      if (d.kind = 0 ∨ d.kind = 1 ∨ d.kind = 4) ∧ tag ≠ 0 ∧ tagWidth tag ≠ d.width then (s1, .inl (.stop 4))
      else if tag = 5 ∨ tag = 6 then
        (match s1.elemHeader x j.ctx pl va fmt .load with
         | (s2, .inl e) => (s2, .inl (e.halt false))
         | (s2, .inr h) => (s2, .inr (.at_ (sideFmt d fmt) pl (some h))))
      else (s1, .inr (.at_ (sideFmt d fmt) pl none))
    | (s1, e) => (s1, .inl (e.halt false))

/-- The bytes that reading an element reads. -/
def State.srcPlaces (s : State) (j : Relayout) (own : List StoreEnt) (d : Desc) : Src → List Place
  | .at_ _ pl hdr =>
    (match pl with | .byte p _ => (List.range d.bytes).map p.add | _ => []) ++
      (match hdr with | some h => headerPlaces (s.engineSee j own) h 1 | none => [])
  | _ => []

/-- An element is read: none where its storage is poisoned (R80). -/
def State.readSrc (s : State) (j : Relayout) (own : List StoreEnt) (d : Desc) : Src → Option SrcElem
  | .fill => some ⟨some 0, d.fill, 0, 0, false⟩
  | .const e => some e
  | .at_ f pl hdr =>
    let bad := (match pl with | .byte p _ => s.engineBad j own p d.bytes | _ => false) ||
      (match hdr with | some h => badHeader (s.engineSee j own) (s.engineBad j own) h 1 | none => false)
    if bad then none
    else
      let hb := match hdr with | some h => hdrBytes (s.engineSee j own) h | none => (0, 0)
      some ⟨f, s.engineBits j own pl d.width, hb.1, hb.2, false⟩

/-! ### Conversion (R250) -/

inductive Conv where
  | copy | convert | refused
  deriving DecidableEq, Repr

/-- What a destination format alone refuses: tags 8 and 9, and NOSAT where it is not E4M3 or E5M2 (R248, R250). -/
def convBad (nosat : Bool) (fd : Option Nat) : Bool :=
  fd == some 8 || fd == some 9 || (nosat && fd != some 3 && fd != some 4)

/-- The case of one element of the first pass: formats and widths of the two sides; both sides of a growth move carry the same
tag (R254). -/
def convCase (nosat stream grow : Bool) (fs fd : Option Nat) (ws wd : Nat) : Conv :=
  let f := fun (x : Option Nat) => x.getD 0
  if convBad nosat fd ∨ fs = some 9 ∨ (grow ∧ fs ≠ fd) then .refused
  else if fs = fd ∨ f fs = 0 ∨ f fd = 0 then
    (if ws ≠ wd ∨ (!stream ∧ (fs = some 5 ∨ fs = some 6 ∨ fd = some 5 ∨ fd = some 6)) then .refused else .copy)
  else if f fs = 8 ∨ fd = some 6 then .refused
  else .convert

/-- The exact value of a source element (R250). -/
def SrcElem.num (e : SrcElem) : Num :=
  match e.fmt with
  | some 16 => Flt.f32.decode e.x
  | some 5 | some 6 => decodeE2m1s e.x e.scale e.spec
  | some t => tagNum t e.x
  | none => .fin false 0 0

/-- Decoded source × scale, exact. A NaN stays as it was decoded, whatever the scale (DESIGN CHOICE, notes/assumptions/76.md). -/
def SrcElem.scaled (e : SrcElem) (scale : W32) : Num := (mulExact e.num (Flt.f32.decode scale.toNat)).getD e.num

/-- The float format of a tag or of binary32. -/
def tagFlt : Nat → Flt | 1 => .bf16 | 2 => .f16 | 3 => .e4m3 | 4 => .e5m2 | _ => .f32

/-- One value in the destination's format, tag 5 apart. -/
def convTo (fd rm : Nat) (nosat : Bool) (y : Num) : Nat :=
  if fd = 7 then intBits (toInt true 8 (RM.of rm) y).1 8 else ((tagFlt fd).roundTo (RM.of rm) (!nosat) y).1

/-- What a destination format refuses of every weight stream whose elements have the source's width: any of the ETAGs would be
refused (R109, R250). -/
def streamBad (nosat : Bool) (fd : Option Nat) (ws wd : Nat) : Bool :=
  ([1, 2, 3, 4, 5, 7, 8].filter (fun t => tagWidth t == ws)).all (fun t => convCase nosat true false (some t) fd ws wd == .refused)

/-! ### One block (R78) -/

/-- The source of the element that lands at a destination location in the first pass, and its case: no source for a phantom. -/
def State.firstSrc (s : State) (j : Relayout) (x : Block) (own : List StoreEnt) (stream : Bool) (l : Nat) (fd : Option Nat) :
    (State × Relayout) × (Halt ⊕ (Option Src × Conv)) :=
  let ds := Desc.of j.src
  let dd := Desc.of j.dst
  let i := mulVec ((gfInverse dd.n j.lold).getD []) l
  let ph := dd.phantom i || ds.phantom i || (ds.kind == 4 && j.sv.isNone)
  if stream then
    (if ph then ((s, j), if streamBad j.nosat fd ds.width dd.width then .inl (.stop 4) else .inr (none, .copy))
     else match s.streamElem j x own ds l with
       | (a, .inl h) => (a, .inl h)
       | (a, .inr e) =>
         (match convCase j.nosat true false e.fmt fd ds.width dd.width with
          | .refused => (a, .inl (.stop 4))
          | c => (a, .inr (some (.const e), c))))
  else match s.sideAt j x ds j.srcView l (srcMember x ds) ph with
    | (s1, .inl h) => ((s1, j), .inl h)
    | (s1, .inr e) =>
      (match convCase j.nosat false j.grow e.fmt fd ds.width dd.width with
       | .refused => ((s1, j), .inl (.stop 4))
       | c => ((s1, j), .inr (if ph then none else some e, c)))

/-- Where an element of a block goes once translated: nowhere where the write is dropped (R87); a place, its address, its format
word, and its header's place in tag 5 storage. -/
inductive Dst where
  | drop
  | at_ (pl : EPlace) (va : Nat) (fmt : BitVec 16) (hdr : Option Header)
  deriving DecidableEq, Repr

/-- The place of a destination location, translated, its width checked. In tag 5 storage the header goes with the first pass, at the
place of the location it writes (DESIGN CHOICE, notes/assumptions/84.md). -/
def State.dstAt (s : State) (j : Relayout) (x : Block) (first : Bool) (l2 : Nat) : State × (Halt ⊕ Dst) :=
  let dd := Desc.of j.dst
  match s.placeAt x j.ctx dd j.dstView l2 j.member .store with
  | (s1, .fill) => (s1, .inr .drop)
  | (s1, .ok pl va fmt) =>
    let tag := fmtTag fmt
    if (dd.kind = 0 ∨ dd.kind = 1 ∨ dd.kind = 4) ∧ tag ≠ 0 ∧ tagWidth tag ≠ dd.width then (s1, .inl (.stop 4))
    else if first ∧ sideFmt dd fmt = some 5 then
      (match s1.elemHeader x j.ctx pl va fmt .store with
       | (s2, .inl e) => (s2, .inl (e.halt true))
       | (s2, .inr h) => (s2, .inr (.at_ pl va fmt (some h))))
    else (s1, .inr (.at_ pl va fmt none))
  | (s1, e) => (s1, .inl (e.halt true))

/-- An element of a block that has been translated: the location it comes from, where it goes, its source, its case. -/
structure Moved where
  l   : Nat
  l2  : Nat
  dst : Dst
  src : Option Src
  cv  : Conv
  deriving DecidableEq, Repr

/-- The destination side of every element of a block. -/
def State.blockDsts (s : State) (j : Relayout) (x : Block) (p : Pass) (first : Bool) : List Nat → State × (Halt ⊕ List (Nat × Dst))
  | [] => (s, .inr [])
  | l :: rest =>
    match s.dstAt j x first (mulVec p.mat l) with
    | (s1, .inl h) => (s1, .inl h)
    | (s1, .inr d) =>
      (match s1.blockDsts j x p first rest with
       | (s2, .inr r) => (s2, .inr ((l, d) :: r))
       | r => r)

/-- The source side of every element of a block, after its destination side: a pass after the first works in place. `inv` leads
from locations to indexes. -/
def State.blockSrcs (s : State) (j : Relayout) (x : Block) (own : List StoreEnt) (p : Pass) (inv : List Nat) (first stream : Bool) :
    List (Nat × Dst) → (State × Relayout) × (Halt ⊕ List Moved)
  | [] => ((s, j), .inr [])
  | q :: rest =>
    let dd := Desc.of j.dst
    let one : (State × Relayout) × (Halt ⊕ (Option Src × Conv)) := match q.2 with
      | .drop => ((s, j), .inr (none, .copy))
      | .at_ _ _ fmt _ =>
        if first then s.firstSrc j x own stream q.1 (sideFmt dd fmt)
        else
          let ph := dd.phantom (mulVec inv q.1)
          (match s.sideAt j x dd j.dstView q.1 j.member ph with
           | (s1, .inl h) => ((s1, j), .inl h)
           | (s1, .inr e) => ((s1, j), .inr (if ph then none else some e, .copy)))
    match one with
    | (a, .inl h) => (a, .inl h)
    | (a, .inr e) =>
      (match a.1.blockSrcs a.2 x own p inv first stream rest with
       | (b, .inr r) => (b, .inr (⟨q.1, mulVec p.mat q.1, q.2, e.1, e.2⟩ :: r))
       | r => r)

/-- The sources of a destination's block of 32 that the quantiser looks at, from its first location on (R137). -/
def State.quantSrcs (s : State) (j : Relayout) (x : Block) (own : List StoreEnt) (stream : Bool) (inv : List Nat) :
    Nat → Nat → (State × Relayout) × (Halt ⊕ List (Option Src × Conv))
  | 0, _ => ((s, j), .inr [])
  | n + 1, l =>
    match s.firstSrc j x own stream (mulVec inv l) (some 5) with
    | (a, .inl h) => (a, .inl h)
    | (a, .inr e) =>
      (match a.1.quantSrcs a.2 x own stream inv n (l + 1) with
       | (b, .inr r) => (b, .inr (e :: r))
       | r => r)

/-- The blocks of 32 that the elements of a block quantise, with their sources. -/
def State.blockQuants (s : State) (j : Relayout) (x : Block) (own : List StoreEnt) (stream : Bool) (inv : List Nat) :
    List Nat → (State × Relayout) × (Halt ⊕ List (Nat × List (Option Src × Conv)))
  | [] => ((s, j), .inr [])
  | b :: rest =>
    match s.quantSrcs j x own stream inv 32 (b * 32) with
    | (a, .inl h) => (a, .inl h)
    | (a, .inr l) =>
      (match a.1.blockQuants a.2 x own stream inv rest with
       | (c, .inr r) => (c, .inr ((b, l) :: r))
       | r => r)

/-- A scale byte: a free value where the spec gives none, beyond 254 (DESIGN CHOICE, notes/assumptions/24.md). -/
def State.scaleByte (s : State) (scale : Nat) (nan : Bool) : State × Nat :=
  if scale < 255 ∨ nan then (s, scale) else ({ s with free := s.free + 1 }, (Config.freeValue s.free).toNat % 256)

/-- What a quantised block of 32 comes to: its number, its scale byte, its special, its codes. -/
structure Quant where
  blk   : Nat
  scale : Nat
  spec  : Nat
  codes : List Nat
  deriving DecidableEq, Repr

/-- Quantise some blocks of 32; +0 stands where no converted value lands (DEDUCED, notes/assumptions/23.md). The quantiser takes the
values exact, not rounded to binary32 first (DESIGN CHOICE, notes/assumptions/85.md). None where storage is poisoned. -/
def State.quantAll (s : State) (j : Relayout) (own : List StoreEnt) (l : List (Nat × List (Option Src × Conv))) : State × Option (List Quant) :=
  let ds := Desc.of j.src
  l.foldl (fun (a : State × Option (List Quant)) b =>
    match a.2 with
    | none => a
    | some qs =>
      let es : List (Option Num) := b.2.map (fun e => match e with
        | (some src, .convert) => (s.readSrc j own ds src).map (fun (v : SrcElem) => v.scaled j.scale)
        | _ => some (Num.fin false 0 0))
      if es.any (·.isNone) then (a.1, none)
      else
        let q := encodeNums (es.map (fun e => e.getD (Num.fin false 0 0)))
        let sc := a.1.scaleByte q.1 (q.2.2.2 == NV)
        (sc.1, some (qs ++ [⟨b.1, sc.2, q.2.1, q.2.2.1⟩]))) (s, some [])

/-- An element to write: its place, its address, its bits, and the header that goes with it: the place and address of
its scale byte, scale and special. -/
structure Item where
  pl  : EPlace
  va  : Nat
  x   : Nat
  hdr : Option (Place × Nat × Nat × Nat)
  deriving DecidableEq, Repr

/-- Where an element's scale byte lies in tag 5 storage, with its virtual address (R104). -/
def scalePlace (h : Header) (va : Nat) (fmt : BitVec 16) (sc sp : Nat) : Place × Nat × Nat × Nat :=
  let o := h.gran % 8 * 8192 + 2 * (h.first / 32)
  (h.at_.add o, (hdrGranule fmt (va / 65536)).toNat * 65536 + o, sc, sp)

/-- The element of a translated block as it is to be written: none where the write is dropped; no item where storage that is read
is poisoned. -/
def State.moveItem (s : State) (j : Relayout) (own : List StoreEnt) (first : Bool) (qs : List Quant) (m : Moved) : Option (Option Item) :=
  let dd := Desc.of j.dst
  match m.dst with
  | .drop => some none
  | .at_ pl va fmt hdr =>
    match m.src with
    | none => some (some ⟨pl, va, dd.fill, none⟩)
    | some src =>
      match s.readSrc j own (if first then Desc.of j.src else dd) src with
      | none => none
      | some e =>
        match hdr, m.cv with
        | some h, .convert =>
          (match qs.find? (fun q => q.blk == m.l2 / 32) with
           | some q => some (some ⟨pl, va, q.codes.getD (m.l2 % 32) 0, some (scalePlace h va fmt q.scale q.spec)⟩)
           | none => some none)
        | some h, _ => some (some ⟨pl, va, e.x, some (scalePlace h va fmt e.scale e.spec)⟩)
        | none, .convert => some (some ⟨pl, va, convTo ((sideFmt dd fmt).getD 16) j.rm j.nosat (e.scaled j.scale), none⟩)
        | none, _ => some (some ⟨pl, va, e.x, none⟩)

/-- Bytes to write, in order; parts of one byte are put together. -/
def addByte (see : Place → Byte) (a : List (Place × Nat × Byte)) (p : Place) (va bit w v : Nat) : List (Place × Nat × Byte) :=
  match a.find? (fun e => e.1 == p) with
  | some e => a.map (fun q => if q.1 == p then (p, va, BitVec.ofNat 8 (insBits e.2.2.toNat bit w v)) else q)
  | none => a ++ [(p, va, BitVec.ofNat 8 (insBits (see p).toNat bit w v))]

/-- The bytes of a block's elements and of the headers that go with them. -/
def itemBytes (see : Place → Byte) (w : Nat) (l : List Item) : List (Place × Nat × Byte) :=
  l.foldl (fun (a : List (Place × Nat × Byte)) it =>
    let a1 := match it.pl with
      | .byte p bit => if w < 8 then addByte see a p it.va bit w it.x
          else a ++ (seqFrom 0 (leBytes it.x (w / 8))).map (fun q => (p.add q.1, it.va + q.1, q.2))
      | _ => a
    match it.hdr with
    | none => a1
    | some (o, va, sc, sp) => addByte see (addByte see a1 o va 0 8 sc) (o.add 1) (va + 1) 0 8 sp) []

/-- A poisoned sector is written, and not whole (R80, R115): what the job has written of it before counts. -/
def State.poisonWrite (s : State) (j : Relayout) (l : List (Place × Nat × Byte)) : Bool :=
  s.poison.any (fun q =>
    let at_ := fun (i : Nat) => Place.mem (q * 32 + i)
    let hit := fun (i : Nat) => l.any (fun e => e.1 == at_ i)
    (List.range 32).any hit && !((List.range 32).all (fun i => hit i || (j.wrote (at_ i)).isSome)))

/-- Elements in accumulators and lane registers are written at once; a lane register's word is written whole, as the relayout has
it (R100). -/
def State.writeRegs (s : State) (j : Relayout) (w : Nat) (l : List Item) : State × Relayout :=
  l.foldl (fun (a : State × Relayout) it => match it.pl with
    | .reg bk gk key bit =>
      let now := match a.1.group bk gk with | some g => (g.vregs.get key).toNat | none => 0
      let v := insBits ((a.2.shadow.find (regWord bk gk key)).getD now) bit w it.x
      (a.1.modGroup bk gk (fun g => { g with vregs := g.vregs.set key (BitVec.ofNat 32 v) }),
        { a.2 with shadow := a.2.shadow.put (regWord bk gk key) v })
    | pl => (a.1.setElemReg pl w it.x, a.2)) (s, j)

/-- The job keeps bytes it has written, those of the last pass apart (R298). -/
def Relayout.keep (j : Relayout) (last : Bool) (l : List (Place × Nat × Byte)) : Relayout :=
  let hit := fun (e : EngineByte) => l.any (fun q => e.isAt q.1)
  let new := flatBytes l
  if last then { j with done := j.done.filter (fun e => !hit e), fresh := j.fresh.filter (fun e => !hit e) ++ new }
  else { j with done := j.done.filter (fun e => !hit e) ++ new }

/-- One block: every page translated, then every element read, then all written (R78). A growth move's rows go to their homes at
once, since MOVED shows them (R85). -/
def State.doBlock (s : State) (j : Relayout) (x : Block) (p : Pass) (inv : List Nat) (first stream : Bool) : (State × Relayout) × Option Halt :=
  let own := s.jobStores j x
  let w := (Desc.of j.dst).width
  let ls := (List.range (j.inBlock p)).map (p.locOf j.cursor)
  match s.blockDsts j x p first ls with
  | (s1, .inl h) => ((s1, j), some h)
  | (s1, .inr ds) =>
    match s1.blockSrcs j x own p inv first stream ds with
    | (a, .inl h) => (a, some h)
    | (a, .inr ms) =>
      let back := (gfInverse (Desc.of j.dst).n p.mat).getD []
      let need := ((ms.filter (fun m => m.cv == .convert && (match m.dst with | .at_ _ _ _ (some _) => true | _ => false))).map
        (fun m => m.l2 / 32)).eraseDups
      match a.1.blockQuants a.2 x own stream back need with
      | (b, .inl h) => (b, some h)
      | (b, .inr qsrc) =>
        let d := if first then Desc.of j.src else Desc.of j.dst
        let srcs := ms.filterMap (·.src) ++ qsrc.flatMap (fun q => q.2.filterMap (·.1))
        let j1 := b.1.noteWords b.2 own (srcs.flatMap (b.1.srcPlaces b.2 own d))
        match b.1.quantAll j1 own qsrc with
        | (s2, none) => ((s2, j1), some (.stop 2))
        | (s2, some qs) =>
          let items := ms.map (s2.moveItem j1 own first qs)
          if items.any (·.isNone) then ((s2, j1), some (.stop 2))
          else
            let l := items.filterMap (fun i => i.getD none)
            let bytes := itemBytes (s2.engineSee j1 own) w l
            if s2.poisonWrite j1 bytes then ((s2, j1), some (.stop 2))
            else
              let r := s2.writeRegs j1 w l
              if j.grow then
                (match r.1.writeVirt x.part x.core j.ctx (bytes.filterMap (fun e => e.1.key.map (fun k => ⟨e.2.1, k, e.2.2⟩))) with
                 | (s3, none) => ((s3, r.2), none)
                 | (s3, some f) => ((s3, r.2), some (if f.2 = .miss then .miss f.1 true else .stop (if f.2 = .poison then 2 else 1))))
              else ((r.1, r.2.keep (decide (j.pass + 1 = j.passes.length)) bytes), none)

/-! ### Before any data moves (R77, R81) -/

/-- Whether an on-chip side lies in the windows of members that exist (R81) (DEDUCED, notes/assumptions/40.md). -/
def State.sideBounds (s : State) (x : Block) (d : Desc) (mem : Nat) : Bool :=
  if d.kind = 0 ∨ d.kind = 4 then true
  else if d.base = 0 then false
  else
    let hi := bits d.base 0 30 + d.foot
    let ms := if d.kind = 1 then (List.range (2 ^ (d.e + d.n - d.split))).map (· ^^^ mem) else [mem]
    ms.all (fun m => match s.memberOf x m with
      | none => false
      | some (_, y) => decide (hi ≤ (if d.kind = 1 then y.winsize else if d.kind = 2 then 2 ^ 20 else 2 ^ 22)))

/-- The addresses of the granules a side's footprint meets. -/
def granules (lo n : Nat) : List Nat := (List.range ((lo + n - 1) / 65536 + 1 - lo / 65536)).map (fun i => Nat.max lo ((lo / 65536 + i) * 65536))

/-- The tags of the virtual granules that can be translated, and the first page to wait for. -/
def State.virtTags (s : State) (x : Block) (c : Nat) (l : List Nat) : State × List Nat × Option Nat :=
  l.foldl (fun (a : State × List Nat × Option Nat) va =>
    match a.1.atVirt x.part x.core c va 0 .load with
    | (s1, .ok _ _ fmt) => (s1, a.2.1 ++ [fmtTag fmt], a.2.2)
    | (s1, .miss v) => (s1, a.2.1, some (a.2.2.getD v))
    | (s1, _) => (s1, a.2.1, a.2.2)) (s, [], none)

/-- The tags of the storage a descriptor covers. -/
def State.sideTags (s : State) (x : Block) (c : Nat) (d : Desc) (v : Option SlabView) (mem : Nat) : State × List Nat × Option Nat :=
  match d.kind with
  | 0 => s.virtTags x c (granules d.base d.foot)
  | 1 =>
    let off := bits d.base 0 30
    let ms := (List.range (2 ^ (d.e + d.n - d.split))).map (· ^^^ mem)
    (s, ms.flatMap (fun m => match s.memberOf x m with
      | none => []
      | some (_, y) => (granules off d.foot).map (fun o => fmtTag (y.winfmt.get (o / 65536)))), none)
  | 4 => (match v with
    | none => (s, [], none)
    | some y => s.virtTags x c ((granules 0 (2 ^ (y.log2 + d.rowlog))).map (fun o => y.addr d.rowlog (o / 2 ^ d.rowlog) (o % 2 ^ d.rowlog))))
  | _ => (s, [0], none)

/-- Some element of the first pass is converted into tag 5 storage: the elements in the order of their blocks, `n` of them from
location `l` on. Only a destination of 4-bit elements can be such storage. -/
def State.quantises (s : State) (j : Relayout) (x : Block) (own : List StoreEnt) (stream : Bool) (p : Pass) :
    Nat → Nat → (State × Relayout) × (Halt ⊕ Bool)
  | 0, _ => ((s, j), .inr false)
  | n + 1, l =>
    let dd := Desc.of j.dst
    match s.placeAt x j.ctx dd j.dstView (mulVec p.mat l) j.member .store with
    | (s1, .ok _ _ fmt) =>
      if sideFmt dd fmt = some 5 then
        (match s1.firstSrc j x own stream l (some 5) with
         | (a, .inl (.miss va w)) => (a, .inl (.miss va w))
         | (a, .inr (_, .convert)) => (a, .inr true)
         | (a, _) => a.1.quantises a.2 x own stream p n (l + 1))
      else s1.quantises j x own stream p n (l + 1)
    | (s1, .miss va) => ((s1, j), .inl (.miss va true))
    | (s1, _) => s1.quantises j x own stream p n (l + 1)

/-- What is found before any data moves (R68, R77, R81, R251, R253): a status, 0 for none. Where several statuses apply, one found
at the look at a slab entry comes first, then BOUNDS, OVERLAP, STAGING, FORMAT (DESIGN CHOICE, notes/assumptions/44.md). -/
def State.relayoutStart (s : State) (j : Relayout) (x : Block) (stream : Bool) : (State × Relayout) × (Halt ⊕ Nat) :=
  let ds := Desc.of j.src
  let dd := Desc.of j.dst
  let f := s.jobFoots j
  let staging := ((if j.inplace then j.passes else j.passes.drop 1).any (fun p => decide (2 ^ 23 < j.inBlock p * dd.width)))
  if j.fail ≠ 0 then ((s, j), .inr j.fail)
  else if !(s.sideBounds x dd j.member && (j.inplace || s.sideBounds x ds (srcMember x ds))) then ((s, j), .inr 5)
  else if !j.grow && Foot.meets f.1 f.2 then ((s, j), .inr 3)
  else if staging then ((s, j), .inr 6)
  else if j.inplace then
    match s.sideTags x j.ctx dd j.dv j.member with
    | (s1, l, miss) =>
      if l.any (fun t => t == 5 || t == 6 || t == 9 || (t != 0 && tagWidth t != dd.width)) then ((s1, j), .inr 4)
      else match miss with
        | some va => ((s1, j), .inl (.miss va false))
        | none => ((s1, j), .inr 0)
  else match j.passes with
    | [] => ((s, j), .inr 0)
    | p :: rest =>
      if dd.width ≠ 4 ∨ (rest.isEmpty ∧ 32 ≤ j.inBlock p) then ((s, j), .inr 0)
      else match s.quantises j x (s.jobStores j x) stream p (2 ^ j.n) 0 with
        | (a, .inl h) => (a, .inl h)
        | (a, .inr b) => (a, .inr (if b then 4 else 0))

/-- What the group issued before the relayout is still on its way to storage of its footprints: a matrix product's tiles, loaded
values, the transform pipe's replies (R249, R273). -/
def State.startWaits (s : State) (j : Relayout) (x : Block) : Bool :=
  let f := s.jobFoots j
  (f.1 ++ f.2).any (fun q =>
    (q.1 == x.core * 8 + 2 && (List.range ((q.2.2 - 1) / 65536 + 1 - q.2.1 / 65536)).any (fun i => s.tileBusy x.core (q.2.1 / 65536 + i))) ||
    (q.1 == j.blk * 8 + 3 && (match s.group j.blk j.grp with
      | none => false
      | some g =>
        let lo := Nat.max q.2.1 (j.grp * 65536)
        let hi := Nat.min q.2.2 ((j.grp + 1) * 65536)
        decide (lo < hi) && g.scored [⟨lo / 256 % 256, (hi - 1) / 256 % 256 + 1 - lo / 256 % 256, false⟩])))

/-! ### Completion (R252, R254) -/

/-- A growth move completes: BASE becomes NEWBASE and STATE becomes LIVE in one step (R254, R374). -/
def State.growDone (s : State) (key : Nat) : State :=
  let w0 := (s.mem.word key).toNat
  let w2 := (s.mem.word (key + 16)).toNat
  let w3 := (s.mem.word (key + 24)).toNat
  (s.pokeBytes (key + 16) (leBytes (insBits w2 0 56 (bits w3 0 56)) 8)).pokeBytes key (leBytes (insBits w0 9 3 1) 8)

/-- What records about a relayout name. -/
def Relayout.origin (j : Relayout) (s : State) (x : Block) : Origin :=
  engineOrigin j.grp j.quad x j.pc j.partner [] (if j.gone then [] else s.seenOf j.blk j.grp)

/-- Bytes job `job` has written go to its group, or to what that left in its block, as its token's, or as those of a credit to
barrier `bar` (R298): a credit of several tiles carries them from its first tile on, so that the first phase that counts any of it
publishes them all (DESIGN CHOICE, notes/assumptions/86.md). -/
def State.handOver (s : State) (job : Nat) (j : Relayout) (l : List EngineByte) : State :=
  if l.isEmpty then s
  else
    let r := s.bar j.blk j.bar
    let org := match s.block j.blk with | some x => j.origin s x | none => .none
    s.engineStore j.blk j.grp j.ctx j.gone (if j.cred then .credit j.bar (r.used + r.c + 1) else .token j.tok s.stamp) (some job) org
      (placedBytes l)

/-- Word 3 of its group's register shows where a relayout is (R69); of one whose group has left no register does. -/
def State.showProg (s : State) (j : Relayout) (w : W64) : State :=
  if j.gone then s else s.modGroup j.blk j.grp (fun g => { g with tregs := g.tregs.set (j.tdst * 64 + 3) w })

/-- A relayout is over with a status: its register, its holds, its results, its token or its remaining credit. A slab entry found
poisoned then is UNCORRECTABLE (R80, R115). Its token's address is the destination's BASE (DESIGN CHOICE, notes/assumptions/75.md). -/
def State.relayoutDone (s : State) (core job : Nat) (j : Relayout) (found : Nat) : State :=
  let status := if found = 0 ∧ j.slabs.any (fun k => s.poisoned k 32) then 2 else found
  let s1 := s.showProg j (if status = 0 then 0 else progWord 3 j.pass j.passes.length status j.cursor)
  let s2 := if j.grow && status == 0 then (match j.dv with | some v => s1.growDone v.key | none => s1) else s1
  let s3 := j.slabs.foldl State.releaseHold s2
  let s4 := (s3.modCore core (fun c => { c with rels := c.rels.del job })).handOver job j (j.done ++ j.fresh)
  if !j.cred then s4.tokDone j.blk j.grp j.tok status (j.dst.getD 1 0)
  else if j.credited < j.units then s4.credit j.blk j.bar (j.units - j.credited) else s4

/-- A block is done: CURSOR moves past it, whole tiles newly completed in the last pass are credited, MOVED follows a
growth move. -/
def State.blockDone (s : State) (core job : Nat) (j : Relayout) (p : Pass) : State :=
  let cur := j.cursor + 1
  let last := decide (j.pass + 1 = j.passes.length)
  let due := if last then cur * j.inBlock p / 4096 else 0
  let pay := j.cred && decide (j.credited < due)
  let full := decide (cur = j.blocks p)
  let j1 := { j with
    credited := if pay then due else j.credited, pass := if full then j.pass + 1 else j.pass, cursor := if full then 0 else cur
    fresh := if pay then [] else j.fresh }
  let st := if j.inplace then 1 else 2
  let s1 := s.showProg j (progWord st j1.pass j.passes.length 0 j1.cursor)
  let s2 := if j.grow then (match j.dv with | some v => s1.pokeBytes (v.key + 8) (leBytes cur 4) | none => s1) else s1
  let s3 := s2.modCore core (fun c => { c with rels := c.rels.put job j1 })
  let s4 := if pay then (s3.handOver job j j.fresh).credit j.blk j.bar (due - j.credited) else s3
  if full && last then s4.relayoutDone core job { j1 with pass := j.passes.length, cursor := 0 } 0 else s4

/-- A growth move begins: it copies from position 0 again, and MOVED says so (R254). -/
def State.growBegins (s : State) (j : Relayout) : State :=
  if j.grow then (match j.dv with | some v => s.pokeBytes (v.key + 8) (leBytes 0 4) | none => s) else s

/-- A relayout's storage overlaps that of an earlier one, so that the two run in order (R77). -/
def State.overlap (s : State) (j earlier : Relayout) : Bool :=
  let f := s.jobFoots j
  let h := s.jobFoots earlier
  Foot.meets (f.1 ++ f.2) h.2 || Foot.meets f.2 h.1

/-- A relayout waits while an earlier one of the engine whose storage overlaps is in flight, or one that the engine takes first
has not started (R77), and while a page fault of another has stopped the engine (R79). -/
def State.behind (s : State) (core job : Nat) (j : Relayout) : Bool :=
  (s.core core).rels.any (fun r =>
    (decide (r.1 < job) && s.overlap j r.2) ||
    (decide (r.1 ≠ job) && s.ctxIs (s.partOfDie (core / 64)) r.2.ctx .running &&
      (r.2.heldBy.isSome || (decide (r.1 < job) && !j.started && !r.2.started))))

/-- The engine stops at a block boundary while the context halts, a weight stream when it has halted (R401) (DEDUCED, notes/assumptions/27.md). -/
def State.engineStops (s : State) (j : Relayout) (x : Block) : Bool :=
  s.ctxIs x.part j.ctx .halted || (s.ctxIs x.part j.ctx .halting && (s.isStream j x (Desc.of j.src)).2 != .inr true)

/-- The layout engine begins a relayout, or completes one block of the pass in progress, or stops at it (R69, R78 to
R80). One that delivers credits goes on when its group has left (R179). -/
def execRelayoutBlock (core job : Nat) (s : State) : Host.Outcome State Fault Refusal :=
  match (s.core core).rels.find job with
  | none => .next s
  | some j =>
    match j.heldBy, s.block j.blk with
    | none, some x =>
      let put := fun (a : State) (k : Relayout) => a.modCore core (fun c => { c with rels := c.rels.put job k })
      let halt := fun (a : State × Relayout) (h : Halt) => match h with
        | .miss va wr => (let r := a.1.engineMiss j.blk x j.ctx va (j.origin a.1 x) wr; put r.1 { a.2 with heldBy := some r.2 })
        | .stop st => a.1.relayoutDone core job a.2 st
      if s.behind core job j || s.engineStops j x || (!j.started && s.startWaits j x) then .next s
      else match s.isStream j x (Desc.of j.src) with
      | (s1, .inl h) => .next (halt (s1, j) h)
      | (s1, .inr stream) =>
        if !j.started then
          (match s1.relayoutStart j x stream with
           | (a, .inl h) => .next (halt a h)
           | (a, .inr 0) => .next (put (a.1.growBegins a.2) { a.2 with started := true })
           | (a, .inr st) => .next (a.1.relayoutDone core job a.2 st))
        else
          (match j.passes[j.pass]? with
           | none => .next (s1.relayoutDone core job j 0)
           | some p =>
             let inv := (gfInverse (Desc.of j.dst).n (j.before j.pass)).getD []
             match s1.doBlock j x p inv (!j.inplace && j.pass == 0) stream with
             | (a, some h) => .next (halt a h)
             | (a, none) => .next (a.1.blockDone core job a.2 p))
    | _, _ => .next s

/-! ### Issue -/

/-- The state a relayout's register shows while it runs (R69). -/
def Relayout.img (j : Relayout) : List W64 := setNth j.dst 3 (progWord (if j.inplace then 1 else 2) 0 j.passes.length 0 0)

/-- The relayout that an issuing instruction starts, before its slab sides are known. -/
def State.newJob (s : State) (o : TOps) (inplace : Bool) (mem : Nat) (scale : W32) (src dst : List W64) (lold : List Nat)
    (passes : List Pass) : Relayout :=
  let n := (Desc.of dst).n
  { inplace := inplace, grow := false, started := false, blk := s.bkey, grp := s.gkey, quad := s.grp.quad, ctx := s.ctxid, pc := s.frag.pc
    partner := s.partner s.blk s.frag, tok := o.tok.toNat, cred := o.cred, bar := o.bar.toNat, rm := o.x.toNat % 4, nosat := o.x.getLsbD 2, scale := scale
    member := mem, tdst := o.d.toNat, src := src, dst := dst, lold := lold, n := n, passes := passes, pass := 0, cursor := 0
    credited := 0, units := cdiv (2 ^ n) 4096, sv := none, dv := none, slabs := [], fail := 0, heldBy := none, done := [], fresh := []
    shadow := [], words := [], gone := false, tiles := [], slots := [], recAt := imgWord src 1 }

/-- A job with one of its sides' slab holds taken: none while HOLD is full. The job runs over the box of its destination; what a
larger source holds beyond it is not copied (DESIGN CHOICE, notes/assumptions/74.md). -/
def Relayout.withSlab (j : Relayout) (d : Desc) (src : Bool) : SlabRes → Option Relayout
  | .later => none
  | .viol => some { j with fail := 5 }
  | .bad => some { j with fail := 1 }
  | .poison => some { j with fail := 2 }
  | .absent => some (if src then j else { j with n := d.rowBits, units := cdiv (2 ^ d.rowBits) 4096 })
  | .held v =>
    some (if src then { j with sv := some v, slabs := v.key :: j.slabs }
      else { j with dv := some v, slabs := v.key :: j.slabs, n := d.rowBits + v.log2, units := cdiv (2 ^ (d.rowBits + v.log2)) 4096 })

/-- Take the holds of a job's slab sides (R119, R374); a move from a slab to itself is a growth move, which needs the
entry to be moving (R254). -/
def State.slabSides (s : State) (j : Relayout) : State × Option Relayout :=
  let ds := Desc.of j.src
  let dd := Desc.of j.dst
  let (s1, j1) := if dd.kind = 4 then
      (let r := s.slabHold s.blk.part s.ctxid dd; (r.1, j.withSlab dd false r.2)) else (s, some j)
  match j1 with
  | none => (s1, none)
  | some j1 =>
    if j.inplace ∨ ds.kind ≠ 4 then (s1, some j1)
    else if dd.kind = 4 ∧ dd.base = ds.base ∧ dd.base ≠ 0xFFFFFFFF then
      (s1, some (match j1.dv with
        | some v => { j1 with sv := some v, grow := v.moving, fail := if v.moving then j1.fail else 3, n := dd.rowBits + (v.log2 - 1) }
        | none => j1))
    else let r := s1.slabHold s.blk.part s.ctxid ds; (r.1, j1.withSlab ds true r.2)

/-- Start a job: the token rises or not, the register takes its progress, the engine takes the job. -/
def State.startJob (s : State) (o : TOps) (j : Relayout) : State :=
  let g := (s.grp.setTimg o.d.toNat j.img)
  let s1 := { s with grp := if o.cred then g else g.tokUp o.tok.toNat, jobNo := s.jobNo + 1 }
  s1.modCore s1.blk.core (fun c => { c with rels := c.rels.put s.jobNo j })

/-- What the two relayouts share at issue (R239, R240, R248, R253). `prep` gives the job's source and destination images,
scale and L_old, or refuses. -/
def relayOp (i : Instr) (o : TOps) (inplace : Bool) (s : State)
    (prep : State → List W64 → List W64 → Option (List W64 × List W64 × W32 × List Nat)) : Host.Outcome State Fault Refusal :=
  issue i s (fun s =>
    let wd := s.grp.timg o.d.toNat
    let wa := s.grp.timg o.a.toNat
    let dd := Desc.of wd
    if s.grp.inFlightT o.d.toNat then .error (.hold 15)
    else if imgNull wd ∨ dd.state = 3 then .error undef8
    else match memberArg s.blk dd o.long, prep s wd wa with
      | some mem, some (src, dst, scale, lold) =>
        let ps := passesOf dd lold (Desc.of dst).rows (!inplace)
        if !o.cred ∧ 255 ≤ (s.grp.tok o.tok.toNat).count then .error (.hold 4)
        else match s.slabSides (s.newJob o inplace mem scale src dst lold ps) with
          | (s1, none) => .error (s.stopAt s1 (.hold 15))
          | (s1, some j) =>
            if ps.isEmpty ∧ j.fail = 0 then
              let t := o.tok.toNat
              let s2 := j.slabs.foldl State.releaseHold s1
              let g := s2.grp.setTimg o.d.toNat dst
              let s3 := ({ s2 with grp := if o.cred then g else (g.tokUp t).tokDown t 0 0 s2.stamp } : State).advance i
              .ok (if o.cred then s3.stow.credit s.bkey o.bar.toNat j.units else s3)
            else .ok ((s1.startJob o j).advance i)
      | _, _ => .error undef8)

/-- `trel` (R248). -/
def execTrel (o : TOps) (s : State) := relayOp (.trel o) o false s (fun s wd wa =>
  let da := Desc.of wa
  let dd := Desc.of wd
  let scale : W32 := if o.b = 0 then 0x3F800000 else (s.sreg o.b).setWidth 32
  let ex := bits scale.toNat 23 8
  if imgNull wa ∨ da.state = 3 ∨ da.ndim ≠ dd.ndim ∨ da.dims.map (·.2) ≠ dd.dims.map (·.2) ∨ scale.msb ∨ ex = 0 ∨ ex = 255 then none
  else some (wa, wd, scale, da.rows))

/-- `tlay` (R253): t[D] with the matrix of t[A]. -/
def execTlay (o : TOps) (s : State) := relayOp (.tlay o) o true s (fun _ wd wa =>
  let new := wd.take 16 ++ wa.drop 16
  if (Desc.of wa).n ≠ (Desc.of wd).n ∨ !imgOk new then none
  else some (wa, new, 0x3F800000, (Desc.of wd).rows))

end Sys2Proof.Machine
end

