-- ==== Sys2Proof/Machine/Transform.lean ====
section
/-!
DEFINITION. The transform pipe: major 0xC0 (R255 to R262). Sources are read at the hand-off; the destinations are held
until the pipe replies, in the order of hand-offs.
-/

namespace Sys2Proof.Machine

/-- Hand an operation to the core's pipe: n registers from D on are held, and receive `writes` with the reply (R255). -/
def State.handOff (s : State) (d n : Nat) (writes : List (Nat × W32)) : State :=
  let s1 := { s with grp := { s.grp with held := s.grp.held ++ [(d, n)] } }
  s1.modCore s1.blk.core (fun c => { c with pipe := c.pipe ++ [⟨s.bkey, s.gkey, d, n, writes⟩] })

/-- The pipe replies to the oldest hand-off: the destination registers take their values and are let go. -/
def execTransformPipeReply (core : Nat) (s : State) : Host.Outcome State Fault Refusal :=
  match (s.core core).pipe with
  | [] => .next s
  | j :: rest =>
    let s1 := s.modCore core (fun c => { c with pipe := rest })
    .next (s1.modGroup j.blk j.grp (fun g => { g with
      vregs := SMap.setAll g.vregs j.writes, held := g.held.erase (j.d, j.n) }))

/-- Source register `j` of an operation of the pipe, of a lane: the j-th from A on, or s[A] for every one of them under SA (R146;
DESIGN CHOICE, notes/assumptions/77.md). -/
def State.pipeA (s : State) (o : COps) (j i : Nat) : Nat :=
  if o.sa then (s.sreg o.a).toNat % 2 ^ 32 else (s.grp.v (o.a.toNat + j) i).toNat

/-- Writes of one register in lanes. -/
def regWrites (lanes : List Nat) (r : Nat) (f : Nat → Nat) : List (Nat × W32) := lanes.map (fun i => (r * 64 + i, BitVec.ofNat 32 (f i)))

/-- The chunks of each block, from the bits that start blocks. -/
def chunkBlocks : List Bool → Nat → List (List Nat) → List (List Nat)
  | [], _, acc => acc
  | b :: bs, c, acc => if b then chunkBlocks bs (c + 1) (acc ++ [[c]]) else
      chunkBlocks bs (c + 1) (acc.dropLast ++ [acc.getLastD [] ++ [c]])

/-- `xquant` (R257). -/
def execXquant (o : COps) (s : State) := issue (.xquant o) s (fun s =>
  let t := o.c.toNat % 32
  let fixed := o.c.getLsbD 5
  if 64 ≤ o.c.toNat ∨ (fixed ∧ t ≠ 0) then .error undef8
  else
    let on := lanesOf s.live
    let x := fun (i j : Nat) => if s.live.getLsbD i then s.pipeA o j i else 0
    let chunk := fun (i : Nat) => (List.range 8).map (x i)
    let starts := if fixed then (List.range 64).map (fun i => i % 4 == 0)
      else splitChunks t ((List.range 64).map (fun i => maxList ((chunk i).map mag32))) true 0 0
    let blocks := chunkBlocks starts 0 []
    let enc := blocks.map (fun b => encodeBlock (b.flatMap chunk))
    let codes := enc.flatMap (fun e => e.2.2.1)
    let hdr := fun (i : Nat) => match enc[i]? with | some e => e.1 + 256 * e.2.1 | none => 0
    let w0 := regWrites on o.d.toNat (fun i => packFields 4 ((codes.drop (8 * i)).take 8))
    let w1 := regWrites on (o.d.toNat + 1) (fun i => hdr i + 65536 * b2n (starts.getD i false))
    let fl := enc.foldl (fun a e => a ||| e.2.2.2) 0
    .ok (((s.handOff o.d.toNat 2 (w0 ++ w1)).raise fl).advance (.xquant o)))

/-- `xdequant` (R258). -/
def execXdequant (o : COps) (s : State) := issue (.xdequant o) s (fun s =>
  let ty := o.c.toNat % 16
  let fixed := o.c.getLsbD 4
  match (if 32 ≤ o.c.toNat ∨ ty < 8 ∨ 10 < ty then none else fltOf ty) with
  | none => .error undef8
  | some f =>
    let on := lanesOf s.live
    let head := s.pipeA o 1
    let blk := fun (c : Nat) => if fixed then c / 4 else blockIndex (fun k => bitAt (head k) 16) (c + 1) 0 0 0
    let val := fun (i j : Nat) =>
      let h := head (blk i)
      f.roundTo .rne false (decodeE2m1s (bits (s.pipeA o 0 i) (4 * j) 4) (h % 256) (bits h 8 8))
    let vals := on.map (fun i => (i, (List.range 8).map (val i)))
    let per := 32 / f.width
    let w := vals.flatMap (fun e => (List.range (8 / per)).map (fun r =>
      ((o.d.toNat + r) * 64 + e.1, BitVec.ofNat 32 (packFields f.width (((e.2.drop (per * r)).take per).map (·.1))))))
    let fl := vals.foldl (fun a e => e.2.foldl (fun b v => b ||| v.2) a) 0
    .ok (((s.handOff o.d.toNat (8 / per) w).raise fl).advance (.xdequant o)))

/-- The lanes that the register forms of weight-stream tiles need: all 64 (R260). -/
def State.allLanes (s : State) : Bool := s.live == 0xFFFFFFFFFFFFFFFF#64 && !s.blk.legacy

/-- `xpack` (R261). -/
def execXpack (o : COps) (s : State) := issue (.xpack o) s (fun s =>
  let e := o.c.toNat
  if !([1, 2, 3, 4, 5, 7, 8].contains e) || !s.allLanes then .error undef8
  else
    let n := if e = 5 then 8 else etagRegs e
    let zero := (List.range n).all (fun r => (List.range 64).all (fun i => s.pipeA o r i == 0))
    let w := (if zero then 2 ^ 62 else 0) + e * 2 ^ 51 + (if zero then 0 else litLen e)
    .ok ((s.setS o.d (BitVec.ofNat 64 w)).advance (.xpack o)))

/-- `xunpack` (R262). -/
def execXunpack (o : COps) (s : State) := issue (.xunpack o) s (fun s =>
  let w := (s.sreg o.b).toNat
  let kind := bits w 62 2
  let e := bits w 51 4
  let n := etagRegs e
  if !s.allLanes || 2 ≤ kind || !([1, 2, 3, 4, 5, 7, 8].contains e) || bits w 0 32 != (if kind = 0 then litLen e else 0) then .error undef8
  else if 16 * s.grp.vblk.length < o.d.toNat + n ∨ (16 * s.grp.vblk.length < o.a.toNat + n ∧ !o.sa) then .error (.trap 1 5)
  else if s.grp.scored (VUse.rng o.d n :: usesFrom o n) || s.grp.owed [VUse.rng o.d n] then
    .error (.hold (s.grp.scoreWhy (VUse.rng o.d n :: usesFrom o n)))
  else
    let v := fun (r i : Nat) => if kind = 0 then s.pipeA o r i else if e = 5 ∧ r = 8 then 0x007F007F else 0
    let ws := (List.range n).flatMap (fun r => regWrites (List.range 64) (o.d.toNat + r) (v r))
    .ok ((s.handOff o.d.toNat n ws).advance (.xunpack o)))

/-- `xconv` (R259). -/
def execXconv (o : COps) (s : State) := issue (.xconv o) s (fun s =>
  let dt := o.c.toNat / 16
  let st := o.c.toNat % 16
  let k := o.b.toNat
  let nosat := o.x.getLsbD 2
  let ok := fun (t : Nat) => t == 0 || (decide (8 ≤ t) && decide (t ≤ 12))
  if !(ok dt && ok st) || k == 0 || 16 < k || (nosat && dt != 11 && dt != 12) then .error undef8
  else
    let ws := typeWidth st
    let wd := typeWidth dt
    let on := lanesOf s.live
    let n := k * 32 / ws
    let src := fun (i e : Nat) => bits (s.pipeA o (e * ws / 32) i) (e * ws % 32) ws
    let vals := on.map (fun i => (i, (List.range n).map (fun e => cvtOne dt st (rmOf o) nosat (src i e))))
    let nd := cdiv (k * wd) ws
    let w := vals.flatMap (fun e =>
      let x := packFields wd (e.2.map (·.1))
      (List.range nd).map (fun r => ((o.d.toNat + r) * 64 + e.1, BitVec.ofNat 32 (x >>> (32 * r)))))
    let fl := vals.foldl (fun a e => e.2.foldl (fun b v => b ||| v.2) a) 0
    .ok (((s.handOff o.d.toNat nd w).raise fl).advance (.xconv o)))

end Sys2Proof.Machine
end

