-- ==== Sys2Proof/Machine/Matrix.lean ====
section
/-!
DEFINITION. Matrix and accumulator instructions: majors 0xC8 and 0xCA (R263 to R278), the update of tiles (R138, R139,
R273), rendezvous (R270 to R272).
-/

namespace Sys2Proof.Machine

/-! ### Products (R138, R139, R263, R264, R267) -/

/-- Element width and K of a type (R263). -/
def mmaWidth (ty : Nat) : Nat := match ty with | 9 | 10 => 16 | 11 | 12 | 0 => 8 | 13 => 4 | _ => 1
def mmaK (ty : Nat) : Nat := match ty with | 9 | 10 => 16 | 11 | 12 | 0 => 32 | 13 => 64 | _ => 256

/-- Element k of an operand in relative registers, of a lane (R263). -/
def mmaElem (m : SMap 32) (base lane ty k : Nat) : Nat :=
  let w := mmaWidth ty
  bits (m.get ((base + k * w / 32) * 64 + lane)).toNat (k * w % 32) w

/-- Its exact value; `h` is the lane's header word (R264). -/
def mmaNum (ty h x k : Nat) : Num :=
  match ty with
  | 9 => Flt.f16.decode x
  | 10 => Flt.bf16.decode x
  | 11 => Flt.e4m3.decode x
  | 12 => Flt.e5m2.decode x
  | 13 => decodeE2m1s x (bits h (16 * (k / 32)) 8) (bits h (16 * (k / 32) + 8) 8)
  | _ => ofInt (sextI x 8)

/-- A float output element (R138). -/
def mmaFloat (acc : Nat) (ps : List (Num × Num)) : Nat :=
  let a := Flt.f32.decode acc
  let prods := ps.map (fun p => mulExact p.1 p.2)
  if a.isNan || ps.any (fun p => p.1.isNan || p.2.isNan) || prods.any Option.isNone then Flt.f32.nan
  else
    let ts := a :: prods.filterMap id
    let inf := fun (s : Bool) => ts.any (fun t => t == .inf s)
    if inf false && inf true then Flt.f32.nan
    else if inf false then Flt.f32.infBits
    else if inf true then Flt.f32.sgn true + Flt.f32.infBits
    else (Flt.f32.roundTo .rne true (sumFin ts (ts.all (fun t => t.isZero && t.neg)))).1

/-- The operand of a row or column: K elements as bits; zero bits for a column of an inactive lane. -/
def mmaRow (m : SMap 32) (base lane ty : Nat) : List Nat := (List.range (mmaK ty)).map (mmaElem m base lane ty)

/-- One entry's new value: A row with header ha, B column with header hb. -/
def mmaEntry (mode : MmaMode) (ty acc : Nat) (a : List Nat) (ha : Nat) (b : List Nat) (hb : Nat) : Nat :=
  let k := List.range (mmaK ty)
  match mode with
  | .numeric =>
    if ty = 0 then intBits ((acc : Int) + ((a.zip b).map (fun p => sextI p.1 8 * sextI p.2 8)).foldl (· + ·) 0) 32
    else mmaFloat acc ((k.zip (a.zip b)).map (fun p => (mmaNum ty ha p.2.1 p.1, mmaNum ty hb p.2.2 p.1)))
  | .xor => (acc + ((a.zip b).map (fun p => (p.1 + p.2) % 2)).foldl (· + ·) 0) % 2 ^ 32
  | .land => (acc + ((a.zip b).map (fun p => p.1 * p.2)).foldl (· + ·) 0) % 2 ^ 32

/-- The columns of a product: (column of the tile, the part that supplies it, its lane, the part's product number). -/
def mmaCols (j : MmaJob) (p : MmaPart) : List (Nat × MmaPart × Nat × Nat) :=
  let q := List.range 64
  match j.form with
  | 0 => q.map (fun i => (i, p, i, 0))
  | 3 => (List.range 4).flatMap (fun c => q.map (fun i => (64 * c + i, p, i, c)))
  | _ => ((j.parts.take 4).zip (List.range 4)).flatMap (fun b => q.map (fun i => (64 * b.2 + i, b.1, i, 0)))

/-- The entries a part's rows take, from the accumulators as they stand (R267). -/
def mmaUpdates (j : MmaJob) (acc : SMap 32) (p : MmaPart) : List (Nat × W32) :=
  let cols := (mmaCols j p).map (fun c =>
    let on := c.2.1.live.getLsbD c.2.2.1
    let n := c.2.2.2
    (c.1, n, if on then mmaRow c.2.1.b (8 * n) c.2.2.1 j.ty else (List.range (mmaK j.ty)).map (fun _ => 0),
      if on then (c.2.1.c.get ((2 * n + 1) * 64 + c.2.2.1)).toNat else 0))
  (lanesOf p.live).flatMap (fun i =>
    let rows := (List.range (if j.form = 3 then 4 else 1)).map (fun n => (mmaRow p.a (8 * n) i j.ty, (p.c.get (2 * n * 64 + i)).toNat))
    cols.map (fun c =>
      let key := (4 * p.quad + p.d) * 0x4000 + i * 256 + c.1
      let r := rows.getD c.2.1 ([], 0)
      (key, BitVec.ofNat 32 (mmaEntry j.mode j.ty (acc.get key).toNat r.1 r.2 c.2.2.1 c.2.2.2))))

/-- The oldest product of a core's array updates its tiles, as one step (R273). -/
def execMatrixTileUpdate (core : Nat) (s : State) : Host.Outcome State Fault Refusal :=
  match (s.core core).jobs with
  | [] => .next s
  | j :: rest =>
    let s1 := s.modCore core (fun c => { c with jobs := rest })
    .next (j.parts.foldl (fun (a : State) p =>
      a.modCore p.core (fun c => { c with acc := SMap.setAll c.acc (mmaUpdates j (s.core p.core).acc p) })) s1)

/-! ### Issue -/

/-- Operand registers copied to relative numbers. -/
def Group.takeRegs (g : Group) (base n : Nat) : SMap 32 :=
  (g.vregs.filter (fun p => decide (base * 64 ≤ p.1) && decide (p.1 < (base + n) * 64))).map (fun p => (p.1 - base * 64, p.2))

/-- What a group brings, its fragment's em given. Registers that another fragment of it has given back while it waited read as zeros
(DESIGN CHOICE, notes/assumptions/90.md). -/
def mmaPart (bk gk : Nat) (x : Block) (g : Group) (em : W64) (o : XOps) (n : Nat) : MmaPart :=
  { blk := bk, grp := gk, core := x.core, quad := g.quad, live := em &&& ~~~g.fmask, d := o.d.toNat
    a := g.takeRegs o.a.toNat (8 * n), b := g.takeRegs o.b.toNat (8 * n)
    c := if o.hdr then g.takeRegs o.c.toNat (2 * n) else [] }

/-- The products pending in a quadrant of a core, by form. -/
def State.arrayUse (s : State) (core quad : Nat) : List Nat :=
  (s.cores.flatMap (fun c => c.2.jobs)).filterMap (fun j => if j.parts.any (fun p => p.core == core && p.quad == quad) then some j.form else none)

/-- A solo product finds a free quarter; any other needs the whole slice (R268). An L-core's one array takes one. -/
def State.arrayFree (s : State) (x : Block) (quad : Nat) (solo : Bool) : Bool :=
  let u := s.arrayUse x.core quad
  if solo && !x.lcore then decide (u.length < 4) && u.all (· == 0) else u.isEmpty

def State.pushJob (s : State) (core : Nat) (j : MmaJob) : State := s.modCore core (fun c => { c with jobs := c.jobs ++ [j] })

/-- The types of R265. -/
def mmaTypeOk (mode : MmaMode) (o : XOps) : Bool :=
  let t := o.ty.toNat
  (match mode with | .numeric => t == 0 || (decide (9 ≤ t) && decide (t ≤ 13)) | _ => t == 14) &&
  o.cmp == (t == 13) && o.hdr == (t == 13)

/-- Solo and batched products (R268, R269). -/
def mmaAlone (i : Instr) (mode : MmaMode) (o : XOps) (form n : Nat) (s : State) : Host.Outcome State Fault Refusal :=
  issue i s (fun s =>
    if !mmaTypeOk mode o then .error (.trap 1 3)
    else if s.tileBusy s.blk.core (4 * s.grp.quad + o.d.toNat) then .error (.hold 3)
    else if !s.arrayFree s.blk s.grp.quad (form == 0) then .error (.hold 10)
    else
      let p := mmaPart s.bkey s.gkey s.blk s.grp s.frag.em o n
      .ok ((s.pushJob s.blk.core ⟨form, mode, o.ty.toNat, [p]⟩).advance i))

def execMmaS (mode : MmaMode) (o : XOps) (s : State) := mmaAlone (.mmaS mode o) mode o 0 1 s
def execMmaB (mode : MmaMode) (o : XOps) (s : State) := mmaAlone (.mmaB mode o) mode o 3 4 s

/-! ### Rendezvous -/

/-- The number of a D-core within its die (R93). -/
def State.dNumber (s : State) (core : Nat) : Option Nat :=
  ((s.dSlots (core / 64)).zip (List.range 34)).findSome? (fun p => if p.1 = core % 64 then some p.2 else none)

/-- The core that shares a Pod pair crossbar with a D-core, and whether the given one is the lower (R271). -/
def State.podMate (s : State) (core : Nat) : Option (Nat × Bool) :=
  match s.dNumber core with
  | none => none
  | some n =>
    match (s.dSlots (core / 64))[if n % 2 = 0 then n + 1 else n - 1]? with
    | none => none
    | some c => some (coreKey (core / 64) c, n % 2 == 0)

/-- The groups of a quad when all four are there. -/
def State.quadOf (s : State) (bk j : Nat) : Option (List (Nat × Nat)) :=
  let l := (List.range 4).map (fun q => (bk, 4 * j + q))
  if l.all (fun p => (s.group p.1 p.2).isSome) then some l else none

/-- The participants of the issuing fragment's rendezvous, in row order: none when it cannot form (R272). -/
def State.meeting (s : State) (pod : Bool) : Option (List (Nat × Nat)) :=
  if !s.blk.quadk then none
  else match s.quadOf s.bkey (s.gkey / 4) with
    | none => none
    | some mine =>
      if !pod then some mine
      else match s.podMate s.blk.core with
        | none => none
        | some (c, lower) =>
          (match s.allBlocks.find? (fun p => p.2.core == c && p.2.grid == s.blk.grid && p.2.cluster == s.blk.cluster && !p.2.retired) with
           | none => none
           | some (bk, y) =>
             if !y.quadk then none
             else match s.quadOf bk (s.gkey / 4) with
               | none => none
               | some theirs => some (if lower then mine ++ theirs else theirs ++ mine))

/-- A fragment waiting at a rendezvous: its number, kind, instruction and em. -/
structure Waiter where
  fid  : Nat
  pod  : Bool
  mode : MmaMode
  ops  : XOps
  em   : W64
  deriving DecidableEq, Repr

/-- The fragment of a group that has waited longest at a rendezvous. -/
def Group.waiter (g : Group) : Option Waiter :=
  (g.frags.foldl (fun (b : Option (Nat × Waiter)) f => match f.2.st with
    | .rendezvous p m o t => (match b with
        | some (t0, _) => if t < t0 then some (t, ⟨f.1, p, m, o, f.2.em⟩) else b
        | none => some (t, ⟨f.1, p, m, o, f.2.em⟩))
    | _ => b) none).map (·.2)

/-- The instruction a waiting fragment stands at. -/
def Waiter.instr (w : Waiter) : Instr := if w.pod then .mmaP w.mode w.ops else .mmaQ w.mode w.ops

/-- It names another form, mode, type, CMP or HDR than the instruction at hand (R272). -/
def Waiter.differs (w : Waiter) (pod : Bool) (mode : MmaMode) (o : XOps) : Bool :=
  w.pod != pod || w.mode != mode || w.ops.ty != o.ty || w.ops.cmp != o.cmp || w.ops.hdr != o.hdr

/-- Another group's fragment takes a user trap at its instruction (R272). -/
def State.trapOther (s : State) (i : Instr) (who : FragRef) : State :=
  match s.stow.take who with
  | none => s
  | some a =>
    let a1 := (({ a with frag := { a.frag with st := .run } } : State).userTrap i.word0 1 8).stow
    (a1.take ⟨s.bkey, s.gkey, s.fkey⟩).getD s

/-- Another group's fragment issues its part of a rendezvous, and goes on past it. -/
def State.passOther (s : State) (who : FragRef) : State :=
  s.modGroup who.blk who.grp (fun g =>
    ({ g with starve := 0, raised := false, frags := g.frags.mod who.fid (fun f =>
        { f with st := .run, pc := f.pc + 8, issued := s.stamp, why := 0, bpSkip := none }) } : Group).arrive joinFuel s.stamp [who.fid])
    |>.modBlock who.blk (fun x => { x with lastIss := s.time, tstart := some (x.tstart.getD s.time) })

/-- Every participant raises UNDEF: those that wait, then the issuing one (R272). -/
def State.breakUp (s : State) (i : Instr) (ws : List (Nat × Nat × Waiter)) : State :=
  (ws.foldl (fun (a : State) w => a.trapOther w.2.2.instr ⟨w.1, w.2.1, w.2.2.fid⟩) s).userTrap i.word0 1 8

/-- Those of some groups that wait at a rendezvous. -/
def State.waiters (s : State) (l : List (Nat × Nat)) : List (Nat × Nat × Waiter) :=
  l.filterMap (fun p => match s.group p.1 p.2 with
    | some g => (match g.waiter with | some w => some (p.1, p.2, w) | none => none)
    | none => none)

/-- The reason of a rendezvous that is complete and waits for its slices: 10, told apart by 16 (R399). -/
def whyMeet : Nat := 26

/-- `mma.q` and `mma.p` (R270 to R273): until the last participant comes, nothing has issued. A participant that is
stopped keeps the others waiting (R399) (DEDUCED, notes/assumptions/45.md). -/
def mmaMeet (i : Instr) (mode : MmaMode) (o : XOps) (pod : Bool) (s0 : State) : Host.Outcome State Fault Refusal :=
  issue i s0 (fun s =>
    if !mmaTypeOk mode o then .error (.trap 1 3)
    else match s.meeting pod with
      | none => .error undef8
      | some l =>
        let others := l.filter (fun p => !(p.1 == s.bkey && p.2 == s.gkey))
        let ws := s.waiters others
        let near := ws.filter (fun w => w.1 == s.bkey)
        let wait : State := { s0 with stamp := s.stamp, grp := s0.grp.waited i.waitBits s0.stamp, frag := { s0.frag with st := .rendezvous pod mode o s.stamp, why := 6 } }
        let stuck := fun (w : Nat × Nat × Waiter) => match s.group w.1 w.2.1 with | some g => g.stop != .no || g.inTrap | none => false
        if s.grp.waiter.isSome then .ok wait
        else if ws.any stuck then .error (.hold (if pod then 6 else whyQuad))
        else if near.length = 3 ∧ near.any (fun w => w.2.2.pod != pod) then .ok (s0.breakUp i near)
        else if ws.length < others.length then .ok wait
        else if ws.any (fun w => w.2.2.differs pod mode o) then .ok (s0.breakUp i ws)
        else
          let mk := fun (p : Nat × Nat) =>
            if p.1 = s.bkey ∧ p.2 = s.gkey then some (mmaPart p.1 p.2 s.blk s.grp s.frag.em o 1)
            else match s.block p.1, s.group p.1 p.2, ws.find? (fun w => w.1 == p.1 && w.2.1 == p.2) with
              | some x, some g, some w => some (mmaPart p.1 p.2 x g w.2.2.em w.2.2.ops 1)
              | _, _, _ => none
          let parts := l.filterMap mk
          if parts.any (fun p => s.tileBusy p.core (4 * p.quad + p.d) || !(s.arrayUse p.core p.quad).isEmpty) then
            .error (.hold whyMeet)
          else
            let s1 := ws.foldl (fun (a : State) w => a.passOther ⟨w.1, w.2.1, w.2.2.fid⟩) s
            .ok ((s1.pushJob ((parts.map (·.core)).headD s.blk.core) ⟨if pod then 2 else 1, mode, o.ty.toNat, parts⟩).advance i))

def execMmaQ (mode : MmaMode) (o : XOps) (s : State) := mmaMeet (.mmaQ mode o) mode o false s
def execMmaP (mode : MmaMode) (o : XOps) (s : State) := mmaMeet (.mmaP mode o) mode o true s

/-! ### Accumulator instructions (R274 to R278) -/

/-- The columns CB selects: none where it may not (R274). -/
def accCols (lcore whole : Bool) (cb : Nat) : Option (List Nat) :=
  if 4 < cb ∨ (cb = 4 ∧ !whole) ∨ (lcore ∧ 1 ≤ cb ∧ cb ≤ 3) then none
  else if cb = 4 then some (List.range (if lcore then 64 else 256))
  else some ((List.range 64).map (64 * cb + ·))

/-- The key of an accumulator entry of the issuing group's quadrant. -/
def State.accKey (s : State) (tile row col : Nat) : Nat := (4 * s.grp.quad + tile) * 0x4000 + row * 256 + col

def State.accAt (s : State) (tile row col : Nat) : Nat := ((s.core s.blk.core).acc.get (s.accKey tile row col)).toNat

def State.setAcc (s : State) (l : List (Nat × W32)) : State := s.modCore s.blk.core (fun c => { c with acc := SMap.setAll c.acc l })

/-- An accumulator instruction on a tile: the wait for its update (R273), the columns, the effect. -/
def accOp (i : Instr) (tile : Nat) (whole : Bool) (cb : Nat) (s : State) (body : State → List Nat → Except Stop State) :
    Host.Outcome State Fault Refusal :=
  issue i s (fun s =>
    match accCols s.blk.lcore whole cb with
    | none => .error undef8
    | some cols =>
      if s.tileBusy s.blk.core (4 * s.grp.quad + tile) then .error (.hold 3)
      else match body s cols with
        | .ok t => .ok (t.advance i)
        | .error e => .error e)

/-- Every selected entry of every active row takes f row column old. -/
def State.mapAcc (s : State) (tile : Nat) (cols : List Nat) (f : Nat → Nat → Nat → Nat) : State :=
  s.setAcc ((lanesOf s.live).flatMap (fun i => cols.map (fun c => (s.accKey tile i c, BitVec.ofNat 32 (f i c (s.accAt tile i c))))))

/-- Each active lane's D takes f of its row's selected entries. -/
def State.rowTo (s : State) (d : BitVec 8) (tile : Nat) (cols : List Nat) (f : List Nat → Nat) : State :=
  s.writeV ((lanesOf s.live).map (fun i => (d.toNat * 64 + i, BitVec.ofNat 32 (f (cols.map (s.accAt tile i))))))

def execAccz (o : COps) (s : State) := accOp (.accz o) o.d.toNat true (o.c.toNat % 8) s (fun s cols => .ok (s.mapAcc o.d.toNat cols (fun _ _ _ => 0)))

def execAccld (o : COps) (s : State) := accOp (.accld o) o.d.toNat false (o.c.toNat % 8) s (fun s cols =>
  .ok (s.mapAcc o.d.toNat cols (fun i c _ => (s.grp.v (o.a.toNat + c % 64) i).toNat)))

def execAccst (o : COps) (s : State) := accOp (.accst o) o.a.toNat false (o.c.toNat % 8) s (fun s cols =>
  .ok (s.writeV ((lanesOf s.live).flatMap (fun i => cols.map (fun c => ((o.d.toNat + c % 64) * 64 + i, BitVec.ofNat 32 (s.accAt o.a.toNat i c)))))))

/-- The largest entry of a row (R276). -/
def rowMax (l : List Nat) : Nat := match l with | [] => Flt.f32.nan | x :: xs => xs.foldl (fun a y => (Flt.f32.minmax true a y).1) x

/-- The rounded sum of a row (R276). -/
def rowSum (l : List Nat) : Nat :=
  let ts := l.map Flt.f32.decode
  let inf := fun (s : Bool) => ts.any (fun t => t == .inf s)
  if ts.any Num.isNan || (inf false && inf true) then Flt.f32.nan
  else if inf false then Flt.f32.infBits
  else if inf true then Flt.f32.sgn true + Flt.f32.infBits
  else (Flt.f32.roundTo .rne false (sumFin ts (ts.all (fun t => t.isZero && t.neg)))).1

/-- A default NaN in place of any NaN. -/
def rowMaxNan (l : List Nat) : Nat := let m := rowMax l; if (Flt.f32.decode m).isNan then Flt.f32.nan else m

def execAccmax (o : COps) (s : State) := accOp (.accmax o) o.a.toNat true (o.c.toNat % 8) s (fun s cols => .ok (s.rowTo o.d o.a.toNat cols rowMaxNan))
def execAccsum (o : COps) (s : State) := accOp (.accsum o) o.a.toNat true (o.c.toNat % 8) s (fun s cols => .ok (s.rowTo o.d o.a.toNat cols rowSum))

/-- One entry of `accexp` (R277). With an offset that is a NaN every entry is a NaN, one of −∞ too, as the steps of the rule give
(DESIGN CHOICE, notes/assumptions/89.md). -/
def expEntry (scale m x : Nat) : Nat :=
  let m1 := if m = 0xFF800000 then 0 else m
  let d := (Flt.f32.add .rne (Flt.f32.decode x) (Flt.f32.decode m1).flip).1
  let t := (Flt.f32.mul .rne (Flt.f32.decode scale) (Flt.f32.decode d)).1
  (Flt.f32.exp2 .rne (Flt.f32.decode t)).1

def execAccexp (o : COps) (s : State) := accOp (.accexp o) o.d.toNat true (o.c.toNat % 8) s (fun s cols =>
  let sc := if o.b = 0 then 0x3F800000 else (s.sreg o.b).toNat % 2 ^ 32
  if bits sc 31 1 = 1 ∨ bits sc 23 8 = 0 ∨ bits sc 23 8 = 255 then .error undef8
  else .ok (s.mapAcc o.d.toNat cols (fun i _ x => expEntry sc (s.grp.v o.a.toNat i).toNat x)))

/-- One entry of `accscl` (R276): zero times infinity is a zero. -/
def sclEntry (f x : Nat) : Nat :=
  let a := Flt.f32.decode x
  let b := Flt.f32.decode f
  if a.isNan || b.isNan then Flt.f32.nan
  else match mulExact a b with
    | none => Flt.f32.sgn (a.neg != b.neg)
    | some p => (Flt.f32.roundTo .rne false p).1

def execAccscl (o : COps) (s : State) := accOp (.accscl o) o.d.toNat true (o.c.toNat % 8) s (fun s cols =>
  .ok (s.mapAcc o.d.toNat cols (fun i _ x => sclEntry (if o.sa then (s.sreg o.a).toNat % 2 ^ 32 else (s.grp.v o.a.toNat i).toNat) x)))

/-- One entry of `acccvt` as an element of DT (R278): none where DT or X may not be. -/
def cvtEntry (dt x : Nat) : Option (Nat × (Nat → Nat)) :=
  let rm := RM.of x
  let nosat := bitAt x 2
  match dt with
  | 8 | 2 => if x = 0 then some (32, fun v => v) else none
  | 0 => if x = 0 then some (8, fun v => intBits (clampInt true 8 (sextI v 32)).1 8) else none
  | 9 => if nosat then none else some (16, fun v => (Flt.f16.roundTo rm false (Flt.f32.decode v)).1)
  | 10 => if nosat then none else some (16, fun v => (Flt.bf16.roundTo rm false (Flt.f32.decode v)).1)
  | 11 => some (8, fun v => (Flt.e4m3.roundTo rm (!nosat) (Flt.f32.decode v)).1)
  | 12 => some (8, fun v => (Flt.e5m2.roundTo rm (!nosat) (Flt.f32.decode v)).1)
  | _ => none

def execAcccvt (o : COps) (s : State) := accOp (.acccvt o) o.a.toNat false (o.c.toNat % 8) s (fun s cols =>
  match cvtEntry (o.c.toNat / 16) o.x.toNat with
  | none => .error undef8
  | some (w, f) =>
    let regs := 2 * w
    .ok (s.writeV ((lanesOf s.live).flatMap (fun i =>
      let x := packFields w (cols.map (fun c => f (s.accAt o.a.toNat i c)))
      (List.range regs).map (fun r => ((o.d.toNat + r) * 64 + i, BitVec.ofNat 32 (x >>> (32 * r))))))))

end Sys2Proof.Machine
end

