-- ==== Sys2Proof/Machine/Mask.lean ====
section
/-!
DEFINITION. The mask unit and the signature filter: majors 0xE0 and 0xE8 (R279 to R289).
-/

namespace Sys2Proof.Machine

/-- MASK_ILLEGAL with its reason (R287). -/
def maskIllegal (reason : Nat) : Stop := .trap 3 reason

/-! ### Programs (R279, R280) -/

/-- A rule of a mask program. -/
structure MaskRule where
  a   : Nat
  b   : Int
  c   : Nat
  d   : Int
  doc : Nat
  deriving DecidableEq, Repr

/-- COUNT, and the two words of a rule. -/
def maskCount (p : List Byte) : Nat := ofLe (p.take 1) % 16

def ruleWord (p : List Byte) (r j : Nat) : Nat := ofLe ((p.drop (16 + 16 * r + 8 * j)).take 8)

def ruleOf (p : List Byte) (r : Nat) : MaskRule :=
  let w := ruleWord p r 0
  let v := ruleWord p r 1
  ⟨b2n (bitAt w 4), sextI v 32, b2n (bitAt w 5), sextI (v / 2 ^ 32) 32, bits w 6 2⟩

def maskRules (p : List Byte) : List MaskRule := (List.range (maskCount p)).map (ruleOf p)

/-- Some rule looks at documents (DEDUCED, notes/assumptions/46.md). -/
def maskDocs (p : List Byte) : Bool := (maskRules p).any (fun r => r.doc != 0)

/-- The reason an image is refused for (R287), the lowest first. -/
def maskBad (p : List Byte) : Option Nat :=
  let n := maskCount p
  if n = 0 ∨ 8 < n then some 0
  else if ofLe (p.take 8) / 16 ≠ 0 ∨ ofLe ((p.drop 8).take 8) ≠ 0 ∨
      (List.range n).any (fun r => ruleWord p r 0 / 256 != 0 || ruleWord p r 0 % 16 != 0) then some 1
  else if (maskRules p).any (fun r => r.doc == 3) then some 2
  else none

/-- `allowed(q, k)` (R280), given the identifiers of positions. -/
def maskAllowed (p : List Byte) (lq lk : Nat) (doc : Nat → Nat) (q k : Nat) : Bool :=
  decide (q < lq) && decide (k < lk) && (maskRules p).any (fun r =>
    decide ((r.a : Int) * q + r.b ≤ k) && decide ((k : Int) ≤ (r.c : Int) * q + r.d) &&
    (match r.doc with | 0 => true | 1 => doc q == doc k | _ => decide (doc k ≤ doc q)))

/-! ### Loading (R281, R282, R285, R286) -/

/-- The words of an image at an address: the header, then as many rules as COUNT says (R282). -/
def State.maskWords (s : State) (a : Nat) : State × Except Stop (List W64) :=
  match s.loadWords a 2 0 with
  | (s1, .error e) => (s1, .error e)
  | (s1, .ok h) =>
    match s1.loadWords (a + 16) (2 * (imgWord h 0 % 16)) 0 with
      | (s2, .error e) => (s2, .error e)
      | (s2, .ok l) => (s2, .ok (h ++ l))

/-- A document descriptor fit for lengths (R282). -/
def docOk (w : List W64) (lq lk : Nat) : Bool :=
  let d := Desc.of w
  !imgNull w && d.state != 3 && d.ndim == 0 && d.ew == 4 && decide (max lq lk ≤ (d.dims.getD 0 (0, 0)).1)

def State.setSlot (s : State) (n : Nat) (m : Option MaskSlot) : State := { s with blk := { s.blk with masks := setNth s.blk.masks n m } }

def execMkld (o : KOps) (s : State) := issue (.mkld o) s (fun s =>
  let a := (s.sreg o.a).toNat
  if 2 ^ 56 ≤ a then .error (.precise ⟨2, 4, BitVec.ofNat 64 a, s.frag.em, false⟩)
  else if a % 16 ≠ 0 then .error (.precise ⟨2, 3, BitVec.ofNat 64 a, s.frag.em, false⟩)
  else match s.maskWords a with
    | (s1, .error e) => .error (s.stopAt s1 e)
    | (s1, .ok ws) =>
      let p := wordsLe ws
      let lq := (s.sreg o.b).toNat % 2 ^ 32
      let lk := (s.sreg o.b).toNat / 2 ^ 32
      let w := s.grp.timg o.c.toNat
      let copy := if maskDocs p then w else []
      if maskDocs p && s.grp.inFlightT o.c.toNat then .error (s.stopAt s1 (.hold 15))
      else match maskBad p with
      | some r => .error (s.stopAt s1 (maskIllegal r))
      | none =>
        if maskDocs p && !docOk w lq lk then .error (s.stopAt s1 (maskIllegal 3))
        else .ok ((s1.setSlot o.psel.toNat (some ⟨p, BitVec.ofNat 64 lq, BitVec.ofNat 64 lk, copy⟩)).advance (.mkld o)))

def execMkclr (o : KOps) (s : State) := issue (.mkclr o) s (fun s =>
  if 1 < o.c.toNat then .error undef8
  else
    let s1 := s.setSlot o.psel.toNat none
    let s2 := if o.c = 1 then { s1 with blk := { s1.blk with nEmpty := 0, nFull := 0, nPart := 0 } } else s1
    .ok (s2.advance (.mkclr o)))

def execMkcnt (o : KOps) (s : State) := issue (.mkcnt o) s (fun s =>
  if 2 < o.c.toNat then .error undef8
  else
    let n := if o.c = 0 then s.blk.nEmpty else if o.c = 1 then s.blk.nFull else s.blk.nPart
    .ok ((s.setS o.d (BitVec.ofNat 64 (n % 2 ^ 32))).advance (.mkcnt o)))

/-! ### Identifiers (R282, R283) -/

/-- One identifier, read as `tld.e` reads through the slot's copy, or what stops. No register is named by it. -/
def State.docAt (s : State) (w : List W64) (p : Nat) : State × Except Stop Nat :=
  let d := Desc.of w
  let mem := if d.kind = 2 ∨ d.kind = 3 then s.blk.cluidx else 0
  let em := s.frag.em
  if s.busyWith (s.footOf s.blk s.ctxid d mem) 64 false then (s, .error (.hold 15))
  else
    let r := s.checkElem 64 w d mem p false
    let s1 := r.1.unhold r.2.2
    match r.2.1.res with
    | .viol _ => (s1, .error (maskIllegal 3))
    | .miss va => (s1, .error (.replay ⟨1, 0, BitVec.ofNat 64 va, em, false⟩))
    | .prot x va => (s1, .error (.precise ⟨2, x, BitVec.ofNat 64 va, em, false⟩))
    | .poison va => (s1, .error (.precise ⟨6, 0, BitVec.ofNat 64 va, em, false⟩))
    | .later => (s1, .error (.hold 15))
    | .fill => (s1, .ok d.fill)
    | .ok pl _ fmt =>
      if fmtTag fmt ≠ 0 then (s1, .error (maskIllegal 3))
      else if r.2.1.ph then (s1, .ok d.fill)
      else match s1.elemHeld false pl with
        | some why => (s1, .error (.hold why))
        | none =>
          let pls := match pl with | .byte q _ => (List.range 4).map q.add | _ => []
          ((s1.noteRead pls).noteResults pls, .ok (s1.elemBits s1.seeElem pl 32))

/-- The identifiers of some positions. -/
def State.docsAt (s : State) (w : List W64) : List Nat → State × Except Stop (List (Nat × Nat))
  | [] => (s, .ok [])
  | p :: ps =>
    match s.docAt w p with
    | (s1, .error e) => (s1, .error e)
    | (s1, .ok v) =>
      (match s1.docsAt w ps with
       | (s2, .ok l) => (s2, .ok ((p, v) :: l))
       | r => r)

/-- Identifiers do not decrease from one position read to the next. -/
def docsRise : List (Nat × Nat) → Bool
  | [] => true
  | [_] => true
  | x :: y :: l => decide (x.2 ≤ y.2) && docsRise (y :: l)

/-- The identifiers a mask instruction needs of some query and key positions: read, in position order, and checked. -/
def State.maskDocsOf (s : State) (m : MaskSlot) (qs ks : List Nat) : State × Except Stop (List (Nat × Nat)) :=
  let lq := m.lq.toNat
  let lk := m.lk.toNat
  if !maskDocs m.prog || lq == 0 || lk == 0 then (s, .ok [])
  else
    let all := qs.filter (fun q => decide (q < lq)) ++ ks.filter (fun k => decide (k < lk))
    let ps := (all.foldl (fun (m : KL Unit) p => m.put p ()) []).map (·.1)
    match s.docsAt m.doc ps with
    | (s1, .error e) => (s1, .error e)
    | (s1, .ok l) => if docsRise l then (s1, .ok l) else (s1, .error (maskIllegal 5))

/-- The slot an instruction names; an empty one is illegal (R287). -/
def State.maskSlot (s : State) (o : KOps) : Option MaskSlot := s.blk.masks.getD o.psel.toNat none

/-- Positions of a range. -/
def posRange (lo hi : Nat) : List Nat := (List.range (hi + 1 - lo)).map (lo + ·)

/-- `mkcls` (R283): 0 empty, 1 full, 2 partial, and the count. -/
def execMkcls (o : KOps) (s : State) := issue (.mkcls o) s (fun s =>
  let q0 := (s.sreg o.a).toNat % 2 ^ 32
  let q1 := (s.sreg o.a).toNat / 2 ^ 32
  let k0 := (s.sreg o.b).toNat % 2 ^ 32
  let k1 := (s.sreg o.b).toNat / 2 ^ 32
  if q1 < q0 ∨ k1 < k0 then .error undef8
  else match s.maskSlot o with
    | none => .error (maskIllegal 4)
    | some m =>
      let qs := posRange q0 q1
      let ks := posRange k0 k1
      match s.maskDocsOf m qs ks with
      | (s1, .error e) => .error (s.stopAt s1 e)
      | (s1, .ok docs) =>
        let ok := maskAllowed m.prog m.lq.toNat m.lk.toNat (fun p => (KL.find docs p).getD 0)
        let cls := if qs.all (fun q => ks.all (fun k => !ok q k)) then 0 else if qs.all (fun q => ks.all (ok q)) then 1 else 2
        let up := fun (n i : Nat) => if cls = i then (n + 1) % 2 ^ 32 else n
        let s2 := { s1 with blk := { s1.blk with nEmpty := up s1.blk.nEmpty 0, nFull := up s1.blk.nFull 1, nPart := up s1.blk.nPart 2 } }
        .ok ((s2.setS o.d (BitVec.ofNat 64 cls)).advance (.mkcls o)))

/-- `mkapply` (R284). -/
def execMkapply (o : KOps) (s : State) := accOp (.mkapply o) o.d.toNat true o.c.toNat s (fun s cols =>
  match s.maskSlot o with
  | none => .error (maskIllegal 4)
  | some m =>
    let q := fun (i : Nat) => (s.sreg o.a).toNat % 2 ^ 32 + i
    let k := fun (c : Nat) => (s.sreg o.b).toNat % 2 ^ 32 + (c - cols.headD 0)
    let rows := lanesOf s.live
    match s.maskDocsOf m (rows.map q) (cols.map k) with
    | (s1, .error e) => .error (s.stopAt s1 e)
    | (s1, .ok docs) =>
      let ok := maskAllowed m.prog m.lq.toNat m.lk.toNat (fun p => (KL.find docs p).getD 0)
      .ok (s1.mapAcc o.d.toNat cols (fun i c x => if q i < 2 ^ 32 ∧ k c < 2 ^ 32 ∧ ok (q i) (k c) then x else 0xFF800000)))

/-! ### Signatures (R288, R289) -/

/-- Below zero as binary32 (R128). -/
def negF32 (x : Nat) : Bool := let v := Flt.f32.decode x; !v.isNan && !v.isZero && v.neg

def execSgpack (o : COps) (s : State) := accOp (.sgpack o) o.a.toNat false o.c.toNat s (fun s cols =>
  .ok (s.writeV ((lanesOf s.live).flatMap (fun i =>
    laneWrites o.d.toNat true i (packFields 1 (cols.map (fun c => b2n (negF32 (s.accAt o.a.toNat i c)))))))))

/-- The active lanes within a radius; s[A] stands for the pair under SA (R146, R289). -/
def State.sigNear (s : State) (o : COps) : List Nat :=
  (lanesOf s.live).filter (fun i => decide (popN (s.lA o true i ^^^ (s.sreg o.b).toNat) 64 ≤ o.c.toNat))

def execSgsel (o : COps) (s : State) := issue (.sgsel o) s (fun s =>
  if 64 < o.c.toNat then .error undef8
  else if s.live = 0 then .ok (s.advance (.sgsel o))
  else .ok ((s.setKLanes o.d s.live (maskOf (s.sigNear o))).advance (.sgsel o)))

def execSgcnt (o : COps) (s : State) := issue (.sgcnt o) s (fun s =>
  if 64 < o.c.toNat then .error undef8
  else if s.live = 0 then .ok (s.advance (.sgcnt o))
  else .ok ((s.setS o.d (BitVec.ofNat 64 (s.sigNear o).length)).advance (.sgcnt o)))

end Sys2Proof.Machine
end

