-- ==== Sys2Proof/Machine/Priv.lean ====
section
/-!
DEFINITION. Privileged instructions: majors 0xF0 to 0xF6 (R353 to R361), with the end of a halt (R400, R401). Writing
and placing images is Capture.lean's.
-/

namespace Sys2Proof.Machine

/-- A privileged instruction that is a boundary at device scope before it acts (R353). Its effect may end the issuing
group, so the program counter passes it first. -/
def privOp (i : Instr) (s : State) (f : State → Except Stop (State → State)) : Host.Outcome State Fault Refusal :=
  issue i s (fun s => match f s with
    | .error e => .error e
    | .ok act => .ok (act ((s.boundary 3).advance i).stow))

/-- A CTXID operand of 0xF0: bits [63:16] zero, and never context 0 (R353, R354) (DEDUCED, notes/assumptions/47.md). -/
def ctxArg (v : W64) : Option Nat := if v.toNat = 0 ∨ 2 ^ 16 ≤ v.toNat then none else some v.toNat

/-- The entry of a context's table as it now stands in memory (R362). -/
def State.readEntry (s : State) (p c : Nat) : List W64 :=
  (List.range 8).map (fun i => s.mem.word (hbmKey p ((s.part p).ctxTab + 64 * c + 8 * i)))

/-- That entry lies in a poisoned sector (R115). -/
def State.entryBad (s : State) (p c : Nat) : Bool := s.poisoned (hbmKey p ((s.part p).ctxTab + 64 * c)) 64

/-- The blocks of a context of a partition. -/
def State.ctxBlocks (s : State) (p c : Nat) : List (Nat × Block) :=
  s.allBlocks.filter (fun b => b.2.part == p && s.ctxOf b.2 == c)

/-- The grids of a context of a partition, by rising key. -/
def State.ctxGrids (s : State) (p c : Nat) : List (Nat × Grid) := s.grids.filter (fun g => gridPart g.1 == p && g.2.ctx == c)

/-! ### Context control (R354, R400, R411 to R413) -/

/-- A context operation that takes the token of the issuing group: `start` is told the group's token. At 255 it does not
issue (R220). -/
def ctxTokOp (i : Instr) (o : COps) (s : State) (lim : State → Bool) (start : State → Nat → TokRef → State) :
    Host.Outcome State Fault Refusal :=
  privOp i s (fun s => match ctxArg (s.sreg o.a) with
    | none => .error undef8
    | some c =>
      let t := o.c.toNat % 8
      if !lim s then .error undef8
      else if 255 ≤ (s.grp.tok t).count then .error (.hold 4)
      else .ok (fun a => start (a.modGroup s.bkey s.gkey (fun g => g.tokUp t)) c ⟨s.bkey, s.gkey, t⟩))

/-- A context operation's token completes with a status. -/
def State.refDone (s : State) (r : TokRef) (status : Nat) (addr : W64) : State := s.tokDone r.blk r.grp r.tok status addr

/-- The status STATE of R355. -/
def stState : Nat := 6

def execCtxhalt (o : COps) (s : State) := ctxTokOp (.ctxhalt o) o s (fun _ => true) (fun a c r =>
  let p := s.blk.part
  if a.ctxIs p c .running then a.modCtx p c (fun x => { x with st := .halting, halt := [r] })
  else a.refDone r (if a.ctxIs p c .halted then 0 else stState) 0)

/-- An image's address is 64-byte aligned (R354). -/
def imgAligned (o : COps) (s : State) : Bool := (s.sreg o.b).toNat % 64 == 0

def execCtxsave (o : COps) (s : State) := ctxTokOp (.ctxsave o) o s (imgAligned o) (fun a c r =>
  let p := s.blk.part
  match a.ctx p c with
  | some x =>
    if x.st = .halted then a.modCtx p c (fun y => { y with save := y.save ++ [(s.sreg o.b, r)] })
    else a.refDone r stState 0
  | none => a.refDone r stState 0)

def execCtxload (o : COps) (s : State) := ctxTokOp (.ctxload o) o s (imgAligned o) (fun a c r =>
  let p := s.blk.part
  if (a.ctx p c).isNone ∧ (a.part p).pstate = 2 ∧ ¬ (a.part p).loads.any (fun l => l.ctx == c) then
    a.modPart p (fun x => { x with loads := x.loads ++ [⟨c, s.sreg o.b, r⟩] })
  else a.refDone r stState 0)

/-- A relayout reads a weight stream: it has read tiles of one, or its source lies in a page of tag 9 (R109). -/
def State.streams (s : State) (j : Relayout) : Bool :=
  !j.tiles.isEmpty || (match s.block j.blk with | some x => (s.isStream j x (Desc.of j.src)).2 == .inr true | none => false)

/-- The relayouts of a context on a core that get no further while it halts (R401): those that stop at a block boundary, those a
fault holds, and streams not begun that wait behind such a one (DEDUCED, notes/assumptions/27.md). -/
def State.stuckJobs (s : State) (k c : Nat) : List Nat :=
  (s.core k).rels.foldl (fun (a : List Nat) r =>
    let waits := !r.2.started && (s.core k).rels.any (fun q => a.contains q.1 && s.overlap r.2 q.2)
    if r.2.ctx == c && (r.2.heldBy.isSome || waits || !s.streams r.2) then a ++ [r.1] else a) []

/-- Work in flight that keeps a halting context from being HALTED (R400, R401): loads on their way, products in the array,
hand-offs, copies that no fault holds, weight streams that can go on. -/
def State.ctxBusy (s : State) (p c : Nat) : Bool :=
  (s.ctxBlocks p c).any (fun b =>
    (s.groupsOf b.1).any (fun g => !g.2.loads.isEmpty) ||
    s.cores.any (fun k =>
      k.2.jobs.any (fun j => j.parts.any (fun q => q.blk == b.1)) || k.2.pipe.any (fun j => j.blk == b.1) ||
      k.2.copies.any (fun j => j.2.blk == b.1 && j.2.heldBy.isNone) ||
      k.2.rels.any (fun j => j.2.blk == b.1 && !(s.stuckJobs k.1 c).contains j.1)))

/-- What engines have written for a context's groups and not handed over goes with their stores. -/
def State.handAll (s : State) (p c : Nat) : State :=
  (s.cores.filter (fun q => s.partOfDie (q.1 / 64) == p)).foldl (fun (a : State) q =>
    let org := fun (b : State) (bk gk quad : Nat) (pc part : W64) (l : List (Nat × Nat)) =>
      match b.block bk with | some x => engineOrigin gk quad x pc part l (b.seenOf bk gk) | none => .none
    let rel := fun (b : State) (n : Nat) (r : Relayout) =>
      b.engineStore r.blk r.grp c r.gone .group (some n) (org b r.blk r.grp r.quad r.pc r.partner []) (placedBytes (r.done ++ r.fresh))
    let copy := fun (b : State) (r : CopyJob) =>
      let quad := match b.group r.blk r.grp with | some g => g.quad | none => 0
      b.engineStore r.blk r.grp c false .group none (org b r.blk r.grp quad r.pc r.partner r.every) (placedBytes r.done)
    let a1 := q.2.rels.foldl (fun (b : State) r => if r.2.ctx = c then rel b r.1 r.2 else b) a
    let a2 := q.2.copies.foldl (fun (b : State) r => if r.2.ctx = c then copy b r.2 else b) a1
    a2.modCore q.1 (fun x => { x with
      rels := x.rels.map (fun r => (r.1, if r.2.ctx = c then { r.2 with done := [], fresh := [] } else r.2))
      copies := x.copies.map (fun r => (r.1, if r.2.ctx = c then { r.2 with done := [] } else r.2)) })) s

/-- Every store of a context reaches its home, those of its engines with the others (R401, R415), except one whose page is gone and
what its group stored after it: those wait. Answers whether none does. -/
def State.flushCtx (s : State) (p c : Nat) : State × Bool :=
  let all := fun (_ : StoreEnt) => true
  let s1 := (s.ctxBlocks p c).foldl (fun (a : State) b =>
    ((a.groupsOf b.1).foldl (fun (d : State) g => d.groupHome b.1 g.1 all) a).restHome b.1 all) (s.stow.handAll p c)
  let s2 := (s1.ctxGrids p c).foldl (fun (a : State) g =>
    let r := a.sendHome 0 p all g.2.rest
    r.1.modGrid g.1 (fun x => { x with rest := r.2 })) s1
  (s2, (s2.ctxBlocks p c).all (fun b => b.2.rest.isEmpty && (s2.groupsOf b.1).all (fun g => g.2.stores.isEmpty)) &&
    (s2.ctxGrids p c).all (fun g => g.2.rest.isEmpty))

/-- A weight stream starts again from its first block, its tile cache empty; the credits it has given stay given (R401). -/
def Relayout.afresh (j : Relayout) : Relayout :=
  { j with pass := 0, cursor := 0, tiles := [], slots := [], words := [], recAt := imgWord j.src 1 }

/-- A halting context is HALTED once its stores are home: TSAVE is its time, a weight stream held by a fault starts again from its
first block when it resumes, and the token completes (R400, R401, R405). -/
def execContextHaltComplete (part ctx : Nat) (s : State) : Host.Outcome State Fault Refusal :=
  match s.ctx part ctx with
  | none => .next s
  | some x =>
    if x.st = .halting ∧ !s.ctxBusy part ctx then
      let f := s.flushCtx part ctx
      if !f.2 then .next f.1
      else
      let s1 := f.1
      let again := fun (a : State) (k : Nat) (r : Nat × Relayout) =>
        if r.2.ctx = ctx ∧ r.2.heldBy.isSome ∧ s.streams r.2 then
          (a.modCore k (fun c => { c with rels := c.rels.mod r.1 Relayout.afresh })).showProg r.2 (progWord 2 0 r.2.passes.length 0 0)
        else a
      let s2 := (s1.cores.filter (fun q => s.partOfDie (q.1 / 64) == part)).foldl (fun (a : State) q =>
        q.2.rels.foldl (fun (b : State) r => again b q.1 r) a) s1
      let now := BitVec.ofNat 64 (s.ctxTime part ctx)
      let s3 := s2.modCtx part ctx (fun y => { y with st := .halted, tsave := now, halt := [] })
      .next (x.halt.foldl (fun (a : State) r => a.refDone r 0 0) s3)
    else .next s

/-- What waited on a record that was resolved while its context was HALTING or HALTED goes on (R354). -/
def State.resume (s : State) (p c : Nat) : State :=
  let free := fun (d : Nat) (h : Option Nat) => if d = c ∧ h = some 0 then none else h
  let core := fun (x : Core) => { x with
    rels := x.rels.map (fun r => (r.1, { r.2 with heldBy := free r.2.ctx r.2.heldBy }))
    copies := x.copies.map (fun r => (r.1, { r.2 with heldBy := free r.2.ctx r.2.heldBy })) }
  let s1 : State := { s with cores := s.cores.map (fun q => if s.partOfDie (q.1 / 64) = p then (q.1, core q.2) else q) }
  (s1.ctxGrids p c).foldl (fun (a : State) g => (a.freeChains g.1 0 false).pumpAll g.1) s1

/-- A group loaded stopped by a debug event writes a new record of it (R429). -/
def State.restop (s : State) (b g : Nat) : State :=
  match s.group b g with
  | none => s
  | some y =>
    match y.stop with
    | .debug 0 ev f => (match s.take ⟨b, g, f⟩ with | some t => (t.debugStop (0, 0) ev).stow | none => s)
    | _ => s

/-- `ctxrun` (R362, R411, R412, R426): the entry and the debug slot are read, TIME goes on from TSAVE, groups may issue;
those of a loaded context acquire, its launch packets join the queue, a block without groups retires. -/
def State.runCtx (s : State) (p c : Nat) : State :=
  match s.ctx p c with
  | none => s
  | some x =>
    if x.st = .halted then
      let e := s.readEntry p c
      let s1 := s.modCtx p c (fun y => { y with
        st := .running, entry := e, tofs := y.tsave - BitVec.ofNat 64 s.time, saved := false, loaded := false })
      let s2 := s1.readDebug p c
      let s3 := if x.loaded then
          let mine := fun (d : DevLaunch) => d.ctx == c
          let a := s2.modPart p (fun y => { y with devq := y.devq.filter (fun d => !mine d) ++ y.devq.filter mine })
          (a.ctxBlocks p c).foldl (fun (b : State) q =>
            let b1 := (b.groupsOf q.1).foldl (fun (d : State) g => d.restop q.1 g.1) b
            if q.2.groups.isEmpty && !q.2.retired then b1.retireBlock q.1 else b1) a
        else s2
      s3.resume p c
    else s

/-- A read of poison by a privileged instruction (R115). -/
def State.badRead (s : State) (addr : Nat) : Stop := .precise ⟨6, 0, BitVec.ofNat 64 addr, s.frag.em, false⟩

/-- What `ctxrun` reads that is poisoned, if it has an effect: the context's entry, then its debug slot. -/
def State.runReads (s : State) (p c : Nat) : Option Nat :=
  if s.ctxIs p c .halted then (if s.entryBad p c then some ((s.part p).ctxTab + 64 * c) else s.slotBad p c) else none

def execCtxrun (o : COps) (s : State) := privOp (.ctxrun o) s (fun s => match ctxArg (s.sreg o.a) with
  | none => .error undef8
  | some c => match s.runReads s.blk.part c with
    | some a => .error (s.badRead a)
    | none => .ok (fun a => a.runCtx s.blk.part c))

/-- `ctxkill` (R354, R388, R413): every grid of the context ends killed; a saved context's grids complete nowhere (DEDUCED, notes/assumptions/50.md). -/
def State.killCtx (s : State) (p c : Nat) : State :=
  match s.ctx p c with
  | none => s
  | some x =>
    if x.st = .ended then s
    else
      let refs := x.halt ++ x.save.map (·.2)
      let s1 := s.stow.modCtx p c (fun y => { y with st := .ended, halt := [], save := [] })
      let s2 := (s1.ctxGrids p c).foldl (fun (a : State) g => if a.grids.has g.1 then a.endGrid g.1 3 0 0 x.saved else a) s1
      let s2 := (s2.ctxGrids p c).foldl (fun (a : State) g => (a.freeChains g.1 0 false).pumpAll g.1) s2
      let s3 := s2.dropRecs p (fun o => o.ctx == c && !(s2.grids.any (fun g => g.2.todo.any (fun t => t.2.held == some o.num))))
      (refs.foldl (fun (a : State) r => a.refDone r stState 0) s3).reap p c

def execCtxkill (o : COps) (s : State) := privOp (.ctxkill o) s (fun s => match ctxArg (s.sreg o.a) with
  | none => .error undef8
  | some c => .ok (fun a => a.killCtx s.blk.part c))

/-! ### Translation (R356) -/

/-- Remove some TLB entries of a partition. -/
def State.dropTlb (s : State) (p : Nat) (f : TlbEnt → Bool) : State :=
  s.modPart p (fun y => { y with tlb := y.tlb.filter (fun t => !f t) })

/-- An atomic of a group of the context has passes left, which use the translations it was checked with (R224, R356). -/
def State.ctxServing (s : State) (p c : Nat) : Bool :=
  s.allGroups.any (fun q => q.2.1.part == p && s.ctxOf q.2.1 == c && q.2.2.2.serving)

def execTlbinv (o : COps) (s : State) := privOp (.tlbinv o) s (fun s =>
  let c := (s.sreg o.a).toNat
  let va := (s.sreg o.b).toNat
  if 2 ^ 16 ≤ c then .error undef8
  else if s.ctxServing s.blk.part c then .error (.hold 7)
  else .ok (fun a => a.dropTlb s.blk.part (fun t => t.ctx == c && t.at_ == va >>> lvlShift t.level)))

/-- `tlbinv.all`: at its completion the context's table entry is read again (R362). -/
def execTlbinvAll (o : COps) (s : State) := privOp (.tlbinvAll o) s (fun s =>
  let c := (s.sreg o.a).toNat
  let p := s.blk.part
  if 2 ^ 16 ≤ c then .error undef8
  else if s.ctxServing p c then .error (.hold 7)
  else if (s.ctx p c).isSome ∧ s.entryBad p c then .error (s.badRead ((s.part p).ctxTab + 64 * c))
  else .ok (fun a => (a.dropTlb p (fun t => t.ctx == c)).modCtx p c (fun x => { x with entry := a.readEntry p c })))

/-! ### Fault resolution (R357) -/

/-- The queue table's entry of a queue, as a memory key (R377). -/
def State.queueKey (s : State) (p q : Nat) : Nat := hbmKey p ((s.part p).queTab + 64 * q)

/-- A queue halts: STATUS becomes 1 (R380). -/
def State.haltQueue (s : State) (p q : Nat) : State := s.pokeBytes (s.queueKey p q + 39) [1]

/-- The outstanding record that `fltres` names (R357). -/
def State.namedRec (s : State) (v : W64) : Option Outst :=
  (s.part s.blk.part).outs.find? (fun r => r.seq == some (v.toNat % 2 ^ 16))

/-- `fltres` (R357): `act` resolves the outstanding record that carries s[A]'s SEQ (DEDUCED, notes/assumptions/63.md). REPLAY of a
debug record reads the debug slot (R426), which may be poisoned (R115). -/
def fltresOp (i : Instr) (o : COps) (n : Nat) (s : State) (act : State → Outst → State) : Host.Outcome State Fault Refusal :=
  privOp i s (fun s =>
    let bad := match s.namedRec (s.sreg o.a) with
      | some r => if n = 0 ∧ r.cls = 11 then s.slotBad s.blk.part r.ctx else none
      | none => none
    if (s.sreg o.b).toNat ≠ n then .error undef8
    else match bad with
    | some a => .error (s.badRead a)
    | none => .ok (fun a =>
      let p := s.blk.part
      match a.namedRec (s.sreg o.a) with
      | none => a
      | some r =>
        let a1 := a.modPart p (fun y => { y with outs := y.outs.filter (fun q => q.num != r.num) })
        let a2 := act a1 r
        State.flushRecs ((a2.part p).held.length) a2 p))

/-- What waits on a record goes on (R345). -/
def State.goOn (s : State) (p n : Nat) : State := (s.releaseRec p n).retryWrites n

/-- The group stopped by a record issues again. -/
def State.unstop (s : State) (r : Outst) : State :=
  s.modGroup r.blk r.grp (fun g => match g.stop with
    | .fault n => if n = r.num then { g with stop := .no } else g
    | .debug n ev f => if n = r.num then
        { g with stop := .no, frags := g.frags.mod f (fun x => { x with bpSkip := if ev.kind = 2 then some x.pc else none }) } else g
    | .no => g)

/-- The stores of a record's grid that its page keeps from their homes are discarded (R357). -/
def State.dropStores (s : State) (r : Outst) : State :=
  match r.grid with
  | none => s
  | some gk =>
    let stays := fun (e : StoreEnt) => match e.dst with
      | .mem c | .priv c => !(c == r.ctx && e.bytes.any (fun b => r.page == some (b.at_ / 65536)))
      | _ => true
    let s1 := s.stow
    let blk := fun (x : Block) => { x with
      rest := x.rest.filter stays, groups := x.groups.map (fun g => (g.1, { g.2 with stores := g.2.stores.filter stays })) }
    ({ s1 with blocks := s1.blocks.map (fun b => if b.2.grid = gk then (b.1, blk b.2) else b) } : State).modGrid gk
      (fun g => { g with rest := g.rest.filter stays })

/-- END_GRID on a record (R357): its grid ends; a scheduler's read ends the launch or leaves the queue halted; a completion
write is dropped. Accesses of other grids that wait on it go on. -/
def State.endByRecord (s : State) (p : Nat) (r : Outst) : State :=
  let s1 := match r.grid, r.queue with
    | some gk, _ =>
      if !r.sched then (s.dropStores r).endGrid gk 2 r.cls (r.seq.getD 0) false
      else (match s.grids.find gk with
        | none => s
        | some g =>
          if g.todo.any (fun t => t.2.held == some r.num) then s.freeChains gk r.num true
          else if g.open_ then s.launchError gk 5
          else s)
    | none, some q => s.haltQueue p q
    | none, none => s
  s1.goOn p r.num

/-- REPLAY: the stopped group, fragment or engine goes on, with everything that waits on the record. A watchdog's count
starts again (R347); a context's debug slot is read again (R426); a double trap's record ends the grid. -/
def execFltresReplay (o : COps) (s : State) := fltresOp (.fltresReplay o) o 0 s (fun a r =>
  let p := s.blk.part
  if r.cls = 8 then a.endByRecord p r
  else
    let a1 := (a.unstop r).goOn p r.num
    if r.cls = 9 then a1.modBlock r.blk (fun x => { x with lastIss := a1.time })
    else if r.cls = 11 then a1.readDebug p r.ctx else a1)

def execFltresEndGrid (o : COps) (s : State) := fltresOp (.fltresEndGrid o) o 1 s (fun a r => a.endByRecord s.blk.part r)

/-- END_CONTEXT: as `ctxkill` of the record's context; a completion write that waited on the record is dropped (R459). -/
def execFltresEndContext (o : COps) (s : State) := fltresOp (.fltresEndContext o) o 2 s (fun a r =>
  let p := s.blk.part
  let drop := (a.grids.filter (fun q => q.2.ctx == r.ctx && gridPart q.1 == p)).foldl (fun (b : State) q => b.freeChains q.1 r.num true) a
  ((if r.ctx = 0 then drop else (drop.dropStores r).killCtx p r.ctx).goOn p r.num))

/-! ### Decode tables and physical access (R358, R359) -/

def execDtrd (o : COps) (s : State) := issue (.dtrd o) s (fun s =>
  let v := (s.sreg o.a).toNat
  if 2 ^ 13 ≤ v then .error undef8
  else .ok ((s.setS o.d (BitVec.ofNat 64 ((s.part s.blk.part).decClass (bitAt v 12) (v % 4096)))).advance (.dtrd o)))

/-- Where a physical address of `pld` and `pst` lies: memory, or storage of a core by kind and offset. -/
inductive Phys where
  | mem (key : Nat)
  | core (c kind off : Nat)
  deriving DecidableEq, Repr

/-- A core exists in the partition: an enabled D-core site, or an L-core. -/
def State.coreExists (s : State) (p c : Nat) : Bool :=
  s.partOfDie (c / 64) == p && ((s.dSlots (c / 64)).contains (c % 64) || (decide (34 ≤ c % 64) && decide (c % 64 ≤ 37)))

/-- The bytes of a core's storage of a kind (R5, R96 to R98). -/
def kindBytes (lcore : Bool) (kind : Nat) : Nat :=
  match kind with
  | 0 => if lcore then 32 * 2 ^ 20 else 96 * 2 ^ 20
  | 1 => if lcore then 2 ^ 18 else 2 ^ 20
  | _ => if lcore then 2 ^ 19 else 2 ^ 20

/-- The address forms of R359; none where the access is a PROTECTION fault (notes/assumptions/51.md). -/
def State.physOf (s : State) (p : Nat) (v : W64) : Option Phys :=
  let a := v.toNat
  if a % 8 ≠ 0 then none
  else if ¬ bitAt a 63 then (if 2 ^ 52 ≤ a then none
      else if a + 8 ≤ s.hbmBytes p then some (.mem (hbmKey p a))
      else (Config.hostBus (s.hostPort p) a).map (fun b => .mem (hostKey (s.hostPort p) b)))
  else
    let c := coreKey (bits a 38 2) (bits a 32 6)
    let kind := bits a 30 2
    let off := bits a 0 27
    let l := decide (34 ≤ c % 64)
    if bits a 40 23 ≠ 0 ∨ bits a 27 3 ≠ 0 ∨ kind = 3 ∨ !s.coreExists p c ∨ kindBytes l kind < off + 8 ∨
        (kind = 1 ∧ l ∧ 64 ≤ off / 4 % 256) then none
    else some (.core c kind off)

/-- The block whose window lies at an offset of a core's scratchpad. -/
def State.windowAt (s : State) (c off : Nat) : Option (Nat × Block) :=
  (s.onCore c).find? (fun b => decide (b.2.winbase * 65536 ≤ off ∧ off < b.2.winbase * 65536 + b.2.winsize))

/-- The group that holds a physical block of 16 lane registers of a core, and which of its blocks that is. -/
def State.regAt (s : State) (c vb : Nat) : Option (Nat × Nat × Nat) :=
  ((s.onCore c).flatMap (fun b => (s.groupsOf b.1).filterMap (fun g =>
    (g.2.vblk.findIdx? (· == vb)).map (fun i => (b.1, g.1, i))))).head?

/-- A byte of a block's window as the issuing group's `pld` sees it: its own last store there, else what other blocks see. -/
def State.winByte (s : State) (k off : Nat) (x : Block) : Byte :=
  let own := s.grp.stores.foldl (fun (r : Option Byte) e =>
    if e.dst = .own ∧ k = s.bkey then e.bytes.foldl (fun q b => if b.at_ = off then some b.val else q) r else r) none
  match own, ownWin (s.viewOf s.bkey s.grp) k off with
  | some b, _ => b
  | none, some b => b
  | none, none => x.winPub.get off

/-- A byte of a core's storage; what no block holds is kept with the core (DESIGN CHOICE, notes/assumptions/18.md). -/
def State.coreByte (s : State) (c kind off : Nat) : Byte :=
  match kind with
  | 0 => (match s.windowAt c off with
    | some (k, x) => s.winByte k (off - x.winbase * 65536) x
    | none => (s.core c).free.get off)
  | 1 => BitVec.ofNat 8 (((s.core c).acc.get (off / 4)).toNat / 256 ^ (off % 4))
  | _ => (match s.regAt c (off / 4096) with
    | some (b, g, i) => (match s.group b g with
        | some y => BitVec.ofNat 8 ((y.vregs.get ((16 * i + off % 4096 / 256) * 64 + off / 4 % 64)).toNat / 256 ^ (off % 4))
        | none => 0)
    | none => (s.core c).free.get (2 * 2 ^ 30 + off))

/-- Write a byte of a core's storage that is no block's window. -/
def State.setCoreByte (s : State) (c kind off : Nat) (v : Byte) : State :=
  let ins := fun (x : W32) => BitVec.ofNat 32 (insBits x.toNat (8 * (off % 4)) 8 v.toNat)
  match kind with
  | 0 => s.modCore c (fun y => { y with free := y.free.set off v })
  | 1 => s.modCore c (fun y => { y with acc := y.acc.set (off / 4) (ins (y.acc.get (off / 4))) })
  | _ => (match s.regAt c (off / 4096) with
    | some (b, g, i) =>
      let k := (16 * i + off % 4096 / 256) * 64 + off / 4 % 64
      s.modGroup b g (fun y => { y with vregs := y.vregs.set k (ins (y.vregs.get k)) })
    | none => s.modCore c (fun y => { y with free := y.free.set (2 * 2 ^ 30 + off) v }))

/-- `pld`: eight bytes at a physical address, at their home, after the group's own earlier stores there. -/
def execPld (o : COps) (s : State) := issue (.pld o) s (fun s =>
  let a := s.sreg o.a
  match s.physOf s.blk.part a with
  | none => .error (.precise ⟨2, 4, a, s.frag.em, false⟩)
  | some (.mem k) =>
    if s.bad (.mem k) 8 then .error (.precise ⟨6, 0, a, s.frag.em, false⟩)
    else .ok ((s.setS o.d (BitVec.ofNat 64 (ofLe (s.seeN (.mem k) 8)))).advance (.pld o))
  | some (.core c kind off) =>
    .ok ((s.setS o.d (BitVec.ofNat 64 (ofLe ((List.range 8).map (fun i => s.coreByte c kind (off + i)))))).advance (.pld o)))

/-- `pst`: eight bytes at a physical address, written at their home. What it writes to memory, or to a block's window, reaches
others as the group's other stores there do (R290, R359). -/
def execPst (o : COps) (s : State) := issue (.pst o) s (fun s =>
  let a := s.sreg o.a
  let v := leBytes (s.sreg o.d).toNat 8
  let org := s.origin (.pst o) ((lanesOf s.frag.em).map (fun l => (l, a.toNat)))
  match s.physOf s.blk.part a with
  | none => .error (.precise ⟨2, 4, a, s.frag.em, true⟩)
  | some (.mem k) =>
    let e : StoreEnt := ⟨.phys, (seqFrom k v).map (fun q => ⟨q.1, q.1, q.2⟩), 0, .group, none, org⟩
    .ok (({ s with grp := { s.grp with stores := s.grp.stores ++ [e] } } : State).advance (.pst o))
  | some (.core c kind off) =>
    match (if kind = 0 then s.windowAt c off else none) with
    | some (b, x) => .ok ((s.store org [(.win b (off - x.winbase * 65536), 0, v)]).advance (.pst o))
    | none => .ok (((seqFrom off v).foldl (fun (b : State) q => b.setCoreByte c kind q.1 q.2) s).advance (.pst o)))

/-! ### Migration requests and interrupts (R360, R361) -/

/-- Groups of a block that wait at a `mig` continue at PC + 8 (R186). -/
def State.passMigs (s : State) (bk : Nat) : State :=
  (s.groupsOf bk).foldl (fun (a : State) g =>
    let l := (g.2.frags.filter (fun f => match f.2.st with | .mig _ => true | _ => false)).map (·.1)
    (a.modGroup bk g.1 (fun y => l.foldl (fun (z : Group) i =>
      { z with frags := z.frags.mod i (fun f => { f with st := .run, pc := f.pc + 8 }) }) y)).settleJoins bk g.1 l) s

/-- The key of the block that `migset` and `migclr` name by GRIDID and BLKID: of grids of one GRIDID, the first that has it. -/
def State.migArg (s : State) (p : Nat) (v : W64) : Nat :=
  match s.allBlocks.find? (fun b => b.2.part == p && gridId b.2.grid == v.toNat / 2 ^ 32 && b.2.blkid == v.toNat % 2 ^ 32) with
  | some b => b.1
  | none => blockKey (gridKey p (v.toNat / 2 ^ 32)) (v.toNat % 2 ^ 32)

def execMigset (o : COps) (s : State) := privOp (.migset o) s (fun s =>
  .ok (fun a => a.modBlock (s.migArg s.blk.part (s.sreg o.a)) (fun x => if x.retired then x else { x with mig := .set })))

def execMigclr (o : COps) (s : State) := privOp (.migclr o) s (fun s =>
  let bk := s.migArg s.blk.part (s.sreg o.a)
  .ok (fun a => (a.modBlock bk (fun x => { x with mig := .none })).passMigs bk))

def execEvsig (o : COps) (s : State) := privOp (.evsig o) s (fun s =>
  let v := (s.sreg o.a).toNat
  if 2 ^ 11 ≤ v then .error undef8
  else .ok (fun a => { a with irqs := a.irqs ++ [(s.blk.part, v)] }))

end Sys2Proof.Machine
end

