-- ==== Sys2Proof/Machine/Sched.lean ====
section
/-!
DEFINITION. The scheduler of a partition: doorbells and launch queues (R377 to R382, R448), kernel descriptors and ragged
lists (R311, R387, R238), placement and dispatch (R389 to R391), completion (R383), migration (R393, R394), and what else
runs by itself: the starvation guard (R48), the watchdog (R347), errors in storage (R114 to R117).
-/

namespace Sys2Proof.Machine

/-! ### Queues (R377) -/

/-- A queue table entry. -/
structure QueEnt where
  en    : Bool
  ring  : Nat
  ctx   : Nat
  prio  : Nat
  log2  : Nat
  stat  : Nat
  head  : Nat
  tail  : Nat
  tailn : Nat
  ok    : Bool
  deriving DecidableEq, Repr

/-- The entry of a queue as it stands in memory; `ok` when it keeps its stated limits. Reserved bits are ignored (R10). -/
def State.queEnt (s : State) (p q : Nat) : QueEnt :=
  let w := fun (i : Nat) => (s.mem.word (s.queueKey p q + 8 * i)).toNat
  let l := bits (w 4) 48 5
  let ring := w 3
  { en := bitAt (w 0) 0, ring := ring, ctx := bits (w 4) 0 16, prio := bits (w 4) 40 3, log2 := l, stat := bits (w 4) 56 8
    head := bits (w 5) 0 32, tail := bits (w 5) 32 32, tailn := bits (w 6) 0 8
    ok := decide (4 ≤ l) && decide (l ≤ 16) && ring % (64 * 2 ^ l) == 0 && decide (ring + 64 * 2 ^ l ≤ 2 ^ 55) && bits (w 4) 0 16 != 0 }

/-- A queue's entry lies in a poisoned sector (R115). -/
def State.queueBad (s : State) (p q : Nat) : Bool := s.poisoned (s.queueKey p q) 64

/-- A host write to a doorbell (R448): TAIL moves forward, or the write is refused with a notice. -/
def State.ring (s : State) (part queue : Nat) (v : W32) : State :=
  if 64 ≤ queue ∨ (s.part part).pstate = 0 ∨ 4 ≤ part then s
  else
    let e := s.queEnt part queue
    let fwd := (v.toNat + 2 ^ 32 - e.head) % 2 ^ 32
    let now := (e.tail + 2 ^ 32 - e.head) % 2 ^ 32
    if s.queueBad part queue then s.notice part 6 0 e.ctx 0 (BitVec.ofNat 64 (64 * queue)) false
    else if v.toNat = e.tail then s
    else if now < fwd ∧ fwd ≤ 2 ^ e.log2 then s.pokeBytes (s.queueKey part queue + 44) (leBytes v.toNat 4)
    else s.notice part 2 6 e.ctx 0 (BitVec.ofNat 64 (64 * queue)) false

def execDoorbellWrite (part queue : Nat) (v : W32) (s : State) : Host.Outcome State Fault Refusal := .next (s.ring part queue v)

/-- A queue may have a packet taken: it runs, it is not empty, nothing holds it, its context runs (R378, R400, R418) (DEDUCED, notes/assumptions/49.md). -/
def State.queueOpen (s : State) (p q : Nat) : Bool :=
  let e := s.queEnt p q
  decide (q < 64) && (s.part p).pstate == 2 && e.en && e.stat == 0 && e.head != e.tail && !(s.part p).qheld.has q && s.ctxIs p e.ctx .running

/-- HEAD passes a packet. -/
def State.takeHead (s : State) (p q : Nat) : State :=
  s.pokeBytes (s.queueKey p q + 40) (leBytes ((s.queEnt p q).head + 1) 4)

/-- A malformed packet: the queue halts, with a notice (R380). -/
def State.badPacket (s : State) (p q cls detail : Nat) (addr : Nat) : State :=
  (s.haltQueue p q).notice p cls detail (s.queEnt p q).ctx 0 (BitVec.ofNat 64 addr) false

/-- What a read of the scheduler gives. -/
inductive SRead where
  | miss
  | bad (cls detail : Nat)
  | ok (bytes : List Byte)
  deriving DecidableEq, Repr

/-- The scheduler reads bytes within one page through a context's translation (R381). -/
def State.schedRead (s : State) (p c va n : Nat) : State × SRead :=
  if 2 ^ 55 ≤ va then (s, .bad 2 4)
  else match s.xlate p (s.schedTlb p) c va .load with
    | (s1, .ok x) => (s1, if s1.poisoned x.key n then .bad 6 0 else .ok (s1.mem.read x.key n))
    | (s1, .error .miss) => (s1, .miss)
    | (s1, .error e) => (s1, .bad e.cls.1 e.cls.2)

/-- The scheduler reads bytes that may cross pages: how far it came, when it stops. -/
def State.schedReadAll (s : State) (p c : Nat) : Nat → Nat → Nat → State × Nat × SRead
  | 0, va, _ => (s, va, .ok [])
  | fuel + 1, va, n =>
    let k := Nat.min n (65536 - va % 65536)
    match s.schedRead p c va k with
    | (s1, .ok l) =>
      if n = k then (s1, va, .ok l)
      else (match s1.schedReadAll p c fuel (va + k) (n - k) with
        | (s2, a, .ok m) => (s2, a, .ok (l ++ m))
        | r => r)
    | (s1, r) => (s1, va, r)

/-- Hold a queue on a record. -/
def State.holdQueue (s : State) (p q n : Nat) : State := s.modPart p (fun y => { y with qheld := y.qheld.put q n })

/-- The packet at HEAD of a queue: read, or what its read, or that of the queue's entry, does to the queue (R115, R380, R381). -/
def State.headPacket (s : State) (p q : Nat) : State × Option (List W64) :=
  let e := s.queEnt p q
  if s.queueBad p q then (s.badPacket p q 6 0 ((s.part p).queTab + 64 * q), none)
  else if !e.ok then (s.badPacket p q 2 6 0, none)
  else
    let va := e.ring + 64 * (e.head % 2 ^ e.log2)
    match s.schedRead p e.ctx va 64 with
    | (s1, .ok b) => (s1, some (toWords b 8))
    | (s1, .bad c d) => (s1.badPacket p q c d va, none)
    | (s1, .miss) => let r := s1.schedMiss p e.ctx none (some q) va false; (r.1.holdQueue p q r.2, none)

/-! ### Launch packets (R379, R380) -/

def pkTy (w : List W64) : Nat := wbits w 0 4

/-- A LAUNCH packet is malformed by itself: a reserved field, a misaligned address. -/
def launchBad (w : List W64) : Bool :=
  wbits w 22 10 != 0 || wbits w 416 96 != 0 || wbits w 64 64 % 64 != 0 || wbits w 192 64 % 8 != 0 || wbits w 320 64 % 64 != 0

/-- The fields of a WAIT packet other than TYPE, CNTADDR and CNTVAL are zero. -/
def waitBad (w : List W64) : Bool := wbits w 4 188 != 0 || wbits w 320 192 != 0 || wbits w 192 64 % 8 != 0

/-! ### Kernel descriptors (R311, R380) -/

/-- Placing an empty block's groups on an empty core works. -/
def State.fitsEmpty (s : State) (lcore sup quadk : Bool) (n0 regblk win : Nat) : Bool :=
  (s.places lcore sup quadk [] (List.range n0) []).isSome && decide (n0 * regblk ≤ coreVblks lcore) && decide (win ≤ coreWin64 lcore)

/-! ### The loader (R44, R307) -/

/-- An entry of a state-mapping table from its word (R44): CLASS, D_IDX, L_IDX. -/
def mapEntry (w : Nat) : Nat × Nat × Nat := (bits w 28 4, bits w 20 8, bits w 12 8)

/-- A state-mapping table from its bytes (R44). None where it is not aligned, or shorter than its count. -/
def mapTable (at_ : Nat) (l : List Byte) : Option MapTable :=
  let n := ofLe ((l.drop 8).take 2)
  if at_ % 16 ≠ 0 ∨ 1024 < n ∨ l.length < 16 + 4 * n then none
  else some ⟨ofLe (l.take 4), ofLe ((l.drop 4).take 4), (List.range n).map (fun i => mapEntry (ofLe ((l.drop (16 + 4 * i)).take 4)))⟩

/-- How many registers a class has, of the lane registers those allocated: none for a reserved class (R44). -/
def classRegs (lane : Nat) (c : Nat) : Nat :=
  match c with | 0 => 64 | 1 => Nat.min 256 lane | 2 | 3 => 16 | 4 => 8 | _ => 0

/-- The loader accepts a table (R44): every index within its class, and no two entries with one destination, in either
direction. -/
def MapTable.ok (t : MapTable) (dregs lregs : Nat) : Bool :=
  let uniq := fun (l : List (Nat × Nat)) => l.eraseDups.length == l.length
  t.ents.all (fun e => decide (e.2.1 < classRegs dregs e.1 ∧ e.2.2 < classRegs lregs e.1)) &&
  uniq (t.ents.map (fun e => (e.1, e.2.1))) && uniq (t.ents.map (fun e => (e.1, e.2.2)))

/-- The loader places a code object, or rejects it (R44; DESIGN CHOICE, notes/assumptions/13.md). -/
def State.loadCode (s : State) (c : CodeObject) : State :=
  let ts := c.tables.map (fun t => mapTable t.1 t.2)
  if ts.all (fun t => match t with | some x => x.ok c.dregs c.lregs | none => false) then
    { s with images := s.images ++ [{ c.img with tables := ts.filterMap id }] }
  else s

/-! ### Descriptors against packets -/

/-- A kernel descriptor keeps the stated limits of its own fields (R40, R95, R311). -/
def kdForm (kd : List W64) : Bool :=
  decide (1 ≤ wbits kd 28 5 ∧ wbits kd 28 5 ≤ 16) && decide (wbits kd 352 16 ≤ 1536) && wbits kd 224 32 % 16 == 0 && wbits kd 5 1 == 1

/-- An entry of its window-format list names a region of the window, with a well-formed word (R101, R106). -/
def wfForm (kd : List W64) (e : Nat × Nat) : Bool := decide (e.1 < wbits kd 192 16) && fmtOk (BitVec.ofNat 16 e.2)

/-- The kernel descriptor and its packet are none of the launch errors that R380 lists (R26, R33, R34, R117, R390). -/
def State.kdOk (s : State) (g : Grid) (kd : List W64) : Bool :=
  let f := fun (lo n : Nat) => wbits kd lo n
  let n0 := f 21 7
  let nmax := f 14 7
  let clu := g.pk 4 4
  let l := g.pk 8 1 = 1
  decide (1 ≤ n0) && decide (n0 ≤ nmax) && decide (nmax ≤ (if l then 8 else 64)) &&
  (f 10 1 == 0 || (n0 % 4 == 0 && nmax % 4 == 0)) &&
  decide (1 ≤ f 36 4) && decide (f 36 4 ≤ 12) && !(f 9 1 == 1 && f 7 1 == 1) &&
  clu == f 36 4 && (if g.ragged.isSome then clu == 1 else g.nblk % clu == 0) &&
  !(f 7 1 == 1 && g.pk 9 1 == 0) && (!decide l || (f 6 1 == 1 && decide (clu ≤ 1))) &&
  s.fitsEmpty (decide l) (decide (0 < g.level)) (f 10 1 == 1) n0 (f 28 5) (f 192 16)

/-! ### Placement (R33, R34, R390) -/

/-- A block of a grid fits a core as it stands. -/
def State.fitsCore (s : State) (g : Grid) (lcore : Bool) (c : Nat) : Option (List (Nat × Nat)) :=
  match s.places lcore (decide (0 < g.level)) (g.kdb 10 1 == 1) (s.shut c 0 lcore (g.kdb 11 1 == 1)) (List.range (g.kdb 21 7))
      (s.slotsTaken c) with
  | none => none
  | some l =>
    let need := g.kdb 21 7 * g.kdb 28 5
    if (s.freeVblks c lcore need).length = need && (s.winBase c lcore (g.kdb 192 16)).isSome then some l else none

/-- The runs of cores that a cluster of n blocks may take, in order of choice: contiguous D-core numbers of one die (R34, R390), or one
L-core, from the one at which the search begins (DESIGN CHOICE, notes/assumptions/80.md). -/
def State.sites (s : State) (p : Nat) (lcore : Bool) (n : Nat) : List (List Nat) :=
  if lcore then
    let l := (s.diesOf p).flatMap (fun d => (List.range 4).map (fun i => [coreKey d (34 + i)]))
    let k := (s.part p).lfirst % Nat.max 1 l.length
    l.drop k ++ l.take k
  else (s.diesOf p).flatMap (fun d =>
    let l := (s.dSlots d).map (coreKey d)
    (List.range (l.length + 1 - n)).map (fun i => (l.drop i).take n))

/-- The record of a ragged list that yields a block, and its tile (R238). -/
def raggedAt : List Ragged → Nat → Nat → Option (Nat × Nat × Ragged)
  | [], _, _ => none
  | r :: rest, q, b => if b < cdiv r.rows 64 then some (q, b, r) else raggedAt rest (q + 1) (b - cdiv r.rows 64)

/-- The accumulators of some quadrants of a core are zeroed (R97, R117). -/
def State.clearAcc (s : State) (core : Nat) (quads : List Nat) : State :=
  s.modCore core (fun c => { c with acc := c.acc.filter (fun e => !quads.contains (e.1 / 0x4000 / 4)) })

/-- A block starts on a core (R27, R31, R32, R96, R106, R238). One that is launched again finds its windows zero, accumulators with
them (R117); the grid counts it once (R383). -/
def State.startBlock (s : State) (gk : Nat) (g : Grid) (blkid cluidx core : Nat) : State :=
  let lcore := g.pk 8 1 == 1
  match s.fitsCore g lcore core with
  | none => s
  | some pls =>
    let bk := blockKey gk blkid
    let n0 := g.kdb 21 7
    let tile := match g.list with | some l => raggedAt l 0 blkid | none => none
    let runs := match g.runs.find blkid with | some r => r + 1 | none => 1
    let legacy := g.kdb 8 1 == 1
    let arg : W64 := match tile with | some (_, _, r) => r.arg | none => g.packet.getD 2 0
    let x : Block := { Block.reset with
      part := gridPart gk, grid := gk, blkid := blkid, core := core, lcore := lcore, cluidx := cluidx, clusize := g.pk 4 4
      n0 := n0, nmax := g.kdb 14 7, regblk := g.kdb 28 5, legacy := legacy, quadk := g.kdb 10 1 == 1, acc := g.kdb 11 1 == 1
      priv := g.kdb 224 32, winbase := (s.winBase core lcore (g.kdb 192 16)).getD 0, winsize := g.kdb 192 16 * 65536
      winfmt := SMap.setAll [] (g.wf.map (fun e => (e.1, BitVec.ofNat 16 e.2)))
      bars := List.replicate 16 { Barrier.reset with m := n0 }, runs := runs, argbase := arg, lastIss := s.time }
    let s0 := if x.acc && decide (1 < runs) then s.clearAcc core (pls.map (·.1)) else s
    let s1 := ({ s0 with blocks := s0.blocks.put bk x } : State).modGrid gk (fun y => { y with ran := y.ran + (if runs = 1 then 1 else 0) })
    let (em, args) : W64 × List (Nat × W64) := match tile with
      | some (q, t, r) =>
        let n := Nat.min 64 (r.rows - 64 * t)
        (BitVec.ofNat 64 (2 ^ n - 1), [(1, BitVec.ofNat 64 q), (2, BitVec.ofNat 64 t), (3, BitVec.ofNat 64 n)])
      | none => (BitVec.ofNat 64 (2 ^ 64 - 1), [])
    let em1 := if legacy then em &&& 0xFFFFFFFF#64 else em
    let im := s.codeOf x
    (pls.zip (List.range n0)).foldl (fun (a : State) q =>
      a.addGroup bk q.2 q.1 g.level (BitVec.ofNat 2 (g.kdb 12 2)) (g.entry im lcore) (g.handler im lcore) em1 args []) s1

/-- A cluster starts: its barriers, then its blocks on the cores given. -/
def State.startCluster (s : State) (gk : Nat) (g : Grid) (ids cores : List Nat) : State :=
  let n := ids.length
  let clu := if g.pk 4 4 = 0 then 1 else g.pk 4 4
  let s1 := s.modGrid gk (fun y => { y with cbs := y.cbs.put (ids.headD 0 / clu) (List.replicate 8 { Barrier.reset with m := n }) })
  ((ids.zip cores).zip (List.range n)).foldl (fun (a : State) q => a.startBlock gk g q.1.1 q.2 q.1.2) s1

/-- The blocks a grid would start next: a killed cluster's, else the next cluster's (R117, R389). -/
def Grid.nextIds (g : Grid) : List Nat :=
  let n := if g.pk 4 4 = 0 then 1 else g.pk 4 4
  if g.again.isEmpty then (if g.next < g.nblk then (List.range n).map (g.next + ·) else []) else g.again.take n

/-- Those blocks are started: they are no longer to start. -/
def State.started (s : State) (gk : Nat) (ids : List Nat) : State :=
  s.modGrid gk (fun g => if g.again.isEmpty then { g with next := g.next + ids.length } else { g with again := g.again.drop ids.length })

/-- Start a grid's next cluster where it fits; none when it fits nowhere. -/
def State.placeNext (s : State) (gk : Nat) (g : Grid) : Option State :=
  let ids := g.nextIds
  let l := g.pk 8 1 == 1
  if ids.isEmpty then none
  else match (s.sites (gridPart gk) l ids.length).find? (fun cs => cs.all (fun c => (s.fitsCore g l c).isSome)) with
    | none => none
    | some cs => some ((s.startCluster gk g ids cs).started gk ids)

/-- Start every block of a grid at once; none when they do not all fit (R391). -/
def State.placeAll : Nat → State → Nat → Option State
  | 0, s, _ => some s
  | n + 1, s, gk =>
    match s.grids.find gk with
    | none => some s
    | some g =>
      if g.nextIds.isEmpty then some s
      else match s.placeNext gk g with
        | none => none
        | some t => State.placeAll n t gk

/-- A co-resident grid fits the partition's enabled cores when they are empty (R380). -/
def State.coResidentFits (s : State) (gk : Nat) (g : Grid) : Bool :=
  let bare := { s with blocks := [], grids := [(gk, { g with next := 0, again := [] })] }
  (State.placeAll (g.nblk + 1) bare gk).isSome

/-! ### Reading a grid's descriptor and list (R381, R387) -/

/-- Window-format entries from bytes (R311). -/
def wfEntries : List Byte → Nat → List (Nat × Nat)
  | _, 0 => []
  | l, n + 1 => let e := ofLe (l.take 4); (e / 65536, e % 65536) :: wfEntries (l.drop 4) n

/-- A read that cannot be replayed ends the grid with a launch error, and writes a notice (R381). -/
def State.readFails (s : State) (gk : Nat) (g : Grid) (va cls detail lerr : Nat) : State :=
  (s.notice (gridPart gk) cls detail g.ctx gk (BitVec.ofNat 64 va) false).launchError gk lerr

/-- A read that misses waits on a record naming the grid, and holds the grid's queue (R378, R381). -/
def State.readWaits (s : State) (gk : Nat) (g : Grid) (va : Nat) : State :=
  let p := gridPart gk
  let r := s.schedMiss p g.ctx (some gk) g.queue va false
  r.1.modPart p (fun y => { y with qheld := y.qheld.put (match g.queue with | some q => q | none => 64 + gk) r.2 })

/-- A read for this grid still waits on a record. -/
def State.gridHeld (s : State) (gk : Nat) (g : Grid) : Bool :=
  (s.part (gridPart gk)).qheld.has (match g.queue with | some q => q | none => 64 + gk)

/-- The kernel descriptor of a grid and its window-format list are read and checked (R311, R380, R381): one that breaks a stated limit is
a malformed system structure (R13; DEDUCED, notes/assumptions/78.md). -/
def State.readKd (s : State) (gk : Nat) : State :=
  match s.grids.find gk with
  | none => s
  | some g =>
    let p := gridPart gk
    let a := g.pk 64 64
    match s.schedRead p g.ctx a 64 with
    | (s1, .miss) => s1.readWaits gk g a
    | (s1, .bad c d) => s1.readFails gk g a c d 1
    | (s1, .ok b) =>
      let kd := toWords b 8
      let n := wbits kd 352 16
      let wa := a + wbits kd 320 32
      if !kdForm kd then s1.readFails gk g a 2 6 1
      else match s1.schedReadAll p g.ctx (if n = 0 then 0 else 6) wa (4 * n) with
      | (s2, va, .miss) => s2.readWaits gk g va
      | (s2, va, .bad c d) => s2.readFails gk g va c d 1
      | (s2, _, .ok wb) =>
        let wf := wfEntries wb (wb.length / 4)
        let s3 := s2.modGrid gk (fun y => { y with kd := kd, kdRead := true, wf := wf, gbs := if y.next = 0 then List.replicate 4 { Barrier.reset with m := y.nblk } else y.gbs })
        let g3 := { g with kd := kd, wf := wf }
        if !wf.all (wfForm kd) then s2.readFails gk g a 2 6 1
        else if !s.kdOk g kd then s3.launchError gk 1
        else if g.pk 9 1 = 1 ∧ g.ragged.isNone ∧ !s3.coResidentFits gk g3 then s3.launchError gk 2
        else s3

/-- The records of a ragged list. -/
def raggedOf : List Byte → Nat → List Ragged
  | _, 0 => []
  | l, n + 1 => ⟨BitVec.ofNat 64 (ofLe ((l.drop 8).take 8)), ofLe (l.take 4)⟩ :: raggedOf (l.drop 16) n

/-- A `launch.r` list is read once, whole (R238, R387). -/
def State.readList (s : State) (gk : Nat) : State :=
  match s.grids.find gk with
  | none => s
  | some g =>
    let p := gridPart gk
    let a := match g.ragged with | some v => v.toNat | none => 0
    match s.schedRead p g.ctx a 16 with
    | (s1, .miss) => s1.readWaits gk g a
    | (s1, .bad c d) => s1.readFails gk g a c d 3
    | (s1, .ok h) =>
      let n := ofLe (h.take 4)
      if 1048576 < n ∨ ofLe (h.drop 4) ≠ 0 then s1.launchError gk 3
      else match s1.schedReadAll p g.ctx (if n = 0 then 0 else 300) (a + 16) (16 * n) with
        | (s2, va, .miss) => s2.readWaits gk g va
        | (s2, va, .bad c d) => s2.readFails gk g va c d 3
        | (s2, _, .ok b) =>
          let l := raggedOf b n
          let nb := (l.map (fun r => cdiv r.rows 64)).foldl (· + ·) 0
          let s3 := s2.modGrid gk (fun y => { y with list := some l, nblk := nb, gbs := if y.next = 0 then List.replicate 4 { Barrier.reset with m := nb } else y.gbs })
          if g.pk 9 1 = 1 ∧ !s3.coResidentFits gk { g with list := some l, nblk := nb } then s3.launchError gk 2 else s3

/-- A grid whose descriptor is still to be read. -/
def Grid.unread (g : Grid) : Bool := g.open_ && !g.kdRead && g.lerr == 0

/-! ### The packets' events -/

/-- A packet of a host queue: the descriptor of the last launch first, then the next packet, if its TYPE is one of those
asked for. -/
def State.takePacket (s : State) (p q : Nat) (tys : Nat → Bool) (f : State → List W64 → State) : State :=
  match s.grids.find? (fun g => gridPart g.1 == p && g.2.queue == some q && g.2.unread) with
  | some _ => s
  | none =>
    if !s.queueOpen p q then s
    else match s.headPacket p q with
      | (s1, none) => s1
      | (s1, some w) => if tys (pkTy w) then f s1 w else s

/-- The address of the packet at HEAD. -/
def QueEnt.at_ (e : QueEnt) : Nat := e.ring + 64 * (e.head % 2 ^ e.log2)

/-- A host LAUNCH packet creates its grid, and is taken (R378, R379); its kernel descriptor is then read. -/
def State.hostLaunch (s : State) (p q : Nat) (w : List W64) : State :=
  let e := s.queEnt p q
  if pkTy w ≠ 1 ∨ launchBad w ∨ wbits w 32 32 = 0 then s.badPacket p q 2 6 e.at_
  else
    let r := s.createGrid p (newGrid e.ctx (some q) w 1 0 e.prio false s.stamp none 0 0)
    (r.1.takeHead p q).readKd r.2

/-- The device launch queue is held: a descriptor or list of a grid it launched waits on a record (R378, R381) (DEDUCED,
notes/assumptions/49.md). -/
def State.devHeld (s : State) (p : Nat) : Bool :=
  s.grids.any (fun g => gridPart g.1 == p && g.2.queue.isNone && s.gridHeld g.1 g.2)

/-- A packet has joined the device launch queue: one of a loaded context does so at its `ctxrun` (R412). -/
def State.joined (s : State) (p : Nat) (d : DevLaunch) : Bool := match s.ctx p d.ctx with | some x => !x.loaded | none => true

/-- The first packet of the device launch queue (R237, R378, R380, R386), in a partition in service (R418). -/
def State.deviceLaunch (s : State) (p : Nat) : State :=
  if (s.part p).pstate ≠ 2 ∨ s.devHeld p then s
  else match (s.part p).devq.find? (s.joined p) with
  | none => s
  | some d =>
    let w := d.packet
    let s1 := s.modPart p (fun y => { y with devq := y.devq.erase d })
    let r := s1.createGrid p (newGrid d.ctx none w d.depth (gridId d.grid) d.prio true s.stamp d.ragged 0 d.level)
    if pkTy w ≠ 1 then r.1.launchError r.2 4
    else if launchBad w ∨ wbits w 10 1 = 1 ∨ (d.ragged.isNone ∧ wbits w 32 32 = 0) then r.1.launchError r.2 6
    else r.1.readKd r.2

/-- LAUNCH_PACKET: queue 64 is the device launch queue. A descriptor whose read waited is read again first (R381). -/
def execLaunchPacket (part queue : Nat) (s : State) : Host.Outcome State Fault Refusal :=
  let s0 := s.stow
  match s0.grids.find? (fun g => gridPart g.1 == part && (match g.2.queue with | some q => q == queue | none => queue == 64) &&
      g.2.unread && !s0.gridHeld g.1 g.2 && s0.ctxIs part g.2.ctx .running) with
  | some g => .next (s0.readKd g.1)
  | none =>
    if queue = 64 then .next (s0.deviceLaunch part)
    else .next (s0.takePacket part queue (fun t => t == 1 || decide (3 ≤ t)) (fun a w => a.hostLaunch part queue w))

/-- The test of a WAIT packet (R382): the counter read, and the packet taken when it holds. -/
def State.tryWait (s : State) (p q : Nat) : State :=
  s.takePacket p q (· == 2) (fun a w =>
    let e := a.queEnt p q
    let va := wbits w 192 64
    if waitBad w then a.badPacket p q 2 6 e.at_
    else match a.schedRead p e.ctx va 8 with
      | (s1, .miss) => let r := s1.schedMiss p e.ctx none (some q) va false; r.1.holdQueue p q r.2
      | (s1, .bad c d) => s1.badPacket p q c d va
      | (s1, .ok b) => if wbits w 256 64 ≤ ofLe b then s1.takeHead p q else s1)

def execWaitPacket (part queue : Nat) (s : State) : Host.Outcome State Fault Refusal := .next (s.stow.tryWait part queue)

def execWaitCounterRecheck (part queue : Nat) (s : State) : Host.Outcome State Fault Refusal := .next (s.stow.tryWait part queue)

def execNopPacket (part queue : Nat) (s : State) : Host.Outcome State Fault Refusal :=
  .next (s.stow.takePacket part queue (· == 0) (fun a w =>
    if wordsNat w ≠ 0 then a.badPacket part queue 2 6 (a.queEnt part queue).at_ else a.takeHead part queue))

/-! ### Dispatch (R389 to R391) -/

/-- A grid with blocks to start, or with a list to read. -/
def Grid.waitsDispatch (g : Grid) : Bool :=
  g.open_ && g.kdRead && ((g.ragged.isSome && g.list.isNone) || !g.again.isEmpty || decide (g.next < g.nblk))

/-- The rank of R389 and R117: less is earlier. -/
def Grid.before (a b : Grid) : Bool :=
  let k := fun (g : Grid) => ((7 - g.prio) * 4 + (if !g.again.isEmpty then 0 else if g.device then 1 else 2)) * 2 ^ 64 + g.born
  decide (k a ≤ k b)

/-- Insert by rank. -/
def insertRank (g : Nat × Grid) : List (Nat × Grid) → List (Nat × Grid)
  | [] => [g]
  | h :: t => if g.2.before h.2 then g :: h :: t else h :: insertRank g t

/-- Offer the partition's cores down the ranking: one cluster starts, or a co-resident grid whole; a co-resident grid that
does not fit keeps every lower one waiting (R391). -/
def State.offer (s : State) : List (Nat × Grid) → State
  | [] => s
  | g :: rest =>
    if g.2.ragged.isSome ∧ g.2.list.isNone then (if s.gridHeld g.1 g.2 then s.offer rest else s.readList g.1)
    else if g.2.pk 9 1 = 1 then
      (match State.placeAll (g.2.nblk + 1) s g.1 with
       | some t => t
       | none => s)
    else match s.placeNext g.1 g.2 with
      | some t => t
      | none => s.offer rest

/-- The dispatcher's ranking of a partition. -/
def State.ranked (s : State) (p : Nat) : List (Nat × Grid) :=
  (s.grids.filter (fun g => gridPart g.1 == p && g.2.waitsDispatch && s.ctxIs p g.2.ctx .running)).foldl (fun l g => insertRank g l) []

def execBlockDispatch (part : Nat) (s : State) : Host.Outcome State Fault Refusal := .next (s.stow.offer (s.stow.ranked part))

/-- A grid whose blocks and children have retired completes (R37, R383). -/
def execGridCompletion (grid : Nat) (s : State) : Host.Outcome State Fault Refusal :=
  let s0 := s.stow
  match s0.grids.find grid with
  | none => .next s
  | some g => if s0.gridDone grid && !s0.ctxIs (gridPart grid) g.ctx .halted then .next (s0.completeGrid grid) else .next s

/-! ### Migration (R45, R300, R393, R394) -/

/-- The only fragment of a group waits at a `mig`. -/
def Group.atMig (g : Group) : Bool := g.frags.all (fun f => match f.2.st with | .mig _ => true | _ => false)

/-- An operation of a block is still outstanding (R45). -/
def State.blockBusy (s : State) (bk : Nat) : Bool :=
  (s.groupsOf bk).any (fun g => g.2.waits 0xFF || !g.2.loads.isEmpty) ||
  s.cores.any (fun k => k.2.jobs.any (fun j => j.parts.any (fun q => q.blk == bk)) || k.2.pipe.any (fun j => j.blk == bk) ||
    k.2.rels.any (fun j => j.2.blk == bk) || k.2.copies.any (fun j => j.2.blk == bk))

/-- A group's live state in the other variant (R44, R45): what an entry names crosses, other registers read zero. The group keeps
its age, `since`, on its new core (R42; DESIGN CHOICE, notes/assumptions/16.md). -/
def Group.migrate (g : Group) (t : MapTable) (toL : Bool) (im : Image) (vblk : List Nat) (pl : Nat × Nat) : Group :=
  let src := fun (e : Nat × Nat × Nat) => if toL then e.2.1 else e.2.2
  let dst := fun (e : Nat × Nat × Nat) => if toL then e.2.2 else e.2.1
  let of := fun (c : Nat) => t.ents.filter (fun e => e.1 == c)
  let tok := fun (k : Nat) => match (of 4).find? (fun e => src e == k) with | some e => dst e | none => 8
  let pc := if toL then im.ltext + BitVec.ofNat 64 t.loff else im.dtext + BitVec.ofNat 64 t.doff
  { g with
    quad := pl.1, slot := pl.2, vblk := vblk
    sregs := SMap.setAll [] ((of 0).map (fun e => (dst e, g.sregs.get (src e))))
    vregs := SMap.setAll [] ((of 1).flatMap (fun e => (List.range 64).map (fun l => (dst e * 64 + l, g.vregs.get (src e * 64 + l)))))
    kregs := SMap.setAll [] ((of 2).map (fun e => (dst e, g.kregs.get (src e))))
    tregs := SMap.setAll [] ((of 3).flatMap (fun e => (List.range 64).map (fun l => (dst e * 64 + l, g.tregs.get (src e * 64 + l)))))
    toks := (List.range 8).map (fun i => match (of 4).find? (fun e => dst e == i) with | some e => g.tok (src e) | none => .reset)
    stores := g.stores.map (fun e => { e with maker := match e.maker with | .token k a => .token (tok k) a | m => m })
    waitAt := (of 4).filterMap (fun e => (g.waitAt.find (src e)).map (fun w => (dst e, w)))
    trap := { TrapRegs.reset with hdl := g.trap.hdl }
    joins := []
    frags := g.frags.map (fun f => (f.1, { f.2 with pc := pc, st := .run, joins := [], moved := true })) }

/-- The table of the point at which a group waits. -/
def State.pointOf (s : State) (x : Block) (g : Group) : Option MapTable :=
  match s.imageOf x, g.frags with
  | some im, f :: _ => im.tables.find? (fun t =>
      (if x.lcore then im.ltext + BitVec.ofNat 64 t.loff else im.dtext + BitVec.ofNat 64 t.doff) == f.2.pc)
  | _, _ => none

/-- A block moves to a core of the other kind. -/
def State.moveBlock (s : State) (bk : Nat) (x : Block) (im : Image) (core : Nat) : State :=
  let l := !x.lcore
  match s.places l false x.quadk (s.shut core 0 l x.acc) (x.groups.map (·.1)) (s.slotsTaken core) with
  | none => s
  | some pls =>
    let s1 := (x.groups.foldl (fun (a : State) g => a.publishAt bk g.1 3) s).bringHome (fun k _ _ _ => k == bk)
    let base := (s1.winBase core l (x.winsize / 65536)).getD 0
    let groups := match s1.block bk with | some y => y.groups | none => []
    let step := fun (a : List Nat × KL Group) (q : (Nat × Group) × (Nat × Nat)) =>
      let g := q.1.2
      let v := ((List.range (coreVblks l)).filter (fun i => !(s1.vblksTaken core).contains i && !a.1.contains i)).take g.vblk.length
      let y := match s1.pointOf x g with | some t => g.migrate t l im v q.2 | none => g
      (a.1 ++ v, a.2 ++ [(q.1.1, y)])
    let r := (groups.zip pls).foldl step ([], [])
    (s1.modBlock bk (fun y => { y with lcore := l, core := core, winbase := base, mig := .none, groups := r.2 }))

/-- When every group waits at a `mig` or has left and nothing is outstanding, the block moves to the first core of the other
kind that it fits; with none, a `mig.req` is declined (R45, R393). -/
def execBlockMigration (blk : Nat) (s : State) : Host.Outcome State Fault Refusal :=
  let s0 := s.stow
  match s0.blocks.find blk with
  | none => .next s
  | some x =>
    if x.groups.isEmpty ∨ !x.groups.all (fun g => g.2.atMig && g.2.stop == .no) ∨ s0.blockBusy blk ∨ !s0.ctxIs x.part (s0.ctxOf x) .running then .next s
    else match (s0.targets x).find? (fun c => s0.fitsOther x x.groups c), s0.imageOf x with
      | some c, some im => .next (s0.moveBlock blk x im c)
      | _, _ => if x.mig = .none then .next (s0.passMigs blk) else .next s

/-- A fragment waits elsewhere than at a `mig` (R393). -/
def Fragment.waitsElse (f : Fragment) : Bool :=
  match f.st with | .barrier _ _ | .rendezvous _ _ _ _ | .parked _ | .vgrow _ _ _ | .waitY _ _ | .sleep _ | .pass => true | _ => false

/-- A pending migration is withdrawn when groups wait both at a `mig` and elsewhere (R393). -/
def execMigrationWithdrawal (blk : Nat) (s : State) : Host.Outcome State Fault Refusal :=
  let s0 := s.stow
  match s0.blocks.find blk with
  | none => .next s
  | some x =>
    let mig := fun (g : Nat × Group) => !g.2.frags.isEmpty && g.2.atMig
    let els := fun (g : Nat × Group) => !g.2.frags.isEmpty && g.2.frags.all (fun f => f.2.waitsElse)
    if x.groups.all (fun g => mig g || els g) && x.groups.any mig && x.groups.any els then
      .next ((s0.modBlock blk (fun y => { y with mig := .none })).passMigs blk)
    else .next s

/-- The tail policy (R394). -/
def execTailPolicy (grid : Nat) (s : State) : Host.Outcome State Fault Refusal :=
  let s0 := s.stow
  match s0.grids.find grid with
  | none => .next s
  | some g =>
    match g.queue with
    | none => .next s
    | some q =>
      let n := if s0.queueBad (gridPart grid) q then 0 else (s0.queEnt (gridPart grid) q).tailn
      let mine := s0.blocks.filter (fun b => b.2.grid == grid && !b.2.retired)
      if n ≠ 0 ∧ g.kdRead ∧ g.pk 8 1 = 0 ∧ g.kdb 6 1 = 1 ∧ g.next = g.nblk ∧ g.again.isEmpty ∧ mine.length ≤ n then
        .next ((mine.filter (fun b => b.2.mig == .none && !b.2.lcore && s0.migratable b.1 b.2)).foldl (fun (a : State) b =>
          a.modBlock b.1 (fun y => { y with mig := .tail })) s0)
      else .next s

/-! ### The starvation guard and the watchdog -/

/-- A group whose count has reached 64 is raised (R48, R397). -/
def execStarvationGuard (who : GroupRef) (s : State) : Host.Outcome State Fault Refusal :=
  .next (s.modGroup who.blk who.grp (fun g => if 64 ≤ g.starve then { g with raised := true } else g))

/-- A block is exempt from the watchdog's count (R347). -/
def State.wdogExempt (s : State) (bk : Nat) (x : Block) : Bool :=
  x.retired || (s.groupsOf bk).isEmpty || (s.groupsOf bk).any (fun g => g.2.stop != .no || g.2.inTrap) ||
  !s.ctxIs x.part (s.ctxOf x) .running

/-- A block none of whose groups has issued for the period raises WATCHDOG, which stops its oldest group (R347) (DEDUCED, notes/assumptions/52.md). -/
def execWatchdog (blk : Nat) (s : State) : Host.Outcome State Fault Refusal :=
  let s0 := s.stow
  match s0.blocks.find blk with
  | none => .next s
  | some x =>
    let w := (s0.part x.part).wdog.toNat
    if w = 0 ∨ s0.wdogExempt blk x ∨ s0.time < x.lastIss + w * 1000000 then .next s
    else
      let old := x.groups.foldl (fun (b : Option (Nat × Group)) g => match b with
        | none => some g
        | some y => if g.2.since < y.2.since then some g else b) none
      match old with
      | some (gk, g) =>
        (match g.frags with
         | f :: _ =>
           (match s0.take ⟨blk, gk, f.1⟩ with
            | some t => .next (t.precise (0, 0) ⟨9, 0, 0, t.frag.em, false⟩).stow
            | none => .next s)
         | [] => .next s)
      | none => .next s

/-! ### Errors in storage (R114 to R117) -/

def execBlockKill (blk : Nat) (s : State) : Host.Outcome State Fault Refusal :=
  match s.stow.blocks.find blk with
  | none => .next s
  | some _ => .next (s.stow.killBlock blk)

/-- An uncorrectable error: a clean line is fetched again, a dirty line's or HBM's sector is poisoned, a resident block is
killed, free storage only counts. -/
def execUncorrectableError (site : ErrSite) (s : State) : Host.Outcome State Fault Refusal :=
  let s1 := { s with husk := { s.husk with uncErr := s.husk.uncErr + 1 } }
  let poison := fun (a : Nat) => { s1 with poison := if s1.poison.contains (a / 32) then s1.poison else s1.poison ++ [a / 32] }
  match site with
  | .cleanLine _ => .next s1
  | .dirtyLine a => .next (poison a)
  | .hbm a => .next (poison a)
  | .onchip b => .next (s1.stow.killBlock b)
  | .free _ => .next s1

/-- The patrol scrubber repairs a corrected error in place, and counts it. -/
def execPatrolScrub (_site : ErrSite) (s : State) : Host.Outcome State Fault Refusal :=
  .next { s with husk := { s.husk with corrErr := s.husk.corrErr + 1 } }

end Sys2Proof.Machine
end

