-- ==== Sys2Proof/Machine/Capture.lean ====
section
/-!
DEFINITION. Writing and placing a context's image (R404 to R413). Where R407 and R408 name a field's contents and not its
bits, the packing is the model's (DESIGN CHOICE, notes/assumptions/17.md).
-/

namespace Sys2Proof.Machine

/-! ### Records (R405, R406) -/

def zeros (n : Nat) : List Byte := List.replicate n 0

/-- A record: its prefix, its body from 0x010, zeros up to a multiple of 64 bytes. -/
def imgRec (ty grid blk grp : Nat) (body : List Byte) : List Byte :=
  let n := cdiv (16 + body.length) 64 * 64
  wordsLe (packWords 2 [(ty, 0), (grp, 8), (n, 32), (blk, 64), (grid % 2 ^ 32, 96)]) ++ body ++ zeros (n - 16 - body.length)

/-- Bytes of some 32-bit numbers. -/
def words32 (l : List Nat) : List Byte := l.flatMap (fun x => leBytes x 4)

/-! ### What each record holds (R407, R408) -/

/-- A grid's header as it stands, its resident blocks' starts counted (R383, R407). -/
def State.headerNow (s : State) (gk : Nat) (g : Grid) : List W64 :=
  ((s.allBlocks.filter (fun b => b.2.grid == gk)).foldl (fun (a : Grid) b => a.begun b.2.tstart) g).header gk s.time

/-- GRID, from 0x010. -/
def State.gridBody (s : State) (gk : Nat) (g : Grid) : List Byte :=
  let kids := (s.grids.filter (fun q => g.parentOf gk q.1 q.2)).length +
    ((s.part (gridPart gk)).devq.filter (fun d => d.grid == gk)).length
  wordsLe ((List.range 8).map (fun i => g.packet.getD i 0)) ++ wordsLe (s.headerNow gk g) ++
  words32 [g.next, g.retired] ++ leBytes kids 8 ++
  (List.range 4).flatMap (fun i => let b := g.gbs.getD i .reset; words32 [b.m, b.a, b.phase, 0]) ++
  wordsLe [g.ragged.getD 0, BitVec.ofNat 64 (match g.list with | some l => l.length | none => 0), BitVec.ofNat 64 g.next,
    BitVec.ofNat 64 g.prio] ++
  g.again.flatMap (fun b => words32 [b, (g.runs.find b).getD 1])

def barBytes (b : Barrier) : List Byte := words32 [b.m % 2 ^ 16 + b.a % 2 ^ 16 * 2 ^ 16, b.phase, b.c, b.x]

/-- A mask slot: the image in bytes 0 to 239, Lq, Lk, the descriptor's copy. -/
def maskBytes : Option MaskSlot → List Byte
  | none => zeros 768
  | some m => m.prog.take 240 ++ zeros (240 - m.prog.length) ++ wordsLe [m.lq, m.lk] ++ wordsLe ((List.range 64).map (fun i => m.doc.getD i 0))

/-- BLOCK, from 0x010: between the format words and the window, its TSTART, PRIV and ARGBASE. -/
def State.blockBody (s : State) (x : Block) : List Byte :=
  let par := match s.dNumber x.core with | some n => n % 2 | none => 0
  let w0 := packWords 1 [(x.cluidx, 0), (x.clusize, 8), (x.n0, 16), (x.nmax, 24), (x.runs, 32), (b2n x.lcore, 36), (x.core / 64, 37),
    (par, 39), (x.regblk, 40), (b2n x.legacy, 45), (b2n x.quadk, 46), (b2n x.acc, 47),
    ((match x.mig with | .none => 0 | .set => 1 | .tail => 2), 48), (x.nfm % 256, 50), (b2n x.retired, 58)]
  let live := x.groups.foldl (fun a g => a + 2 ^ g.1) 0
  let cbs := match s.grids.find x.grid with | some g => (g.cbs.find x.cluster).getD [] | none => []
  wordsLe w0 ++ leBytes live 8 ++ (List.range 16).flatMap (fun i => barBytes (x.bars.getD i .reset)) ++
  (List.range 8).flatMap (fun i => if x.cluidx = 0 then barBytes (cbs.getD i .reset) else zeros 16) ++
  words32 [x.nEmpty, x.nFull, x.nPart, 0] ++ (List.range 4).flatMap (fun i => maskBytes (x.masks.getD i none)) ++
  (List.range 1536).flatMap (fun i => leBytes (x.winfmt.get i).toNat 2) ++
  wordsLe [BitVec.ofNat 64 (match x.tstart with | some t => t + 1 | none => 0), BitVec.ofNat 64 x.priv, x.argbase] ++ zeros 0x38 ++
  (List.range x.winsize).map (fun i => x.window.get i)

/-- How many requests of the context's groups are older than one made at `t` (R401). -/
def State.vRank (s : State) (bs : List (Nat × Block)) (t : Nat) : Nat :=
  (bs.flatMap (fun b => (s.groupsOf b.1).flatMap (fun g => g.2.frags.filter (fun f => match f.2.st with
    | .vgrow _ _ u => decide (u < t) | _ => false)))).length

/-- What a fragment waits for: a reason of three bits, and its data. -/
def State.waitCode (s : State) (bs : List (Nat × Block)) (f : Fragment) : Nat × Nat :=
  match f.st with
  | .parked r => (2, r)
  | .barrier b _ => (3, b)
  | .vgrow n d t => (4, n + d * 16 + s.vRank bs t * 1024)
  | .sleep w => (5, w)
  | .waitY m c => (6, m.toNat + c.toNat / 8 * 256)
  | .mig r => (7, b2n r)
  | _ => (1, 0)

/-- A fragment's four words: PC, em, references and flags, the wait word (R401, R429). The fragment that a debug event
stopped has the event in its wait word and its own wait, cut to 20 bits, beside the flags. -/
def State.fragWords (s : State) (bs : List (Nat × Block)) (now : Nat) (g : Group) (i : Nat) : List W64 :=
  match g.frags.find i with
  | none => [0, 0, 0, 0]
  | some f =>
    let (k, d) := s.waitCode bs f
    let stopped := match g.stop with | .debug _ ev j => if j = i then some ev else none | _ => none
    let cut := match f.st with | .sleep w => Nat.min (w - now) 0xFFFFF | .waitY _ _ | .mig _ => 0 | _ => d % 2 ^ 20
    let kcut := match f.st with | .waitY _ _ | .mig _ => 1 | _ => k
    let pend := g.pend.foldl (fun a p => if p.2.2.contains i then a + 2 ^ p.1 else a) 0
    let flags := packWords 1 [((match f.joins with | j :: _ => j + 1 | [] => 0), 0), (b2n f.spilled.isSome, 6), (b2n f.inHandler, 7),
      (b2n stopped.isSome, 8), (b2n f.partner.isSome, 9), (b2n (i == g.handler), 10),
      ((if stopped.isSome then kcut else 0), 11), (b2n f.jumped, 14), (b2n (f.bpSkip == some f.pc), 15), (pend, 16), ((if stopped.isSome then cut else 0), 44)]
    [f.pc, f.em] ++ flags ++ [match stopped with
      | some ev => BitVec.ofNat 64 (ev.kind + ev.idx * 16 + ev.addr.toNat % 2 ^ 56 * 256)
      | none => BitVec.ofNat 64 (k + d * 8)]

/-- A join record's four words: the link names the record below it; the pending arrival at the barrier of the same number is
kept beside it. -/
def Group.joinWords (g : Group) (i : Nat) : List W64 :=
  let link := match g.frags.findSome? (fun f => (f.2.joins.dropWhile (· != i)).tail.head?) with | some r => r + 1 | none => 0
  let pend := match g.pend.find i with | some (pc, _) => 128 + pc.toNat % 2 ^ 56 * 256 | none => 0
  match g.joins.find i with
  | some j => [j.addr, j.expected, j.parked, BitVec.ofNat 64 (link + 64 + pend)]
  | none => [0, 0, 0, BitVec.ofNat 64 pend]

/-- GROUP, from 0x010. A barrier the group has never arrived at has the phase word 0xFFFF_FFFF. -/
def State.groupBody (s : State) (bs : List (Nat × Block)) (now : Nat) (bk gid : Nat) (g : Group) : List Byte :=
  let nv := g.frags.foldl (fun a f => match f.2.st with | .vgrow n _ _ => n | _ => a) 0
  let st := packWords 1 [(g.quad, 0), (g.role.toNat, 2), (g.vblk.length, 4), (g.frags.length, 9), (nv, 15),
    (b2n (match g.stop with | .debug _ _ _ => true | _ => false), 19),
    (b2n (g.frags.any (fun f => match f.2.st with | .mig _ => true | _ => false)), 20), (g.winsel, 32)]
  let viol := match g.viol with
    | some v => (violEntry gid (match s.block bk with | some x => x.blkid | none => 0) g.fmask v).take 4
    | none => [0, 0, 0, 0]
  let pt := match g.frags.findSome? (fun f => f.2.partner) with | some (d, l) => [d, l] | none => [0, 0]
  let tok := fun (i : Nat) => let t := g.tok i; t.count % 256 + t.err % 16 * 256 + b2n (t.err != 0) * 4096
  let phase := fun (b : Nat) => match g.arrived.find b with | some p => p % 2 ^ 32 | none => 2 ^ 32 - 1
  let t := g.trap
  wordsLe st ++ wordsLe [g.fpstat.setWidth 64, g.fmask] ++ wordsLe viol ++
  wordsLe [t.pc, t.op, t.d, t.a, t.b, t.c, t.mod, t.em, t.part, t.hdl, t.act] ++ words32 pt ++ words32 ((List.range 8).map tok) ++
  leBytes g.pbase 8 ++ words32 ((List.range 28).map phase) ++ wordsLe ((List.range 64).map (fun i => g.sregs.get i)) ++
  wordsLe ((List.range 16).map (fun i => g.kregs.get i)) ++ wordsLe ((List.range 32).flatMap (s.fragWords bs now g)) ++
  wordsLe ((List.range 32).flatMap g.joinWords) ++ wordsLe ((List.range 1024).map (fun i => g.tregs.get i)) ++
  (List.range (16 * g.vblk.length)).flatMap (fun r => (List.range 64).flatMap (fun l => leBytes (g.vregs.get (r * 64 + l)).toNat 4))

/-- ACC, from 0x010: the tiles of a quadrant, rows of 256 columns, on an L-core of 64. -/
def State.accBody (s : State) (x : Block) (q : Nat) : List Byte :=
  let w := if x.lcore then 64 else 256
  leBytes q 8 ++ zeros 0x28 ++ (List.range (4 * 64 * w)).flatMap (fun i =>
    leBytes ((s.core x.core).acc.get ((4 * q + i / (64 * w)) * 0x4000 + i / w % 64 * 256 + i % w)).toNat 4)

/-- ENGINE of a relayout, from 0x010. That of one whose group has left, which no GROUP record tells of, holds its destination's image in
the 512 bytes after its source's, and says so (DESIGN CHOICE, notes/assumptions/17.md). -/
def relBody (x : Block) (j : Relayout) : List Byte :=
  let far := if j.gone then setNth j.dst 3 (progWord (if j.inplace then 1 else 2) j.pass j.passes.length 0 j.cursor) else []
  wordsLe (packWords 2 [(b2n j.inplace, 0), (j.grp, 8), (j.tok, 16), (b2n j.cred, 19), (j.bar, 20), (j.rm, 24), (b2n j.nosat, 27),
    (b2n j.gone, 30), (x.blkid, 32), (x.grid % 2 ^ 32, 64), (j.member, 96), (j.fail, 100), (j.quad, 104)]) ++
  wordsLe ((List.range 48).map (fun i => BitVec.ofNat 64 (j.lold.getD i 0))) ++
  wordsLe ((List.range 64).map (fun i => if j.inplace then 0 else j.src.getD i 0)) ++
  wordsLe ((List.range 64).map (fun i => far.getD i 0)) ++
  wordsLe (packWords 2 [(j.scale.toNat, 0), (j.credited, 32), (j.tdst, 64), (j.pc.toNat % 2 ^ 56, 72)]) ++ zeros 16

/-- ENGINE of a copy, from 0x010. -/
def copyBody (x : Block) (j : CopyJob) : List Byte :=
  let lane := fun (i : Nat) => match j.lanes.find? (fun l => l.1 == i) with
    | some (_, a, w) => if j.out then [BitVec.ofNat 64 w, a] else [a, BitVec.ofNat 64 w]
    | none => [0, 0]
  wordsLe (packWords 2 [(2, 0), (j.grp, 8), (j.tok, 16), (b2n j.out, 28), (x.blkid, 32), (x.grid % 2 ^ 32, 64)]) ++
  wordsLe (maskOf (j.lanes.map (·.1)) :: List.replicate 47 0) ++ wordsLe ((List.range 64).flatMap lane) ++
  wordsLe (packWords 2 [(j.pc.toNat % 2 ^ 56, 72)]) ++ zeros 16

/-- QUEUE, from 0x010: the packets, and after them what each child takes from its parent (R386). -/
def queueBody (l : List DevLaunch) : List Byte :=
  leBytes l.length 8 ++ zeros 0x28 ++ l.flatMap (fun d => wordsLe ((List.range 8).map (fun i => d.packet.getD i 0))) ++
  l.flatMap (fun d => wordsLe (packWords 1 [(d.grid % 2 ^ 32, 0), (d.depth, 32), (d.prio, 40), (b2n d.ragged.isSome, 48)] ++ [d.ragged.getD 0]))

/-- Insert a grid by its GRIDID. -/
def insertId (g : Nat × Grid) : List (Nat × Grid) → List (Nat × Grid)
  | [] => [g]
  | h :: t => if gridId g.1 ≤ gridId h.1 then g :: h :: t else h :: insertId g t

/-- The records of a context's image, in the order of R404. -/
def State.imageRecs (s : State) (p c : Nat) : List (List Byte) :=
  let bs := s.ctxBlocks p c
  let now := s.ctxTime p c
  let blocksOf := fun (gk : Nat) => bs.filter (fun b => b.2.grid == gk)
  let quads := fun (b : Nat × Block) => (List.range 4).filter (fun q => b.2.acc && (s.groupsOf b.1).any (fun g => g.2.quad == q))
  let entry := s.readEntry p c
  ((s.ctxGrids p c).foldr insertId []).flatMap (fun g =>
    imgRec 1 g.1 0 0xFF (s.gridBody g.1 g.2) ::
    (blocksOf g.1).flatMap (fun b =>
      imgRec 2 g.1 b.2.blkid 0xFF (s.blockBody b.2) ::
      ((s.groupsOf b.1).map (fun q => imgRec 3 g.1 b.2.blkid q.1 (s.groupBody bs now b.1 q.1 q.2)) ++
       (quads b).map (fun q => imgRec 4 g.1 b.2.blkid 0xFF (s.accBody b.2 q))))) ++
  s.cores.flatMap (fun k =>
    (k.2.rels.filterMap (fun r => (bs.find? (fun b => b.1 == r.2.blk)).map (fun b => imgRec 5 0 b.2.blkid 0xFF (relBody b.2 r.2)))) ++
    (k.2.copies.filterMap (fun r => (bs.find? (fun b => b.1 == r.2.blk)).map (fun b => imgRec 5 0 b.2.blkid 0xFF (copyBody b.2 r.2))))) ++
  [imgRec 6 0 0 0xFF (zeros 0x30 ++ wordsLe ((List.range 8).map (fun i => entry.getD i 0))),
   imgRec 7 0 0 0xFF (queueBody ((s.part p).devq.filter (fun d => d.ctx == c))),
   imgRec 8 0 0 0xFF (zeros 48)]

/-- TYPE of a record. -/
def recTy (l : List Byte) : Nat := ofLe (l.take 1)

/-- The whole image (R405). -/
def State.image (s : State) (p c : Nat) : List Byte :=
  let rs := s.imageRecs p c
  let body := rs.flatten
  let count := fun (t : Nat) => (rs.filter (fun r => recTy r == t)).length
  let x := s.part p
  let tsave := match s.ctx p c with | some y => y.tsave.toNat | none => 0
  wordsLe (packWords 8 [(0x56494D47, 0), (3, 40), (count 3, 64), (count 2, 96), (count 1, 128), (c, 176), (crc32c body, 192),
    (rs.length, 224), (64 + body.length, 256), ((x.identity false).toNat, 320), ((x.identity true).toNat, 384), (tsave, 448)]) ++ body

/-- A save is done: the image is written through context 0's translation (R354, R404). -/
def execContextSaveComplete (part ctx : Nat) (s : State) : Host.Outcome State Fault Refusal :=
  let s0 := s.stow
  match s0.ctx part ctx with
  | none => .next s
  | some x =>
    match x.save with
    | [] => .next s
    | (a, r) :: rest =>
      let s1 := s0.modCtx part ctx (fun y => { y with save := rest })
      let h := s1.schedTlb part
      if x.st ≠ .halted then .next (s1.refDone r stState a)
      else if s0.entryBad part ctx then .next (s1.refDone r 2 (BitVec.ofNat 64 ((s0.part part).ctxTab + 64 * ctx)))
      else
        let img := s0.image part ctx
        let look := (granules a.toNat img.length).foldl (fun (b : State × Option Nat) va =>
          if b.2.isSome then b
          else if 2 ^ 55 ≤ va then (b.1, some 1)
          else match b.1.xlate part h 0 va .store with
            | (t, .ok _) => (t, none)
            | (t, .error .poison) => (t, some 2)
            | (t, .error _) => (t, some 1)) (s1, none)
        match look.2 with
        | some st => .next (look.1.refDone r st a)
        | none =>
          let key := fun (t : State) (va : Nat) => match (t.xlate part h 0 va .store).2 with | .ok k => k.key | .error _ => 0
          let bytes := (seqFrom a.toNat img).map (fun b => (⟨b.1, key look.1 b.1, b.2⟩ : StoreByte))
          .next (((look.1.writeVirt part h 0 bytes).1.modCtx part ctx (fun y => { y with saved := true })).refDone r 0 0)

/-! ### Reading an image (R409) -/

/-- A record read: TYPE, GRIDID, BLKID, GRPID, and its bytes. -/
structure ImgRec where
  ty   : Nat
  grid : Nat
  blk  : Nat
  grp  : Nat
  raw  : List Byte
  deriving DecidableEq, Repr

/-- n bytes at an offset of a record, as a number. -/
def ImgRec.at_ (r : ImgRec) (o n : Nat) : Nat := ofLe ((r.raw.drop o).take n)

/-- n words at an offset of a record. -/
def ImgRec.words (r : ImgRec) (o n : Nat) : List W64 := toWords (r.raw.drop o) n

/-- Split a body into at most n records; none when a prefix is malformed. -/
def splitRecs : Nat → List Byte → Option (List ImgRec)
  | 0, l => if l.isEmpty then some [] else none
  | n + 1, l =>
    if l.isEmpty then some []
    else
      let len := ofLe ((l.drop 4).take 4)
      let r : ImgRec := ⟨ofLe (l.take 1), ofLe ((l.drop 12).take 4), ofLe ((l.drop 8).take 4), ofLe ((l.drop 1).take 1), l.take len⟩
      if len < 64 ∨ len % 64 ≠ 0 ∨ l.length < len ∨ ofLe ((l.drop 2).take 2) ≠ 0 ∨ r.ty = 0 ∨ 8 < r.ty then none
      else (splitRecs n (l.drop len)).map (r :: ·)

/-- A record's place in the order of R404. -/
def ImgRec.key (r : ImgRec) : Nat :=
  match r.ty with
  | 1 => r.grid * 2 ^ 96
  | 2 => r.grid * 2 ^ 96 + 2 ^ 80 + r.blk * 2 ^ 40
  | 3 => r.grid * 2 ^ 96 + 2 ^ 80 + r.blk * 2 ^ 40 + 2 ^ 32 + r.grp
  | 4 => r.grid * 2 ^ 96 + 2 ^ 80 + r.blk * 2 ^ 40 + 2 ^ 33 + r.at_ 0x10 1 % 4
  | t => t * 2 ^ 130

/-- Rising, engine records among themselves apart. -/
def keysRise : List ImgRec → Bool
  | [] => true
  | [_] => true
  | a :: b :: rest => (decide (a.key < b.key) || (a.ty == 5 && b.ty == 5)) && keysRise (b :: rest)

/-- A record has the length its contents need. -/
def ImgRec.lenOk (r : ImgRec) : Bool :=
  let n := r.raw.length
  match r.ty with
  | 1 => decide (0x100 ≤ n)
  | 2 => decide (0x1A00 ≤ n) && (n - 0x1A00) % 65536 == 0
  | 3 => n == 0x2BC0 + 256 * (16 * (r.at_ 0x10 8 / 16 % 32)) && decide (1 ≤ r.at_ 0x10 8 / 16 % 32) && decide (r.at_ 0x10 8 / 16 % 32 ≤ 16)
  | 4 => n == 0x40 + 262144 || n == 0x40 + 65536
  | 5 => n == 0x5C0
  | 6 => n == 0x80
  | 7 => decide (0x40 + 64 * r.at_ 0x10 8 ≤ n)
  | _ => n == 64

/-- n bytes at an offset of a record are zero. -/
def ImgRec.zero (r : ImgRec) (o n : Nat) : Bool := r.at_ o n == 0

/-- The reserved fields of a record, and what R407 and R408 call zero, are zero (R409). -/
def ImgRec.rsvOk (r : ImgRec) : Bool :=
  match r.ty with
  | 1 => (List.range 4).all (fun i => r.zero (0xAC + 16 * i) 4)
  | 2 => r.zero 0x1AC 4 && (r.at_ 0x10 1 == 0 || r.zero 0x120 128)
  | 3 => bits (r.at_ 0x10 8) 21 11 == 0 && bits (r.at_ 0x10 8) 48 16 == 0
  | 5 =>
    let gone := bitAt (r.at_ 0x10 8) 30
    r.zero 0x5B0 16 && (match r.at_ 0x10 8 % 16 with
      | 0 => gone || r.zero 0x3A0 512
      | 1 => r.zero 0x1A0 512 && (gone || r.zero 0x3A0 512)
      | _ => r.zero 0x28 376)
  | 8 => r.zero 0x10 48
  | _ => true

/-- The checks of R409 on an image's records, whose status is VERSION. -/
def recsOk (h : List W64) (rs : List ImgRec) : Bool :=
  let count := fun (t : Nat) => (rs.filter (fun r => r.ty == t)).length
  let has := fun (t g b : Nat) => rs.any (fun r => r.ty == t && r.grid == g && (t == 1 || r.blk == b))
  keysRise rs && rs.all ImgRec.lenOk && rs.all ImgRec.rsvOk && count 1 == wbits h 128 32 && count 2 == wbits h 96 32 && count 3 == wbits h 64 32 &&
  rs.length == wbits h 224 32 && count 6 == 1 && count 7 == 1 && count 8 == 1 &&
  rs.all (fun r => match r.ty with
    | 2 => has 1 r.grid 0 && decide (1 ≤ r.at_ 0x11 1) && decide (r.at_ 0x11 1 ≤ 12) && decide (r.at_ 0x10 1 < r.at_ 0x11 1)
    | 3 => has 2 r.grid r.blk && decide (r.grp < 64)
    | 4 => has 2 r.grid r.blk
    | _ => true)

/-- The header of an image is one of version 3.0 (R405, R409). -/
def headOk (h : List W64) : Bool :=
  wbits h 0 32 == 0x56494D47 && wbits h 32 16 == 0x0300 && wbits h 48 16 == 0 && wbits h 160 16 == 0 && wbits h 256 64 % 64 == 0 &&
  decide (128 ≤ wbits h 256 64)

/-- An image as it is read: a status, or header and records (R355, R409). -/
def State.readImage (s : State) (p : Nat) (a : Nat) : State × (Nat ⊕ (List W64 × List ImgRec)) :=
  match s.schedRead p 0 a 64 with
  | (s1, .miss) => (s1, .inl 1)
  | (s1, .bad c _) => (s1, .inl (if c = 6 then 2 else 1))
  | (s1, .ok hb) =>
    let h := toWords hb 8
    if !headOk h then (s1, .inl 4)
    else match s1.schedReadAll p 0 (wbits h 256 64 / 65536 + 2) (a + 64) (wbits h 256 64 - 64) with
      | (s2, _, .miss) => (s2, .inl 1)
      | (s2, _, .bad c _) => (s2, .inl (if c = 6 then 2 else 1))
      | (s2, _, .ok body) =>
        if crc32c body ≠ wbits h 192 32 then (s2, .inl 4)
        else match splitRecs (wbits h 224 32) body with
          | none => (s2, .inl 4)
          | some rs =>
            if !recsOk h rs then (s2, .inl 4)
            else if wbits h 320 64 ≠ ((s.part p).identity false).toNat ∨ wbits h 384 64 ≠ ((s.part p).identity true).toNat then (s2, .inl 3)
            else (s2, .inr (h, rs))

/-! ### Placing (R410) -/

/-- The groups of a block's image: number, quadrant, blocks of 16 registers. -/
def groupShapes (rs : List ImgRec) (b : ImgRec) : List (Nat × Nat × Nat) :=
  (rs.filter (fun r => r.ty == 3 && r.grid == b.grid && r.blk == b.blk)).map (fun r => (r.grp, r.at_ 0x10 8 % 4, r.at_ 0x10 8 / 16 % 32))

/-- Slots for groups that keep their quadrants. -/
def State.slotsFor (s : State) (lcore : Bool) : List (Nat × Nat × Nat) → List (Nat × Nat) → Option (List Nat)
  | [], _ => some []
  | g :: rest, taken =>
    match s.freeSlots taken lcore false g.2.1 with
    | [] => none
    | i :: _ => (s.slotsFor lcore rest ((g.2.1, i) :: taken)).map (i :: ·)

/-- A block's image fits a core: its slots. -/
def State.imgFits (s : State) (b : ImgRec) (gs : List (Nat × Nat × Nat)) (c : Nat) : Option (List Nat) :=
  let l := bitAt (b.at_ 0x10 8) 36
  let need := (gs.map (·.2.2)).foldl (· + ·) 0
  match s.slotsFor l gs (s.slotsTaken c) with
  | none => none
  | some sl =>
    if (s.freeVblks c l need).length = need && (s.winBase c l ((b.raw.length - 0x1A00) / 65536)).isSome &&
        !(bitAt (b.at_ 0x10 8) 47 && gs.any (fun g => s.accTaken c 0 g.2.1)) then some sl else none

/-- Fragment `i` from its four words; its entry of the spill area is that of its number; `base` is the stamp its request's rank counts from, `bar` a barrier's phase. -/
def fragOf (w : List W64) (joins : List Nat) (pt : Nat × Nat) (now base i : Nat) (bar : Nat → Nat) (phases : KL Nat) : Fragment :=
  let f := (w.getD 2 0).toNat
  let wait := (w.getD 3 0).toNat
  let cut := bitAt f 8
  let k := if cut then bits f 11 3 else wait % 8
  let d := if cut then bits f 44 20 else wait / 8
  let st : FragSt := match k with
    | 2 => .parked d
    | 3 => .barrier d (bar d)
    | 4 => .vgrow (d % 16) (d / 16 % 64) (base + d / 1024)
    | 5 => .sleep (if cut then now + d else d)
    | 6 => .waitY (BitVec.ofNat 8 d) (BitVec.ofNat 64 (d / 256 * 8))
    | 7 => .mig (d == 1)
    | _ => .run
  { Fragment.reset with
    pc := w.getD 0 0, em := w.getD 1 0, joins := joins, st := st, spilled := if bitAt f 6 then some (i % 28) else none, inHandler := bitAt f 7
    born := i, jumped := bitAt f 14, bpSkip := if bitAt f 15 then some (w.getD 0 0) else none, phases := phases
    partner := if bitAt f 9 then some pt else none }

/-- A join stack from its links. -/
def chain (link : Nat → Nat) : Nat → Nat → List Nat
  | 0, _ => []
  | n + 1, r => if r = 0 then [] else (r - 1) :: chain link n (link (r - 1))

/-- A group from its record (R408). Each fragment counts as having arrived where its group has. -/
def groupOf (r : ImgRec) (now base : Nat) (bar : Nat → Nat) (slot : Nat) (vblk : List Nat) (since : Nat) : Group :=
  let st := r.at_ 0x10 8
  let fw := fun (i : Nat) => r.words (0x3C0 + 32 * i) 4
  let jw := fun (i : Nat) => r.words (0x7C0 + 32 * i) 4
  let link := fun (i : Nat) => ((jw i).getD 3 0).toNat % 64
  let live := (List.range 32).filter (fun i => ((fw i).getD 3 0) != 0 || bitAt ((fw i).getD 2 0).toNat 8)
  let pt := (r.at_ 0xA0 4, r.at_ 0xA4 4)
  let flag := fun (i : Nat) => ((fw i).getD 2 0).toNat
  let viol := r.words 0x28 4
  let tr := r.words 0x48 11
  let fmask := BitVec.ofNat 64 (r.at_ 0x20 8)
  let ph := fun (b : Nat) => r.at_ (0xD0 + 4 * b) 4
  let stopped := live.find? (fun i => bitAt (flag i) 8)
  let arrived := ((List.range 28).filter (fun b => ph b != 2 ^ 32 - 1)).map (fun b => (b, ph b))
  let pend := ((List.range 28).filter (fun b => bitAt ((jw b).getD 3 0).toNat 7)).map (fun b =>
    (b, (BitVec.ofNat 64 (((jw b).getD 3 0).toNat / 256), live.filter (fun i => bitAt (flag i) (16 + b)))))
  let mine := fun (i : Nat) => (List.range 28).filterMap (fun b =>
    if pend.any (fun p => p.1 == b && p.2.2.contains i) then some (b, bar b) else (arrived.find? (fun a => a.1 == b)))
  { Group.reset with
    slot := slot, quad := st % 4, role := BitVec.ofNat 2 (st / 4), vblk := vblk, since := since
    frags := live.map (fun i => (i, fragOf (fw i) (chain link 32 (flag i % 64)) pt now base i bar (mine i)))
    joins := ((List.range 32).filter (fun i => bitAt ((jw i).getD 3 0).toNat 6)).map (fun i =>
      (i, ⟨(jw i).getD 0 0, (jw i).getD 1 0, (jw i).getD 2 0⟩))
    sregs := SMap.setAll [] ((List.range 64).map (fun i => (i, (r.words (0x140 + 8 * i) 1).getD 0 0)))
    kregs := SMap.setAll [] ((List.range 16).map (fun i => (i, (r.words (0x340 + 8 * i) 1).getD 0 0)))
    tregs := SMap.setAll [] ((List.range 1024).map (fun i => (i, (r.words (0xBC0 + 8 * i) 1).getD 0 0)))
    vregs := SMap.setAll [] ((List.range (16 * vblk.length * 64)).map (fun i => (i, BitVec.ofNat 32 (r.at_ (0x2BC0 + 4 * i) 4))))
    toks := (List.range 8).map (fun i => let t := r.at_ (0xA8 + 4 * i) 4; ⟨t % 256, t / 256 % 16, 0⟩)
    fpstat := BitVec.ofNat 6 (r.at_ 0x18 8), fmask := fmask
    viol := if fmask = 0 then none else some ⟨(viol.getD 3 0).toNat, viol.getD 2 0, wbits viol 12 4, wbits viol 6 6⟩
    trap := ⟨tr.getD 0 0, tr.getD 1 0, tr.getD 2 0, tr.getD 3 0, tr.getD 4 0, tr.getD 5 0, tr.getD 6 0, tr.getD 7 0, tr.getD 8 0, tr.getD 9 0, tr.getD 10 0⟩
    handler := (live.find? (fun i => bitAt (flag i) 10)).getD 0, winsel := bits st 32 16, pbase := r.at_ 0xC8 8
    arrived := arrived, pend := pend
    stop := match stopped with
      | some i =>
        let e := ((fw i).getD 3 0).toNat
        .debug 0 ⟨e % 16, e / 16 % 16, BitVec.ofNat 64 (e / 256)⟩ i
      | none => .no }

/-- A barrier from 16 bytes of a record. -/
def barOfRec (r : ImgRec) (o : Nat) : Barrier := ⟨r.at_ o 2, r.at_ (o + 2) 2, r.at_ (o + 8) 4, r.at_ (o + 12) 4, r.at_ (o + 4) 4, 0⟩

/-- A mask slot from 768 bytes of a record. -/
def maskOfRec (r : ImgRec) (o : Nat) : Option MaskSlot :=
  let p := (r.raw.drop o).take 240
  if r.at_ o 1 = 0 then none
  else
    let prog := p.take (16 + 16 * maskCount p)
    some ⟨prog, (r.words (o + 240) 1).getD 0 0, (r.words (o + 248) 1).getD 0 0, if maskDocs prog then r.words (o + 256) 64 else []⟩

/-- A grid from its record; its descriptor and list are read again. -/
def gridOf (r : ImgRec) (c born : Nat) : Grid :=
  let pk := r.words 0x10 8
  let hd := r.words 0x50 8
  let status := wbits hd 136 4
  let ended := status = 1 ∨ status = 2 ∨ status = 3
  let nblk := bits (pk.getD 0 0).toNat 32 32
  let gbs := (List.range 4).map (fun i => (⟨r.at_ (0xA0 + 16 * i) 4, r.at_ (0xA4 + 16 * i) 4, 0, 0, r.at_ (0xA8 + 16 * i) 4, 0⟩ : Barrier))
  let more := (List.range ((r.raw.length - 0x100) / 8)).filter (fun i => r.at_ (0x104 + 8 * i) 4 != 0)
  { newGrid c none pk (wbits hd 148 4) (wbits hd 224 32) (r.at_ 0xF8 8) (wbits hd 224 32 != 0) born
      (if r.at_ 0xE0 8 = 0 then none else some (BitVec.ofNat 64 (r.at_ 0xE0 8))) (wbits hd 140 8) 0 with
    status := status, next := if ended then nblk else r.at_ 0x90 4, retired := if ended then nblk else r.at_ 0x94 4
    ran := wbits hd 352 32, nent := wbits hd 320 32, ndrop := wbits hd 288 32, nkill := wbits hd 256 32
    fseq := wbits hd 160 16, fclass := wbits hd 152 8, gbs := gbs
    tstart := if wbits hd 384 64 = wbits hd 448 64 then none else some (wbits hd 384 64)
    again := more.map (fun i => r.at_ (0x100 + 8 * i) 4), runs := more.map (fun i => (r.at_ (0x100 + 8 * i) 4, r.at_ (0x104 + 8 * i) 4)) }

/-- A grid's descriptor and list are read again through the new context's translation. What cannot be read now is read when the
context runs. -/
def State.rereadGrid (s : State) (gk : Nat) (records : Nat) : State :=
  match s.grids.find gk with
  | none => s
  | some g =>
    let p := gridPart gk
    match s.schedRead p g.ctx (g.pk 64 64) 64 with
    | (s1, .ok b) =>
      let kd := toWords b 8
      let n := wbits kd 352 16
      (match s1.schedReadAll p g.ctx (if n = 0 then 0 else 6) (g.pk 64 64 + wbits kd 320 32) (4 * n) with
       | (s2, _, .ok wb) =>
         let s3 := s2.modGrid gk (fun y => { y with kd := kd, kdRead := true, wf := wfEntries wb (wb.length / 4) })
         (match g.ragged with
          | some a =>
            if records = 0 then s3
            else (match s3.schedReadAll p g.ctx 300 (a.toNat + 16) (16 * records) with
              | (s4, _, .ok lb) =>
                let l := raggedOf lb records
                s4.modGrid gk (fun y => { y with list := some l, nblk := (l.map (fun q => cdiv q.rows 64)).foldl (· + ·) 0 })
              | r => r.1)
          | none => s3)
       | r => r.1)
    | r => r.1

/-- A block from its record, on a core with the slots found. -/
def State.loadBlock (s : State) (gmap : Nat → Nat) (p now base : Nat) (rs : List ImgRec) (b : ImgRec) (core : Nat) (slots : List Nat) : State :=
  let w := b.at_ 0x10 8
  let gk := gmap b.grid
  let l := bitAt w 36
  let win := b.raw.length - 0x1A00
  match s.grids.find gk with
  | none => s
  | some g =>
    let tile := match g.list with | some q => raggedAt q 0 b.blk | none => none
    let clusize := bits w 8 8
    let s0 := if bits w 0 8 = 0 then s.modGrid gk (fun y => { y with
        cbs := y.cbs.put (b.blk / clusize) ((List.range 8).map (fun i => barOfRec b (0x120 + 16 * i))) }) else s
    let x0 : Block := { Block.reset with
      part := p, grid := gk, blkid := b.blk, core := core, lcore := l, cluidx := bits w 0 8, clusize := clusize
      n0 := bits w 16 8, nmax := bits w 24 8, runs := bits w 32 4, regblk := bits w 40 5, legacy := bitAt w 45, quadk := bitAt w 46
      acc := bitAt w 47, mig := (match bits w 48 2 with | 1 => .set | 2 => .tail | _ => .none), nfm := bits w 50 8, retired := bitAt w 58
      priv := if g.kdRead then g.kdb 224 32 else b.at_ 0x19B8 8, winbase := (s.winBase core l (win / 65536)).getD 0, winsize := win
      bars := (List.range 16).map (fun i => barOfRec b (0x20 + 16 * i)), nEmpty := b.at_ 0x1A0 4, nFull := b.at_ 0x1A4 4
      nPart := b.at_ 0x1A8 4, masks := (List.range 4).map (fun i => maskOfRec b (0x1B0 + 768 * i))
      winfmt := SMap.setAll [] ((List.range 1536).map (fun i => (i, BitVec.ofNat 16 (b.at_ (0xDB0 + 2 * i) 2))))
      window := SMap.setAll [] ((List.range win).map (fun i => (i, b.raw.getD (0x1A00 + i) 0)))
      argbase := (match tile with | some (_, _, r) => r.arg | none => if g.ragged.isSome then BitVec.ofNat 64 (b.at_ 0x19C0 8) else g.packet.getD 2 0)
      tstart := if b.at_ 0x19B0 8 = 0 then none else some (b.at_ 0x19B0 8 - 1), lastIss := s.time }
    let x := { x0 with winPub := x0.window }
    let bk := blockKey gk b.blk
    let s1 := { s0 with blocks := s0.blocks.put bk x }
    let gs := (rs.filter (fun r => r.ty == 3 && r.grid == b.grid && r.blk == b.blk)).zip slots
    let s2 := gs.foldl (fun (a : State) q =>
      let v := a.freeVblks core l (q.1.at_ 0x10 8 / 16 % 32)
      let y := groupOf q.1 now base (fun i => (a.bar bk i).phase) q.2 v a.stamp
      { a.modBlock bk (fun z => { z with groups := z.groups.put q.1.grp y }) with stamp := a.stamp + 1 }.modPart p (fun z => { z with pbump := Nat.max z.pbump (2 ^ 55 - y.pbase) })) s1
    let s3 := s2.modBlock bk (fun y => { y with carr := ((List.range 12).map (16 + ·)).filterMap (fun i =>
      if !y.groups.isEmpty && y.groups.all (fun g => g.2.arrived.find i == some (s2.bar bk i).phase) then some (i, (s2.bar bk i).phase) else none) })
    (rs.filter (fun r => r.ty == 4 && r.grid == b.grid && r.blk == b.blk)).foldl (fun (a : State) r =>
      let q := r.at_ 0x10 1 % 4
      let wd := if l then 64 else 256
      a.modCore core (fun c => { c with acc := SMap.setAll c.acc ((List.range (4 * 64 * wd)).map (fun i =>
        ((4 * q + i / (64 * wd)) * 0x4000 + i / wd % 64 * 256 + i % wd, BitVec.ofNat 32 (r.at_ (0x40 + 4 * i) 4)))) })) s3

/-- The runs of cores that take a cluster's blocks with the parity of its first slot (R410), with each block's slots. -/
def State.clusterSites (s : State) (p : Nat) (rs cl : List ImgRec) : List (List (Nat × List Nat)) :=
  match cl with
  | [] => [[]]
  | b :: _ =>
    let w := b.at_ 0x10 8
    let l := bitAt w 36
    let par := bits w 39 1
    (s.sites p l cl.length).filterMap (fun cs =>
      let first := match cs with | c :: _ => (match s.dNumber c with | some n => n % 2 | none => 0) | [] => 0
      if !l && first != par then none
      else
        let fit := (cl.zip cs).map (fun q => (s.imgFits q.1 (groupShapes rs q.1) q.2).map (fun sl => (q.2, sl)))
        if fit.all Option.isSome then some (fit.filterMap id) else none)

/-- The clusters of an image: each BLOCK record of CLUIDX 0 with those that follow it in its cluster. -/
def imgClusters : List ImgRec → List (List ImgRec)
  | [] => []
  | b :: rest =>
    if b.at_ 0x10 1 ≠ 0 then imgClusters rest
    else (b :: (rest.filter (fun r => r.grid == b.grid)).take (b.at_ 0x11 1 - 1)) :: imgClusters rest

/-- Place every cluster, each at the first site that leaves room for the rest. -/
def State.loadBlocks (s : State) (gmap : Nat → Nat) (p now base : Nat) (rs : List ImgRec) : List (List ImgRec) → Option State
  | [] => some s
  | cl :: rest =>
    if cl.length ≠ (match cl with | b :: _ => b.at_ 0x11 1 | [] => 0) then none
    else (s.clusterSites p rs cl).findSome? (fun l =>
      ((cl.zip l).foldl (fun (a : State) q => a.loadBlock gmap p now base rs q.1 q.2.1 q.2.2) s).loadBlocks gmap p now base rs rest)

/-- A slab entry as an engine that already holds it reads it. -/
def State.slabPeek (s : State) (p c : Nat) (d : Desc) : SlabRes :=
  if d.base = 0xFFFFFFFF then .absent
  else match s.slabKey p c d.base with
    | .inl r => r
    | .inr k =>
      let w0 := (s.mem.word k).toNat
      .held ⟨k, bits (s.mem.word (k + 16)).toNat 0 56, bits (s.mem.word (k + 24)).toNat 0 56, bits (s.mem.word (k + 8)).toNat 0 32,
        bits w0 0 5, bits w0 9 3 == 2⟩

/-- A copy's ENGINE record becomes a job (R407, R412). -/
def copyOfRec (r : ImgRec) (bk gk c : Nat) (pc part : W64) : CopyJob :=
  let w := r.words 0x10 2
  let out := wbits w 28 1 == 1
  let lanes := (lanesOf (BitVec.ofNat 64 (r.at_ 0x20 8))).map (fun i =>
    let a := r.words (0x1A0 + 16 * i) 2
    if out then (i, a.getD 1 0, (a.getD 0 0).toNat) else (i, a.getD 0 0, (a.getD 1 0).toNat))
  ⟨out, bk, gk, c, pc, wbits w 16 3, lanes, none, part, [], [], lanes.map (fun l => (l.1, l.2.1.toNat))⟩

/-- A relayout's ENGINE record becomes a job, before its slab sides are looked at (R407, R412). `img` is its destination's image,
with PROG. -/
def relOfRec (r : ImgRec) (bk gk c quad : Nat) (pc part : W64) (img : List W64) : Relayout :=
  let w := r.words 0x10 2
  let inplace := wbits w 0 4 == 1
  let dst := setNth img 3 0
  let src := r.words 0x1A0 64
  let dd := Desc.of dst
  let lold := (List.range dd.n).map (fun i => (r.at_ (0x20 + 8 * i) 8))
  let pr := Desc.of img
  { inplace := inplace, grow := false, started := !(pr.pass == 0 && pr.cursor == 0), blk := bk, grp := gk, quad := quad, ctx := c, pc := pc
    partner := part, tok := wbits w 16 3, cred := wbits w 19 1 == 1, bar := wbits w 20 4, rm := wbits w 24 2, nosat := wbits w 27 1 == 1
    scale := BitVec.ofNat 32 (r.at_ 0x5A0 4), member := wbits w 96 4, tdst := wbits (r.words 0x5A0 2) 64 8, src := src, dst := dst
    lold := lold, n := dd.n, passes := passesOf dd lold dd.rows (!inplace), pass := pr.pass, cursor := pr.cursor
    credited := r.at_ 0x5A4 4, units := cdiv (2 ^ dd.n) 4096, sv := none, dv := none, slabs := [], fail := wbits w 100 3, heldBy := none
    done := [], fresh := [], shadow := [], words := [], gone := wbits w 30 1 == 1, tiles := [], slots := [], recAt := imgWord src 1 }

/-- Its slab sides, which it already holds. -/
def State.relSides (s : State) (p c : Nat) (j0 : Relayout) : Relayout :=
  let dd := Desc.of j0.dst
  let ds := Desc.of j0.src
  let j1 := if dd.kind = 4 then (j0.withSlab dd false (s.slabPeek p c dd)).getD j0 else j0
  let j2 := if j0.inplace ∨ ds.kind ≠ 4 then j1
    else if dd.kind = 4 ∧ dd.base = ds.base ∧ dd.base ≠ 0xFFFFFFFF then
      (match j1.dv with
       | some v => { j1 with sv := some v, grow := v.moving, n := dd.rowBits + (v.log2 - 1) }
       | none => j1)
    else (j1.withSlab ds true (s.slabPeek p c ds)).getD j1
  { j2 with fail := j0.fail }

/-- An ENGINE record becomes a job of its block's core (R407, R412), that of a relayout that goes on without its group too
(R179). -/
def State.loadEngine (s : State) (gmap : Nat → Nat) (p c : Nat) (r : ImgRec) : State :=
  let w := r.words 0x10 2
  let bk := blockKey (gmap (wbits w 64 32)) (wbits w 32 32)
  let gk := wbits w 8 8
  let pc := BitVec.ofNat 64 (wbits (r.words 0x5A0 2) 72 56)
  let rel := fun (x : Block) (quad : Nat) (part : W64) (img : List W64) =>
    { s.modCore x.core (fun k => { k with rels := k.rels.put s.jobNo (s.relSides p c (relOfRec r bk gk c quad pc part img)) }) with
      jobNo := s.jobNo + 1 }
  match s.block bk with
  | none => s
  | some x =>
    if wbits w 0 4 ≠ 2 ∧ wbits w 30 1 = 1 then rel x (wbits w 104 2) 0 (r.words 0x3A0 64)
    else match s.group bk gk with
    | none => s
    | some g =>
      let part := s.partner x { Fragment.reset with pc := pc, partner := g.frags.findSome? (fun q => q.2.partner) }
      if wbits w 0 4 = 2 then
        { s.modCore x.core (fun k => { k with copies := k.copies.put s.jobNo (copyOfRec r bk gk c pc part) }) with jobNo := s.jobNo + 1 }
      else rel x g.quad part (g.timg (wbits (r.words 0x5A0 2) 64 8))

/-- The launch packets of a QUEUE record (R412). -/
def queueOf (r : ImgRec) (gmap : Nat → Nat) (c : Nat) : List DevLaunch :=
  let n := r.at_ 0x10 8
  (List.range n).map (fun i =>
    let e := r.at_ (0x40 + 64 * n + 16 * i) 8
    ⟨gmap (bits e 0 32), c, bits e 40 8, bits e 32 8, r.words (0x40 + 64 * i) 8,
      if bitAt e 48 then some (BitVec.ofNat 64 (r.at_ (0x48 + 64 * n + 16 * i) 8)) else none, 0⟩)

/-- A context HALTED and loaded, before anything of it is placed. -/
def Ctx.loadedAs (entry : List W64) (tsave : W64) : Ctx :=
  { st := .halted, entry := entry, tofs := 0, tsave := tsave, halt := [], save := [], saved := false, loaded := true, dbg := none }

/-- The key that a restored grid of a GRIDID takes: one that no grid has (R410). -/
def State.freeKey (s : State) (p id : Nat) : Nat :=
  gridKey p id + 2 ^ 34 * (((List.range (s.grids.length + 1)).find? (fun a => !s.grids.has (gridKey p id + 2 ^ 34 * a))).getD 0)

/-- Place an image's records: the state with the context resident, or the status of the load (R362, R409, R410) (DESIGN CHOICE,
notes/assumptions/48.md). -/
def State.placeImage (s : State) (p c : Nat) (h : List W64) (rs : List ImgRec) : State ⊕ Nat :=
  let entry := s.readEntry p c
  let now := wbits h 448 64
  let of := fun (t : Nat) => rs.filter (fun r => r.ty == t)
  let gmap := s.freeKey p
  if !bitAt (entry.getD 0 0).toNat 0 then .inr 5
  else
    let s1 := s.modPart p (fun y => { y with ctxs := y.ctxs.put c (.loadedAs entry (BitVec.ofNat 64 now)) })
    let s2 := (of 1).foldl (fun (a : State) r =>
      { a with grids := a.grids.put (gmap r.grid) (gridOf r c a.stamp), stamp := a.stamp + 1 }) s1
    let s3 := (of 1).foldl (fun (a : State) r => a.rereadGrid (gmap r.grid) (r.at_ 0xE8 8)) s2
    let base := s3.stamp
    let s4 := { s3 with stamp := base + 32 * (of 3).length + 1 }
    match s4.loadBlocks gmap p now base rs (imgClusters (of 2)) with
    | none => .inr 5
    | some s5 =>
      let s6 := (of 5).foldl (fun (a : State) r => a.loadEngine gmap p c r) s5
      .inl (s6.modPart p (fun y => { y with devq := y.devq ++ (of 7).flatMap (fun r => queueOf r gmap c) }))

/-- A load is done: the image is checked and placed whole, or refused with a status (R354, R409). A partition that is no longer in
service loads no context (R418). -/
def execContextLoadComplete (part ctx : Nat) (s : State) : Host.Outcome State Fault Refusal :=
  let s0 := s.stow
  match (s0.part part).loads.find? (fun l => l.ctx == ctx) with
  | none => .next s
  | some l =>
    let s1 := s0.modPart part (fun y => { y with loads := y.loads.erase l })
    if (s1.part part).pstate ≠ 2 then .next (s1.refDone l.ref stState l.addr)
    else if s1.entryBad part ctx then .next (s1.refDone l.ref 2 (BitVec.ofNat 64 ((s1.part part).ctxTab + 64 * ctx)))
    else match s1.readImage part l.addr.toNat with
    | (s2, .inl st) => .next (s2.refDone l.ref st l.addr)
    | (s2, .inr (h, rs)) =>
      (match s2.placeImage part ctx h rs with
       | .inl s3 => .next (s3.refDone l.ref 0 0)
       | .inr st => .next (s2.refDone l.ref st l.addr))

end Sys2Proof.Machine
end

