-- ==== Sys2Proof/Machine/HostSec.lean ====
section
/-!
DEFINITION. The host's window and what Husk does (R302, R445 to R456): mailbox commands, bring-up, measurement and SPDM,
the time base, power and cooling. What the spec leaves to Husk or to SPDM 1.3 is in notes/assumptions/9.md (DESIGN CHOICE), 10.md (PRESUMED) and 21.md (DESIGN CHOICE).
-/

namespace Sys2Proof.Machine

/-! ### The host's window, peers, the time base -/

/-- BOOTSTAT as the host reads it (R447). -/
def State.bootstat (s : State) : W64 :=
  (packWords 1 ([(s.husk.step, 0), (if s.husk.step = 15 then s.husk.fail else 0, 24)] ++
    (List.range 4).map (fun p => ((s.part p).pstate, 8 + 2 * p)))).headD 0

/-- The n-th word of a read through BAR2 (R302, R446): a word of the partition's HBM. A word beyond it is not there, and reads 0;
one of a poisoned sector, and any of a module that is powered down, reads an open value (DESIGN CHOICE, notes/assumptions/21.md). -/
def State.bar2Word (s : State) (p pa n : Nat) : W32 :=
  let a := pa / 4 * 4 + 4 * n
  if s.hbmBytes p < a + 4 then 0
  else if s.husk.off ∨ s.poisoned (hbmKey p a) 4 then Config.freeValue (s.free + n)
  else BitVec.ofNat 32 (ofLe (s.mem.read (hbmKey p a) 4))

/-- The n-th word of a read through BAR0 (R446, R448): BOOTSTAT, the time base, a doorbell page that reads zero; the mailbox page
and what the map leaves out read open values (DESIGN CHOICE, notes/assumptions/21.md). -/
def State.bar0Word (s : State) (off n : Nat) : W32 :=
  let a := off / 4 * 4 + 4 * n
  if a < 8 then BitVec.ofNat 32 (s.bootstat.toNat >>> (8 * a))
  else if a < 16 then BitVec.ofNat 32 (s.time % 2 ^ 64 >>> (8 * (a - 8)))
  else if 0x10000 ≤ a ∧ a < 0x11000 then 0
  else Config.freeValue (s.free + n)

/-- A write through BAR0: only an aligned write of four bytes to a doorbell acts (R446, R448). -/
def State.bar0Write (s : State) (p off : Nat) (data : List Byte) : State :=
  if data.length = 4 ∧ 0x10000 ≤ off ∧ off < 0x11000 ∧ off % 64 = 0 then
    s.ring p ((off - 0x10000) / 64) (BitVec.ofNat 32 (ofLe data))
  else s

/-- A host or peer access (R302, R446): through BAR2 whole aligned words of the partition's HBM, of which one beyond it is not
written; through BAR0 the partition's registers. A module that is powered down takes no write. -/
def execHostWindowAccess (acc : HostAccess) (s : State) : Host.Outcome State Fault Refusal :=
  let shows := fun (n : Nat) (w : Nat → W32) =>
    ({ s with free := s.free + n, husk := { s.husk with winRead := (List.range n).map w } } : State)
  match acc with
  | .read p pa n => .next (shows n (s.bar2Word p pa))
  | .read0 _ off n => .next (shows n (s.bar0Word off))
  | .write p pa l =>
    let put := fun (b : State) (q : W32 × Nat) =>
      let a := pa / 4 * 4 + 4 * q.2
      if s.hbmBytes p < a + 4 then b else b.pokeSoft (seqFrom (hbmKey p a) (leBytes q.1.toNat 4))
    .next (if s.husk.off then s else (l.zip (List.range l.length)).foldl put s)
  | .write0 p off data => .next (if s.husk.off then s else s.bar0Write p off data)

/-- A flit lost beyond retry poisons its sector (R449). -/
def execPeerFlitLoss (addr : Nat) (s : State) : Host.Outcome State Fault Refusal :=
  .next { s with poison := if s.poison.contains (addr / 32) then s.poison else s.poison ++ [addr / 32] }

/-- Once ready is reached, Husk sets out to slew the time base by a signed number of nanoseconds (R450). -/
def execTimeBaseSteer (ns : W64) (s : State) : Host.Outcome State Fault Refusal :=
  .next (if s.husk.step = 6 then { s with husk := { s.husk with steer := ns } } else s)

/-- A nanosecond is slewed at most once in each 10,000 that pass: 100 ppm (R450). -/
def State.slew (s : State) (n : Nat) : Int :=
  let k := (s.husk.raw + n) / 10000 - s.husk.raw / 10000
  let want := s.husk.steer.toInt
  if want < 0 then -(Nat.min k want.natAbs : Nat) else (Nat.min k want.natAbs : Nat)

/-- The count of a block's watchdog stands still for some nanoseconds (R347, R429). -/
def Block.late (x : Block) (n : Nat) : Block := { x with lastIss := x.lastIss + n }

/-- n nanoseconds pass (R450); a block that is exempt from the watchdog does not count them (R347). -/
def State.passTime (s : State) (n : Nat) : State :=
  let d := s.slew n
  let t := ((s.time + n : Nat) + d).toNat
  let wait := fun (q : Nat × Block) => (q.1, if s.wdogExempt q.1 q.2 then q.2.late (t - s.time) else q.2)
  { s with
    time := t, blocks := s.blocks.map wait
    husk := { s.husk with raw := s.husk.raw + n, steer := BitVec.ofInt 64 (s.husk.steer.toInt - d) } }

/-! ### Verification and measurement (R451 to R453) -/

/-- Both signatures verify over the SHA-384 digest. -/
def signedOk (x : Signed) : Bool := let d := sha384 x.body; Config.rsaOk x.rsa d && Config.slhOk x.slh d

/-- Extend a measurement register by the digest of some bytes. -/
def State.extend (s : State) (r : Nat) (b : List Byte) : State :=
  { s with husk := { s.husk with meas := setNth s.husk.meas r (sha384 (s.husk.meas.getD r [] ++ sha384 b)) } }

/-- The stated limits of a record (R453), whose serial must exceed that of the last one accepted; reserved bits are ignored
(R10). -/
def recordOk (w : List W64) (serial : Nat) : Bool :=
  let f := fun (lo n : Nat) => wbits w lo n
  f 0 16 == 0x4346 && f 16 16 == 1 && decide (serial < f 32 32) &&
  decide (f 234 2 ≤ 2) && decide (1 ≤ f 236 4) && decide (f 236 4 ≤ 4) && decide (f 400 16 ≤ 1800) && decide (f 384 16 ≤ 2600) &&
  decide (1000 ≤ f 416 32) && decide (f 416 32 ≤ 4400) && (List.range 4).all (fun d => popN (f (248 + 34 * d) 34) 34 == 32)

/-- A signed record is accepted, and its eight words. -/
def State.acceptRecord (s : State) (r : Signed) : Option (List W64) :=
  let w := toWords r.body 8
  if signedOk r && r.body.length == 64 && recordOk w s.husk.serial then some w else none

/-- A firmware image is accepted: it verifies, and its security version is high enough. -/
def State.imageOk (s : State) (x : Signed) : Bool := signedOk x && decide (wbits s.husk.record 192 16 ≤ x.svn)

def State.setRecord (s : State) (w : List W64) : State :=
  { s with husk := { s.husk with record := w, serial := wbits w 32 32 } }

/-! ### SPDM (R452) -/

/-- Husk runs: Germ has verified it, and bring-up has not failed. -/
def State.huskUp (s : State) : Bool := decide (1 ≤ s.husk.step) && decide (s.husk.step ≤ 6) && !s.husk.off

/-- A request and its answer join the connection. -/
def State.spdmAnswer (s : State) (req ans : List Byte) : State :=
  if s.huskUp then { s with husk := { s.husk with spdm := s.husk.spdm ++ [req, ans] } } else s

/-- An answer that both keys sign: over the transcript so far, the request, and the answer up to the signatures. -/
def State.signedAnswer (s : State) (req body : List Byte) : List Byte :=
  let h := sha384 (s.husk.spdm.flatten ++ req ++ body)
  body ++ Config.rsaSign h ++ Config.slhSign h

/-- GET_VERSION begins a connection: the one version is 1.3. -/
def execGetVersion (s : State) : Host.Outcome State Fault Refusal :=
  .next (if s.huskUp then { s with husk := { s.husk with spdm := [[0x84], [0x04, 0x13]] } } else s)

def execGetCapabilities (s : State) : Host.Outcome State Fault Refusal := .next (s.spdmAnswer [0xE1] [0x61])

/-- SHA-384 and RSASSA-PSS with RSA-3072. -/
def execNegotiateAlgorithms (s : State) : Host.Outcome State Fault Refusal := .next (s.spdmAnswer [0xE3] [0x63, 0x02, 0x04])

def execGetDigests (s : State) : Host.Outcome State Fault Refusal := .next (s.spdmAnswer [0x81] (0x01 :: sha384 s.husk.certs))

def execGetCertificate (s : State) : Host.Outcome State Fault Refusal := .next (s.spdmAnswer [0x82] (0x02 :: s.husk.certs))

def execChallenge (nonce : List Byte) (s : State) : Host.Outcome State Fault Refusal :=
  let req := 0x83 :: nonce
  .next (s.spdmAnswer req (s.signedAnswer req (0x03 :: sha384 s.husk.certs)))

def execGetMeasurements (nonce : List Byte) (s : State) : Host.Outcome State Fault Refusal :=
  let req := 0xE0 :: nonce
  .next (s.spdmAnswer req (s.signedAnswer req (0x60 :: s.husk.meas.flatten)))

/-! ### Partitions (R417, R418) -/

/-- How many partitions there are. -/
def State.partCount (s : State) : Nat := match s.partField with | 0 => 1 | 1 => 2 | _ => 4

/-- A mailbox command's status: 0 done, 1 STATE, 2 refused (DESIGN CHOICE, notes/assumptions/21.md). -/
def State.mboxAnswer (s : State) (n : Nat) : State := { s with husk := { s.husk with mailbox := s.husk.mailbox ++ [n] } }

/-- Run a mailbox command on a partition in the state it needs; in another it answers STATE and changes nothing (R453). -/
def State.command (s : State) (part st : Nat) (f : State → State) : State :=
  if !s.huskUp then s
  else if s.partCount ≤ part ∨ (s.part part).pstate ≠ st then s.mboxAnswer 1
  else f s

/-- Everything a partition runs is gone: its groups, grids, operations and contexts. Decode tables stay. -/
def State.clearPart (s : State) (p : Nat) : State :=
  let s1 := (s.blocks.filter (fun b => b.2.part == p)).foldl (fun (a : State) b => a.discard b.1) s
  let x := s.part p
  { s1 with
    blocks := s1.blocks.filter (fun b => b.2.part != p), grids := s1.grids.filter (fun g => gridPart g.1 != p)
    images := s1.images.filter (fun im => im.part != p)
    parts := setNth s1.parts p { Part.reset with pstate := x.pstate, decD := x.decD, decL := x.decL, clkCut := x.clkCut } }

/-- A partition goes OFFLINE, and what it ran is gone. -/
def State.offPart (s : State) (p : Nat) : State := (s.clearPart p).modPart p (fun x => { x with pstate := 0 })

/-- DRAIN (R418). -/
def execDrain (part : Nat) (s : State) : Host.Outcome State Fault Refusal :=
  .next (s.stow.command part 2 (fun a => (a.modPart part (fun x => { x with pstate := 3 })).mboxAnswer 0))

/-- A draining partition with no user context left goes OFFLINE. -/
def execDrainComplete (part : Nat) (s : State) : Host.Outcome State Fault Refusal :=
  let s0 := s.stow
  if (s0.part part).pstate = 3 ∧ (s0.part part).ctxs.all (fun c => c.1 == 0) then
    .next (s0.offPart part)
  else .next s

/-- The ENABLE bits of a die in a record. -/
def enableOf (w : List W64) (die : Nat) : Nat := wbits w (248 + 34 * die) 34

/-- Every partition that a new record touches is OFFLINE: all of them when PART or SYSSLOT changes, else those whose dies'
sites change (R418, R420). -/
def State.touchedOff (s : State) (w : List W64) : Bool :=
  let off := fun (p : Nat) => (s.part p).pstate == 0
  (if wbits w 234 6 = wbits s.husk.record 234 6 then true else (List.range 4).all off) &&
  (List.range 4).all (fun d => enableOf w d == enableOf s.husk.record d || off (s.partOfDie d))

/-- RECONFIG (R453): a new record that is accepted replaces the old. -/
def execReconfig (part : Nat) (record : Signed) (s : State) : Host.Outcome State Fault Refusal :=
  .next (s.stow.command part 0 (fun a => match a.acceptRecord record with
    | none => a.mboxAnswer 2
    | some w => if a.touchedOff w then (a.setRecord w).mboxAnswer 0 else a.mboxAnswer 1))

/-- Decode classes from bytes of four two-bit codes each, where they differ from the shipped table: none when an entry
changes otherwise than between native and micro-sequence (R157). -/
def decTable (lcore : Bool) (l : List Byte) : Option (KL Nat) :=
  if l.length ≠ 1024 then none
  else
    let code := fun (e : Nat) => bits (l.getD (e / 4) 0).toNat (2 * (e % 4)) 2
    let all := (List.range 4096).map (fun e => (e, code e, shippedClass lcore e))
    if all.all (fun x => x.2.1 == x.2.2 || (x.2.1 == 1 && x.2.2 == 0)) then
      some ((all.filter (fun x => x.2.1 != x.2.2)).map (fun x => (x.1, x.2.1)))
    else none

/-- Load decode tables: M5 and M6 are extended (R452). -/
def State.loadTables (s : State) (part : Nat) (d l : List Byte) : Option State :=
  match decTable false d, decTable true l with
  | some td, some tl => some (((s.extend 5 d).extend 6 l).modPart part (fun x => { x with decD := td, decL := tl }))
  | _, _ => none

/-- FWLOAD (R419): firmware and decode tables, into a partition that holds no context (R157). -/
def execFwload (part : Nat) (image : Signed) (tables : Signed) (s : State) : Host.Outcome State Fault Refusal :=
  .next (s.stow.command part 0 (fun a =>
    if !(a.part part).ctxs.all (fun c => c.1 == 0) then a.mboxAnswer 1
    else if !a.imageOk image || !a.imageOk tables then a.mboxAnswer 2
    else match a.loadTables part (tables.body.take 1024) (tables.body.drop 1024) with
      | some t => t.mboxAnswer 0
      | none => a.mboxAnswer 2))

/-- SPARE (R420): a record that retires one enabled D-core site of one die and enables a spare one; the new core's storage is
zeroed. -/
def execSpare (part : Nat) (record : Signed) (s : State) : Host.Outcome State Fault Refusal :=
  .next (s.stow.command part 0 (fun a => match a.acceptRecord record with
    | none => a.mboxAnswer 2
    | some w =>
      let dies := (List.range 4).filter (fun d => enableOf w d != enableOf a.husk.record d)
      match dies with
      | [d] =>
        let new := enableOf w d
        let old := enableOf a.husk.record d
        let on := (List.range 34).filter (fun i => bitAt new i && !bitAt old i)
        let rest := wbits w 234 6 == wbits a.husk.record 234 6
        (match on with
         | [i] => if a.partOfDie d = part ∧ rest then
             (({ a with cores := a.cores.del (coreKey d i) } : State).setRecord w).mboxAnswer 0
           else a.mboxAnswer 2
         | _ => a.mboxAnswer 2)
      | _ => a.mboxAnswer 2))

/-! ### Supervisors (R339, R418, R454) -/

/-- The peer ports of a partition: 16, 8 or 4 of the sixteen, in order (R417; DESIGN CHOICE, notes/assumptions/21.md). -/
def State.portsOf (s : State) (p : Nat) : List Nat :=
  let n := 16 / s.partCount
  (List.range n).map (p * n + ·)

/-- The route table of a partition (R449): from the configuration record, each node to a port of the partition; a port that has
not trained carries no route (R454). -/
def State.routeTable (s : State) (p : Nat) (trained : List Nat) : KL Nat :=
  (List.range 64).filterMap (fun node => match Config.peerPort s.husk.record p node with
    | some port => if (s.portsOf p).contains port ∧ trained.contains port then some (node, port) else none
    | none => none)

/-- A route table as bytes: node and port of each entry (DESIGN CHOICE, notes/assumptions/21.md). -/
def routeBytes (l : KL Nat) : List Byte := l.flatMap (fun e => [BitVec.ofNat 8 e.1, BitVec.ofNat 8 e.2])

/-- The grid of a resident kernel of system groups: one block on each L-core of its partition, in context 0 (R338, R339). -/
def supGrid (k : SysKernel) (level nblk stamp : Nat) : Grid :=
  let w := packWords 8 [(1, 0), (1, 4), (1, 8), (nblk, 32), (k.kdAddr.toNat, 64), (k.args.toNat, 128)]
  { newGrid 0 none w 1 0 7 false stamp none 0 level with
    kd := k.kd, kdRead := true, wf := k.wf, next := nblk, gbs := List.replicate 4 { Barrier.reset with m := nblk } }

/-- The L-cores of a partition. -/
def State.lCores (s : State) (p : Nat) : List Nat := (s.diesOf p).flatMap (fun d => (List.range 4).map (fun i => coreKey d (34 + i)))

/-- Husk launches a resident kernel at a level. -/
def State.launchSys (s : State) (p level : Nat) (k : SysKernel) : State :=
  let cores := s.lCores p
  let g := supGrid k level cores.length s.stamp
  let im : Image := ⟨p, 0, k.kdAddr.toNat, k.kdAddr.toNat + 64, k.base, k.base, []⟩
  let r := ({ s with images := s.images ++ [im] } : State).createGrid p g
  (cores.zip (List.range cores.length)).foldl (fun (a : State) q => a.startCluster r.2 g [q.2] [q.1]) r.1

/-- Launch a supervisor (R339): its image in memory, and those of the firmware beside it (R451); its arguments open with the addresses of the context and queue tables
(R362, R377), and entry 0 of the first is context 0's; then its groups, and firmware groups beside them (R338). The partition
is in BRINGUP, with its route table set, of the ports that trained (R449, R454). -/
def State.launchSup (s : State) (p : Nat) (b : SupervisorBoot) : State :=
  let c0 : Ctx := ⟨.running, b.entry0, 0, 0, [], [], false, false, none⟩
  let place := fun (a : State) (k : Signed × SysKernel) => a.pokeBytes (hbmKey p k.2.base.toNat) k.1.body
  let s1 := ((b.image, b.kernel) :: b.firmware).foldl place ((s.clearPart p).extend 4 b.image.body)
  let s2 := (s1.pokeBytes (hbmKey p b.argsPa) (wordsLe [BitVec.ofNat 64 b.ctxTab, BitVec.ofNat 64 b.queTab])).pokeBytes
    (hbmKey p b.ctxTab) (wordsLe b.entry0)
  let s3 := s2.modPart p (fun x => { x with
    pstate := 1, bootAt := some s.time, ctxTab := b.ctxTab, queTab := b.queTab, ctxs := [(0, c0)]
    routes := s.routeTable p s.husk.ports })
  b.firmware.foldl (fun (a : State) k => a.launchSys p 2 k.2) (s3.launchSys p 1 b.kernel)

/-- A supervisor's image, and those of the firmware kernels beside it, are accepted (R451). -/
def State.bootOk (s : State) (b : SupervisorBoot) : Bool := s.imageOk b.image && b.firmware.all (fun k => s.imageOk k.1)

/-- BRINGUP (R418): the supervisor's image is verified and launched. -/
def execBringup (part : Nat) (boot : SupervisorBoot) (s : State) : Host.Outcome State Fault Refusal :=
  .next (s.stow.command part 0 (fun a => if a.bootOk boot then (a.launchSup part boot).mboxAnswer 0 else a.mboxAnswer 2))

/-- Nothing runs any more: STEP 15 with its FAIL (R454, R455). -/
def State.bootFail (s : State) (n : Nat) : State :=
  let s1 := (List.range 4).foldl State.offPart s
  { s1 with husk := { s1.husk with step := 15, fail := n } }

/-- More than ten seconds have passed since a partition's supervisor was launched. -/
def State.late (s : State) (t : Nat) : Bool := decide (t + 10000000000 < s.time)

/-- A supervisor has not reported ready within ten seconds of its launch, were it only that its partition halted: bring-up fails at
step 5; a partition brought up later goes OFFLINE. -/
def execSupervisorReadyTimeout (part : Nat) (s : State) : Host.Outcome State Fault Refusal :=
  match (s.part part).bootAt with
  | none => .next s
  | some t =>
    if !s.late t then .next s
    else if s.husk.step = 5 then .next (s.stow.bootFail 5)
    else if (s.part part).pstate = 1 then .next ((s.stow.offPart part).mboxAnswer (0x200 + part))
    else .next (s.modPart part (fun x => { x with bootAt := none }))

/-- A supervisor reports ready, in time: IN_SERVICE, and STEP 6 once every partition's has (R418, R454). -/
def execSupervisorReady (part : Nat) (s : State) : Host.Outcome State Fault Refusal :=
  if (s.part part).pstate ≠ 1 then .next s
  else if (match (s.part part).bootAt with | some t => s.late t | none => false) then execSupervisorReadyTimeout part s
  else
    let s1 := s.modPart part (fun x => { x with pstate := 2, bootAt := none })
    if s1.husk.step = 5 ∧ (List.range s1.partCount).all (fun p => (s1.part p).pstate == 2) then
      .next { s1 with husk := { s1.husk with step := 6 } }
    else .next s1

/-! ### Bring-up (R454) -/

/-- The supervisors of partitions from p on are verified and launched. -/
def State.launchSups : Nat → State → Nat → List SupervisorBoot → State
  | 0, s, _, _ => s
  | _ + 1, s, _, [] => s.bootFail 5
  | n + 1, s, p, b :: rest => if s.bootOk b then State.launchSups n (s.launchSup p b) (p + 1) rest else s.bootFail 5

/-- The decode tables verify, and every partition loads them. -/
def State.bootTables (s : State) (x : Signed) : Option State :=
  if s.imageOk x then
    (List.range s.partCount).foldl (fun (a : Option State) p =>
      a.bind (fun b => b.loadTables p (x.body.take 1024) (x.body.drop 1024))) (some s)
  else none

/-- Steps 2 to 5, in order. -/
def State.bootFrom2 (s : State) (b : PowerOn) : State :=
  match s.acceptRecord b.record with
  | none => s.bootFail 2
  | some w =>
    let s1 := (s.setRecord w).extend 1 b.record.body
    if !b.hbmTrained then s1.bootFail 3
    else
      let s2 := s1.extend 2 b.hbmParams
      if !b.portsUp then s2.bootFail 4
      else
        let s3 := ({ s2 with time := s2.time + b.setForward.toNat, husk := { s2.husk with ports := b.ports } } : State).extend 3
          ((List.range s2.partCount).flatMap (fun p => routeBytes (s2.routeTable p b.ports)))
        match s3.bootTables b.tables with
        | none => s3.bootFail 5
        | some s4 =>
          let s5 := { s4 with husk := { s4.husk with step := 5 } }
          State.launchSups s5.partCount s5 0 b.sups

/-- POWER_ON (R454): Germ, Husk, then the other steps; it ends at the supervisor step or where a step fails. The device's
certificates are verified at step 1 (DESIGN CHOICE, notes/assumptions/21.md). -/
def execPowerOn (boot : PowerOn) (s : State) : Host.Outcome State Fault Refusal :=
  if s.husk.step ≠ 0 ∨ s.husk.off then .next s
  else
    let s0 := s.stow.extend 0 boot.husk.body
    if !signedOk boot.husk then .next (s0.bootFail 0)
    else if !signedOk boot.certs ∨ !boot.selfTest then .next (s0.bootFail 1)
    else .next (({ s0 with husk := { s0.husk with step := 1, certs := boot.certs.body } } : State).bootFrom2 boot)

/-! ### Power and cooling (R455, R456) -/

/-- At 105 degrees a die's clocks fall to half; below, they are whole again (DESIGN CHOICE, notes/assumptions/21.md). -/
def execThermalThrottle (die temp : Nat) (s : State) : Host.Outcome State Fault Refusal :=
  let rest := s.husk.half.filter (· != die)
  .next { s with husk := { s.husk with half := if 105 ≤ temp then rest ++ [die] else rest } }

/-- At 115 degrees the module is powered down. -/
def execThermalShutdown (temp : Nat) (s : State) : Host.Outcome State Fault Refusal :=
  if 115 ≤ temp then
    let t := s.stow.bootFail 7
    .next { t with husk := { t.husk with off := true } }
  else .next s

/-- The enabled D-cores of some dies. -/
def State.dCores (s : State) (l : List Nat) : Nat := (l.map (fun d => popN (enableOf s.husk.record d) 34)).sum

/-- The watts of a partition: the module's, in proportion to its enabled D-cores (R455); 2,000 at most while the coolant is low
(R456). -/
def State.share (s : State) (p : Nat) : Nat :=
  let all := wbits s.husk.record 416 32
  (if s.husk.cool then Nat.min 2000 all else all) * s.dCores (s.diesOf p) / s.dCores (List.range 4)

/-- Husk looks at what a partition draws: its clocks move by 25 MHz, down while it draws more than its share, else up. `clkCut` is
how far they stand below the record's limits. -/
def execPowerLimitStep (part draw : Nat) (s : State) : Host.Outcome State Fault Refusal :=
  let most := Nat.max (wbits s.husk.record 400 16) (wbits s.husk.record 384 16)
  .next (s.modPart part (fun x => { x with
    clkCut := if s.share part < draw then Nat.min most (x.clkCut + 25) else x.clkCut - 25 }))

/-- Below 4.0 L/min the module is held to 2,000 W. -/
def execCoolantFlowLow (centilitres : Nat) (s : State) : Host.Outcome State Fault Refusal :=
  .next (if centilitres < 400 then { s with husk := { s.husk with cool := true } } else s)

def execCoolantFlowRestored (centilitres : Nat) (s : State) : Host.Outcome State Fault Refusal :=
  .next (if 400 ≤ centilitres then { s with husk := { s.husk with cool := false } } else s)

end Sys2Proof.Machine
end

