-- ==== Sys2Proof/Machine/Lane.lean ====
section
/-!
DEFINITION. Lane integer instructions: majors 0x30 to 0x36 (R187 to R200).
-/

namespace Sys2Proof.Machine

/-- The lane integer operation `f` on lopnd(A) and lopnd(B) (R192, R193). -/
def laneBin (i : Instr) (o : COps) (s : State) (f : Int → Int → Int) : Host.Outcome State Fault Refusal :=
  issue i s (fun s => .ok ((s.mapLanes o o.w64 (fun l =>
    (o.result (f (o.opnd (s.lA o o.w64 l)) (o.opnd (s.lB o o.w64 l)))).toNat)).advance i))

def execLaneAdd (o : COps) (s : State) := laneBin (.laneAdd o) o s (· + ·)
def execLaneSub (o : COps) (s : State) := laneBin (.laneSub o) o s (· - ·)
def execLaneMul (o : COps) (s : State) := laneBin (.laneMul o) o s (· * ·)
def execLaneMulh (o : COps) (s : State) := laneBin (.laneMulh o) o s (fun a b => (a * b) / (2 ^ o.w : Nat))
def execLaneAnd (o : COps) (s : State) := laneBin (.laneAnd o) o s (intAnd o.w)
def execLaneOr (o : COps) (s : State) := laneBin (.laneOr o) o s (intOr o.w)
def execLaneXor (o : COps) (s : State) := laneBin (.laneXor o) o s (intXor o.w)
def execLaneMin (o : COps) (s : State) := laneBin (.laneMin o) o s min
def execLaneMax (o : COps) (s : State) := laneBin (.laneMax o) o s max

/-- Any other per-lane result. -/
def laneOp (i : Instr) (o : COps) (s : State) (f : State → Nat → Nat) : Host.Outcome State Fault Refusal :=
  issue i s (fun s => .ok ((s.mapLanes o o.w64 (f s)).advance i))

/-- The shift count is one register whatever the width (R192). -/
def execLaneShl (o : COps) (s : State) := laneOp (.laneShl o) o s (fun s l =>
  (o.result (o.opnd (s.lA o o.w64 l) * (2 ^ shiftCount (s.lB o false l) : Nat))).toNat)

def execLaneShr (o : COps) (s : State) := laneOp (.laneShr o) o s (fun s l =>
  (o.result (o.opnd (s.lA o o.w64 l) / (2 ^ shiftCount (s.lB o false l) : Nat))).toNat)

def execLaneClz (o : COps) (s : State) := laneOp (.laneClz o) o s (fun s l => clzN (s.lA o o.w64 l) o.w)

def execLanePopc (o : COps) (s : State) := laneOp (.lanePopc o) o s (fun s l => popN (s.lA o o.w64 l) o.w)

def execMad (o : COps) (s : State) := laneOp (.mad o) o s (fun s l =>
  (o.result (o.opnd (s.lA o o.w64 l) * o.opnd (s.lB o o.w64 l) + o.opnd (s.lC o o.w64 l))).toNat)

def execLaneSel (o : COps) (s : State) := laneOp (.laneSel o) o s (fun s l =>
  (o.result (if (s.kreg o.c).getLsbD l then o.opnd (s.lA o o.w64 l) else o.opnd (s.lB o o.w64 l))).toNat)

def execLaneMov (o : COps) (s : State) := laneOp (.laneMov o) o s (fun s l => (o.result (o.opnd (s.lB o o.w64 l))).toNat)

/-- `bfx` and `bfi` want width 32 (R195). -/
def execLaneBfx (o : COps) (s : State) := issue (.laneBfx o) s (fun s =>
  if o.x.toNat % 4 ≠ 2 then .error undef8
  else .ok ((s.mapLanes o false (fun l => bfx 32 5 o.signed (s.lA o false l) (s.lB o false l))).advance (.laneBfx o)))

def execLaneBfi (o : COps) (s : State) := issue (.laneBfi o) s (fun s =>
  if o.x.toNat % 4 ≠ 2 then .error undef8
  else .ok ((s.mapLanes o false (fun l =>
    bfi 32 5 (s.grp.v o.d.toNat l).toNat (s.lA o false l) (s.lB o false l))).advance (.laneBfi o)))

def execLaneCmp (cc : ICond) (o : COps) (s : State) := issue (.laneCmp cc o) s (fun s =>
  let act := s.active o.guard o.neg
  let v := maskOf ((lanesOf act).filter (fun l => condHolds cc (o.opnd (s.lA o o.w64 l)) (o.opnd (s.lB o o.w64 l))))
  .ok ((s.setKLanes o.d act v).advance (.laneCmp cc o)))

/-- A shuffle with computed source `src i b`, `wrap` for the forms that take it modulo 64 (R197). -/
def shuffle (i : Instr) (o : COps) (s : State) (wrap : Bool) (src : Nat → Nat → Int) : Host.Outcome State Fault Refusal :=
  issue i s (fun s =>
    if o.x ≠ 2 ∧ o.x ≠ 3 then .error undef8
    else
      let act := s.active o.guard o.neg
      let from_ := fun (l : Nat) =>
        let j := src l (s.lB o false l)
        let k : Int := if s.blk.legacy then j % 32 else if wrap then j % 64 else j
        if 0 ≤ k ∧ k < 64 ∧ act.getLsbD k.toNat then k.toNat else l
      .ok ((s.mapLanes o o.w64 (fun l => s.lA o o.w64 (from_ l))).advance i))

def execShfl (o : COps) (s : State) := shuffle (.shfl o) o s true (fun _ b => b)
def execShflUp (o : COps) (s : State) := shuffle (.shflUp o) o s false (fun i b => (i : Int) - b)
def execShflDn (o : COps) (s : State) := shuffle (.shflDn o) o s false (fun i b => (i : Int) + b)
def execShflX (o : COps) (s : State) := shuffle (.shflX o) o s true (fun i b => (i ^^^ b : Nat))

/-- A scalar result over the active lanes; nothing is written when there are none (R191, R198). -/
def laneReduce (i : Instr) (o : COps) (s : State) (f : State → W64 → W64) : Host.Outcome State Fault Refusal :=
  issue i s (fun s =>
    let act := s.active o.guard o.neg
    .ok ((if act = 0 then s else s.setS o.d (f s act)).advance i))

/-- A vote: of the active lanes, with X zero (R198). -/
def voteOp (i : Instr) (o : COps) (s : State) (f : State → W64 → W64) : Host.Outcome State Fault Refusal :=
  if o.x = 0 then laneReduce i o s f else issue i s (fun _ => .error undef8)

def execVoteAll (o : COps) (s : State) := voteOp (.voteAll o) o s (fun s act =>
  BitVec.ofNat 64 (b2n (s.kreg o.a &&& act == act)))

def execVoteAny (o : COps) (s : State) := voteOp (.voteAny o) o s (fun s act =>
  BitVec.ofNat 64 (b2n (s.kreg o.a &&& act != 0)))

def execBallot (o : COps) (s : State) := voteOp (.ballot o) o s (fun s act => s.kreg o.a &&& act)

def execMatch (o : COps) (s : State) := issue (.laneMatch o) s (fun s =>
  if o.x ≠ 2 ∧ o.x ≠ 3 then .error undef8
  else
    let ls := lanesOf (s.active o.guard o.neg)
    .ok ((s.mapLanes o true (fun l =>
      (maskOf (ls.filter (fun j => s.lA o o.w64 j == s.lA o o.w64 l))).toNat)).advance (.laneMatch o)))

/-- An inclusive scan in ascending lane order (R199). -/
def scan (i : Instr) (o : COps) (s : State) (f : Int → Int → Int) : Host.Outcome State Fault Refusal :=
  issue i s (fun s =>
    let ls := lanesOf (s.active o.guard o.neg)
    let upTo := fun (l : Nat) => match (ls.filter (fun j => decide (j ≤ l))).map (fun j => o.opnd (s.lA o o.w64 j)) with
      | [] => 0
      | x :: xs => xs.foldl f x
    .ok ((s.mapLanes o o.w64 (fun l => (o.result (upTo l)).toNat)).advance i))

def execScanAdd (o : COps) (s : State) := scan (.scanAdd o) o s (· + ·)
def execScanMax (o : COps) (s : State) := scan (.scanMax o) o s max

/-- A reduction over the active lanes (R199). -/
def reduction (i : Instr) (o : COps) (s : State) (f : Int → Int → Int) : Host.Outcome State Fault Refusal :=
  laneReduce i o s (fun s act => match (lanesOf act).map (fun j => o.opnd (s.lA o o.w64 j)) with
    | [] => 0
    | x :: xs => o.result (xs.foldl f x))

def execRedAdd (o : COps) (s : State) := reduction (.redAdd o) o s (· + ·)
def execRedMin (o : COps) (s : State) := reduction (.redMin o) o s min
def execRedMax (o : COps) (s : State) := reduction (.redMax o) o s max
def execRedOr (o : COps) (s : State) := reduction (.redOr o) o s (intOr o.w)

/-- Whole-mask operations take effect whatever em holds (R200). -/
def maskOp (i : Instr) (o : COps) (s : State) (f : W64 → W64 → W64) : Host.Outcome State Fault Refusal :=
  issue i s (fun s => .ok ((s.setK o.d (f (s.kreg o.a) (s.kreg o.b))).advance i))

def execKand (o : COps) (s : State) := maskOp (.kand o) o s (· &&& ·)
def execKor (o : COps) (s : State) := maskOp (.kor o) o s (· ||| ·)
def execKxor (o : COps) (s : State) := maskOp (.kxor o) o s (· ^^^ ·)
def execKandn (o : COps) (s : State) := maskOp (.kandn o) o s (fun a b => a &&& ~~~b)

def execKset (o : COps) (s : State) := issue (.kset o) s (fun s => .ok ((s.setK o.d (s.sB o)).advance (.kset o)))

def execKget (o : COps) (s : State) := issue (.kget o) s (fun s => .ok ((s.setS o.d (s.kreg o.a)).advance (.kget o)))

end Sys2Proof.Machine
end

