-- ==== Sys2Proof/Machine/Sampling.lean ====
section
/-!
DEFINITION. What the active lanes of a memory instruction reach (R427, R433), stall sampling (R430 to R432) and
memory-instruction sampling (R433). Clocks that the spec counts and a program cannot see are free values
(DESIGN CHOICE, notes/assumptions/5.md).
-/

namespace Sys2Proof.Machine

/-! ### What a memory instruction reaches -/

/-- Bytes one lane reaches: their virtual, aperture or device addresses in order, the space of R433 (0 local HBM, 1 host or
peer, 2 window, 3 private), and whether they are read and written. -/
structure Reach where
  lane  : Nat
  addrs : List Nat
  space : Nat
  read  : Bool
  write : Bool
  deriving DecidableEq, Repr

/-- The address of one byte of a place, `va` being that of a place in memory (R90, R95, R215). -/
def State.reachAddr (s : State) (pl : Place) (va i : Nat) : Nat :=
  match pl with
  | .win b o => 2 ^ 55 + (match s.block b with | some x => x.cluidx | none => 0) * 2 ^ 32 + o + i
  | q => byteAddr q va i

def Place.space : Place → Nat
  | .mem k => if k < 2 ^ 60 then 0 else 1
  | .win _ _ => 2
  | .priv _ _ _ => 3

/-- What checked lanes reach. -/
def State.reachOf (s : State) (h : Shape) (l : List Checked) : List Reach :=
  l.filterMap (fun c => match c.2.2 with
    | .ok pl va fmt _ => some ⟨c.1, (List.range ((h.nb fmt).getD 0)).map (s.reachAddr pl va), pl.space, h.acc != .store, h.acc != .load⟩
    | _ => none)

/-- A lane access of format M. -/
def State.reachLanes (s : State) (o : MOps) (acc : Acc) (chk : State → Shape → Nat → State × LaneRes) : List Reach :=
  let h : Shape := ⟨o.ty.toNat, match o.long with | some e => e.pair && acc != .atomic | none => false, acc⟩
  s.reachOf h (s.checkAll (fun a l => chk a h l) (fun l => s.ea o l) (lanesOf (s.active o.guard o.neg))).2

/-- What the lanes of `st.m` reach at one member: nothing where a lane is off for all of them (R217). -/
def State.reachMulti (s : State) (o : MOps) (bks : List Nat) (bk : Nat) : List Reach :=
  s.reachLanes o .store (fun a h l => (a,
    if 2 ^ 30 ≤ a.ea o l then .viol 2
    else match a.checkMulti h bks (a.ea o l) with
      | .ok _ _ _ _ => a.checkWin h bk (a.ea o l)
      | r => r))

/-- A scalar access, for which lane 0 stands. -/
def State.reachScalar (s : State) (o : MOps) (acc : Acc) : List Reach :=
  let a := s.scalarEa o
  s.reachOf ⟨o.ty.toNat, false, acc⟩ [(0, a, (s.checkScalar o.ty.toNat a acc).2)]

/-- An element access. -/
def State.reachElems (s : State) (o : TOps) (write : Bool) : List Reach :=
  let w := s.grp.timg o.a.toNat
  let d := Desc.of w
  match memberArg s.blk d o.long with
  | none => []
  | some mem =>
    (s.checkElems o w d mem write).2.1.filterMap (fun e => match e.2.2.res with
      | .ok (.byte p _) va _ =>
        if e.2.2.ph then none
        else some ⟨e.1, (List.range d.bytes).map (s.reachAddr p va), p.space, !write, write⟩
      | _ => none)

/-- What an instruction of 0x14, 0x80 to 0x83 or 0xB1 reaches; copies reach nothing here (R427). -/
def State.reach (s : State) (i : Instr) : List Reach :=
  match i with
  | .scalarLd o => s.reachScalar o .load
  | .scalarSt o => s.reachScalar o .store
  | .ldG o => s.reachLanes o .load (fun a h l => a.checkAddr h (a.ea o l))
  | .stG o => s.reachLanes o .store (fun a h l => a.checkAddr h (a.ea o l))
  | .ldS o => s.reachLanes o .load (fun a h l => a.checkOwn h (a.ea o l))
  | .stS o => s.reachLanes o .store (fun a h l => a.checkOwn h (a.ea o l))
  | .ldP o => s.reachLanes o .load (fun a h l => a.checkPriv h l (a.ea o l))
  | .stP o => s.reachLanes o .store (fun a h l => a.checkPriv h l (a.ea o l))
  | .stM o => let bks := (multiMask o).filterMap (fun j => s.member j); bks.flatMap (s.reachMulti o bks)
  | .tldE o => s.reachElems o false
  | .tstE o => s.reachElems o true
  | i => (match i.mForm with
    | some (o, .atom) | some (o, .cas) => s.reachLanes o .atomic (fun a h l => a.checkAddr h (a.ea o l))
    | _ => [])

/-- What the lanes of a copy reach on its address side (R219, R433; DESIGN CHOICE, notes/assumptions/5.md). -/
def State.reachCopy (s : State) (o : MOps) (out : Bool) : List Reach :=
  (s.checkAll (fun a l => a.checkCopy o out l) (fun l => s.ea o l) (lanesOf (s.active o.guard o.neg))).2.filterMap (fun c =>
    match c.2.2 with
    | .ok pl va _ _ => some ⟨c.1, (List.range 16).map (s.reachAddr pl va), pl.space, !out, out⟩
    | _ => none)

/-- What a memory instruction reaches, copies included (R433). -/
def State.reachAll (s : State) (i : Instr) : List Reach :=
  match i with
  | .cpy16 o => s.reachCopy o false
  | .cpy16Out o => s.reachCopy o true
  | i => s.reach i

/-- A memory instruction of R427 and R433. -/
def memInstr (i : Instr) : Bool :=
  let op := (opOf i).1
  op == 0x14 || (decide (0x80 ≤ op) && decide (op ≤ 0x83)) || op == 0xB1

/-- The lanes on which a memory instruction is active; lane 0 stands for a scalar access. -/
def State.memLanes (s : State) (i : Instr) : W64 :=
  match i.mForm, i.tForm with
  | some (_, .scalar), _ => 1
  | some (o, _), _ => s.active o.guard o.neg
  | _, some (o, _) => s.active o.guard o.neg
  | _, _ => 0

/-! ### Memory-instruction sampling (R433) -/

/-- A record goes to a core's FIFO of four; when it is full the record is lost, and counted. -/
def State.pushMem (s : State) (core : Nat) (w : List W64) : State :=
  if (s.core core).memFifo.length < 4 then s.modCore core (fun x => { x with memFifo := x.memFifo ++ [w] })
  else s.ringDrop (s.partOfDie (core / 64)) 2 1

/-- The most lanes that name one address: the passes of R224. -/
def servePasses (l : List Reach) : Nat :=
  l.foldl (fun n r => Nat.max n (l.filter (fun q => q.addrs == r.addrs)).length) 0

/-- The record of an instruction at its issue, from the state it issued in; what is known at completion is still zero. -/
def State.memRecord (pre : State) (i : Instr) : List W64 :=
  let l := pre.reachAll i
  let sect := ((l.flatMap (fun r => r.addrs.map (· / 32))).eraseDups).length
  let extra := match i with | .atomXchg _ | .atomCas _ => servePasses l - 1 | _ => 0
  let t := if pre.frag.replays = 0 then pre.time else pre.frag.began
  packWords 8 [(b2n pre.blk.lcore, 131), ((match l with | r :: _ => r.space | [] => 0), 132),
    (Nat.min 255 (pre.frag.replays + extra), 134), (pre.blk.core % 64, 148), (pre.blk.core / 64, 154), (pre.grp.quad, 156),
    (pre.gkey, 158), ((opOf i).2, 164), ((opOf i).1, 168), (pre.ctxid, 176), (pre.blk.blkid, 192), (sect % 256, 320),
    (pre.frag.pc.toNat % 2 ^ 56, 328), ((pre.memLanes i).toNat, 384), (t % 2 ^ 64, 448)]

/-- The record of an instruction in flight: what its issue from state `pre` has added to its group's loads and stores. A store
that is already where only its own lane or its own block looks is acknowledged (DESIGN CHOICE, notes/assumptions/5.md). -/
def State.openSample (s pre : State) (i : Instr) (w : List W64) : MemSample :=
  let (loads, stores, off) := match s.group pre.bkey pre.gkey with
    | some g => (g.loads.filter (fun e => !pre.grp.loads.contains e), g.stores.filter (fun e => !pre.grp.stores.contains e), g.fmask)
    | none => ([], [], 0)
  let far := stores.filter (fun e => e.maker == .group && (match e.dst with | .own | .priv _ => false | _ => true))
  let beyond := (pre.reachAll i).any (fun r => r.space != 2)
  let copy := fun (o : MOps) (out : Bool) =>
    let job := if (s.core pre.blk.core).copies.has pre.jobNo then some pre.jobNo else none
    let at_ := if out && job.isSome then (lanesOf (pre.active o.guard o.neg &&& ~~~off)).map (pre.ea o) else []
    (⟨pre.bkey, pre.gkey, w, beyond, lanesOf (pre.memLanes i &&& ~~~off), [], [], job, o.ty.toNat % 8, at_⟩ : MemSample)
  match i with
  | .cpy16 o => copy o false
  | .cpy16Out o => copy o true
  | .scalarLd _ | .scalarSt _ => ⟨pre.bkey, pre.gkey, w, beyond, [0], [], far, none, 0, []⟩
  | i => ⟨pre.bkey, pre.gkey, w, beyond, lanesOf (pre.memLanes i &&& ~~~off), loads.flatMap (·.regs), far, none, 0, []⟩

/-- A user group's memory instruction issues for the first time, from state `pre`, if only to be held by a replayable fault: it is
counted, and every PERIOD-th is to be sampled. A replay is not counted again. Gives 0 for what is not counted, 2 for what is to be
sampled. -/
def State.tally (s pre : State) (i : Instr) : State × Nat :=
  let v := (s.part pre.blk.part).ms
  let c := pre.blk.core
  if !v.en || pre.grp.plevel != 0 || !memInstr i then (s, 0)
  else if pre.frag.tally ≠ 0 then (s, pre.frag.tally)
  else
    let n := (s.core c).memCnt + 1
    if n < v.period then (s.modCore c (fun x => { x with memCnt := n }), 1)
    else (s.modCore c (fun x => { x with memCnt := 0 }), 2)

/-- A memory instruction has issued from state `pre`. If it is sampled its record is begun; one with no active lane completes at
once. -/
def State.countMem (s pre : State) (i : Instr) : State :=
  let c := pre.blk.core
  let r := s.tally pre i
  if r.2 ≠ 2 then r.1
  else
    let w := pre.memRecord i
    if pre.memLanes i = 0 then r.1.pushMem c w
    else r.1.modCore c (fun x => { x with memOpen := x.memOpen ++ [s.openSample pre i w] })

/-- A store of a copy that writes memory, or another block's window, at some lanes' addresses. -/
def StoreEnt.ofCopy (e : StoreEnt) (tok : Nat) (at_ : List Nat) : Bool :=
  (match e.maker with | .token t _ => t == tok | _ => false) &&
  at_.any (fun a =>
    let b := match e.dst with | .window _ => a % 2 ^ 30 | _ => a
    e.bytes.any (fun x => decide (b ≤ x.at_ ∧ x.at_ < b + 16)))

/-- The sampled instruction's data has returned, and what it wrote has reached its home. -/
def State.memDone (s : State) (m : MemSample) : Bool :=
  match s.block m.blk, s.group m.blk m.grp with
  | some x, some g =>
    g.loads.all (fun e => e.regs.all (fun r => !m.regs.contains r)) &&
    m.made.all (fun e => !g.stores.any (fun y => y.dst == e.dst && y.bytes == e.bytes)) &&
    (match m.copy with | some j => !(s.core x.core).copies.has j && !g.stores.any (fun e => e.ofCopy m.tok m.out) | none => true)
  | _, _ => true

/-- The lane of a list that the open value n picks: that of the data that came last; 0 for none. -/
def pickLane (l : List Nat) (n : Nat) : Nat := if l.isEmpty then 0 else l.getD (n % l.length) 0

/-- MEMORY_SAMPLE: the oldest finished record takes its open fields (clocks in queues, LAST, LAT) and goes to the FIFO. The
clocks in a slice's and a controller's queue are 0 when no lane's request went beyond scratchpads. -/
def execMemorySample (core : Nat) (s : State) : Host.Outcome State Fault Refusal :=
  match (s.core core).memOpen.find? (fun m => s.memDone m) with
  | none => .next s
  | some m =>
    let f := fun (n : Nat) => (Config.freeValue (s.free + n)).toNat
    let far := fun (n : Nat) => if m.far then f n else 0
    let w := natWords (wordsNat m.recd ||| (f 0 <<< 99) ||| (pickLane m.lanes (f 4) <<< 142) ||| (far 1 <<< 224) |||
      (far 2 <<< 256) ||| (f 3 <<< 288)) 8
    .next (({ s with free := s.free + 5 } : State).modCore core (fun x => { x with memOpen := x.memOpen.erase m })
      |>.pushMem core w)

/-! ### Stall sampling (R430) -/

/-- The rendezvous at which a fragment of a group waits is complete, and waits for its slices (R399): its last participant
is held for them, and its group is not stopped (R429). -/
def State.meetsAll (s : State) (bk gk : Nat) (x : Block) (pod : Bool) : Bool :=
  match ({ s with bkey := bk, gkey := gk, blk := x } : State).meeting pod with
  | none => false
  | some l => l.any (fun p => match s.group p.1 p.2 with
    | some g => g.stop == .no && g.frags.any (fun f => f.2.st == .run && f.2.why == whyMeet)
    | none => false)

/-- The code of R430 for a fragment that did not issue and was not offered. -/
def State.reasonOf (s : State) (bk gk : Nat) (x : Block) (g : Group) (fid : Nat) (f : Fragment) : Nat :=
  let c := s.ctxOf x
  if g.stop ≠ .no ∨ s.ctxIs x.part c .halting ∨ s.ctxIs x.part c .halted ∨ (g.inTrap ∧ g.handler ≠ fid ∧ ¬ f.inHandler) then 14
  else match f.st with
    | .parked _ => 13
    | .barrier _ _ => 5
    | .rendezvous pod _ _ _ => if s.meetsAll bk gk x pod then 10 else 6
    | .vgrow _ _ _ => 12
    | .sleep _ | .pass | .waitY _ _ => 11
    | .drain => 4
    | .fault _ => 7
    | .mig _ => 15
    | .run => if f.why = whyMeet then 10 else if f.why = whyQuad then 6 else if f.why ∈ [4, 6, 7, 9, 10, 8, 3] then f.why else 15

/-- The live fragment that last issued earliest; with none live, any. -/
def Group.oldest (g : Group) : Option (Nat × Fragment) :=
  let l := g.frags.filter (fun p => p.2.live)
  match (if l.isEmpty then g.frags else l) with
  | [] => none
  | p :: rest => some (rest.foldl (fun a b => if b.2.issued < a.2.issued then b else a) p)

/-- The sampled fragment of a group and its reason, by the rows of R430. Of a fragment that was selected and does not issue, as at a
breakpoint (R427), the clock has noted the reason, with 16. -/
def State.sampled (s : State) (seen : List (FragRef × Nat)) (bk gk : Nat) (x : Block) (g : Group) : Option (Nat × Fragment × Nat) :=
  let mine := fun (k : Nat) => seen.findSome? (fun e => if e.1.blk = bk ∧ e.1.grp = gk ∧ e.2 = k then
    (g.frags.find e.1.fid).map (fun f => (e.1.fid, f)) else none)
  let kept := seen.findSome? (fun e => if e.1.blk = bk ∧ e.1.grp = gk ∧ 16 ≤ e.2 then some (e.2 - 16) else none)
  match mine 0, mine 2, mine 1 with
  | some p, _, _ => some (p.1, p.2, 0)
  | none, some p, _ => some (p.1, p.2, 2)
  | none, none, some p => some (p.1, p.2, 1)
  | none, none, none => g.oldest.map (fun p => (p.1, p.2, kept.getD (s.reasonOf bk gk x g p.1 p.2)))

/-- The first slot at or after the pointer, with wrap-around, that holds a user group of a quadrant. -/
def State.sampleSlot (s : State) (core quad n ptr : Nat) : Option (Nat × Nat × Block × Nat × Group) :=
  let here := (s.onCore core).flatMap (fun b => (s.groupsOf b.1).filterMap (fun g =>
    if g.2.quad = quad ∧ g.2.plevel = 0 then some (g.2.slot, b.1, b.2, g.1, g.2) else none))
  ((List.range n).map (fun i => (ptr + i) % n)).findSome? (fun i => here.find? (fun h => h.1 == i))

/-- A record of R431; PC is where the fragment issues next. -/
def State.stallRecord (s : State) (core quad : Nat) (x : Block) (gk : Nat) (g : Group) (f : Fragment) (reason : Nat) : List W64 :=
  packWords 4 [(x.blkid, 0), (b2n x.lcore, 32), (g.role.toNat, 33), (b2n (reason == 0), 35), (reason, 36), (core % 64, 40),
    (core / 64, 46), (quad, 48), (gk, 50), (s.ctxOf x, 56), (f.nextPc.toNat % 2 ^ 56, 72), ((f.em &&& ~~~g.fmask).toNat, 128),
    (s.time % 2 ^ 64, 192)]

def State.modSampler (s : State) (core quad : Nat) (f : Sampler → Sampler) : State :=
  s.modCore core (fun x => { x with samp := setNth x.samp quad (f (x.samp.getD quad .reset)) })

/-- A quadrant's counter has reached PERIOD. -/
def State.sampleDue (s : State) (core quad : Nat) : Bool :=
  let v := (s.part (s.partOfDie (core / 64))).sm
  v.en && decide (v.period ≤ ((s.core core).samp.getD quad .reset).clocks)

/-- STALL_SAMPLE: the counter returns to 0, and the quadrant takes one sample; with eight in the FIFO it is lost (R432). -/
def execStallSample (core quad : Nat) (s : State) : Host.Outcome State Fault Refusal :=
  if !s.sampleDue core quad then .next s
  else
    let m := (s.core core).samp.getD quad .reset
    let n := slotsPerQuad (decide (34 ≤ core % 64))
    let s1 := s.modSampler core quad (fun y => { y with clocks := 0 })
    match s.sampleSlot core quad n m.ptr with
    | none => .next s1
    | some (slot, bk, x, gk, g) =>
      let s2 := s1.modSampler core quad (fun y => { y with ptr := (slot + 1) % n })
      match s.sampled m.seen bk gk x g with
      | none => .next s2
      | some (_, f, reason) =>
        if m.fifo.length < 8 then
          .next (s2.modSampler core quad (fun y => { y with fifo := y.fifo ++ [s.stallRecord core quad x gk g f reason] }))
        else .next (s2.ringDrop (s.partOfDie (core / 64)) 1 1)

/-- SAMPLE_FIFO_DRAIN: one record of a FIFO goes to its ring, while the ring is not full (R424, R432). -/
def execSampleFifoDrain (core quad : Nat) (mem : Bool) (s : State) : Host.Outcome State Fault Refusal :=
  let p := s.partOfDie (core / 64)
  if mem then
    (match (s.core core).memFifo with
     | [] => .next s
     | w :: rest =>
       if (s.part p).ms.full then .next s
       else .next ((s.modCore core (fun x => { x with memFifo := rest })).ringPush p 2 w))
  else
    match ((s.core core).samp.getD quad .reset).fifo with
    | [] => .next s
    | w :: rest =>
      if (s.part p).sm.full then .next s
      else .next ((s.modSampler core quad (fun y => { y with fifo := rest })).ringPush p 1 w)

end Sys2Proof.Machine
end

