-- ==== Sys2Proof/Machine/Dispatch.lean ====
section
/-!
DEFINITION. The meaning of every instruction and event: one arm per constructor.
-/

namespace Sys2Proof.Machine

/-- The machine's answer to one instruction or event. -/
def exec (i : Instr) (s : State) : Host.Outcome State Fault Refusal :=
  match i with
  | .nop o => Sys2Proof.Machine.execNop o s
  | .br o => Sys2Proof.Machine.execBr o s
  | .call o => Sys2Proof.Machine.execCall o s
  | .brR o => Sys2Proof.Machine.execBrR o s
  | .callR o => Sys2Proof.Machine.execCallR o s
  | .ret o => Sys2Proof.Machine.execRet o s
  | .brc cc o => Sys2Proof.Machine.execBrc cc o s
  | .brv o => Sys2Proof.Machine.execBrv o s
  | .brvN o => Sys2Proof.Machine.execBrvN o s
  | .exit o => Sys2Proof.Machine.execExit o s
  | .trap o => Sys2Proof.Machine.execTrap o s
  | .tret o => Sys2Proof.Machine.execTret o s
  | .sleep o => Sys2Proof.Machine.execSleep o s
  | .sleepWake who => Sys2Proof.Machine.execSleepWake who s
  | .mark o => Sys2Proof.Machine.execMark o s
  | .mig o => Sys2Proof.Machine.execMig o s
  | .migReq o => Sys2Proof.Machine.execMigReq o s
  | .brk o => Sys2Proof.Machine.execBrk o s
  | .scalarAdd o => Sys2Proof.Machine.execScalarAdd o s
  | .scalarSub o => Sys2Proof.Machine.execScalarSub o s
  | .scalarMul o => Sys2Proof.Machine.execScalarMul o s
  | .scalarMulh o => Sys2Proof.Machine.execScalarMulh o s
  | .scalarDiv o => Sys2Proof.Machine.execScalarDiv o s
  | .scalarRem o => Sys2Proof.Machine.execScalarRem o s
  | .scalarAnd o => Sys2Proof.Machine.execScalarAnd o s
  | .scalarOr o => Sys2Proof.Machine.execScalarOr o s
  | .scalarXor o => Sys2Proof.Machine.execScalarXor o s
  | .scalarShl o => Sys2Proof.Machine.execScalarShl o s
  | .scalarShr o => Sys2Proof.Machine.execScalarShr o s
  | .scalarMin o => Sys2Proof.Machine.execScalarMin o s
  | .scalarMax o => Sys2Proof.Machine.execScalarMax o s
  | .scalarClz o => Sys2Proof.Machine.execScalarClz o s
  | .scalarPopc o => Sys2Proof.Machine.execScalarPopc o s
  | .scalarNot o => Sys2Proof.Machine.execScalarNot o s
  | .scalarCmp cc o => Sys2Proof.Machine.execScalarCmp cc o s
  | .scalarMov o => Sys2Proof.Machine.execScalarMov o s
  | .li o => Sys2Proof.Machine.execLi o s
  | .lea o => Sys2Proof.Machine.execLea o s
  | .scalarBfx o => Sys2Proof.Machine.execScalarBfx o s
  | .scalarBfi o => Sys2Proof.Machine.execScalarBfi o s
  | .scalarSel o => Sys2Proof.Machine.execScalarSel o s
  | .sread o => Sys2Proof.Machine.execSread o s
  | .swrite o => Sys2Proof.Machine.execSwrite o s
  | .swriteRole o => Sys2Proof.Machine.execSwriteRole o s
  | .swriteFpstat o => Sys2Proof.Machine.execSwriteFpstat o s
  | .swriteWinfmt o => Sys2Proof.Machine.execSwriteWinfmt o s
  | .swriteTrappc o => Sys2Proof.Machine.execSwriteTrappc o s
  | .swriteFqctl o => Sys2Proof.Machine.execSwriteFqctl o s
  | .swriteFqhead o => Sys2Proof.Machine.execSwriteFqhead o s
  | .swriteWdog o => Sys2Proof.Machine.execSwriteWdog o s
  | .swriteRingCtl o => Sys2Proof.Machine.execSwriteRingCtl o s
  | .swriteRingHead o => Sys2Proof.Machine.execSwriteRingHead o s
  | .swriteTrfilt o => Sys2Proof.Machine.execSwriteTrfilt o s
  | .scalarLd o => Sys2Proof.Machine.execScalarLd o s
  | .scalarSt o => Sys2Proof.Machine.execScalarSt o s
  | .laneAdd o => Sys2Proof.Machine.execLaneAdd o s
  | .laneSub o => Sys2Proof.Machine.execLaneSub o s
  | .laneMul o => Sys2Proof.Machine.execLaneMul o s
  | .laneMulh o => Sys2Proof.Machine.execLaneMulh o s
  | .laneAnd o => Sys2Proof.Machine.execLaneAnd o s
  | .laneOr o => Sys2Proof.Machine.execLaneOr o s
  | .laneXor o => Sys2Proof.Machine.execLaneXor o s
  | .laneShl o => Sys2Proof.Machine.execLaneShl o s
  | .laneShr o => Sys2Proof.Machine.execLaneShr o s
  | .laneMin o => Sys2Proof.Machine.execLaneMin o s
  | .laneMax o => Sys2Proof.Machine.execLaneMax o s
  | .laneClz o => Sys2Proof.Machine.execLaneClz o s
  | .lanePopc o => Sys2Proof.Machine.execLanePopc o s
  | .mad o => Sys2Proof.Machine.execMad o s
  | .laneSel o => Sys2Proof.Machine.execLaneSel o s
  | .laneBfx o => Sys2Proof.Machine.execLaneBfx o s
  | .laneBfi o => Sys2Proof.Machine.execLaneBfi o s
  | .laneMov o => Sys2Proof.Machine.execLaneMov o s
  | .laneCmp cc o => Sys2Proof.Machine.execLaneCmp cc o s
  | .shfl o => Sys2Proof.Machine.execShfl o s
  | .shflUp o => Sys2Proof.Machine.execShflUp o s
  | .shflDn o => Sys2Proof.Machine.execShflDn o s
  | .shflX o => Sys2Proof.Machine.execShflX o s
  | .voteAll o => Sys2Proof.Machine.execVoteAll o s
  | .voteAny o => Sys2Proof.Machine.execVoteAny o s
  | .ballot o => Sys2Proof.Machine.execBallot o s
  | .laneMatch o => Sys2Proof.Machine.execMatch o s
  | .scanAdd o => Sys2Proof.Machine.execScanAdd o s
  | .scanMax o => Sys2Proof.Machine.execScanMax o s
  | .redAdd o => Sys2Proof.Machine.execRedAdd o s
  | .redMin o => Sys2Proof.Machine.execRedMin o s
  | .redMax o => Sys2Proof.Machine.execRedMax o s
  | .redOr o => Sys2Proof.Machine.execRedOr o s
  | .kand o => Sys2Proof.Machine.execKand o s
  | .kor o => Sys2Proof.Machine.execKor o s
  | .kxor o => Sys2Proof.Machine.execKxor o s
  | .kandn o => Sys2Proof.Machine.execKandn o s
  | .kset o => Sys2Proof.Machine.execKset o s
  | .kget o => Sys2Proof.Machine.execKget o s
  | .addF32 o => Sys2Proof.Machine.execAddF32 o s
  | .subF32 o => Sys2Proof.Machine.execSubF32 o s
  | .mulF32 o => Sys2Proof.Machine.execMulF32 o s
  | .fmaF32 o => Sys2Proof.Machine.execFmaF32 o s
  | .minF32 o => Sys2Proof.Machine.execMinF32 o s
  | .maxF32 o => Sys2Proof.Machine.execMaxF32 o s
  | .absF32 o => Sys2Proof.Machine.execAbsF32 o s
  | .negF32 o => Sys2Proof.Machine.execNegF32 o s
  | .divF32 o => Sys2Proof.Machine.execDivF32 o s
  | .sqrtF32 o => Sys2Proof.Machine.execSqrtF32 o s
  | .rcpF32 o => Sys2Proof.Machine.execRcpF32 o s
  | .rsqrtF32 o => Sys2Proof.Machine.execRsqrtF32 o s
  | .exp2F32 o => Sys2Proof.Machine.execExp2F32 o s
  | .log2F32 o => Sys2Proof.Machine.execLog2F32 o s
  | .sinF32 o => Sys2Proof.Machine.execSinF32 o s
  | .cosF32 o => Sys2Proof.Machine.execCosF32 o s
  | .tanhF32 o => Sys2Proof.Machine.execTanhF32 o s
  | .packedF16Arith op o => Sys2Proof.Machine.execPackedF16Arith op o s
  | .packedBf16Arith op o => Sys2Proof.Machine.execPackedBf16Arith op o s
  | .floatCmp cc o => Sys2Proof.Machine.execFloatCmp cc o s
  | .cvt o => Sys2Proof.Machine.execCvt o s
  | .ldG o => Sys2Proof.Machine.execLdG o s
  | .stG o => Sys2Proof.Machine.execStG o s
  | .ldS o => Sys2Proof.Machine.execLdS o s
  | .stS o => Sys2Proof.Machine.execStS o s
  | .ldP o => Sys2Proof.Machine.execLdP o s
  | .stP o => Sys2Proof.Machine.execStP o s
  | .stM o => Sys2Proof.Machine.execStM o s
  | .loadCompletion who => Sys2Proof.Machine.execLoadCompletion who s
  | .writeAtHome who => Sys2Proof.Machine.execWriteAtHome who s
  | .cpy16 o => Sys2Proof.Machine.execCpy16 o s
  | .cpy16Out o => Sys2Proof.Machine.execCpy16Out o s
  | .copyCompletion core job => Sys2Proof.Machine.execCopyCompletion core job s
  | .atomAdd o => Sys2Proof.Machine.execAtomAdd o s
  | .atomMin o => Sys2Proof.Machine.execAtomMin o s
  | .atomMax o => Sys2Proof.Machine.execAtomMax o s
  | .atomAnd o => Sys2Proof.Machine.execAtomAnd o s
  | .atomOr o => Sys2Proof.Machine.execAtomOr o s
  | .atomXor o => Sys2Proof.Machine.execAtomXor o s
  | .atomXchg o => Sys2Proof.Machine.execAtomXchg o s
  | .atomCas o => Sys2Proof.Machine.execAtomCas o s
  | .fence scope o => Sys2Proof.Machine.execFence scope o s
  | .barArrive o => Sys2Proof.Machine.execBarArrive o s
  | .barWait o => Sys2Proof.Machine.execBarWait o s
  | .barSync o => Sys2Proof.Machine.execBarSync o s
  | .barExpect o => Sys2Proof.Machine.execBarExpect o s
  | .spawn o => Sys2Proof.Machine.execSpawn o s
  | .leave o => Sys2Proof.Machine.execLeave o s
  | .role o => Sys2Proof.Machine.execRole o s
  | .vgrow o => Sys2Proof.Machine.execVgrow o s
  | .vgrowGrant core => Sys2Proof.Machine.execVgrowGrant core s
  | .vgrowDeadlockDenial core => Sys2Proof.Machine.execVgrowDeadlockDenial core s
  | .vshrink o => Sys2Proof.Machine.execVshrink o s
  | .wait o => Sys2Proof.Machine.execWait o s
  | .waitY o => Sys2Proof.Machine.execWaitY o s
  | .launch o => Sys2Proof.Machine.execLaunch o s
  | .launchR o => Sys2Proof.Machine.execLaunchR o s
  | .tld o => Sys2Proof.Machine.execTld o s
  | .tst o => Sys2Proof.Machine.execTst o s
  | .tsetBase o => Sys2Proof.Machine.execTsetBase o s
  | .tsetFill o => Sys2Proof.Machine.execTsetFill o s
  | .tsetExt o => Sys2Proof.Machine.execTsetExt o s
  | .tq o => Sys2Proof.Machine.execTq o s
  | .tldE o => Sys2Proof.Machine.execTldE o s
  | .tstE o => Sys2Proof.Machine.execTstE o s
  | .trel o => Sys2Proof.Machine.execTrel o s
  | .tlay o => Sys2Proof.Machine.execTlay o s
  | .relayoutBlock core job => Sys2Proof.Machine.execRelayoutBlock core job s
  | .xquant o => Sys2Proof.Machine.execXquant o s
  | .xdequant o => Sys2Proof.Machine.execXdequant o s
  | .xpack o => Sys2Proof.Machine.execXpack o s
  | .xunpack o => Sys2Proof.Machine.execXunpack o s
  | .xconv o => Sys2Proof.Machine.execXconv o s
  | .transformPipeReply core => Sys2Proof.Machine.execTransformPipeReply core s
  | .mmaS mode o => Sys2Proof.Machine.execMmaS mode o s
  | .mmaQ mode o => Sys2Proof.Machine.execMmaQ mode o s
  | .mmaP mode o => Sys2Proof.Machine.execMmaP mode o s
  | .mmaB mode o => Sys2Proof.Machine.execMmaB mode o s
  | .matrixTileUpdate core => Sys2Proof.Machine.execMatrixTileUpdate core s
  | .accz o => Sys2Proof.Machine.execAccz o s
  | .accld o => Sys2Proof.Machine.execAccld o s
  | .accst o => Sys2Proof.Machine.execAccst o s
  | .accmax o => Sys2Proof.Machine.execAccmax o s
  | .accsum o => Sys2Proof.Machine.execAccsum o s
  | .accexp o => Sys2Proof.Machine.execAccexp o s
  | .accscl o => Sys2Proof.Machine.execAccscl o s
  | .acccvt o => Sys2Proof.Machine.execAcccvt o s
  | .mkld o => Sys2Proof.Machine.execMkld o s
  | .mkcls o => Sys2Proof.Machine.execMkcls o s
  | .mkapply o => Sys2Proof.Machine.execMkapply o s
  | .mkcnt o => Sys2Proof.Machine.execMkcnt o s
  | .mkclr o => Sys2Proof.Machine.execMkclr o s
  | .sgpack o => Sys2Proof.Machine.execSgpack o s
  | .sgsel o => Sys2Proof.Machine.execSgsel o s
  | .sgcnt o => Sys2Proof.Machine.execSgcnt o s
  | .ctxhalt o => Sys2Proof.Machine.execCtxhalt o s
  | .contextHaltComplete part ctx => Sys2Proof.Machine.execContextHaltComplete part ctx s
  | .ctxsave o => Sys2Proof.Machine.execCtxsave o s
  | .contextSaveComplete part ctx => Sys2Proof.Machine.execContextSaveComplete part ctx s
  | .ctxload o => Sys2Proof.Machine.execCtxload o s
  | .contextLoadComplete part ctx => Sys2Proof.Machine.execContextLoadComplete part ctx s
  | .ctxrun o => Sys2Proof.Machine.execCtxrun o s
  | .ctxkill o => Sys2Proof.Machine.execCtxkill o s
  | .tlbinv o => Sys2Proof.Machine.execTlbinv o s
  | .tlbinvAll o => Sys2Proof.Machine.execTlbinvAll o s
  | .fltresReplay o => Sys2Proof.Machine.execFltresReplay o s
  | .fltresEndGrid o => Sys2Proof.Machine.execFltresEndGrid o s
  | .fltresEndContext o => Sys2Proof.Machine.execFltresEndContext o s
  | .dtrd o => Sys2Proof.Machine.execDtrd o s
  | .pld o => Sys2Proof.Machine.execPld o s
  | .pst o => Sys2Proof.Machine.execPst o s
  | .migset o => Sys2Proof.Machine.execMigset o s
  | .migclr o => Sys2Proof.Machine.execMigclr o s
  | .evsig o => Sys2Proof.Machine.execEvsig o s
  | .blockMigration blk => Sys2Proof.Machine.execBlockMigration blk s
  | .migrationWithdrawal blk => Sys2Proof.Machine.execMigrationWithdrawal blk s
  | .tailPolicy grid => Sys2Proof.Machine.execTailPolicy grid s
  | .starvationGuard who => Sys2Proof.Machine.execStarvationGuard who s
  | .doorbellWrite part queue v => Sys2Proof.Machine.execDoorbellWrite part queue v s
  | .launchPacket part queue => Sys2Proof.Machine.execLaunchPacket part queue s
  | .waitPacket part queue => Sys2Proof.Machine.execWaitPacket part queue s
  | .nopPacket part queue => Sys2Proof.Machine.execNopPacket part queue s
  | .waitCounterRecheck part queue => Sys2Proof.Machine.execWaitCounterRecheck part queue s
  | .blockDispatch part => Sys2Proof.Machine.execBlockDispatch part s
  | .gridCompletion grid => Sys2Proof.Machine.execGridCompletion grid s
  | .blockKill blk => Sys2Proof.Machine.execBlockKill blk s
  | .uncorrectableError site => Sys2Proof.Machine.execUncorrectableError site s
  | .patrolScrub site => Sys2Proof.Machine.execPatrolScrub site s
  | .watchdog blk => Sys2Proof.Machine.execWatchdog blk s
  | .stallSample core quad => Sys2Proof.Machine.execStallSample core quad s
  | .memorySample core => Sys2Proof.Machine.execMemorySample core s
  | .sampleFifoDrain core quad mem => Sys2Proof.Machine.execSampleFifoDrain core quad mem s
  | .hostWindowAccess acc => Sys2Proof.Machine.execHostWindowAccess acc s
  | .peerFlitLoss addr => Sys2Proof.Machine.execPeerFlitLoss addr s
  | .timeBaseSteer ns => Sys2Proof.Machine.execTimeBaseSteer ns s
  | .getVersion => Sys2Proof.Machine.execGetVersion s
  | .getCapabilities => Sys2Proof.Machine.execGetCapabilities s
  | .negotiateAlgorithms => Sys2Proof.Machine.execNegotiateAlgorithms s
  | .getDigests => Sys2Proof.Machine.execGetDigests s
  | .getCertificate => Sys2Proof.Machine.execGetCertificate s
  | .challenge nonce => Sys2Proof.Machine.execChallenge nonce s
  | .getMeasurements nonce => Sys2Proof.Machine.execGetMeasurements nonce s
  | .drain part => Sys2Proof.Machine.execDrain part s
  | .drainComplete part => Sys2Proof.Machine.execDrainComplete part s
  | .reconfig part record => Sys2Proof.Machine.execReconfig part record s
  | .fwload part image tables => Sys2Proof.Machine.execFwload part image tables s
  | .spare part record => Sys2Proof.Machine.execSpare part record s
  | .bringup part boot => Sys2Proof.Machine.execBringup part boot s
  | .powerOn boot => Sys2Proof.Machine.execPowerOn boot s
  | .supervisorReadyTimeout part => Sys2Proof.Machine.execSupervisorReadyTimeout part s
  | .thermalThrottle die temp => Sys2Proof.Machine.execThermalThrottle die temp s
  | .thermalShutdown temp => Sys2Proof.Machine.execThermalShutdown temp s
  | .powerLimitStep part draw => Sys2Proof.Machine.execPowerLimitStep part draw s
  | .coolantFlowLow centilitres => Sys2Proof.Machine.execCoolantFlowLow centilitres s
  | .supervisorReady part => Sys2Proof.Machine.execSupervisorReady part s
  | .coolantFlowRestored centilitres => Sys2Proof.Machine.execCoolantFlowRestored centilitres s

end Sys2Proof.Machine
end

