-- ==== Sys2Proof/Machine/Fetch.lean ====
section
/-!
DEFINITION. One instruction of one fragment: fetching its words (R142, R367, R372), decode (R158), breakpoints and what a
debug slot makes of it (R427, R428), its meaning, the count of the memory sampler (R433).
-/

namespace Sys2Proof.Machine

/-! ### Fetch -/

/-- One word of the text, at a program counter: read at its home, or what stops the fetch (DEDUCED, notes/assumptions/56.md). -/
def State.fetchWord (s : State) (pc : W64) : State × Except Stop W64 :=
  let bad := fun (cls detail : Nat) => Except.error (Stop.precise ⟨cls, detail, pc, s.frag.em, false⟩)
  if 2 ^ 55 ≤ pc.toNat then (s, bad 4 0)
  else match s.xlate s.blk.part s.blk.core s.ctxid pc.toNat .fetch with
    | (s1, .ok x) => if s1.poisoned x.key 8 then (s1, bad 6 0) else (s1, .ok (s1.mem.word x.key))
    | (s1, .error .cold) => (s1, .error (.replay ⟨5, 0, pc, s.frag.em, false⟩))
    | (s1, .error (.prot d)) => (s1, bad 2 d)
    | (s1, .error .poison) => (s1, bad 6 0)
    | (s1, .error _) => (s1, bad 4 0)

/-- The words of the instruction at the fragment's program counter: the second is 0 for a short one (DEDUCED, notes/assumptions/62.md). -/
def State.fetch (s : State) : State × Except Stop (W64 × W64) :=
  match s.fetchWord s.frag.pc with
  | (s1, .error e) => (s1, .error e)
  | (s1, .ok w0) =>
    if isLong w0 then
      match s1.fetchWord (s.frag.pc + 8) with
      | (s2, .ok w1) => (s2, .ok (w0, w1))
      | (s2, .error e) => (s2, .error e)
    else (s1, .ok (w0, 0))

/-- What decode may ask about the issuing group. -/
def State.decEnv (s : State) : DecEnv := ⟨16 * s.grp.vblk.length, s.grp.plevel⟩

/-- R158, steps 2 to 4: the class of the pair in the running core kind's table, then the fields. -/
def State.decodeWords (s : State) (w0 w1 : W64) : Except Nat Instr :=
  let c := (s.part s.blk.part).decClass s.blk.lcore (bits w0.toNat 0 8 * 16 + bits w0.toNat 8 4)
  if c = 2 then .error 0
  else if c = 3 ∧ s.grp.plevel = 0 then .error 1
  else match decode s.decEnv w0 w1 with
    | .error e => .error e
    | .ok (.fltresReplay o) =>
      .ok (if (s.sreg o.b).toNat = 1 then .fltresEndGrid o else if (s.sreg o.b).toNat = 2 then .fltresEndContext o else .fltresReplay o)
    | .ok i => .ok i

/-! ### Debug events (R427) -/

/-- The PC breakpoint that an enabled slot has where the fragment stands. -/
def State.atBreak (s : State) : Option Nat :=
  match s.slot with
  | none => none
  | some d => (List.range 4).find? (fun j =>
      let w := (d.getD (4 + j) 0).toNat
      bitAt (d.getD 0 0).toNat (4 + j) && bits w 0 56 == s.frag.pc.toNat && bitAt w 63 == s.blk.lcore)

/-- The PC breakpoint that stops the fragment: not that of an instruction at which one has already stopped it. -/
def State.breakHere (s : State) : Option Nat := if s.frag.bpSkip == some s.frag.pc then none else s.atBreak

/-- The first byte of the lowest lane that a watch range meets: kind 3 for a load, 4 for a store or an atomic, whose read
matches too. -/
def watchHit (d : DebugSlot) (kind : Nat) (l : List Reach) : Option DebugEvent :=
  [0, 1].findSome? (fun j =>
    let (lg, wk, a) := d.watch j
    let sees := fun (r : Reach) => (kind == 4) == r.write && ((bitAt wk 0 && r.read) || (bitAt wk 1 && r.write))
    (l.filter sees).findSome? (fun r =>
      (r.addrs.find? (fun b => decide (a ≤ b ∧ b < a + 2 ^ lg))).map (fun b => ⟨kind, j, BitVec.ofNat 64 b⟩)))

/-- The event of lowest kind that an instruction issued from state `pre` raises, `brk` apart. -/
def eventOf (pre : State) (i : Instr) : Option DebugEvent :=
  match pre.slot with
  | none => none
  | some d =>
    let l := if memInstr i then pre.reach i else []
    match watchHit d 3 l, watchHit d 4 l with
    | some e, _ => some e
    | none, some e => some e
    | none, none => if d.sstep then some ⟨5, 0, 0⟩ else none

/-- A fragment of a group is stopped by an event; when the fragment has ended, the group's first one stands for it. -/
def State.stopFrag (s : State) (r : FragRef) (op : Nat × Nat) (ev : DebugEvent) : State :=
  match s.group r.blk r.grp with
  | none => s
  | some g =>
    if g.stop ≠ .no then s
    else
      let f := if g.frags.has r.fid then r.fid else match g.frags with | p :: _ => p.1 | [] => r.fid
      match s.take ⟨r.blk, r.grp, f⟩ with
      | some t => (t.debugStop op ev).stow
      | none => s

/-- The fragments that a rendezvous let go, besides the issuing one: each raises its own STEP (R429). One that has come to a join
parks there, or fuses. -/
def State.metOthers (pre t : State) : List FragRef :=
  pre.stow.allGroups.flatMap (fun q => q.2.2.2.frags.filterMap (fun f => match f.2.st with
    | .rendezvous _ _ _ _ =>
      (match t.fragment q.1 q.2.2.1 f.1 with
       | some y => (match y.st with
         | .rendezvous _ _ _ _ => none
         | _ => if y.pc = f.2.pc + 8 then some ⟨q.1, q.2.2.1, f.1⟩ else none)
       | none => some ⟨q.1, q.2.2.1, f.1⟩)
    | _ => none))

/-- What follows an issue of `i` from state `pre` that gave state `t`: debug events, the memory sampler. -/
def State.after (pre t : State) (i : Instr) : State :=
  let r : FragRef := ⟨pre.bkey, pre.gkey, pre.fkey⟩
  let t1 := (t.stow).countMem pre i
  let t2 := match eventOf pre i with
    | some ev => t1.stopFrag r (opOf i) ev
    | none => t1
  match pre.slot with
  | none => t2
  | some d => if d.sstep then (State.metOthers pre t).foldl (fun (a : State) q => a.stopFrag q (opOf i) ⟨5, 0, 0⟩) t2 else t2

/-! ### One attempt -/

/-- The instruction has issued: it stands in the issue order, and its fragment did not only begin to wait at a rendezvous (DEDUCED, notes/assumptions/54.md). -/
def State.issuedAs (pre t : State) : Bool :=
  t.stamp != pre.stamp && (match t.fragment pre.bkey pre.gkey pre.fkey with
    | some f => (match f.st with | .rendezvous _ _ _ _ => false | _ => true)
    | none => true)

/-- The instruction has not issued, and nothing came of the attempt but a reason. -/
def State.stalled (pre t : State) : Bool :=
  t.stamp == pre.stamp && t.iss && t.frag.st == .run && t.frag.why != 0 && t.grp.stop == .no && t.frag.pc == pre.frag.pc

/-- A replayable fault holds the instruction. -/
def State.heldAt (t pre : State) : Bool :=
  t.iss && t.frag.pc == pre.frag.pc && (match t.frag.st with | .fault _ => true | _ => false)

/-- A memory instruction that a replayable fault holds has issued once, for the memory sampler (R433). -/
def State.countHeld (t pre : State) (i : Instr) : State :=
  let r := t.tally pre i
  { r.1 with frag := { r.1.frag with tally := r.2 } }

/-- The taken fragment's instruction, whose words decode to `i`, is executed: a breakpoint comes first, debug events and
samples after. -/
def State.execute (s : State) (i : Instr) : Host.Outcome State Fault Refusal :=
  match exec i s with
  | .next t =>
    if s.stalled t then .next t
    else match s.breakHere with
      | some j => .next (s.debugStop (opOf i) ⟨2, j, 0⟩)
      | none => .next (if s.issuedAs t then s.after t i else if t.heldAt s then t.countHeld s i else t)
  | .fault f => .fault f
  | .refused r => .refused r

/-- A fetch fault at the target of a branch leaves the target in TRAPPC (R175). -/
def State.badTarget (s : State) (f : FaultInfo) : State :=
  if f.cls = 4 ∧ s.frag.jumped then { s with grp := { s.grp with trap := { s.grp.trap with pc := s.frag.pc } } } else s

/-- The taken fragment tries to issue: at a join of its stack it parks (R19); else its instruction is fetched, decoded and
executed. A breakpoint comes before the trap of a word that does not decode (R427). -/
def State.attempt (s : State) : Host.Outcome State Fault Refusal :=
  if s.atJoin s.frag.pc then .next (s.goto s.frag.pc)
  else match s.fetch with
    | (s1, .error (.precise f)) => .next ((s1.badTarget f).precise (0, 0) f)
    | (s1, .error (.replay f)) => .next (s1.replay (0, 0) f)
    | (s1, .error _) => .next s1
    | (s1, .ok (w0, w1)) =>
      match s1.decodeWords w0 w1, s1.breakHere with
      | .error _, some j => .next (s1.debugStop (bits w0.toNat 0 8, bits w0.toNat 8 4) ⟨2, j, 0⟩)
      | .error c, none => .next (s1.userTrap w0 1 c)
      | .ok i, _ => s1.execute i

/-- The taken fragment may issue at all (R184, R344, R400, R418, R428): its group is not stopped, its context runs, and no
other fragment of its group runs the trap handler. -/
def State.mayIssue (s : State) : Bool :=
  s.frag.st == .run && s.grp.stop == .no && s.ctxIs s.blk.part s.ctxid .running && (s.part s.blk.part).pstate != 0 &&
  !s.husk.off && s.husk.step != 15 && (!s.grp.inTrap || s.grp.handler == s.fkey || s.frag.inHandler)

/-- A fragment that has been selected issues. -/
def issueOne (r : FragRef) (s : State) : Host.Outcome State Fault Refusal :=
  match s.take r with
  | none => .next s
  | some t =>
    if t.mayIssue then
      match t.attempt with
      | .next u => .next u.stow
      | .fault f => .fault f
      | .refused x => .refused x
    else .next s

end Sys2Proof.Machine
end

