-- ==== Sys2Proof/Machine/Select.lean ====
section
/-!
DEFINITION. What happens next: issue selection in a quadrant (R395 to R398), the internal events in a fixed order, the
passing of time. Any other order is reached through `State.agenda` (DESIGN CHOICE, notes/assumptions/8.md).
-/

namespace Sys2Proof.Machine

/-! ### Issue selection -/

/-- The engine port an instruction needs (R396): 1 memory, 2 matrix, 3 transform, 4 engine, 5 control, 0 none. -/
def portOf (i : Instr) : Nat :=
  let (op, sub) := opOf i
  if op = 0x14 ∨ (0x80 ≤ op ∧ op ≤ 0x84) ∨ op = 0xB1 ∨ (op = 0xB0 ∧ sub ≤ 1) then 1
  else if op = 0xC8 ∨ op = 0xCA then 2
  else if op = 0xC0 then 3
  else if op = 0xB2 ∨ op = 0xE0 ∨ op = 0xE8 then 4
  else if (0xA0 ≤ op ∧ op ≤ 0xA3) ∨ (0xF0 ≤ op ∧ op ≤ 0xF6) then 5
  else 0

/-- The banks of the lane-register operands an instruction reads (R396); `bfi` reads its D (R195). -/
def banksOf (i : Instr) : List Nat :=
  let reads := match i, i.vDests with
    | .laneBfi _, _ => i.vUses
    | _, d :: _ => i.vUses.erase d
    | _, [] => i.vUses
  reads.map (fun u => u.reg % 4)

/-- The issue of a rendezvous: what only begins to wait at one is no candidate. -/
def lastToMeet (i : Instr) : Bool := match i with | .mmaQ _ _ | .mmaP _ _ => true | _ => false

/-- Two selected instructions conflict. -/
def conflict (i j : Instr) : Bool :=
  (portOf i != 0 && portOf i == portOf j) ||
  (List.range 4).any (fun b => decide (2 < ((banksOf i ++ banksOf j).filter (· == b)).length))

/-- A fragment that could issue at a clock, with its instruction. `code` is what the sampler notes of it if it is selected: 0, or,
where the selected fragment does not issue, as at a breakpoint (R427), 16 and the reason of its group's sample (R430). -/
structure Cand where
  who    : FragRef
  code   : Nat
  ins    : Instr
  issued : Nat
  low    : Nat
  role   : Nat
  raised : Bool
  since  : Nat
  deriving DecidableEq, Repr

/-- The order of R39: matrix-issue, producer, normaliser, generic. -/
def roleRank (r : BitVec 2) : Nat := match r.toNat with | 2 => 0 | 1 => 1 | 3 => 2 | _ => 3

/-- The instruction at a taken fragment's program counter; `nop` stands for what does not decode, which needs no port. -/
def State.nextInstr (s : State) : Instr :=
  let none_ : Instr := .nop ⟨0, 0, false, 0, false, false, false, 0, 0, 0, 0, none⟩
  match s.fetch with
  | (s1, .ok (w0, w1)) => (match s1.decodeWords w0 w1 with | .ok i => i | .error _ => none_)
  | _ => none_

/-- The reason of R430 of a group none of whose fragments is ready. -/
def State.groupReason (s : State) (bk gk : Nat) : Nat :=
  match s.block bk, s.group bk gk with
  | some x, some g => (match g.oldest with | some p => s.reasonOf bk gk x g p.1 p.2 | none => 15)
  | _, _ => 15

/-- Look at one fragment at a clock (R47): parking at a join and beginning to wait at a rendezvous happen at once, a
reason is noted, a ready fragment is a candidate. -/
def State.look (a : State × List Cand) (r : FragRef) : State × List Cand :=
  match a.1.take r with
  | none => a
  | some t =>
    if !t.mayIssue then a
    else match t.attempt with
      | .next u =>
        if t.atJoin t.frag.pc then (u.stow, a.2)
        else if t.stalled u then (u.stow, a.2)
        else
          let meets := match u.fragment r.blk r.grp r.fid with
            | some f => (match f.st with | .rendezvous _ _ _ _ => true | _ => false)
            | none => false
          if meets then (u.stow, a.2)
          else (a.1, a.2 ++ [⟨r, if t.issuedAs u then 0 else 16 + u.stow.groupReason r.blk r.grp, t.nextInstr, t.frag.issued, lowLane t.frag.em, roleRank t.grp.role, t.grp.raised, t.grp.since⟩])
      | _ => a

/-- Offered before another of the same group (R395). -/
def Cand.first (x y : Cand) : Bool := decide (x.issued < y.issued) || (x.issued == y.issued && decide (x.low ≤ y.low))

/-- Each group's offer. -/
def offers (l : List Cand) : List Cand :=
  l.filter (fun x => l.all (fun y => !(y.who.blk == x.who.blk && y.who.grp == x.who.grp) || y.who == x.who || x.first y))

/-- Ranked before (R395): raised groups, role, age. -/
def Cand.before (x y : Cand) : Bool :=
  let k := fun (c : Cand) => (if c.raised then 0 else 1 + c.role) * 2 ^ 64 + c.since
  decide (k x ≤ k y)

def insertCand (x : Cand) : List Cand → List Cand
  | [] => [x]
  | y :: ys => if x.before y then x :: y :: ys else y :: insertCand x ys

/-- What a clock does with the first two in rank: those that issue, in order, and those that lose a conflict (R396). The issue of
a rendezvous has the matrix port ahead of another's (R399). -/
def chooseTwo (l : List Cand) : List Cand × List Cand :=
  match l with
  | [] => ([], [])
  | [x] => ([x], [])
  | x :: y :: _ =>
    if conflict x.ins y.ins then
      let both := portOf x.ins == 2 && portOf y.ins == 2
      let xWins := if both && lastToMeet x.ins != lastToMeet y.ins then lastToMeet x.ins
        else if x.raised != y.raised then x.raised else decide (x.since ≤ y.since)
      if xWins then ([x], [y]) else ([y], [x])
    else ([x, y], [])

/-- A rendezvous in which a group of a quadrant waits issues at this clock: its last participant, of any quadrant, is ready, and every
slice is free (R399). -/
def State.meetDue (s : State) (core quad : Nat) : Bool :=
  let issues := fun (p : Nat × Nat) (f : Nat) => match s.take ⟨p.1, p.2, f⟩ with
    | some t => t.mayIssue && lastToMeet t.nextInstr && (match t.attempt with | .next u => !t.stalled u && t.issuedAs u | _ => false)
    | none => false
  (s.onCore core).any (fun b => (s.groupsOf b.1).any (fun g => g.2.quad == quad && (match g.2.waiter with
    | none => false
    | some w =>
      match ({ s with bkey := b.1, gkey := g.1, blk := b.2 } : State).meeting w.pod with
      | none => false
      | some l => l.any (fun p => match s.group p.1 p.2 with
        | some y => y.frags.any (fun f => f.2.st == .run && issues p f.1)
        | none => false))))

/-- The selected fragments of a quadrant that need its matrix port lose it to a rendezvous that issues at this clock (R399). -/
def yieldPort (due : Bool) (two : List Cand × List Cand) : List Cand × List Cand :=
  let loses := fun (c : Cand) => due && portOf c.ins == 2 && !lastToMeet c.ins
  (two.1.filter (fun c => !loses c), two.2 ++ two.1.filter loses)

/-- The fragments of a quadrant, by block, group and number. -/
def State.quadFrags (s : State) (core quad : Nat) : List FragRef :=
  (s.onCore core).flatMap (fun b => (s.groupsOf b.1).flatMap (fun g =>
    if g.2.quad = quad then g.2.frags.map (fun f => ⟨b.1, g.1, f.1⟩) else []))

/-- A fragment in `sleep 0` has given up its round (R180). -/
def Fragment.passed (f : Fragment) : Fragment := match f.st with | .pass => { f with st := .run } | _ => f

/-- One clock of a quadrant: the guard raises groups whose count has reached 64, up to two fragments are selected, the
counts and the sampler move on, and those in `sleep 0` may issue from the next on (R180, R395 to R398, R430) (DESIGN CHOICE, notes/assumptions/60.md). -/
def clockQuad (core quad : Nat) (s : State) : Host.Outcome State Fault Refusal :=
  let refs := s.quadFrags core quad
  let guard := refs.foldl (fun (a : State) r => a.modGroup r.blk r.grp (fun g => if 64 ≤ g.starve then { g with raised := true } else g)) s
  let seen := refs.foldl State.look (guard, [])
  let offered := offers seen.2
  let two := yieldPort (guard.meetDue core quad) (chooseTwo (offered.foldl (fun l x => insertCand x l) []))
  let waits := offered.filter (fun c => !two.1.any (fun d => d.who == c.who))
  let s1 := waits.foldl (fun (a : State) c => a.modGroup c.who.blk c.who.grp (fun g => { g with starve := g.starve + 1 })) seen.1
  let code := fun (c : Cand) => (c.who, if two.1.any (fun d => d.who == c.who) then c.code else if two.2.any (fun d => d.who == c.who) then 2 else 1)
  let sm := (s.part (s.partOfDie (core / 64))).sm
  let s2 := if sm.en then s1.modSampler core quad (fun y => { y with clocks := y.clocks + 1, seen := offered.map code }) else s1
  let s3 := refs.foldl (fun (a : State) r => a.modFrag r.blk r.grp r.fid Fragment.passed) s2
  .next { s3 with slots := two.1.map (·.who) }

/-! ### Internal events -/

/-- The cores on which something is resident. -/
def State.liveCores (s : State) : List Nat := ((s.allBlocks.map (fun b => b.2.core)) ++ s.cores.map (·.1)).eraseDups

/-- The quadrants that have clocks of interest. -/
def State.quads (s : State) : List (Nat × Nat) :=
  ((s.allBlocks.map (fun b => b.2.core)).eraseDups).flatMap (fun c => (List.range (coreQuads (decide (34 ≤ c % 64)))).map (fun q => (c, q)))

/-- The events that the device itself can bring about, in the default order; an OFFLINE partition brings about none (R418). -/
def State.events (s : State) : List Instr :=
  let on := fun (p : Nat) => (s.part p).pstate != 0
  let gs := (s.allGroups.filter (fun q => on q.2.1.part)).map (fun q => ((⟨q.1, q.2.2.1⟩ : GroupRef), q.2.2.2))
  let cs := s.liveCores.filter (fun c => on (s.partOfDie (c / 64)))
  let ps := (List.range 4).filter on
  let bs := (s.allBlocks.filter (fun b => on b.2.part)).map (·.1)
  let ks := (s.grids.filter (fun g => on (gridPart g.1))).map (·.1)
  let all : List (List Instr) := [
    gs.map (fun g => Instr.loadCompletion g.1),
    cs.map (fun c => Instr.transformPipeReply c),
    cs.map (fun c => Instr.matrixTileUpdate c),
    cs.flatMap (fun c => (s.core c).copies.map (fun j => Instr.copyCompletion c j.1)),
    cs.flatMap (fun c => (s.core c).rels.map (fun j => Instr.relayoutBlock c j.1)),
    gs.map (fun g => Instr.writeAtHome g.1),
    cs.map (fun c => Instr.vgrowGrant c),
    cs.map (fun c => Instr.vgrowDeadlockDenial c),
    gs.flatMap (fun g => g.2.frags.map (fun f => Instr.sleepWake ⟨g.1.blk, g.1.grp, f.1⟩)),
    gs.map (fun g => Instr.starvationGuard g.1),
    cs.map (fun c => Instr.memorySample c),
    cs.map (fun c => Instr.sampleFifoDrain c 0 true),
    cs.flatMap (fun c => (List.range 4).map (fun q => Instr.sampleFifoDrain c q false)),
    ps.flatMap (fun p => (s.part p).ctxs.map (fun c => Instr.contextHaltComplete p c.1)),
    ps.flatMap (fun p => (s.part p).ctxs.map (fun c => Instr.contextSaveComplete p c.1)),
    ps.flatMap (fun p => (s.part p).loads.map (fun c => Instr.contextLoadComplete p c.ctx)),
    bs.map (fun b => Instr.blockMigration b),
    bs.map (fun b => Instr.migrationWithdrawal b),
    ks.map (fun k => Instr.tailPolicy k),
    ks.map (fun k => Instr.gridCompletion k),
    ps.map (fun p => Instr.blockDispatch p),
    ps.flatMap (fun p => (List.range 65).map (fun q => Instr.launchPacket p q)),
    ps.flatMap (fun p => (List.range 64).map (fun q => Instr.nopPacket p q)),
    ps.flatMap (fun p => (List.range 64).map (fun q => Instr.waitPacket p q)),
    bs.map (fun b => Instr.watchdog b),
    (List.range 4).map (fun p => Instr.drainComplete p),
    (List.range 4).map (fun p => Instr.supervisorReadyTimeout p)]
  all.flatten

/-- The first event that changes something, and what it gives. -/
def firstEvent (s : State) : List Instr → Option State
  | [] => none
  | i :: rest => match exec i s with
    | .next t => if t = s then firstEvent s rest else some t
    | _ => firstEvent s rest

/-- With nothing selected and nothing on the agenda: the first internal event, else the clock of the next quadrant, and
after all of them one nanosecond (DESIGN CHOICE, notes/assumptions/8.md). -/
def defaultStep (s : State) : Host.Outcome State Fault Refusal :=
  match (if s.husk.off then none else firstEvent s s.events) with
  | some t => .next t
  | none =>
    match s.quads[s.turn]? with
    | some (c, q) => clockQuad c q { s with turn := s.turn + 1 }
    | none => .next (({ s with turn := 0 } : State).passTime 1)

/-- A quadrant whose sample is due (R430). -/
def State.dueSample (s : State) : Option (Nat × Nat) := s.quads.find? (fun q => s.sampleDue q.1 q.2)

/-- What the head of the agenda says (DESIGN CHOICE, notes/assumptions/1.md). -/
def choose (c : Choice) (s : State) : Host.Outcome State Fault Refusal :=
  match c with
  | .event i => if (encode i).isSome then .next s else exec i s
  | .clock core quad => clockQuad core quad s
  | .tick ns => .next (s.passTime ns)
  | .evict part idx => .next (s.modPart part (fun x => { x with tlb := dropNth x.tlb idx }))
  | .select who => .next { s with slots := [who] }
  | .load obj => .next (s.loadCode obj)
  | .place p core => .next (s.modPart p (fun x => { x with lfirst := core }))

end Sys2Proof.Machine
end

