-- ==== Sys2Proof/Machine/Start.lean ====
section
/-!
DEFINITION. A resident group whose next instruction has given words, selected to issue (DESIGN CHOICE, notes/assumptions/3.md).
-/

namespace Sys2Proof.Machine

/-- A leaf entry for page 0 at physical address 0 of the partition: V, LEAF, R, W, X, A, D. -/
def firstLeaf : W64 := 0x19F

/-- The group: every lane register, one fragment with all lanes at address 0. -/
def firstGroup (plevel : Nat) : Group := startGroup 0 0 plevel 0 (List.range 16) 0 0 (BitVec.ofNat 64 (2 ^ 64 - 1)) 0 0 []

/-- Its block: on an L-core, or on a D-core for an instruction that L-cores emulate. -/
def firstBlock (dcore : Bool) : Block :=
  { Block.reset with
    grid := gridKey 0 1, core := coreKey 0 (if dcore then 0 else 34), lcore := !dcore, regblk := 16, nmax := 1, n0 := 1
    bars := List.replicate 16 { Barrier.reset with m := 1 }
    groups := [(0, firstGroup (if dcore then 0 else 1))] }

/-- Its grid, in context 0 for a system group and context 1 for a user group. -/
def firstGrid (dcore : Bool) : Grid :=
  { newGrid (if dcore then 1 else 0) none [packWord0, 0, 0, 0, 0, 0, 0, 0] 1 0 7 false 0 none 0 (if dcore then 0 else 1) with
    kd := List.replicate 8 0, kdRead := true, next := 1, nblk := 1
    cbs := [(0, List.replicate 8 { Barrier.reset with m := 1 })], gbs := List.replicate 4 { Barrier.reset with m := 1 } }
where packWord0 : W64 := BitVec.ofNat 64 (2 ^ 32 + 0x11)

/-- The words of an instruction in memory, mapped, fetched next by a selected group. -/
def State.placeFirst (s : State) (w : Nat) : State :=
  let d := w % 256 == 0xC8
  let c := if d then 1 else 0
  let s1 := (s.stow.pokeBytes (hbmKey 0 0) (leBytes w 16)).modPart 0 (fun x => { x with
    pstate := 2, sm := { x.sm with en := false }, tlb := ⟨coreKey 0 (if d then 0 else 34), c, 0, 0, firstLeaf, 0⟩ :: x.tlb
    ctxs := x.ctxs.put c ⟨.running, [], 0, 0, [], [], false, false, none⟩ })
  { s1 with
    husk := { s1.husk with step := 6, off := false }
    blocks := s1.blocks.put (blockKey (gridKey 0 1) 0) (firstBlock d)
    grids := s1.grids.put (gridKey 0 1) (firstGrid d)
    slots := [⟨blockKey (gridKey 0 1) 0, 0, 0⟩] }

end Sys2Proof.Machine
end

