-- ==== Sys2Proof/Machine/Step.lean ====
section
/-!
DEFINITION. One step of the device, and where the next step's instruction is put to be fetched.
-/

namespace Sys2Proof.Machine

/-- One step: a stall sample that is due, else the next selected fragment's issue, else the head of the agenda, else what
the device does by itself. -/
def step (s : State) : Host.Outcome State Fault Refusal :=
  match s.stow.dueSample with
  | some (c, q) => exec (.stallSample c q) s.stow
  | none =>
    match s.stow.slots with
    | r :: rest => issueOne r { s.stow with slots := rest }
    | [] =>
      match s.stow.agenda with
      | c :: rest => choose c { s.stow with agenda := rest }
      | [] => defaultStep s.stow

/-- `s` with an instruction's words where the next step fetches: see Machine/Start.lean. -/
def State.withFetchWord (s : State) (_nbits w : Nat) : State := s.placeFirst w

end Sys2Proof.Machine
end

