-- ==== Sys2Proof/Safety.lean ====
section
/-!
DEFINITION. The terms in which claims are stated: when an instruction issues, what the issuing group and block hold
before and after it, and frames (what a step leaves unchanged).
-/

namespace Sys2Proof.Machine

/-! ### Views that hold whether or not the issuing fragment is back in its lists -/

/-- The issuing group. -/
def State.gv (s : State) : Group := (s.group s.bkey s.gkey).getD .reset

/-- The issuing block. -/
def State.bv (s : State) : Block := (s.block s.bkey).getD .reset

/-- The issuing fragment, while it lives. -/
def State.fv (s : State) : Option Fragment := s.fragment s.bkey s.gkey s.fkey

/-- s[r] of a group; s0 reads zero (R32). -/
def Group.sreg (g : Group) (r : BitVec 8) : W64 := if r = 0 then 0 else g.sregs.get r.toNat

/-- k[r] of a group as its storage has it; `State.kreg` adds k0 and the absent lanes (R190). -/
def Group.kraw (g : Group) (r : BitVec 8) : W64 := g.kregs.get r.toNat

/-- A byte as the issuing group's loads see it (R213, R290, R295). -/
def State.sees (s : State) (pl : Place) : Byte := s.seenBy s.bkey (s.viewOf s.bkey s.gv) pl

/-! ### When an instruction issues -/

/-- A fragment is issuing, no token its WAIT names is outstanding or carries an error, and the scoreboard holds none of
its registers, and no atomic of the group has passes left (R150, R158 step 5, R224). -/
structure State.Clear (s : State) (i : Instr) : Prop where
  iss     : s.iss = true
  waits   : s.grp.waits i.waitBits = false
  tokens  : s.grp.badTok i.waitBits = none
  regs    : s.grp.scored i.vUses = false
  owed    : s.grp.owed i.vDests = false
  serving : s.grp.serving = false

/-- An outcome is a next state with a property. -/
def Gives (r : Host.Outcome State Fault Refusal) (P : State → Prop) : Prop := ∃ t, r = .next t ∧ P t

/-! ### Frames -/

/-- The parts of the machine that a frame speaks of. The issuing fragment's program counter, the group's fragments and
joins, the stamps of its waits, and the counts of issue are in none of them. -/
inductive Piece where
  | sregs | vregs | kregs | tregs | toks | fpstat | fmask | trap | role | winsel | alloc | phases | stores | seen | loads | held
  | stop | place | window | rest | winfmt | bars | masks | counts | migr | ident | others | mem | poison | grids | cores | parts
  | images | husk | irqs | clock | free
  deriving DecidableEq, Repr

/-- A part is the same in two states. -/
def Piece.same (s t : State) : Piece → Prop
  | .sregs => t.gv.sregs = s.gv.sregs
  | .vregs => t.gv.vregs = s.gv.vregs
  | .kregs => t.gv.kregs = s.gv.kregs
  | .tregs => t.gv.tregs = s.gv.tregs
  | .toks => t.gv.toks = s.gv.toks
  | .fpstat => t.gv.fpstat = s.gv.fpstat
  | .fmask => t.gv.fmask = s.gv.fmask ∧ t.gv.viol = s.gv.viol
  | .trap => t.gv.trap = s.gv.trap
  | .role => t.gv.role = s.gv.role
  | .winsel => t.gv.winsel = s.gv.winsel
  | .alloc => t.gv.vblk = s.gv.vblk
  | .phases => t.fv.map (·.phases) = s.fv.map (·.phases) ∧ t.gv.pend = s.gv.pend ∧ t.gv.arrived = s.gv.arrived
  | .stores => t.gv.stores = s.gv.stores
  | .seen => t.gv.seen = s.gv.seen
  | .loads => t.gv.loads = s.gv.loads
  | .held => t.gv.held = s.gv.held
  | .stop => t.gv.stop = s.gv.stop
  | .place => t.gv.slot = s.gv.slot ∧ t.gv.quad = s.gv.quad ∧ t.gv.plevel = s.gv.plevel ∧ t.gv.pbase = s.gv.pbase
  | .window => t.bv.window = s.bv.window ∧ t.bv.winPub = s.bv.winPub ∧ t.bv.winSeq = s.bv.winSeq
  | .rest => t.bv.rest = s.bv.rest
  | .winfmt => t.bv.winfmt = s.bv.winfmt
  | .bars => t.bv.bars = s.bv.bars ∧ t.bv.carr = s.bv.carr
  | .masks => t.bv.masks = s.bv.masks
  | .counts => t.bv.nEmpty = s.bv.nEmpty ∧ t.bv.nFull = s.bv.nFull ∧ t.bv.nPart = s.bv.nPart
  | .migr => t.bv.mig = s.bv.mig
  | .ident => t.bv.part = s.bv.part ∧ t.bv.grid = s.bv.grid ∧ t.bv.blkid = s.bv.blkid ∧ t.bv.core = s.bv.core ∧
      t.bv.lcore = s.bv.lcore ∧ t.bv.legacy = s.bv.legacy ∧ t.bv.winsize = s.bv.winsize ∧ t.bv.argbase = s.bv.argbase ∧
      t.bv.cluidx = s.bv.cluidx ∧ t.bv.clusize = s.bv.clusize ∧ t.bv.winbase = s.bv.winbase ∧ t.bv.regblk = s.bv.regblk ∧
      t.bv.quadk = s.bv.quadk ∧ t.bv.acc = s.bv.acc ∧ t.bv.priv = s.bv.priv
  | .others => (∀ b, b ≠ s.bkey → t.block b = s.block b) ∧ ∀ g, g ≠ s.gkey → t.group s.bkey g = s.group s.bkey g
  | .mem => ∀ k, t.mem.byte k = s.mem.byte k
  | .poison => t.poison = s.poison
  | .grids => t.grids = s.grids
  | .cores => t.cores = s.cores
  | .parts => t.parts = s.parts
  | .images => t.images = s.images
  | .husk => t.husk = s.husk
  | .irqs => t.irqs = s.irqs
  | .clock => t.time = s.time
  | .free => t.free = s.free

/-- Everything but the parts listed is unchanged from `s` to `t`, for the group that issues in `s`. -/
def Frame (l : List Piece) (s t : State) : Prop :=
  (t.bkey = s.bkey ∧ t.gkey = s.gkey ∧ t.fkey = s.fkey) ∧ ∀ p, p ∉ l → p.same s t

/-! ### What an instruction that issues writes -/

/-- In `u` the fragment that issues in `s` still stands at its instruction; in `t` it has gone on to an address, where R19 and R28
apply at a join of its stack (`Branches` says what that does). -/
def State.Moves (s u t : State) (pc : W64) : Prop :=
  u.iss = true ∧ u.frag.pc = s.frag.pc ∧ u.frag.em = s.frag.em ∧ u.frag.joins = s.frag.joins ∧ t = u.goto pc

/-- The instruction completes: it makes a state with a property, from which its fragment goes on at an address. -/
def Goes (i : Instr) (s : State) (pc : W64) (P : State → Prop) : Prop := Gives (exec i s) (fun t => ∃ u, s.Moves u t pc ∧ P u)

/-- The same, the fragment going on past the instruction: 8 bytes, or 16 of a long form (R142). -/
def GoesOn (i : Instr) (s : State) (P : State → Prop) : Prop := Goes i s (s.frag.pc + BitVec.ofNat 64 i.len) P

/-- The same of an instruction whose effect follows the move of its fragment (R353): what holds of the state it leaves. It is stated
where no barrier arrival of the group is pending, and where the fragment is where the next address is no join of its stack. -/
def Passes (i : Instr) (s : State) (P : State → Prop) : Prop :=
  let pc := s.frag.pc + BitVec.ofNat 64 i.len
  s.grp.pend = [] → Gives (exec i s) (fun t => P t ∧ (s.atJoin pc = false → ∀ f, t.fv = some f → f.pc = pc ∧ f.em = s.frag.em))

/-- Of the scalar registers s[d] alone changes, to v; a write to s0 is discarded (R165). -/
def State.SetsS (s t : State) (d : BitVec 8) (v : W64) : Prop :=
  ∀ r, t.gv.sreg r = if r = d ∧ d ≠ 0 then v else s.gv.sreg r

/-- Of the lane registers D alone changes, or D and D + 1 when `wide`, in the lanes of `act`, to `f` of the lane (R187,
R188). -/
def State.SetsV (s t : State) (d : BitVec 8) (wide : Bool) (act : W64) (f : Nat → Nat) : Prop :=
  ∀ r l, l < 64 → t.gv.v r l =
    if act.getLsbD l = true ∧ r = d.toNat then BitVec.ofNat 32 (f l)
    else if wide = true ∧ act.getLsbD l = true ∧ r = d.toNat + 1 then BitVec.ofNat 32 (f l / 2 ^ 32)
    else s.gv.v r l

/-- Of the mask registers k[d] alone changes, in the lanes of `act` that the group has, to `f` of the lane; a write to k0
is discarded (R190). -/
def State.SetsK (s t : State) (d : BitVec 8) (act : W64) (f : Nat → Bool) : Prop :=
  ∀ r l, l < 64 → (t.gv.kraw r).getLsbD l =
    if r = d ∧ d ≠ 0 then (laneMask s.blk.legacy).getLsbD l && (if act.getLsbD l then f l else (s.gv.kraw d).getLsbD l)
    else (s.gv.kraw r).getLsbD l

/-- Issued, the instruction writes v to s[d] and goes on; nothing else changes. -/
def WritesS (i : Instr) (s : State) (d : BitVec 8) (v : W64) : Prop :=
  s.Clear i → GoesOn i s (fun t => Frame [.sregs] s t ∧ s.SetsS t d v)

/-- Issued, the instruction writes `f` of each active lane to D and goes on; nothing else changes. -/
def WritesV (i : Instr) (s : State) (o : COps) (wide : Bool) (f : Nat → Nat) : Prop :=
  s.Clear i → GoesOn i s (fun t => Frame [.vregs] s t ∧ s.SetsV t o.d wide (s.active o.guard o.neg) f)

/-- The same, with the status flags of each active lane raised (R134). -/
def WritesVF (i : Instr) (s : State) (o : COps) (wide : Bool) (f : Nat → Nat × Fl) : Prop :=
  s.Clear i → GoesOn i s (fun t =>
    Frame [.vregs, .fpstat] s t ∧ s.SetsV t o.d wide (s.active o.guard o.neg) (fun l => (f l).1) ∧
    (∀ j, t.gv.fpstat.getLsbD j =
      (s.gv.fpstat.getLsbD j || (lanesOf (s.active o.guard o.neg)).any (fun l => (f l).2.getLsbD j))))

/-- Issued, the instruction writes bits of k[D] in the active lanes and goes on; nothing else changes. -/
def WritesK (i : Instr) (s : State) (d : BitVec 8) (act : W64) (f : Nat → Bool) : Prop :=
  s.Clear i → GoesOn i s (fun t => Frame [.kregs] s t ∧ s.SetsK t d act f)

/-- Issued, the instruction raises the user trap with a cause and a code, and the fragment enters the handler (R159,
R184). -/
def Traps (i : Instr) (s : State) (cause ucode : Nat) : Prop :=
  s.Clear i → exec i s = .next (s.userTrap i.word0 cause ucode)

/-- What taking a user trap leaves (R159, R184): the trap registers, and the fragment at the handler with its em. `w` is the
first word of the instruction. -/
def State.Handles (s t : State) (w : W64) (cause ucode : Nat) : Prop :=
  Frame [.trap] s t ∧ t.fv.map (·.pc) = some s.gv.trap.hdl ∧ t.fv.map (·.em) = some s.frag.em ∧
  t.gv.trap.pc = s.frag.pc ∧ t.gv.trap.em = s.frag.em ∧ t.gv.trap.part = s.partner s.blk s.frag ∧ t.gv.trap.act = 1 ∧
  t.gv.trap.hdl = s.gv.trap.hdl ∧ t.gv.trap.op.toNat = cause * 2 ^ 60 + ucode * 2 ^ 56 + w.toNat % 2 ^ 26 ∧
  t.gv.trap.d = (w.extractLsb' 26 8).setWidth 64 ∧ t.gv.trap.a = (w.extractLsb' 34 8).setWidth 64 ∧
  t.gv.trap.b = (w.extractLsb' 42 8).setWidth 64 ∧ t.gv.trap.c = (w.extractLsb' 50 8).setWidth 64 ∧
  t.gv.trap.mod = (w.extractLsb' 58 6).setWidth 64

end Sys2Proof.Machine

namespace Sys2Proof

/-! ### Typed integers, said with words of w bits (R144, R165) -/

/-- The integer that the low w bits of a register stand for. -/
def COps.val (o : COps) (x : W64) : Int :=
  if o.x.toNat < 4 then (x.setWidth (8 * 2 ^ (o.x.toNat % 4))).toInt else ((x.setWidth (8 * 2 ^ (o.x.toNat % 4))).toNat : Int)

/-- An integer modulo 2^w, sign- or zero-extended to 64 bits. -/
def COps.ext (o : COps) (y : Int) : W64 :=
  if o.x.toNat < 4 then (BitVec.ofInt (8 * 2 ^ (o.x.toNat % 4)) y).signExtend 64
  else (BitVec.ofInt (8 * 2 ^ (o.x.toNat % 4)) y).setWidth 64

/-- A condition of `brc` on a signed value (R174). -/
def ZCond.holds (cc : ZCond) (x : Int) : Bool :=
  match cc with
  | .z => x == 0
  | .nz => x != 0
  | .lt => decide (x < 0)
  | .ge => decide (0 ≤ x)
  | .gt => decide (0 < x)
  | .le => decide (x ≤ 0)

end Sys2Proof

namespace Sys2Proof.Machine

/-! ### Exact values of encodings (R121) -/

/-- The value of a finite number; 0 for the others. -/
def Num.val (x : Num) : ℚ :=
  match x with
  | .fin s m e => (if s then -1 else 1) * (m : ℚ) * 2 ^ e
  | _ => 0

def Num.isFin (x : Num) : Bool := match x with | .fin _ _ _ => true | _ => false

/-- What an encoding stands for in a float format. -/
def Flt.val (f : Flt) (c : Nat) : ℚ := (f.decode c).val

/-- Rounds toward zero on a value of the sign given. -/
def RM.cuts (rm : RM) (neg : Bool) : Bool := match rm with | .rne => false | .rtz => true | .rup => neg | .rdn => !neg

/-- `c` is the encoding of a magnitude that rounds the exact magnitude `x` under a mode and sign (R129): no finite magnitude
lies nearer on the side the mode takes; for RNE none lies nearer on either side, and a tie takes an even encoding. -/
def Flt.Rounds (f : Flt) (rm : RM) (neg : Bool) (x : ℚ) (c : Nat) : Prop :=
  (rm.cuts neg = true → f.val c ≤ x ∧ ∀ d ≤ f.maxBits, f.val d ≤ x → f.val d ≤ f.val c) ∧
  (rm = .rne → ∀ d ≤ f.maxBits, |x - f.val c| ≤ |x - f.val d| ∧ (|x - f.val d| = |x - f.val c| → d = c ∨ c % 2 = 0)) ∧
  (rm ≠ .rne → rm.cuts neg = false → x ≤ f.val c ∧ ∀ d ≤ f.maxBits, x ≤ f.val d → f.val c ≤ f.val d)

/-- An exact magnitude that a mode rounds beyond the greatest finite one, the exponents taken to go on above it (R130 steps 3, 4). -/
def Flt.Overflows (f : Flt) (rm : RM) (neg : Bool) (x : ℚ) : Prop :=
  let max := f.val f.maxBits
  let ulp := max - f.val (f.maxBits - 1)
  (rm = .rne ∧ (max + ulp / 2 < x ∨ (x = max + ulp / 2 ∧ f.maxBits % 2 = 1))) ∨
  (rm.cuts neg = true ∧ max + ulp ≤ x) ∨ (rm ≠ .rne ∧ rm.cuts neg = false ∧ max < x)

/-- `round_to` of an exact magnitude that is not 0, with its sign and its flags (R130, R133, R202): `sat` as the conversion passes it. -/
def Flt.Converts (f : Flt) (rm : RM) (sat neg : Bool) (x : ℚ) (r : Nat × Fl) : Prop :=
  (f.Overflows rm neg x → r =
    if sat = true ∧ (f = .e4m3 ∨ f = .e5m2) then (f.sgn neg + f.maxBits, OF ||| NX ||| SAT)
    else (f.sgn neg + (if rm.cuts neg = true then f.maxBits else f.infBits), OF ||| NX)) ∧
  (¬ f.Overflows rm neg x → ∃ c ≤ f.maxBits, f.Rounds rm neg x c ∧
    r = (f.sgn neg + c, if x = f.val c then 0 else if c < 2 ^ f.mw then UF ||| NX else NX))

/-- The integer that a value rounds to under a mode (R129, R131). -/
def RM.RoundsInt (rm : RM) (v : ℚ) (n : Int) : Prop :=
  match rm with
  | .rne => |v - n| ≤ 1 / 2 ∧ (|v - n| = 1 / 2 → n % 2 = 0)
  | .rtz => n = if v < 0 then ⌈v⌉ else ⌊v⌋
  | .rup => n = ⌈v⌉
  | .rdn => n = ⌊v⌋

end Sys2Proof.Machine

namespace Sys2Proof.Machine

/-! ### Memory as statements speak of it -/

/-- The n bytes from a place, as the issuing group's loads see them. -/
def State.seesN (s : State) (pl : Place) (n : Nat) : List Byte := (List.range n).map (fun i => s.sees (pl.add i))

/-- A byte of memory by its key, however it is named; a byte of a window as it is. -/
def Place.norm (pl : Place) : Place := match pl.key with | some k => .mem k | none => pl

/-- Every byte is seen alike, but those at the places of a list. -/
def SeesSame (s t : State) (but : List Place) : Prop := ∀ q, q.norm ∉ but.map Place.norm → t.sees q = s.sees q

/-- Entries of a core's TLB map n bytes of a context from a virtual address to memory from a key, may be written through, and have D
set: a write there is made without another (R367 to R369). -/
def State.Mapped (s : State) (p h c va key n : Nat) : Prop :=
  ∀ i < n, ∃ t f, (s.part p).tlbHit h c (va + i) = some t ∧ t.leaf.getLsbD 8 = true ∧
    (s.xlate p h c (va + i) .store).2 = .ok ⟨key + i, f⟩

end Sys2Proof.Machine

namespace Sys2Proof

/-- What a lane memory instruction is, from its type and PAIR. -/
def MOps.shape (o : MOps) (acc : Machine.Acc) : Machine.Shape :=
  ⟨o.ty.toNat, match o.long with | some e => e.pair | none => false, acc⟩

end Sys2Proof

namespace Sys2Proof.Machine

/-- The active lanes of an instruction checked in ascending order (R212): the state after the checks, and the outcomes. -/
def State.checked (s : State) (o : MOps) (acc : Acc) (chk : State → Shape → Nat → State × LaneRes) : State × List Checked :=
  s.checkAll (fun a l => chk a (o.shape acc) l) (fun l => s.ea o l) (lanesOf (s.active o.guard o.neg))

/-- Addresses, window offsets and private addresses (R210). -/
def chkGlobal (o : MOps) (a : State) (h : Shape) (l : Nat) : State × LaneRes := a.checkAddr h (a.ea o l)
def chkOwn (o : MOps) (a : State) (h : Shape) (l : Nat) : State × LaneRes := a.checkOwn h (a.ea o l)
def chkPrivate (o : MOps) (a : State) (h : Shape) (l : Nat) : State × LaneRes := a.checkPriv h l (a.ea o l)

/-- A lane survives its checks with a place, and holds bytes to store there. -/
def Survives (l : List Checked) (lane : Nat) (pl : Place) (va : Nat) (fmt : BitVec 16) (hdr : Option Header) : Prop :=
  ∃ a, (lane, a, LaneRes.ok pl va fmt hdr) ∈ l

/-! ### Tiles and elements -/

/-- Of the accumulators, the entries of a tile of the issuing group's quadrant in the rows of `act` and the columns listed
change, to `f` of row, column and old value; nothing else of any core changes (R274). -/
def State.SetsAcc (s t : State) (tile : Nat) (act : W64) (cols : List Nat) (f : Nat → Nat → Nat → Nat) : Prop :=
  (∀ c, c ≠ s.blk.core → t.core c = s.core c) ∧
  ∃ m, t.core s.blk.core = { s.core s.blk.core with acc := m } ∧
    (∀ i < 64, ∀ c < 256, m.get (s.accKey tile i c) =
      if act.getLsbD i = true ∧ c ∈ cols then BitVec.ofNat 32 (f i c (s.accAt tile i c))
      else (s.core s.blk.core).acc.get (s.accKey tile i c)) ∧
    ∀ k, (∀ i < 64, ∀ c < 256, k ≠ s.accKey tile i c) → m.get k = (s.core s.blk.core).acc.get k

/-- An element access of instruction `i` meets none of its waits and refusals: the pair of a 64-bit value is there and free, MEMBER
is in place, no relayout in flight is in the way, no lane stops the instruction or must wait, and what an earlier instruction of
the group still writes or reads is not touched (R245, R247, R70 to R73, R255, R273). -/
structure State.ElemClear (s : State) (i : Instr) (o : TOps) (write : Bool) (mem : Nat) : Prop where
  pair   : (Desc.of (s.grp.timg o.a.toNat)).ew = 5 → o.d.toNat % 2 = 0 ∧ o.d.toNat + 1 < 16 * s.grp.vblk.length ∧
    s.grp.scored [VUse.of o.d true] = false ∧ (write = false → s.grp.owed [VUse.of o.d true] = false)
  member : memberArg s.blk (Desc.of (s.grp.timg o.a.toNat)) o.long = some mem
  flight : write = true → s.grp.inFlightT o.a.toNat = true → ∃ j, s.jobOf o.a.toNat = some j ∧ j.grow = true
  busy   : s.busyWith (s.footOf s.blk s.ctxid (Desc.of (s.grp.timg o.a.toNat)) mem) o.a.toNat write = false
  stop   : laneStop (((s.marked i).checkElems o (s.grp.timg o.a.toNat) (Desc.of (s.grp.timg o.a.toNat)) mem write).2.1.map
    (fun e => (e.1, e.2.1, e.2.2.res.lane))) write = none
  later  : ∀ e ∈ ((s.marked i).checkElems o (s.grp.timg o.a.toNat) (Desc.of (s.grp.timg o.a.toNat)) mem write).2.1,
    e.2.2.res ≠ .later ∧ (e.2.2.ph = false → ∀ pl va fmt, e.2.2.res = .ok pl va fmt →
      ((s.marked i).checkElems o (s.grp.timg o.a.toNat) (Desc.of (s.grp.timg o.a.toNat)) mem write).1.elemHeld write pl = none)

/-! ### Fragments -/

/-- Where a fragment is, its execute mask, what it does, and its join stack. -/
def Fragment.view (f : Fragment) : W64 × W64 × FragSt × List Nat := (f.pc, f.em, f.st, f.joins)

/-- In `u` the issuing fragment has split (R18): it keeps its entry and has gone with the taken lanes to `tgt`; a new fragment, `n`, stands
with the others at `next`; both have the new join record, `r`, on top of their stack; no other record has changed. -/
def State.SplitTo (s u : State) (taken tgt next join : W64) (n r : Nat) : Prop :=
  u.iss = true ∧ n ≠ s.fkey ∧ n < 32 ∧ s.grp.frags.has n = false ∧ s.grp.joins.find r = none ∧
  u.frag.view = (tgt, taken, s.frag.st, r :: s.frag.joins) ∧
  (u.grp.frags.find n).map (·.view) = some (next, s.frag.em &&& ~~~taken, .run, r :: s.frag.joins) ∧
  u.grp.joins.find r = some ⟨join, s.frag.em, 0⟩ ∧ ∀ q, q ≠ r → u.grp.joins.find q = s.grp.joins.find q

/-- The entries of the split table that the other fragments of the issuing group hold (R22). -/
def State.table (s : State) : List (Nat × Fragment) := s.grp.frags.filter (fun p => p.2.spilled.isNone)

/-- Of the other fragments, `u` has spilled the one that R22 names, to a free entry of the spill area: of those parked the one parked
earliest, else the one that last issued earliest. `n` is new. -/
def State.Spills (s u : State) (n : Nat) : Prop :=
  ∃ k f e, (k, f) ∈ s.table ∧ e < 28 ∧ (∀ p ∈ s.grp.frags, p.2.spilled ≠ some e) ∧
    u.grp.frags.find k = some { f with spilled := some e } ∧ (∀ q, q ≠ n → q ≠ k → u.grp.frags.find q = s.grp.frags.find q) ∧
    let parked := fun (f : Fragment) => ∃ r, f.st = .parked r
    ((∃ p ∈ s.table, parked p.2) → parked f ∧ ∀ p ∈ s.table, parked p.2 → f.parkedAt ≤ p.2.parkedAt) ∧
    ((∀ p ∈ s.table, ¬ parked p.2) → ∀ p ∈ s.table, f.issued ≤ p.2.issued)

/-! ### The device around a group -/

/-- The stores of a buffer that stay when those that `goes` names have gone home in order: bytes that a later one of those has
written are done with (R213, R295). -/
def staysHome (goes : StoreEnt → Bool) : List StoreEnt → List StoreEnt
  | [] => []
  | e :: l => (if goes e then [] else (l.filter goes).foldl overtaken [e]) ++ staysHome goes l

/-- No group has a store under way, and no group or block that has left: a boundary has nothing to publish. -/
def State.Quiet (s : State) : Prop :=
  (∀ q ∈ s.allGroups, q.2.2.2.stores = []) ∧ (∀ p ∈ s.allBlocks, p.2.rest = []) ∧ ∀ p ∈ s.grids, p.2.rest = []

/-- Memory holds these bytes from a key on, and nothing else of memory changes. -/
def PutsBytes (s t : State) (k : Nat) (l : List Byte) : Prop :=
  ∀ q, t.mem.byte q = if k ≤ q ∧ q < k + l.length then l.getD (q - k) 0 else s.mem.byte q

end Sys2Proof.Machine
end

