-- ==== Sys2Proof/Certificates/Slice0/Obligations.lean ====
section
/-!
DEFINITION. The statements for the provers: what the machine and each of its instructions do, from the rules of the spec.
-/

open Sys2Proof Sys2Proof.Machine

/-! ### Reset, memory, decoding, the step -/

/-- The machine when Germ starts: the time base 0 (R450), STEP and FAIL 0 and every partition OFFLINE (R447), the sixteen
measurement registers zero (R452), the fault-queue registers and the rings' registers at their reset values (R351, R422),
nothing resident. -/
def Obligations.ResetState : Prop :=
  State.reset.time = 0 ∧ State.reset.husk.step = 0 ∧ State.reset.husk.fail = 0 ∧
  State.reset.husk.meas.length = 16 ∧ (∀ m ∈ State.reset.husk.meas, m = List.replicate 48 0) ∧
  State.reset.parts.length = 4 ∧
  (∀ p ∈ State.reset.parts, p.pstate = 0 ∧ p.fqbase = 0 ∧ p.fqctl = 0 ∧ p.fqhead = 0 ∧ p.fqtail = 0 ∧ p.wdog = 0 ∧
    p.tr = Ring.reset ∧ p.sm = Ring.reset ∧ p.ms = Ring.reset ∧ p.trfilt = 0 ∧ p.dbg = 0 ∧ p.ctxs = [] ∧ p.tlb = []) ∧
  Ring.reset.ctl = 0 ∧ Ring.reset.base = 0 ∧ Ring.reset.head = 0 ∧ Ring.reset.tail = 0 ∧ Ring.reset.drop = 0 ∧
  State.reset.blocks = [] ∧ State.reset.grids = [] ∧ State.reset.iss = false

/-- Memory is in its canonical form after reset: the base case of `StepKeepsMemoryForm`. The form is the model's own. -/
def Obligations.ResetMemoryForm : Prop := State.reset.mem.wf = true

/-- Every step keeps memory in its canonical form (keys strictly rising, no listed byte 0), from every state in which it
holds. The form is the model's own. -/
def Obligations.StepKeepsMemoryForm : Prop :=
  ∀ s t : State, s.mem.wf = true → step s = .next t → t.mem.wf = true

/-- Every instruction that decode admits is read back from the bytes of its own words, at its own length (R142 to R158). -/
def Obligations.DecodeReadsWhatEncodeWrites : Prop :=
  ∀ (env : DecEnv) (i : Instr), i.wf env = true → ∃ w0 w1, encode i = some (w0, w1) ∧
    decode env w0 (w1.getD 0) = .ok i ∧
    decodeBytes env (leBytes w0.toNat 8 ++ leBytes (w1.getD 0).toNat 8) = .ok (i, i.len) ∧
    i.len = if w1.isSome then 16 else 8

/-- Every word that decode admits is the word that encode writes: no two words mean one instruction. -/
def Obligations.EncodeWritesWhatDecodeReads : Prop :=
  ∀ (env : DecEnv) (w0 w1 : W64) (i : Instr), decode env w0 w1 = .ok i →
    encode i = some (w0, if isLong w0 then some w1 else none)

/-- Words worked out in the spec: the three of R163, the `trap` of R185, the undefined word of R159, and R163's `brv` with a
guard. -/
def Obligations.DecodeOfWorkedWords : Prop :=
  decode .full 0x480024081C2A6030 0 = .ok (.laneAdd
    { wait := 0x0A, guard := 3, neg := true, x := 2, sa := false, sb := true, sc := false, d := 7, a := 2, b := 9, c := 0, imm := none }) ∧
  decode .full 0x8A00081028001080 0x40 = .ok (.ldG
    { wait := 0, guard := 0, neg := false, ty := 8, scale := 2, idx := true, ofs7 := 0, d := 10, a := 4, b := 2
      long := some { pair := false, sb := false, scope := 0, ord := 0, ext := 0, ofs := 64 } }) ∧
  decode .full 0x0000004014001002 0x200 = .ok (.brv { wait := 0, creg := 5, tgt := 0x10, joff := some 0x200 }) ∧
  decode .full 0x00A8000000000700 0 = .ok (.trap
    { wait := 0, guard := 0, neg := false, x := 0, sa := false, sb := false, sc := false, d := 0, a := 0, b := 0, c := 0x2A, imm := none }) ∧
  decode .full 0x00000000000001FC 0 = .error 0 ∧
  decode .full 0x0000004014003002 0x200 = .error 7

/-- Decode answers the code of an undefined pair, 0, for exactly the pairs of OP and SUB that no instruction has (R156,
R158). -/
def Obligations.UndefinedPairs : Prop :=
  ∀ (env : DecEnv) (w0 w1 : W64), decode env w0 w1 = .error 0 ↔
    ∀ i : Instr, i.opSub ≠ some ((w0.extractLsb' 0 8).toNat, (w0.extractLsb' 8 4).toNat)

/-- A step whose next selected fragment may issue runs the instruction its words decode to: the next state is exec's, with the
fragment back in its lists; a PC breakpoint at which the fragment has not stopped yet stops it first (R427), an instruction that has
issued is followed by what debug slots and samplers make of it, and the memory sampler counts one that a replayable fault holds.
Words that do not decode take the UNDEF trap (R158). The words are those in memory where the program counter translates, and of a
long instruction where the next one does (R142). That the fetch reads memory at its home is the model's reading
(notes/assumptions/56.md), as is the row of the fault-resolution instruction, which it takes at the step from s[B]
(notes/assumptions/63.md). -/
def Obligations.StepRunsTheDecodedInstruction : Prop :=
  (∀ (s t u : State) (r : FragRef) (rest : List FragRef) (w0 w1 : W64),
    s.iss = false → s.dueSample = none → s.slots = r :: rest → ({ s with slots := rest } : State).take r = some t →
    t.mayIssue = true → t.atJoin t.frag.pc = false → t.fetch = (u, .ok (w0, w1)) →
    (∀ c, u.decodeWords w0 w1 = .error c →
      (u.breakHere = none → step s = .next (u.userTrap w0 1 c).stow) ∧
      (∀ j, u.breakHere = some j → step s = .next (u.debugStop (bits w0.toNat 0 8, bits w0.toNat 8 4) ⟨2, j, 0⟩).stow)) ∧
    (∀ i, u.decodeWords w0 w1 = .ok i → ∀ v, exec i u = .next v →
      (u.stalled v = true → step s = .next v.stow) ∧
      (u.stalled v = false → u.breakHere = none → step s = .next (if u.issuedAs v then u.after v i else
        if v.heldAt u then v.countHeld u i else v).stow) ∧
      (∀ j, u.stalled v = false → u.breakHere = some j → step s = .next (u.debugStop (opOf i) ⟨2, j, 0⟩).stow))) ∧
  (∀ s : State, (s.frag.bpSkip = some s.frag.pc → s.breakHere = none) ∧ (s.frag.bpSkip ≠ some s.frag.pc → s.breakHere = s.atBreak)) ∧
  (∀ (s u : State) (x : Xlat), s.frag.pc.toNat < 2 ^ 55 →
    s.xlate s.blk.part s.blk.core s.ctxid s.frag.pc.toNat .fetch = (u, .ok x) → u.poisoned x.key 8 = false →
    (isLong (u.mem.word x.key) = false → s.fetch = (u, .ok (u.mem.word x.key, 0))) ∧
    ∀ (v : State) (y : Xlat), isLong (u.mem.word x.key) = true → (s.frag.pc + 8).toNat < 2 ^ 55 →
      u.xlate u.blk.part u.blk.core u.ctxid (s.frag.pc + 8).toNat .fetch = (v, .ok y) → v.poisoned y.key 8 = false →
      s.fetch = (v, .ok (u.mem.word x.key, v.mem.word y.key))) ∧
  (∀ (s : State) (w0 w1 : W64) (i : Instr), s.decodeWords w0 w1 = .ok i →
    decode s.decEnv w0 w1 = .ok i ∨ ∃ o, decode s.decEnv w0 w1 = .ok (.fltresReplay o) ∧
      (((s.sreg o.b).toNat = 1 ∧ i = .fltresEndGrid o) ∨ ((s.sreg o.b).toNat = 2 ∧ i = .fltresEndContext o)))

/-! ### User traps -/

/-- Every user trap saves PC, em, the partner address and the fields of the first word, sets TRAPACT, and enters the handler
at TRAPHDL with em unchanged; nothing else changes (R159, R184).
A user trap while TRAPACT is 1 or without a handler: a user group stops on a fault record of its own of class 8 (R184,
R342, R344); a system group takes its partition OFFLINE (R340) and leaves no record. -/
def Obligations.TrapEntry : Prop :=
  (∀ (s : State) (w : W64) (cause ucode : Nat), s.iss = true → s.grp.inTrap = false → s.grp.trap.hdl ≠ 0 → cause < 16 → ucode < 16 →
     s.Handles (s.userTrap w cause ucode) w cause ucode) ∧
  (∀ (s : State) (w : W64) (cause ucode : Nat), s.iss = true → s.grp.inTrap = true ∨ s.grp.trap.hdl = 0 →
     s.blk.part < s.parts.length →
     (s.grp.plevel = 0 →
       (s.userTrap w cause ucode).gv.stop = .fault s.recNo ∧
       (∃ o ∈ ((s.userTrap w cause ucode).part s.blk.part).outs,
         o.num = s.recNo ∧ o.cls = 8 ∧ o.blk = s.bkey ∧ o.grp = s.gkey ∧ o.frag = s.fkey) ∧
       (s.userTrap w cause ucode).gv.trap = s.gv.trap ∧ (s.userTrap w cause ucode).fv = s.fv) ∧
     (0 < s.grp.plevel →
       ((s.userTrap w cause ucode).part s.blk.part).pstate = 0 ∧
       ((s.userTrap w cause ucode).part s.blk.part).held = (s.part s.blk.part).held ∧
       ((s.userTrap w cause ucode).part s.blk.part).outs = (s.part s.blk.part).outs ∧
       (s.userTrap w cause ucode).gv.stop ≠ .no))

/-- `trap` enters the handler with CAUSE 2 and UCODE 0, and its code reaches TRAPC (R183, R184, R341).
`tret` resumes at TRAPPC with TRAPEM and clears TRAPACT; with TRAPACT 0 it is UNDEF with UCODE 8, and with a live fragment
created inside the handler left it is a double trap (R185). -/
def Obligations.TrapInstructions : Prop :=
  (∀ (o : COps) (s : State), s.Clear (.trap o) → s.grp.inTrap = false → s.grp.trap.hdl ≠ 0 →
     Gives (exec (.trap o) s) (fun t => s.Handles t (Instr.trap o).word0 2 0 ∧ t.gv.trap.c = o.c.setWidth 64)) ∧
  (∀ (o : COps) (s : State), s.Clear (.tret o) →
     (s.grp.inTrap = false → exec (.tret o) s = .next (s.userTrap (Instr.tret o).word0 1 8)) ∧
     (s.grp.inTrap = true → (∀ p ∈ s.grp.frags, p.2.inHandler = false) →
       Gives (exec (.tret o) s) (fun t =>
         (∃ u, Frame [.trap] s u ∧ u.gv.trap = { s.gv.trap with act := 0 } ∧ u.iss = true ∧ u.frag.em = s.gv.trap.em ∧
           u.frag.joins = s.frag.joins ∧ t = u.goto s.gv.trap.pc) ∧
         (s.atJoin s.gv.trap.pc = false → t.fv.map (fun f => (f.pc, f.em)) = some (s.gv.trap.pc, s.gv.trap.em)))) ∧
     (s.grp.inTrap = true → (∃ p ∈ s.grp.frags, p.2.inHandler = true) →
       exec (.tret o) s = .next (s.doubleTrap (0x00, 8))))

/-! ### Scalar instructions -/

/-- The scalar operations of major 0x10 but division and shifts: s[D] becomes the exact result taken modulo 2^w and extended by
the type, and nothing else changes (R165, R166).
Shifts take their count from s[B][7:0], and shift out everything from w on (R166).
`clz` and `popc` count among the low w bits (R166): the count of leading zeros c is the one for which the c highest bits
are clear and the next, if there is one, is set. -/
def Obligations.ScalarArithmetic : Prop :=
  (∀ (o : COps) (s : State),
     let a := o.val (s.sreg o.a)
     let b := o.val (s.sB o)
     WritesS (.scalarAdd o) s o.d (o.ext (a + b)) ∧ WritesS (.scalarSub o) s o.d (o.ext (a - b)) ∧
     WritesS (.scalarMul o) s o.d (o.ext (a * b)) ∧
     WritesS (.scalarMulh o) s o.d (o.ext (a * b / (2 ^ (8 * 2 ^ (o.x.toNat % 4)) : Nat))) ∧
     WritesS (.scalarAnd o) s o.d (o.ext ((s.sreg o.a &&& s.sB o).toNat : Int)) ∧
     WritesS (.scalarOr o) s o.d (o.ext ((s.sreg o.a ||| s.sB o).toNat : Int)) ∧
     WritesS (.scalarXor o) s o.d (o.ext ((s.sreg o.a ^^^ s.sB o).toNat : Int)) ∧
     WritesS (.scalarNot o) s o.d (o.ext ((~~~(s.sreg o.a)).toNat : Int)) ∧
     WritesS (.scalarMin o) s o.d (o.ext (if a ≤ b then a else b)) ∧ WritesS (.scalarMax o) s o.d (o.ext (if a ≤ b then b else a))) ∧
  (∀ (o : COps) (s : State),
     let a := o.val (s.sreg o.a)
     let n := (s.sB o).toNat % 256
     let w := 8 * 2 ^ (o.x.toNat % 4)
     WritesS (.scalarShl o) s o.d (o.ext (if w ≤ n then 0 else a * (2 ^ n : Nat))) ∧
     WritesS (.scalarShr o) s o.d (o.ext (if w ≤ n then (if a < 0 then -1 else 0) else a / (2 ^ n : Nat)))) ∧
  (∀ (o : COps) (s : State),
     let w := 8 * 2 ^ (o.x.toNat % 4)
     (∃ c ≤ w, (∀ j, w - c ≤ j → j < w → (s.sreg o.a).getLsbD j = false) ∧
       (c < w → (s.sreg o.a).getLsbD (w - c - 1) = true) ∧ WritesS (.scalarClz o) s o.d (BitVec.ofNat 64 c)) ∧
     WritesS (.scalarPopc o) s o.d
       (BitVec.ofNat 64 ((List.range w).filter (fun j => (s.sreg o.a).getLsbD j)).length))

/-- Division never traps (R167): by 0 the quotient is all ones and the remainder a; the least number by -1 gives itself and 0;
otherwise the quotient is truncated toward zero and the remainder is a minus b times it. -/
def Obligations.ScalarDivision : Prop :=
  ∀ (o : COps) (s : State),
    let a := o.val (s.sreg o.a)
    let b := o.val (s.sB o)
    (b = 0 → WritesS (.scalarDiv o) s o.d (o.ext (-1)) ∧ WritesS (.scalarRem o) s o.d (o.ext a)) ∧
    (o.x.toNat < 4 → a = -(2 ^ (8 * 2 ^ (o.x.toNat % 4) - 1) : Nat) → b = -1 →
      WritesS (.scalarDiv o) s o.d (o.ext a) ∧ WritesS (.scalarRem o) s o.d 0) ∧
    (b ≠ 0 → ¬ (o.x.toNat < 4 ∧ a = -(2 ^ (8 * 2 ^ (o.x.toNat % 4) - 1) : Nat) ∧ b = -1) →
      WritesS (.scalarDiv o) s o.d (o.ext (a.tdiv b)) ∧ WritesS (.scalarRem o) s o.d (o.ext (a - b * a.tdiv b)))

/-- `bfx` and `bfi` (R170): bits above bit 63 are neither read nor written; a width other than 64 is UNDEF with UCODE 8. Bit j
of the result is given. -/
def Obligations.ScalarBitFields : Prop :=
  ∀ (o : COps) (s : State),
    let b := s.sB o
    let p := b.toNat % 64
    let n := min (b.toNat / 256 % 128) 64
    (o.x.toNat % 4 ≠ 3 → Traps (.scalarBfx o) s 1 8 ∧ Traps (.scalarBfi o) s 1 8) ∧
    (o.x.toNat % 4 = 3 →
      (∃ v : W64, WritesS (.scalarBfx o) s o.d v ∧ ∀ j < 64, v.getLsbD j =
        if n = 0 then false
        else if j < n then (s.sreg o.a).getLsbD (p + j)
        else decide (o.x.toNat < 4) && (s.sreg o.a).getLsbD (p + n - 1)) ∧
      ∃ v : W64, WritesS (.scalarBfi o) s o.d v ∧ ∀ j < 64, v.getLsbD j =
        if p ≤ j ∧ j < p + n then (s.sreg o.a).getLsbD (j - p) else (s.sreg o.d).getLsbD j)

/-- `cmp` writes a whole 0 or 1 (R168); `mov`, `li`, `lea` and `sel` write what R169 gives. -/
def Obligations.ScalarCompareAndMove : Prop :=
  ∀ (o : COps) (s : State),
    let a := o.val (s.sreg o.a)
    let b := o.val (s.sB o)
    WritesS (.scalarCmp .eq o) s o.d (if a = b then 1 else 0) ∧ WritesS (.scalarCmp .ne o) s o.d (if a ≠ b then 1 else 0) ∧
    WritesS (.scalarCmp .lt o) s o.d (if a < b then 1 else 0) ∧ WritesS (.scalarCmp .le o) s o.d (if a ≤ b then 1 else 0) ∧
    WritesS (.scalarCmp .gt o) s o.d (if b < a then 1 else 0) ∧ WritesS (.scalarCmp .ge o) s o.d (if b ≤ a then 1 else 0) ∧
    WritesS (.scalarMov o) s o.d (o.ext b) ∧ (∀ w, o.imm = some w → WritesS (.li o) s o.d w) ∧
    WritesS (.lea o) s o.d (o.ext ((s.sreg o.a).toNat + (s.sB o).toNat * 2 ^ (o.c.toNat % 4) : Nat)) ∧
    WritesS (.scalarSel o) s o.d (if s.sreg o.c ≠ 0 then o.ext a else o.ext b)

/-! ### Control -/

/-- The uniform branches (R174, R175): the fragment goes to the target, the link register gets PC + 8, nothing else changes; a
register target that is not 8-byte aligned is UNDEF with UCODE 8.
`brv` and `brv.n` (R18, R151, R177): with no lane taken the fragment falls through, with every lane it goes to the target; otherwise the
taken lanes keep its entry, the others become a new fragment behind the branch, both share a new join record, and each is then looked
at as on any arrival (R19): one that is at the record, or at the innermost of the records the fragment had, parks there. 32 live fragments are a
DIVERGENCE_OVERFLOW; a JOFF that is no multiple of 8 is UNDEF. A split finds room when the table of four has a free entry (R22) and
the join records stay within four; then it changes nothing else. Otherwise an entry is spilled, and what is stored lies in the
spill area of the group's private memory (R23): that the core's join storage holds four records, when the bytes are stored, and that a
fragment which has never issued counts as the one that did earliest, are the model's choice (notes/assumptions/32.md).
Going on to an address (R19, R20, R28): elsewhere than at a join of its stack the fragment only moves. At one it parks on the
record; a group's one fragment that the record expects alone goes on from there with the record gone. With no barrier arrival
pending, nothing outside the group's fragments and joins changes. -/
def Obligations.Branches : Prop :=
  ((∀ (o : JOps) (s : State),
     let tgt := s.frag.pc + (o.tgt.signExtend 64 <<< 3)
     (s.Clear (.br o) → Goes (.br o) s tgt (fun t => Frame [] s t)) ∧
     (s.Clear (.call o) → Goes (.call o) s tgt (fun t =>
       Frame [.sregs] s t ∧ s.SetsS t o.creg (s.frag.pc + 8))) ∧
     ∀ cc : ZCond, s.Clear (.brc cc o) → Goes (.brc cc o) s (if cc.holds (s.sreg o.creg).toInt then tgt else s.frag.pc + 8) (fun t => Frame [] s t)) ∧
   (∀ (o : COps) (s : State), (s.sreg o.a).toNat % 8 = 0 →
     (s.Clear (.brR o) → Goes (.brR o) s (s.sreg o.a) (fun t => Frame [] s t)) ∧
     (s.Clear (.ret o) → Goes (.ret o) s (s.sreg o.a) (fun t => Frame [] s t)) ∧
     (s.Clear (.callR o) → Goes (.callR o) s (s.sreg o.a) (fun t =>
       Frame [.sregs] s t ∧ s.SetsS t o.d (s.frag.pc + 8)))) ∧
   (∀ (o : COps) (s : State), (s.sreg o.a).toNat % 8 ≠ 0 →
     Traps (.brR o) s 1 8 ∧ Traps (.ret o) s 1 8 ∧ Traps (.callR o) s 1 8)) ∧
  (∀ (o : JOps) (s : State) (j : W32) (i : Instr) (k : W64),
     o.joff = some j → (i = .brv o ∧ k = s.kreg o.creg) ∨ (i = .brvN o ∧ k = ~~~(s.kreg o.creg)) → s.Clear i →
     let taken := s.frag.em &&& ~~~s.grp.fmask &&& k
     let tgt := s.frag.pc + (o.tgt.signExtend 64 <<< 3)
     let next := s.frag.pc + 16
     let join := s.frag.pc + j.signExtend 64
     (j.toNat % 8 ≠ 0 → exec i s = .next (s.userTrap i.word0 1 8)) ∧
     (j.toNat % 8 = 0 →
       (taken = 0 → Goes i s next (fun t => Frame [] s t)) ∧
       (taken ≠ 0 → taken = s.frag.em → Goes i s tgt (fun t => Frame [] s t)) ∧
       (taken ≠ 0 → taken ≠ s.frag.em → s.grp.frags.length + 1 = 32 → exec i s = .next (s.userTrap i.word0 5 0)) ∧
       (taken ≠ 0 → taken ≠ s.frag.em → s.grp.frags.length + 1 < 32 → s.grp.frags.has s.fkey = false →
         (∀ f, 32 ≤ f → s.grp.frags.has f = false) → s.fkey < 32 → (s.grp.frags.map (·.1)).Nodup → s.grp.joins.length < 64 →
         let held := s.table.length + (if s.frag.spilled = none then 1 else 0)
         let l : List Piece := if held < 4 ∧ s.grp.joins.length < 4 then [.phases] else [.phases, .stores, .free, .parts, .mem, .poison]
         let rest := s.frag.em &&& ~~~taken
         Gives (exec i s) (fun t => ∃ u n r, Frame l s u ∧ s.SplitTo u taken tgt next join n r ∧
           (held < 4 → ∀ k, k ≠ n → u.grp.frags.find k = s.grp.frags.find k) ∧ (4 ≤ held → s.Spills u n) ∧
           (∃ new, u.gv.stores = s.gv.stores ++ new ∧ ∀ e ∈ new, e.dst = .priv s.ctxid ∧
             ∀ b ∈ e.bytes, s.grp.pbase ≤ b.at_ ∧ b.at_ < s.grp.pbase + 1024) ∧
           t = u.stow.settleJoins s.bkey s.gkey [s.fkey, n] ∧
           -- Where the two fragments and the record stand in the end.
           let ends := fun (st st' : FragSt) (js js' : List Nat) (j : JoinRec) => Frame l s t ∧
             t.fv.map (·.view) = some (tgt, taken, st, js) ∧ (t.fragment s.bkey s.gkey n).map (·.view) = some (next, rest, st', js') ∧
             t.gv.joins.find r = some j ∧ ∀ k, k ≠ s.fkey → k ≠ n → t.fragment s.bkey s.gkey k = u.fragment s.bkey s.gkey k
           let on := r :: s.frag.joins
           (s.atJoin tgt = false → s.atJoin next = false → join ≠ tgt → join ≠ next → ends s.frag.st .run on on ⟨join, s.frag.em, 0⟩) ∧
           (join = tgt → s.atJoin next = false → join ≠ next → ends (.parked r) .run on on ⟨join, s.frag.em, taken⟩) ∧
           (join = next → s.atJoin tgt = false → join ≠ tgt → ends s.frag.st (.parked r) on on ⟨join, s.frag.em, rest⟩) ∧
           ∀ q more j, s.frag.joins = q :: more → s.grp.joins.find q = some j → j.expected ≠ 0 → join ≠ tgt → join ≠ next →
             (j.addr = tgt → s.atJoin next = false → j.parked ||| taken ≠ j.expected →
               ends (.parked q) .run (q :: more) on ⟨join, rest, 0⟩ ∧ t.gv.joins.find q = some { j with parked := j.parked ||| taken }) ∧
             (j.addr = next → s.atJoin tgt = false → j.parked ||| rest ≠ j.expected →
               ends s.frag.st (.parked q) on (q :: more) ⟨join, taken, 0⟩ ∧ t.gv.joins.find q = some { j with parked := j.parked ||| rest }))))) ∧
  (∀ (s : State) (pc : W64), s.iss = true →
     (s.atJoin pc = false → Frame [] s (s.goto pc) ∧ (s.goto pc).fv = some { s.frag with pc := pc }) ∧
     (s.atJoin pc = true → s.grp.pend = [] → Frame [.phases] s (s.goto pc)) ∧
     (∀ r rest j, s.frag.joins = r :: rest → s.grp.joins.find r = some j → j.addr = pc → s.grp.pend = [] →
       (j.expected ≠ 0 → j.parked ||| s.frag.em ≠ j.expected →
         (s.goto pc).fv.map (fun f => (f.pc, f.em, f.st, f.joins)) = some (pc, s.frag.em, .parked r, r :: rest)) ∧
       (j.parked = 0 → s.frag.em = j.expected → j.expected ≠ 0 → s.grp.frags = [] →
         (∀ q ∈ rest, ∀ k, s.grp.joins.find q = some k → k.addr ≠ pc) →
         (s.goto pc).fv.map (fun f => (f.pc, f.em, f.st, f.joins)) = some (pc, j.expected, .run, rest.filter (· != r)) ∧
         (s.goto pc).gv.joins.find r = none)))

/-- `nop` has no effect beyond its WAIT (R178), `mig` and `mig.req` have none where the code object lists no point (R186),
`brk` none while the context's debug enable is clear (R182), `mark` none while tracing is off for the group (R181).
`mark` writes a trace record where tracing admits the group's kernel, or counts a drop when the ring is full (R181, R424,
R425); `brk` with the context's debug enable set stops the group on a DEBUG record, past the instruction (R182, R428). -/
def Obligations.TraceBreakAndNoEffect : Prop :=
  (∀ (o : COps) (s : State),
     (s.Clear (.nop o) → GoesOn (.nop o) s (fun t => Frame [] s t)) ∧
     (s.Clear (.mig o) → s.pointHere = none → GoesOn (.mig o) s (fun t => Frame [] s t)) ∧
     (s.Clear (.migReq o) → s.pointHere = none → GoesOn (.migReq o) s (fun t => Frame [] s t)) ∧
     (s.Clear (.brk o) → s.slot = none → GoesOn (.brk o) s (fun t => Frame [] s t)) ∧
     (s.Clear (.mark o) → (s.part s.blk.part).tr.en = false → GoesOn (.mark o) s (fun t => Frame [] s t))) ∧
  (∀ (o : COps) (s : State) (g : Grid), s.grids.find s.blk.grid = some g → s.blk.part < s.parts.length →
     s.gkey < 64 → s.blk.blkid < 2 ^ 32 →
     let p := s.blk.part
     let x := s.part p
     let admits := x.tr.en = true ∧ (x.trfilt = 0 ∨ x.trfilt = g.packet.getD 1 0)
     (s.Clear (.mark o) → ¬ admits → GoesOn (.mark o) s (fun t => Frame [] s t)) ∧
     (s.Clear (.mark o) → admits → x.tr.full = true → GoesOn (.mark o) s (fun t => Frame [.parts] s t ∧ t.part p = { x with tr := { x.tr with drop := x.tr.drop + 1 } })) ∧
     (s.Clear (.mark o) → admits → x.tr.full = false → GoesOn (.mark o) s (fun t => Frame [.parts, .mem, .poison] s t ∧
       t.part p = { x with tr := { x.tr with tail := x.tr.tail + 1 } } ∧
       ∃ w : List W64, w.length = 2 ∧ (w.getD 1 0) = BitVec.ofNat 64 s.now ∧
         ((w.getD 0 0).extractLsb' 32 32).toNat = s.blk.blkid ∧ ((w.getD 0 0).extractLsb' 26 6).toNat = s.gkey ∧
         ((w.getD 0 0).extractLsb' 24 2).toNat = s.grp.role.toNat ∧ ((w.getD 0 0).extractLsb' 0 24).toNat = 0 ∧
         PutsBytes s t (hbmKey p (x.tr.base.toNat + 16 * (x.tr.tail.toNat % 2 ^ x.tr.log2))) (wordsLe w))) ∧
     (s.Clear (.brk o) → s.slot ≠ none → Gives (exec (.brk o) s) (fun t => t.fv.map (·.pc) = some (s.frag.pc + 8) ∧
       t.gv.stop = .debug s.recNo ⟨1, 0, o.c.setWidth 64⟩ s.fkey ∧ t.gv.sregs = s.gv.sregs ∧ t.gv.vregs = s.gv.vregs)))

/-- `sleep` gives up the fragment until TIME has passed its value now plus at most 1,048,575 ns, and the fragment is ready again
then and not before; of no time, it gives up one selection round (R180). That it is ready as soon as TIME equals the sum is the model's
reading of its 'has passed' (notes/assumptions/31.md).
`exit` ends the fragment alone while the group has others (stated where no join and no barrier arrival waits on it); the
group's last one waits until no token is outstanding, and then the group is gone (R21, R179). `leave` ends the whole group in
the same way (R232).
A group that leaves takes itself out of every block barrier (R30): m falls by 1, and a by 1 where it had arrived in the
current phase. Stated where no phase thereby completes, the group holds no buffered store and no fault mask, and another group
of the block has yet to arrive at each cluster and grid barrier. -/
def Obligations.SleepingAndLeaving : Prop :=
  ((∀ (o : COps) (s : State), s.Clear (.sleep o) → Gives (exec (.sleep o) s) (fun t => Frame [] s t ∧
     t.fv.map (fun f => (f.pc, f.st, f.em)) = some (s.frag.pc + BitVec.ofNat 64 (Instr.sleep o).len,
       if (s.sB o).toNat = 0 then .pass else .sleep (s.now + min (s.sB o).toNat 1048575), s.frag.em))) ∧
   (∀ (who : FragRef) (s : State) (b : Block) (f : Fragment) (wake : Nat), s.block who.blk = some b →
     s.fragment who.blk who.grp who.fid = some f → f.st = .sleep wake →
     (wake ≤ s.ctxTime b.part (s.ctxOf b) → Gives (exec (.sleepWake who) s) (fun t =>
       t.fragment who.blk who.grp who.fid = some { f with st := .run } ∧ t.mem = s.mem ∧ t.time = s.time)) ∧
     (s.ctxTime b.part (s.ctxOf b) < wake → exec (.sleepWake who) s = .next s))) ∧
  ((∀ (o : COps) (s : State), s.Clear (.exit o) →
     (s.grp.frags ≠ [] → s.grp.frags.has s.fkey = false → s.frag.joins = [] → s.grp.pend = [] →
       Gives (exec (.exit o) s) (fun t => Frame [.phases] s t ∧ t.fv = none ∧ t.gv.pend = [] ∧ t.gv.arrived = s.gv.arrived ∧
         ∀ k, k ≠ s.fkey → (t.fragment s.bkey s.gkey k).map (fun f => (f.pc, f.em, f.st, f.joins)) =
           (s.fragment s.bkey s.gkey k).map (fun f => (f.pc, f.em, f.st, f.joins)))) ∧
     (s.grp.frags = [] → s.grp.waits 0xFF = true → Gives (exec (.exit o) s) (fun t => Frame [] s t ∧ t.fv.map (·.st) = some .drain)) ∧
     (s.grp.frags = [] → s.grp.waits 0xFF = false → s.grp.badTok 0xFF = none → s.blk.groups.has s.gkey = false →
       Gives (exec (.exit o) s) (fun t => t.group s.bkey s.gkey = none))) ∧
   (∀ (o : COps) (s : State), s.Clear (.leave o) →
     (s.grp.waits 0xFF = true → Gives (exec (.leave o) s) (fun t => t.fv.map (·.st) = some .drain ∧
       ∀ k, k ≠ s.fkey → t.fragment s.bkey s.gkey k = none)) ∧
     (s.grp.waits 0xFF = false → s.grp.badTok 0xFF = none → s.blk.groups.has s.gkey = false →
       Gives (exec (.leave o) s) (fun t => t.group s.bkey s.gkey = none)))) ∧
  (∀ (o : COps) (s : State), s.Clear (.leave o) → s.grp.waits 0xFF = false → s.grp.badTok 0xFF = none →
     s.grp.stores = [] → s.grp.fmask = 0 → s.blk.groups.has s.gkey = false → s.blk.bars.length = 16 →
     (∀ b, 16 ≤ b → b < 28 → ∃ g ∈ s.blk.groups, g.2.arrived.find b = none) →
     let back := fun b => if s.grp.arrived.find b = some (s.bar s.bkey b).phase then 1 else 0
     (∀ b < 16, ¬ ((s.bar s.bkey b).a - back b = (s.bar s.bkey b).m - 1 ∧ 1 < (s.bar s.bkey b).m ∧
       (s.bar s.bkey b).x ≤ (s.bar s.bkey b).c)) →
     Gives (exec (.leave o) s) (fun t => t.group s.bkey s.gkey = none ∧
       ∀ b < 16, t.bar s.bkey b =
         { s.bar s.bkey b with m := (s.bar s.bkey b).m - 1, a := (s.bar s.bkey b).a - back b }))

/-! ### Special registers -/

/-- `sread` (R171, R351, R422): LANEID goes to the active lanes of a lane register; every other register goes to s[D], with the
value that its rule gives: of the group, its block and grid; TIME with the offset of a running context (R172); the trap registers
(R159); of the partition, its fault queue (R352), decode identities (R414) and rings (R423). -/
def Obligations.SpecialRegisterRead : Prop :=
  ∀ (o : COps) (s : State),
    (o.c = 0 → s.Clear (.sread o) → GoesOn (.sread o) s (fun t => Frame [.vregs] s t ∧
      s.SetsV t o.d false (s.frag.em &&& ~~~s.grp.fmask) (fun l => l))) ∧
    (o.c ≠ 0 → WritesS (.sread o) s o.d (s.special o.c.toNat)) ∧
    (let x := s.part s.blk.part
     let nat := fun (n : Nat) => BitVec.ofNat 64 n
     let bit := fun (b : Bool) => if b then 1 else 0
     (s.special 0x01 = nat s.gkey ∧ s.special 0x02 = nat s.blk.blkid ∧ s.special 0x03 = nat s.blk.cluidx ∧
      s.special 0x04 = nat s.blk.clusize ∧ s.special 0x05 = s.grp.role.setWidth 64 ∧
      (∀ c, s.ctx s.blk.part s.ctxid = some c → c.st = .running → s.special 0x06 = nat s.time + c.tofs) ∧
      s.special 0x07 = s.grp.fpstat.setWidth 64 ∧ s.special 0x08 = s.grp.fmask ∧
      (s.special 0x09).toNat % 2 ^ 16 = (s.blk.winfmt.get s.grp.winsel).toNat ∧
      (s.grp.winsel < 2 ^ 16 → (s.special 0x09).toNat / 2 ^ 32 = s.grp.winsel) ∧
      s.special 0x0A = s.frag.em ∧ s.special 0x0B = nat (s.blk.groups.length + 1) ∧
      s.special 0x0C = nat (16 * s.grp.vblk.length) ∧ s.special 0x0D = s.frag.pc ∧ s.special 0x0E = s.blk.argbase ∧
      s.special 0x0F = nat (s.blk.grid % 2 ^ 32) ∧
      (∀ g, s.grids.find s.blk.grid = some g → s.special 0x10 = nat g.nblk ∧ s.special 0x13 = nat g.depth) ∧
      s.special 0x11 = (if s.blk.lcore then 1 else 0) ∧ s.special 0x12 = nat s.grp.quad) ∧
     (s.special 0x20 = s.grp.trap.pc ∧ s.special 0x21 = s.grp.trap.op ∧ s.special 0x22 = s.grp.trap.d ∧ s.special 0x23 = s.grp.trap.a ∧
      s.special 0x24 = s.grp.trap.b ∧ s.special 0x25 = s.grp.trap.c ∧ s.special 0x26 = s.grp.trap.mod ∧
      s.special 0x27 = s.grp.trap.em ∧ s.special 0x28 = s.grp.trap.part ∧ s.special 0x29 = s.grp.trap.hdl ∧
      s.special 0x2A = s.grp.trap.act) ∧
     (s.special 0x80 = nat s.grp.plevel ∧ s.special 0x81 = nat s.blk.part ∧ s.special 0x82 = x.fqbase ∧
      s.special 0x83 = nat (bit x.en + 2 * bit x.ovf + x.log2n * 2 ^ 16 + x.vec * 2 ^ 21) ∧
      s.special 0x84 = x.fqhead.setWidth 64 ∧ s.special 0x85 = x.fqtail.setWidth 64 ∧
      (∀ n l, (n, l) ∈ [(0x86, false), (0x87, true)] →
        let code := fun (e : Nat) => if x.decClass l e = 1 then 0 else x.decClass l e
        let bytes := (List.range 1024).map (fun b => BitVec.ofNat 8 ((List.range 4).map (fun j => code (4 * b + j) * 4 ^ j)).sum)
        s.special n = nat (ofLe ((sha384 (3 :: bytes)).take 8))) ∧
      s.special 0x88 = x.wdog.setWidth 64) ∧
     (∀ n (v : Ring), (n, v) ∈ [(0x89, x.tr), (0x8F, x.sm), (0x94, x.ms)] → s.special n = v.base ∧
        s.special (n + 1) = nat (bit v.en + v.log2 * 2 ^ 16 + v.period * 2 ^ 48) ∧ s.special (n + 2) = v.head.setWidth 64 ∧
        s.special (n + 3) = v.tail.setWidth 64 ∧ s.special (n + 4) = v.drop.setWidth 64) ∧
     s.special 0x8E = x.trfilt ∧ s.special 0x99 = x.dbg)

/-- `swrite` to a register of the group (R38, R106, R133, R171, R233): ROLE, FPSTAT, WINFMT, TRAPPC, TRAPHDL take the value's
fields; a value that the rule forbids is UNDEF with UCODE 8 and changes nothing; a read-only register is left alone.
`swrite` to a register of the partition (R347, R351, R352, R422, R423, R430, R433): HEAD registers stay within the ring of TAIL, TRFILT
keeps its high byte clear, WDOG takes 16 bits, drop counts are written, EN, LOG2, PERIOD and the bases follow the enable; setting a
sampler's EN restarts its counters, clearing it discards its FIFOs into the drop count. Nothing else of the partition and nothing of
another changes. Writes of FQHEAD and FQCTL are stated with no record held. -/
def Obligations.SpecialRegisterWrites : Prop :=
  (∀ (o : COps) (s : State),
     let v := s.sreg o.a
     (s.Clear (.swriteRole o) → GoesOn (.swriteRole o) s (fun t => Frame [.role] s t ∧ t.gv.role = v.extractLsb' 0 2)) ∧
     (s.Clear (.swriteFpstat o) → GoesOn (.swriteFpstat o) s (fun t => Frame [.fpstat] s t ∧ t.gv.fpstat = v.extractLsb' 0 6)) ∧
     (let region := v.toNat / 2 ^ 32 % 2 ^ 16
      let w := v.extractLsb' 0 16
      (s.blk.winsize / 65536 ≤ region ∨ fmtOk w = false → Traps (.swriteWinfmt o) s 1 8) ∧
      (region < s.blk.winsize / 65536 → fmtOk w = true → s.Clear (.swriteWinfmt o) → GoesOn (.swriteWinfmt o) s (fun t =>
         Frame [.winfmt, .winsel] s t ∧ t.gv.winsel = region ∧
         (∀ r, t.bv.winfmt.get r = if r = region then w else s.bv.winfmt.get r)))) ∧
     (v.toNat % 8 ≠ 0 → Traps (.swriteTrappc o) s 1 8) ∧
     (v.toNat % 8 = 0 → s.Clear (.swriteTrappc o) → GoesOn (.swriteTrappc o) s (fun t => Frame [.trap] s t ∧
       t.gv.trap = (if o.c = 0x20 then { s.gv.trap with pc := v } else { s.gv.trap with hdl := v }))) ∧
     (o.c.toNat < 0x80 → s.Clear (.swrite o) → GoesOn (.swrite o) s (fun t => Frame [] s t))) ∧
  (∀ (o : COps) (s : State),
     let v := s.sreg o.a
     let p := s.blk.part
     let x := s.part p
     -- The partition's registers become `y`; no other partition changes.
     let sets := fun (i : Instr) (y : Part) => p < s.parts.length → s.Clear i →
       GoesOn i s (fun t => Frame [.parts] s t ∧ t.part p = y ∧ ∀ q, q ≠ p → t.part q = s.part q)
     (2 ^ x.log2n < (x.fqtail - v.setWidth 32).toNat → Traps (.swriteFqhead o) s 1 8) ∧
     ((x.fqtail - v.setWidth 32).toNat ≤ 2 ^ x.log2n → x.held = [] → sets (.swriteFqhead o) { x with fqhead := v.setWidth 32 }) ∧
     (let n := v.toNat / 2 ^ 16 % 32
      let l := if x.en = false ∧ 6 ≤ n ∧ n ≤ 16 then n else x.log2n
      let fits := 6 ≤ l ∧ l ≤ 16 ∧ x.fqbase.toNat % (64 * 2 ^ l) = 0
      ∀ e, (e = true ↔ v.getLsbD 0 = true ∧ (x.en = true ∨ fits)) → x.held = [] →
        sets (.swriteFqctl o) { x with log2n := l, vec := v.toNat / 2 ^ 21 % 2 ^ 11, ovf := x.ovf && !v.getLsbD 1, en := e }) ∧
     sets (.swriteWdog o) { x with wdog := v.setWidth 16 } ∧
     (2 ^ 56 ≤ v.toNat → Traps (.swriteTrfilt o) s 1 8) ∧
     (v.toNat < 2 ^ 56 → sets (.swriteTrfilt o) { x with trfilt := v }) ∧
     (o.c = 0x82 → sets (.swrite o) (if x.en then x else { x with fqbase := BitVec.ofNat 64 (v.toNat % 2 ^ 52 / 64 * 64) })) ∧
     (o.c = 0x99 → sets (.swrite o) { x with dbg := v })) ∧
  (∀ (o : COps) (s : State) (r : Nat) (base ctl head drop : BitVec 8),
     -- The rings: trace, stall samples, memory samples.
     (r, base, ctl, head, drop) ∈ [(0, 0x89, 0x8A, 0x8B, 0x8D), (1, 0x8F, 0x90, 0x91, 0x93), (2, 0x94, 0x95, 0x96, 0x98)] →
     s.blk.part < s.parts.length →
     let v := s.sreg o.a
     let p := s.blk.part
     let x := s.part p
     let w := x.ring r
     let only := fun (t : State) (y : Ring) => t.part p = x.setRing r y ∧ ∀ q, q ≠ p → t.part q = s.part q
     let sets := fun (i : Instr) (y : Ring) => s.Clear i → GoesOn i s (fun t => Frame [.parts] s t ∧ only t y)
     (o.c = base → sets (.swrite o) (if w.en then w else { w with base := BitVec.ofNat 64 (v.toNat % 2 ^ 52) })) ∧
     (o.c = drop → sets (.swrite o) { w with drop := v.setWidth 32 }) ∧
     (o.c = head → 2 ^ w.log2 < (w.tail - v.setWidth 32).toNat → Traps (.swriteRingHead o) s 1 8) ∧
     (o.c = head → (w.tail - v.setWidth 32).toNat ≤ 2 ^ w.log2 → sets (.swriteRingHead o) { w with head := v.setWidth 32 }) ∧
     (o.c = ctl →
       let n := v.toNat / 2 ^ 16 % 32
       let q := v.toNat / 2 ^ 48
       let least := if r = 1 then 16 else 1
       let mine := fun (c : Nat) => s.partOfDie (c / 64) = p
       let fits := 4 ≤ w.log2 ∧ w.log2 ≤ 20 ∧ (r = 0 ∨ (least ≤ w.period ∧ w.period < 2 ^ 16)) ∧
         w.base.toNat % ((if r = 0 then 16 else if r = 1 then 32 else 64) * 2 ^ w.log2) = 0
       let lost := ((s.cores.filter (fun c => s.partOfDie (c.1 / 64) == p)).map (fun c =>
         if r = 1 then (c.2.samp.map (·.fifo.length)).sum else c.2.memFifo.length)).sum
       (v.getLsbD 0 = true → w.en = true → sets (.swriteRingCtl o) w) ∧
       (v.getLsbD 0 = true → w.en = false → ¬ fits → sets (.swriteRingCtl o) w) ∧
       (v.getLsbD 0 = true → w.en = false → fits → s.Clear (.swriteRingCtl o) → GoesOn (.swriteRingCtl o) s (fun t =>
         Frame (if r = 0 then [.parts] else [.parts, .cores]) s t ∧ only t { w with en := true } ∧
         (∀ c, ¬ mine c → t.core c = s.core c) ∧
         ∀ c, mine c → (s.cores.has c = true → t.core c =
           if r = 0 then s.core c
           else if r = 1 then { s.core c with samp := (s.core c).samp.map (fun y => { y with clocks := 0, ptr := 0 }) }
           else { s.core c with memCnt := 0 }))) ∧
       (v.getLsbD 0 = false → w.en = false → sets (.swriteRingCtl o) { w with
         log2 := if 4 ≤ n ∧ n ≤ 20 then n else w.log2
         period := if r = 0 then 0 else if least ≤ q then q else w.period }) ∧
       (v.getLsbD 0 = false → w.en = true → s.Clear (.swriteRingCtl o) → GoesOn (.swriteRingCtl o) s (fun t =>
         Frame (if r = 0 then [.parts] else [.parts, .cores]) s t ∧
         only t { w with en := false, drop := if r = 0 then w.drop else w.drop + BitVec.ofNat 32 lost } ∧
         (∀ c, ¬ mine c → t.core c = s.core c) ∧
         ∀ c, mine c → (s.cores.has c = true → t.core c =
           if r = 0 then s.core c
           else if r = 1 then { s.core c with samp := (s.core c).samp.map (fun y => { y with fifo := [] }) }
           else { s.core c with memFifo := [], memOpen := [] })))))

/-! ### Lane integer instructions -/

/-- What a lane instruction reads (R17, R146, R149, R188, R190): the lanes it acts on, the masks, and operands A, B and C in a
lane, one register or a pair, a scalar register in every lane where SA, SB or SC is set, IMM32 in place of B. -/
def Obligations.LaneOperands : Prop :=
  ∀ (o : COps) (s : State) (l : Nat), l < 64 → s.iss = true →
    (s.active o.guard o.neg).getLsbD l = (s.frag.em.getLsbD l && !(s.gv.fmask.getLsbD l) &&
      (o.guard == 0 || ((s.kreg (o.guard.setWidth 8)).getLsbD l ^^ o.neg))) ∧
    (∀ r : BitVec 8, (s.kreg r).getLsbD l = ((r == 0 || (s.gv.kregs.get r.toNat).getLsbD l) && (!s.blk.legacy || decide (l < 32)))) ∧
    s.lA o false l = (if o.sa then (s.sreg o.a).toNat % 2 ^ 32 else (s.gv.v o.a.toNat l).toNat) ∧
    s.lA o true l = (if o.sa then (s.sreg o.a).toNat
      else (s.gv.v o.a.toNat l).toNat + 2 ^ 32 * (s.gv.v (o.a.toNat + 1) l).toNat) ∧
    (o.imm = none → s.lB o false l = (if o.sb then (s.sreg o.b).toNat % 2 ^ 32 else (s.gv.v o.b.toNat l).toNat) ∧
      s.lB o true l = (if o.sb then (s.sreg o.b).toNat
        else (s.gv.v o.b.toNat l).toNat + 2 ^ 32 * (s.gv.v (o.b.toNat + 1) l).toNat)) ∧
    (∀ w : W64, o.imm = some w → s.lB o false l = (w.setWidth 32).toNat ∧
      s.lB o true l = ((w.setWidth 32).signExtend 64).toNat) ∧
    s.lC o false l = (if o.sc then (s.sreg o.c).toNat % 2 ^ 32 else (s.gv.v o.c.toNat l).toNat) ∧
    s.lC o true l = (if o.sc then (s.sreg o.c).toNat
      else (s.gv.v o.c.toNat l).toNat + 2 ^ 32 * (s.gv.v (o.c.toNat + 1) l).toNat)

/-- The lane integer operations of 0x30 and 0x31 but counts and bit fields (R192 to R194): every active lane writes its result,
taken modulo 2^w and extended by the type, to D or to the pair at D; nothing else changes.
`clz`, `popc`, `bfx` and `bfi` of lanes (R193, R195), bit by bit; `bfx` and `bfi` of a width other than 32 are UNDEF with
UCODE 8. -/
def Obligations.LaneArithmetic : Prop :=
  (∀ (o : COps) (s : State),
     let A := fun l => BitVec.ofNat 64 (s.lA o o.w64 l)
     let B := fun l => BitVec.ofNat 64 (s.lB o o.w64 l)
     let a := fun l => o.val (A l)
     let b := fun l => o.val (B l)
     let c := fun l => o.val (BitVec.ofNat 64 (s.lC o o.w64 l))
     let n := fun l => s.lB o false l % 256
     let w := 8 * 2 ^ (o.x.toNat % 4)
     let W := fun (i : Instr) (f : Nat → W64) => WritesV i s o o.w64 (fun l => (f l).toNat)
     W (.laneAdd o) (fun l => o.ext (a l + b l)) ∧ W (.laneSub o) (fun l => o.ext (a l - b l)) ∧
     W (.laneMul o) (fun l => o.ext (a l * b l)) ∧ W (.laneMulh o) (fun l => o.ext (a l * b l / (2 ^ w : Nat))) ∧
     W (.laneAnd o) (fun l => o.ext ((A l &&& B l).toNat : Int)) ∧ W (.laneOr o) (fun l => o.ext ((A l ||| B l).toNat : Int)) ∧
     W (.laneXor o) (fun l => o.ext ((A l ^^^ B l).toNat : Int)) ∧
     W (.laneMin o) (fun l => o.ext (if a l ≤ b l then a l else b l)) ∧ W (.laneMax o) (fun l => o.ext (if a l ≤ b l then b l else a l)) ∧
     W (.laneShl o) (fun l => o.ext (if w ≤ n l then 0 else a l * (2 ^ n l : Nat))) ∧
     W (.laneShr o) (fun l => o.ext (if w ≤ n l then (if a l < 0 then -1 else 0) else a l / (2 ^ n l : Nat))) ∧
     W (.mad o) (fun l => o.ext (a l * b l + c l)) ∧
     W (.laneSel o) (fun l => o.ext (if (s.kreg o.c).getLsbD l then a l else b l)) ∧ W (.laneMov o) (fun l => o.ext (b l))) ∧
  (∀ (o : COps) (s : State),
     let w := 8 * 2 ^ (o.x.toNat % 4)
     let p := fun l => s.lB o false l % 32
     let n := fun l => min (s.lB o false l / 256 % 64) 32
     (∃ f : Nat → Nat, WritesV (.laneClz o) s o o.w64 f ∧ ∀ l, f l ≤ w ∧
       (∀ j, w - f l ≤ j → j < w → (s.lA o o.w64 l).testBit j = false) ∧
       (f l < w → (s.lA o o.w64 l).testBit (w - f l - 1) = true)) ∧
     WritesV (.lanePopc o) s o o.w64 (fun l => ((List.range w).filter (fun j => (s.lA o o.w64 l).testBit j)).length) ∧
     (o.x.toNat % 4 ≠ 2 → Traps (.laneBfx o) s 1 8 ∧ Traps (.laneBfi o) s 1 8) ∧
     (o.x.toNat % 4 = 2 →
       (∃ f : Nat → Nat, WritesV (.laneBfx o) s o false f ∧ ∀ l, l < 64 → ∀ j, j < 32 → (f l).testBit j =
         if n l = 0 then false
         else if j < n l then decide (p l + j < 32) && (s.lA o false l).testBit (p l + j)
         else decide (o.x.toNat < 4) && decide (p l + n l - 1 < 32) && (s.lA o false l).testBit (p l + n l - 1)) ∧
       ∃ f : Nat → Nat, WritesV (.laneBfi o) s o false f ∧ ∀ l, l < 64 → ∀ j, j < 32 → (f l).testBit j =
         if p l ≤ j ∧ j < p l + n l then (s.lA o false l).testBit (j - p l) else (s.grp.v o.d.toNat l).getLsbD j))

/-- `cmp` of lanes changes only the bits of its active lanes in k[D] (R190, R196); the whole-mask operations write all of k[D],
whatever em holds, `kget` the mask to s[D] (R200). -/
def Obligations.LaneCompareAndMasks : Prop :=
  ∀ (o : COps) (s : State),
    let a := fun l => o.val (BitVec.ofNat 64 (s.lA o o.w64 l))
    let b := fun l => o.val (BitVec.ofNat 64 (s.lB o o.w64 l))
    let C := fun (cc : ICond) (f : Nat → Bool) => WritesK (.laneCmp cc o) s o.d (s.active o.guard o.neg) f
    let M := fun (i : Instr) (f : Nat → Bool) => WritesK i s o.d 0xFFFFFFFFFFFFFFFF f
    C .eq (fun l => decide (a l = b l)) ∧ C .ne (fun l => decide (a l ≠ b l)) ∧ C .lt (fun l => decide (a l < b l)) ∧
    C .le (fun l => decide (a l ≤ b l)) ∧ C .gt (fun l => decide (b l < a l)) ∧ C .ge (fun l => decide (b l ≤ a l)) ∧
    M (.kand o) (fun l => (s.kreg o.a).getLsbD l && (s.kreg o.b).getLsbD l) ∧
    M (.kor o) (fun l => (s.kreg o.a).getLsbD l || (s.kreg o.b).getLsbD l) ∧
    M (.kxor o) (fun l => (s.kreg o.a).getLsbD l ^^ (s.kreg o.b).getLsbD l) ∧
    M (.kandn o) (fun l => (s.kreg o.a).getLsbD l && !(s.kreg o.b).getLsbD l) ∧
    M (.kset o) (fun l => (s.sB o).getLsbD l) ∧ WritesS (.kget o) s o.d (s.kreg o.a)

/-- The shuffles (R160, R197): an active lane takes A of its computed source lane when that lane is active, else its own A; the
source is taken modulo 32 in legacy-width mode, modulo 64 for `shfl` and `shfl.x`, and is none outside 0 to 63 for the other
two. Another X is UNDEF with UCODE 8.
Votes, `ballot` and `match` over the active lanes; with none active nothing is written (R191, R198); votes of
a type, and `match` of another width, are UNDEF with UCODE 8.
Scans and reductions combine the active lanes in ascending order at width w (R199). -/
def Obligations.CrossLaneInstructions : Prop :=
  (∀ (o : COps) (s : State),
     let act := s.active o.guard o.neg
     let b := fun l => s.lB o false l
     let from_ := fun (wrap : Bool) (l : Nat) (j : Int) =>
       let k : Int := if s.blk.legacy then j % 32 else if wrap then j % 64 else j
       if 0 ≤ k ∧ k < 64 ∧ act.getLsbD k.toNat = true then s.lA o o.w64 k.toNat else s.lA o o.w64 l
     (o.x ≠ 2 → o.x ≠ 3 → Traps (.shfl o) s 1 8 ∧ Traps (.shflUp o) s 1 8 ∧ Traps (.shflDn o) s 1 8 ∧ Traps (.shflX o) s 1 8 ∧
       Traps (.laneMatch o) s 1 8) ∧
     (o.x = 2 ∨ o.x = 3 →
       WritesV (.shfl o) s o o.w64 (fun l => from_ true l (b l)) ∧
       WritesV (.shflUp o) s o o.w64 (fun l => from_ false l ((l : Int) - b l)) ∧
       WritesV (.shflDn o) s o o.w64 (fun l => from_ false l ((l : Int) + b l)) ∧
       WritesV (.shflX o) s o o.w64 (fun l => from_ true l ((l ^^^ b l : Nat) : Int)))) ∧
  (∀ (o : COps) (s : State),
     let act := s.active o.guard o.neg
     let k := s.kreg o.a
     (o.x ≠ 0 → Traps (.voteAll o) s 1 8 ∧ Traps (.voteAny o) s 1 8 ∧ Traps (.ballot o) s 1 8) ∧
     (o.x = 0 → act ≠ 0 →
       WritesS (.voteAll o) s o.d (if (lanesOf act).all (fun l => k.getLsbD l) then 1 else 0) ∧
       WritesS (.voteAny o) s o.d (if (lanesOf act).any (fun l => k.getLsbD l) then 1 else 0) ∧
       WritesS (.ballot o) s o.d (k &&& act)) ∧
     (act = 0 → ∀ i ∈ [Instr.voteAll o, .voteAny o, .ballot o, .redAdd o, .redMin o, .redMax o, .redOr o],
       (i ∈ [Instr.voteAll o, .voteAny o, .ballot o] → o.x = 0) → s.Clear i →
       GoesOn i s (fun t => Frame [] s t)) ∧
     (o.x = 2 ∨ o.x = 3 → ∃ f : Nat → Nat, WritesV (.laneMatch o) s o true f ∧
       ∀ l < 64, f l < 2 ^ 64 ∧ ∀ j < 64, (f l).testBit j = (act.getLsbD j && (s.lA o o.w64 j == s.lA o o.w64 l)))) ∧
  (∀ (o : COps) (s : State),
     let act := s.active o.guard o.neg
     let a := fun l => o.val (BitVec.ofNat 64 (s.lA o o.w64 l))
     WritesV (.scanAdd o) s o o.w64 (fun l => (o.ext ((((List.range (l + 1)).filter (fun j => act.getLsbD j)).map a).sum)).toNat) ∧
     (∃ m : Nat → Int, WritesV (.scanMax o) s o o.w64 (fun l => (o.ext (m l)).toNat) ∧
       ∀ l < 64, act.getLsbD l = true → (∃ j ≤ l, act.getLsbD j = true ∧ a j = m l) ∧ ∀ j ≤ l, act.getLsbD j = true → a j ≤ m l) ∧
     (act ≠ 0 →
       WritesS (.redAdd o) s o.d (o.ext (((lanesOf act).map a).sum)) ∧
       (∃ m : Int, WritesS (.redMin o) s o.d (o.ext m) ∧ (∃ j < 64, act.getLsbD j = true ∧ a j = m) ∧
         ∀ j < 64, act.getLsbD j = true → m ≤ a j) ∧
       (∃ m : Int, WritesS (.redMax o) s o.d (o.ext m) ∧ (∃ j < 64, act.getLsbD j = true ∧ a j = m) ∧
         ∀ j < 64, act.getLsbD j = true → a j ≤ m) ∧
       ∃ m : W64, WritesS (.redOr o) s o.d (o.ext (m.toNat : Int)) ∧
         ∀ b < 64, b < 8 * 2 ^ (o.x.toNat % 4) →
           m.getLsbD b = (lanesOf act).any (fun l => (s.lA o o.w64 l).testBit b)))

/-! ### Lane floating-point instructions -/

/-- The floating-point operations of 0x60 to 0x63 (R201 to R205): every active lane writes the value of its operation and raises
its flags into FPSTAT (R134); `abs` and `neg` change bit 31 alone and raise nothing; the packed forms work on each half. The functions
of 0x61 give NaNs, infinities and zeros what the table of R204 gives them, exact powers of two for integers, and exact integers for
powers of two. -/
def Obligations.FloatArithmetic : Prop :=
  (∀ (o : COps) (s : State),
    let rm := RM.of o.x.toNat
    let a := fun l => s.lA o false l
    let b := fun l => s.lB o false l
    let c := fun l => s.lC o false l
    let A := fun l => Flt.f32.decode (a l)
    let B := fun l => Flt.f32.decode (b l)
    let C := fun l => Flt.f32.decode (c l)
    WritesVF (.addF32 o) s o false (fun l => Flt.f32.add rm (A l) (B l)) ∧
    WritesVF (.subF32 o) s o false (fun l => Flt.f32.add rm (A l) (B l).flip) ∧
    WritesVF (.mulF32 o) s o false (fun l => Flt.f32.mul rm (A l) (B l)) ∧
    WritesVF (.fmaF32 o) s o false (fun l => Flt.f32.fma rm (A l) (B l) (C l)) ∧
    WritesVF (.minF32 o) s o false (fun l => Flt.f32.minmax false (a l) (b l)) ∧
    WritesVF (.maxF32 o) s o false (fun l => Flt.f32.minmax true (a l) (b l)) ∧
    WritesVF (.absF32 o) s o false (fun l => (a l % 2 ^ 31, 0)) ∧ WritesVF (.negF32 o) s o false (fun l => (a l ^^^ 2 ^ 31, 0)) ∧
    WritesVF (.divF32 o) s o false (fun l => Flt.f32.div rm (A l) (B l)) ∧
    WritesVF (.sqrtF32 o) s o false (fun l => Flt.f32.sqrt rm (A l)) ∧
    WritesVF (.rcpF32 o) s o false (fun l => Flt.f32.div rm (Flt.f32.decode 0x3F800000) (A l)) ∧
    WritesVF (.rsqrtF32 o) s o false (fun l => Flt.f32.rsqrt rm (A l)) ∧
    WritesVF (.exp2F32 o) s o false (fun l => Flt.f32.exp2 rm (A l)) ∧ WritesVF (.log2F32 o) s o false (fun l => Flt.f32.log2 rm (A l)) ∧
    WritesVF (.sinF32 o) s o false (fun l => Flt.f32.sin rm (A l)) ∧ WritesVF (.cosF32 o) s o false (fun l => Flt.f32.cos rm (A l)) ∧
    WritesVF (.tanhF32 o) s o false (fun l => Flt.f32.tanh rm (A l)) ∧
    ∀ op : PackOp,
      (let e := fun (f : Flt) (l k : Nat) => packOne f op rm (a l / 65536 ^ k % 65536) (b l / 65536 ^ k % 65536) (c l / 65536 ^ k % 65536)
       WritesVF (.packedF16Arith op o) s o false (fun l => ((e .f16 l 0).1 + 65536 * (e .f16 l 1).1, (e .f16 l 0).2 ||| (e .f16 l 1).2)) ∧
       WritesVF (.packedBf16Arith op o) s o false
        (fun l => ((e .bf16 l 0).1 + 65536 * (e .bf16 l 1).1, (e .bf16 l 0).2 ||| (e .bf16 l 1).2)))) ∧
  (∀ (rm : RM) (z : Bool) (p : Nat) (q : Bool),
     let nan := (0x7FC00000, if q then NV else 0)
     let zero := Machine.Num.fin z 0 0
     let one := 0x3F800000
     (∀ g ∈ [Flt.f32.exp2 rm, Flt.f32.log2 rm, Flt.f32.sin rm, Flt.f32.cos rm, Flt.f32.tanh rm], g (.nan z p q) = nan) ∧
     Flt.f32.exp2 rm (.inf true) = (0, 0) ∧ Flt.f32.exp2 rm (.inf false) = (0x7F800000, 0) ∧
     Flt.f32.log2 rm zero = (0xFF800000, DZ) ∧ Flt.f32.log2 rm (.inf false) = (0x7F800000, 0) ∧
     Flt.f32.log2 rm (.inf true) = (0x7FC00000, NV) ∧
     Flt.f32.sin rm zero = (Flt.f32.sgn z, 0) ∧ Flt.f32.sin rm (.inf z) = (0x7FC00000, NV) ∧
     Flt.f32.cos rm zero = (one, 0) ∧ Flt.f32.cos rm (.inf z) = (0x7FC00000, NV) ∧
     Flt.f32.tanh rm zero = (Flt.f32.sgn z, 0) ∧ Flt.f32.tanh rm (.inf z) = (Flt.f32.sgn z + one, 0) ∧
     ∀ a : Nat, (Flt.f32.decode a).isFin = true →
       (Flt.f32.val a < 0 → Flt.f32.log2 rm (Flt.f32.decode a) = (0x7FC00000, NV)) ∧
       (∀ n : Int, -126 ≤ n → n ≤ 127 → Flt.f32.val a = n →
         Flt.f32.exp2 rm (Flt.f32.decode a) = ((n + 127).toNat * 2 ^ 23, 0)) ∧
       (∀ n : Int, Flt.f32.val a = 2 ^ n → (Flt.f32.log2 rm (Flt.f32.decode a)).2 = 0 ∧
         (Flt.f32.decode (Flt.f32.log2 rm (Flt.f32.decode a)).1).isFin = true ∧
         Flt.f32.val (Flt.f32.log2 rm (Flt.f32.decode a)).1 = n))

/-- The one rounding of every operation (R129, R130): a finite magnitude rounds to the magnitude its mode names, with its sign,
unless it overflows; NX is raised exactly when the result differs. Every format, every mode, every exact value m × 2^e. -/
def Obligations.RoundingIsCorrect : Prop :=
  ∀ (f : Flt) (rm : RM) (neg : Bool) (m : Nat) (e : Int), 0 < m →
    let r := f.roundFin rm false neg m e false
    let c := r.1 % 2 ^ (f.width - 1)
    c ≤ f.maxBits →
      r.1 = f.sgn neg + c ∧ f.Rounds rm neg ((m : ℚ) * 2 ^ e) c ∧ (r.2.getLsbD 4 = true ↔ (m : ℚ) * 2 ^ e ≠ f.val c)

/-- Sums, products and fused products of finite operands are the exact value rounded once (R201, R202): an exact zero of
operands of opposite sign is +0, or −0 under RDN. Special operands give what R202 says.
Quotients are the exact one rounded once (R129, R201). The square root and the reciprocal one of a positive number are roots
rounded once, said of the squares: a mode that cuts takes the greatest magnitude whose square does not pass, RUP the least whose
square is not passed, and for RNE no other magnitude lies across the middle. NX is raised exactly when the result differs. -/
def Obligations.FloatOperationsRoundOnce : Prop :=
  (∀ (f : Flt) (rm : RM) (x y z : Machine.Num), x.isFin = true → y.isFin = true → z.isFin = true →
    (x.val + y.val ≠ 0 → ∃ (m : Nat) (e : Int), 0 < m ∧ (m : ℚ) * 2 ^ e = |x.val + y.val| ∧
      f.add rm x y = f.roundFin rm false (decide (x.val + y.val < 0)) m e false) ∧
    (x.val + y.val = 0 → x.neg ≠ y.neg → f.add rm x y = (f.sgn (rm == .rdn), 0)) ∧
    (x.val * y.val ≠ 0 → ∃ (m : Nat) (e : Int), 0 < m ∧ (m : ℚ) * 2 ^ e = |x.val * y.val| ∧
      f.mul rm x y = f.roundFin rm false (decide (x.val * y.val < 0)) m e false) ∧
    (x.val * y.val + z.val ≠ 0 → ∃ (m : Nat) (e : Int), 0 < m ∧ (m : ℚ) * 2 ^ e = |x.val * y.val + z.val| ∧
      f.fma rm x y z = f.roundFin rm false (decide (x.val * y.val + z.val < 0)) m e false) ∧
    (∀ (s t : Bool) (p q : Nat) (g h : Bool),
      f.add rm (.inf s) (.inf t) = (if s = t then (f.sgn s + f.infBits, 0) else (f.nan, NV)) ∧
      f.add rm (.nan s p g) y = (f.nan, if g then NV else 0) ∧ f.add rm (.nan s p g) (.nan t q h) = (f.nan, if g || h then NV else 0) ∧
      (x.isZero = true → f.mul rm (.inf s) x = (f.nan, NV) ∧ f.fma rm (.inf s) x (.nan t q h) = (f.nan, NV)) ∧
      f.div rm (.inf s) (.inf t) = (f.nan, NV) ∧
      (x.isZero = true → y.isZero = true → f.div rm x y = (f.nan, NV)) ∧
      (x.isZero = false → y.isZero = true → f.div rm x y = (f.sgn (x.neg != y.neg) + f.infBits, DZ)) ∧
      (x.isZero = true → f.sqrt rm x = (f.sgn x.neg, 0) ∧ f.rsqrt rm x = (f.sgn x.neg + f.infBits, DZ)) ∧
      (x.isZero = false → x.neg = true → f.sqrt rm x = (f.nan, NV) ∧ f.rsqrt rm x = (f.nan, NV)))) ∧
  (∀ (f : Flt) (rm : RM) (a b : Nat), (f.decode a).isFin = true → f.val a ≠ 0 →
    ((f.decode b).isFin = true → f.val b ≠ 0 →
      let neg := decide (f.val a / f.val b < 0)
      let r := f.div rm (f.decode a) (f.decode b)
      let c := r.1 % 2 ^ (f.width - 1)
      c ≤ f.maxBits → r.1 = f.sgn neg + c ∧ f.Rounds rm neg |f.val a / f.val b| c ∧
        (r.2.getLsbD 4 = true ↔ |f.val a / f.val b| ≠ f.val c)) ∧
    -- `r` is the root of `w`.
    (let root := fun (w : ℚ) (r : Nat × Fl) =>
       let c := f.val r.1
       r.1 ≤ f.maxBits ∧ (r.2.getLsbD 4 = true ↔ w ≠ c ^ 2) ∧
       (rm = .rtz ∨ rm = .rdn → c ^ 2 ≤ w ∧ ∀ d ≤ f.maxBits, f.val d ^ 2 ≤ w → f.val d ≤ c) ∧
       (rm = .rup → w ≤ c ^ 2 ∧ ∀ d ≤ f.maxBits, w ≤ f.val d ^ 2 → c ≤ f.val d) ∧
       (rm = .rne → ∀ d ≤ f.maxBits, (c < f.val d → w ≤ ((c + f.val d) / 2) ^ 2) ∧ (f.val d < c → ((c + f.val d) / 2) ^ 2 ≤ w))
     0 < f.val a → root (f.val a) (f.sqrt rm (f.decode a)) ∧ root (1 / f.val a) (f.rsqrt rm (f.decode a))))

/-- `min` and `max` (R203): of two numbers the lower or the higher one itself, −0 below +0; of a number and a NaN the number.
`cmp` of floats (R206): the bits of the active lanes in k[D], the flags of the compares in FPSTAT, nothing else; numbers
compare exactly, −0 equal to +0; a NaN gives 1 for `.ne` and `.un` alone, and NV for the ordered conditions or when it is
signalling. X[1:0] = 3 is UNDEF with UCODE 8. -/
def Obligations.FloatMinimumAndCompare : Prop :=
  (∀ (f : Flt) (x y : Nat),
     ((f.decode x).isNan = true → (f.decode y).isNan = false → ∀ big, (f.minmax big x y).1 = y ∧ (f.minmax big y x).1 = y) ∧
     ((f.decode x).isNan = true → (f.decode y).isNan = true → ∀ big, (f.minmax big x y).1 = f.nan) ∧
     ((f.decode x).isFin = true → (f.decode y).isFin = true →
       (f.val x < f.val y → f.minmax false x y = (x, 0) ∧ f.minmax true x y = (y, 0) ∧ f.minmax false y x = (x, 0) ∧
         f.minmax true y x = (y, 0)) ∧
       (f.val x = 0 → f.val y = 0 → (f.decode x).neg = true → (f.decode y).neg = false →
         f.minmax false x y = (x, 0) ∧ f.minmax true x y = (y, 0) ∧ f.minmax false y x = (x, 0) ∧ f.minmax true y x = (y, 0)))) ∧
  ((∀ (cc : FCond) (o : COps) (s : State),
     (o.x.toNat % 4 = 3 → Traps (.floatCmp cc o) s 1 8) ∧
     (o.x.toNat % 4 ≠ 3 → s.Clear (.floatCmp cc o) →
       let f : Flt := if o.x.toNat % 4 = 0 then .f32 else if o.x.toNat % 4 = 1 then .f16 else .bf16
       let el := fun (x : Nat) => if o.x.toNat % 4 = 0 then x else if o.c.getLsbD 0 then x / 65536 else x % 65536
       let act := s.active o.guard o.neg
       let r := fun l => f.compare cc (el (s.lA o false l)) (el (s.lB o false l))
       GoesOn (.floatCmp cc o) s (fun t => Frame [.kregs, .fpstat] s t ∧ s.SetsK t o.d act (fun l => (r l).1) ∧
         (∀ j, t.gv.fpstat.getLsbD j = (s.gv.fpstat.getLsbD j || (lanesOf act).any (fun l => (r l).2.getLsbD j)))))) ∧
   (∀ (f : Flt) (x y : Nat),
     ((f.decode x).isFin = true → (f.decode y).isFin = true →
       f.compare .eq x y = (decide (f.val x = f.val y), 0) ∧ f.compare .ne x y = (decide (f.val x ≠ f.val y), 0) ∧
       f.compare .lt x y = (decide (f.val x < f.val y), 0) ∧ f.compare .le x y = (decide (f.val x ≤ f.val y), 0) ∧
       f.compare .gt x y = (decide (f.val y < f.val x), 0) ∧ f.compare .ge x y = (decide (f.val y ≤ f.val x), 0) ∧
       f.compare .un x y = (false, 0)) ∧
     ((f.decode x).isNan = true ∨ (f.decode y).isNan = true →
       let sig := (f.decode x).isSnan || (f.decode y).isSnan
       f.compare .eq x y = (false, if sig then NV else 0) ∧ f.compare .ne x y = (true, if sig then NV else 0) ∧
       f.compare .un x y = (true, if sig then NV else 0) ∧ f.compare .lt x y = (false, NV) ∧ f.compare .le x y = (false, NV) ∧
       f.compare .gt x y = (false, NV) ∧ f.compare .ge x y = (false, NV))))

/-- `cvt` (R207, R208, R209): the types it does not take are UNDEF with UCODE 8; otherwise every active lane writes the converted
value, a pair for a 64-bit destination, and raises its flags. What a value converts to is said for each pair of kinds (R123, R128 to
R131, R208, R209): an integer, a 1-bit value standing for one, or a float, to an integer, to a 1-bit value, or to a float. The worked cases
of R132 and R209 are part of it. -/
def Obligations.FloatConvert : Prop :=
  (∀ (o : COps) (s : State),
    let dt := o.c.toNat / 16
    let st := o.c.toNat % 16
    let nosat := o.x.getLsbD 2
    let bad := dt = 13 ∨ st = 13 ∨ (nosat = true ∧ dt ≠ 11 ∧ dt ≠ 12)
    (bad → Traps (.cvt o) s 1 8) ∧
    (¬ bad → WritesVF (.cvt o) s o (dt == 3 || dt == 7)
      (fun l => cvtOne dt st (RM.of o.x.toNat) nosat (s.lA o (st == 3 || st == 7) l)))) ∧
  (∀ (dt st : Nat) (rm : RM) (nosat : Bool) (x : Nat),
     let r := cvtOne dt st rm nosat x
     let floats := [(8, Flt.f32), (9, Flt.f16), (10, Flt.bf16), (11, Flt.e4m3), (12, Flt.e5m2)]
     -- The range of an integer type, and its value in the bits that are written.
     let lo : Int := if dt < 4 then -(2 ^ (8 * 2 ^ (dt % 4) - 1) : Nat) else 0
     let hi : Int := if dt < 4 then (2 ^ (8 * 2 ^ (dt % 4) - 1) : Nat) - 1 else (2 ^ (8 * 2 ^ (dt % 4)) : Nat) - 1
     let out := fun (v : Int) => (BitVec.ofInt (if dt % 4 = 3 then 64 else 32) (max lo (min hi v))).toNat
     (∀ v : Int, (st < 4 ∧ v = (BitVec.ofNat (8 * 2 ^ (st % 4)) x).toInt) ∨ (4 ≤ st ∧ st < 8 ∧ v = (BitVec.ofNat (8 * 2 ^ (st % 4)) x).toNat) ∨
         (st = 14 ∧ v = 1 - 2 * (x % 2 : Nat)) →
       (dt < 8 → r = (out v, if lo ≤ v ∧ v ≤ hi then 0 else NV ||| SAT)) ∧
       (dt = 14 → r = (if v < 0 then 1 else 0, 0)) ∧
       (∀ g, (dt, g) ∈ floats → (v = 0 → r = (0, 0)) ∧ (v ≠ 0 → g.Converts rm (!nosat) (decide (v < 0)) |(v : ℚ)| r))) ∧
     (∀ f, (st, f) ∈ floats →
       let y := x % 2 ^ f.width
       let neg := y.testBit (f.width - 1)
       let ones := f ≠ .e4m3 ∧ y / 2 ^ f.mw % 2 ^ f.ew = 2 ^ f.ew - 1
       let pay := y % 2 ^ f.mw
       let nan := (ones ∧ pay ≠ 0) ∨ (f = .e4m3 ∧ y % 128 = 127)
       let inf := ones ∧ pay = 0
       let flag := if ones ∧ pay.testBit (f.mw - 1) = false then NV else 0
       (dt < 8 →
         (nan → r = (0, NV)) ∧ (inf → r = (out (if neg then lo else hi), NV ||| SAT)) ∧
         (¬ nan → ¬ inf → ∃ n : Int, rm.RoundsInt (f.val y) n ∧
           r = (out n, if n < lo ∨ hi < n then NV ||| SAT else if (n : ℚ) ≠ f.val y then NX else 0))) ∧
       (dt = 14 → (nan → r = (0, flag)) ∧ (inf → r = (if neg then 1 else 0, 0)) ∧
         (¬ nan → ¬ inf → r = (if f.val y < 0 then 1 else 0, 0))) ∧
       (∀ g, (dt, g) ∈ floats →
         let sat := !nosat && dt != st
         (nan → r = (if g = .e4m3 then g.sgn neg + 0x7F else g.sgn neg + g.infBits +
           ((if f = .e4m3 then 0 else pay * 2 ^ g.mw / 2 ^ f.mw) ||| 2 ^ (g.mw - 1)), flag)) ∧
         (inf → r = if sat = true ∧ (g = .e4m3 ∨ g = .e5m2) then (g.sgn neg + g.maxBits, SAT) else (g.sgn neg + g.infBits, 0)) ∧
         (¬ nan → ¬ inf → f.val y = 0 → r = (g.sgn neg, 0)) ∧
         (¬ nan → ¬ inf → f.val y ≠ 0 → g.Converts rm sat neg |f.val y| r) ∧
         (dt = st → ¬ nan → r = (y, 0))))) ∧
  cvtOne 2 8 .rne false 0xC0200000 = (0xFFFFFFFE, NX) ∧ cvtOne 2 8 .rdn false 0xC0200000 = (0xFFFFFFFD, NX) ∧
  cvtOne 0 8 .rne false 0x43488000 = (0x7F, NV ||| SAT) ∧ cvtOne 4 8 .rne false 0xC0400000 = (0, NV ||| SAT) ∧
  cvtOne 2 8 .rne false 0x7FC00000 = (0, NV) ∧ cvtOne 9 2 .rne false 65520 = (0x7C00, OF ||| NX) ∧
  cvtOne 11 8 .rne false 0x43FA0000 = (0x7E, OF ||| NX ||| SAT) ∧ cvtOne 11 8 .rne true 0x43FA0000 = (0x7F, OF ||| NX) ∧
  cvtOne 0 2 .rne false 0xFFFFFED4 = (0xFFFFFF80, NV ||| SAT) ∧ cvtOne 8 14 .rne false 1 = (0xBF800000, 0) ∧
  cvtOne 10 8 .rne false 0x3F808000 = (0x3F80, NX) ∧ cvtOne 10 8 .rup false 0x3F808000 = (0x3F81, NX) ∧
  cvtOne 11 8 .rne false 0x3A800000 = (0, UF ||| NX) ∧ cvtOne 11 8 .rne false 0xFF800000 = (0xFE, SAT) ∧
  cvtOne 12 12 .rne false 0x7C = (0x7C, 0) ∧ cvtOne 12 12 .rne false 0x7D = (0x7F, NV)

/-! ### Memory instructions -/

/-- The checks of one address (R89 to R92, R210, R212, R215, R216): which addresses are violations, and of what cause; a private
address whose translation is not present before one that is misaligned, and that before one without permission. The bytes that a
FORMAT violation reaches over are the model's reading (notes/assumptions/15.md). The checks of windows change nothing.
The outcome of a whole lane memory instruction (R212): misaligned lanes come before lanes whose translation is not
present, those before lanes without permission, those before lanes that read poison; the record names exactly the lanes of the
row, and lanes that only violate stop nothing. -/
def Obligations.AddressFaults : Prop :=
  (∀ (s : State) (h : Shape) (a : Nat),
     (2 ^ 56 ≤ a → s.checkAddr h a = (s, .viol 2)) ∧
     (2 ^ 55 ≤ a → a < 2 ^ 56 → (bits a 36 19 ≠ 0 ∨ bits a 30 2 ≠ 0 ∨ s.blk.clusize ≤ bits a 32 4) →
       s.checkAddr h a = (s, .viol 2)) ∧
     (2 ^ 30 ≤ a → s.checkOwn h a = (s, .viol 2)) ∧
     (a < 2 ^ 30 → ∀ x, s.block s.bkey = some x → x.winsize ≤ a → s.checkOwn h a = (s, .viol 1)) ∧
     (∀ bk x n, s.block bk = some x → h.nb (x.winfmt.get (a / 65536)) = some n → a < x.winsize → x.winsize < a + n →
       s.checkWin h bk a = .viol 1) ∧
     (∀ bk x n, s.block bk = some x → h.nb (x.winfmt.get (a / 65536)) = some n → a + n ≤ x.winsize → 0 < n →
       (h.hdr (x.winfmt.get (a / 65536)) = false →
         (a % n ≠ 0 → s.checkWin h bk a = .misal) ∧
         (a % n = 0 → s.checkWin h bk a = .ok (.win bk a) 0 (x.winfmt.get (a / 65536)) none)) ∧
       (h.hdr (x.winfmt.get (a / 65536)) = true →
         let g := hdrGranule (x.winfmt.get (a / 65536)) (a / 65536)
         (g < 0 ∨ ((x.winsize / 65536 : Nat) : Int) ≤ g → s.checkWin h bk a = .viol 1) ∧
         (0 ≤ g → g < ((x.winsize / 65536 : Nat) : Int) → fmtTag (x.winfmt.get g.toNat) ≠ 0 → s.checkWin h bk a = .viol 4) ∧
         (0 ≤ g → g < ((x.winsize / 65536 : Nat) : Int) → fmtTag (x.winfmt.get g.toNat) = 0 → a % n ≠ 0 →
           s.checkWin h bk a = .misal))) ∧
     (∀ bk x f, s.block bk = some x → a < x.winsize → h.flt = some f → h.nb (x.winfmt.get (a / 65536)) = none →
       let w := if h.acc = .atomic then h.plain else (h.vals f * tagWidth (fmtTag (x.winfmt.get (a / 65536))) + 7) / 8
       s.checkWin h bk a = if x.winsize < a + w then .viol 1 else .viol 4) ∧
     (∀ lane, (s.blk.priv < a + h.plain → s.checkPriv h lane a = (s, .viol 1)) ∧
       (let at_ := fun (b : Nat) => s.grp.pbase + 1024 + b / 4 * 256 + lane * 4 + b % 4
        let last := (a + h.plain - 1) / 4 * 4
        let u := s.xlate s.blk.part s.blk.core s.ctxid (at_ a) h.acc
        let v := u.1.xlate s.blk.part s.blk.core s.ctxid (at_ last) h.acc
        a + h.plain ≤ s.blk.priv →
          (u.2 = .error .miss → s.checkPriv h lane a = (u.1, .miss (at_ a))) ∧
          (u.2 ≠ .error .miss → v.2 = .error .miss → s.checkPriv h lane a = (v.1, .miss (at_ last))) ∧
          (u.2 ≠ .error .miss → v.2 ≠ .error .miss → a % h.plain ≠ 0 → (s.checkPriv h lane a).2 = .misal) ∧
          (∀ d, u.2 = .error (.prot d) → v.2 ≠ .error .miss → a % h.plain = 0 → (s.checkPriv h lane a).2 = .prot d (at_ a)) ∧
          (∀ x y, u.2 = .ok x → v.2 = .ok y → a % h.plain = 0 → h.acc = .store →
            s.checkPriv h lane a = (v.1, .ok (.priv x.key y.key 0) (at_ a) 0 none))))) ∧
  (∀ (l : List Checked) (write : Bool), (∀ c ∈ l, c.1 < 64) →
     let lanes := fun (f : LaneRes → Bool) (m : W64) => ∀ i < 64, m.getLsbD i = l.any (fun c => c.1 == i && f c.2.2)
     (l.any (fun c => isMisal c.2.2) = true →
       ∃ a m, laneStop l write = some (.precise ⟨2, 3, a, m, write⟩) ∧ lanes isMisal m) ∧
     (l.any (fun c => isMisal c.2.2) = false → l.any (fun c => isMiss c.2.2) = true →
       ∃ a m, laneStop l write = some (.replay ⟨1, 0, a, m, write⟩) ∧ lanes isMiss m) ∧
     (l.any (fun c => isMisal c.2.2 || isMiss c.2.2) = false → l.any (fun c => isProt c.2.2) = true →
       ∃ d a m, laneStop l write = some (.precise ⟨2, d, a, m, write⟩) ∧ lanes isProt m) ∧
     (l.any (fun c => isMisal c.2.2 || isMiss c.2.2 || isProt c.2.2) = false → l.any (fun c => isPoison c.2.2) = true →
       ∃ a m, laneStop l write = some (.precise ⟨6, 0, a, m, write⟩) ∧ lanes isPoison m) ∧
     (l.all (fun c => isViol c.2.2 || isOk c.2.2) = true → laneStop l write = none))

/-- The translation of an address (R363 to R369): an entry of the core's TLB answers without a walk; one of the die's shared TLB is
copied to the core's; a walk that finds a leaf puts it into both and sets A at the entry's home, and nothing else of the device
changes; the permissions an access needs. A TLB keeps within 256 entries, a die's within 16,384 (R368). Which entry a full TLB
gives up is the model's choice (notes/assumptions/64.md). -/
def Obligations.Translation : Prop :=
  (∀ (s : State) (p h c va : Nat),
    let hit := fun (who : Nat) => (s.part p).tlbHit who c va
    (∀ t, hit h = some t →
      s.leafOf p h c va = (s, .ok t) ∧
      (t.leaf.getLsbD 2 = false → s.xlate p h c va .load = (s, .error (.prot 1)) ∧ s.xlate p h c va .atomic = (s, .error (.prot 1))) ∧
      (t.leaf.getLsbD 3 = false → s.xlate p h c va .store = (s, .error (.prot 1)) ∧ s.xlate p h c va .atomic = (s, .error (.prot 1))) ∧
      (t.leaf.getLsbD 4 = false → s.xlate p h c va .fetch = (s, .error .fetch)) ∧
      (t.leaf.getLsbD 4 = true → t.leaf.getLsbD 9 = true → s.xlate p h c va .fetch = (s, .error .cold)) ∧
      (t.leaf.getLsbD 2 = true → t.leaf.extractLsb' 5 2 = 0 →
        s.xlate p h c va .load = (s, .ok ⟨hbmKey p ((t.leaf.extractLsb' 16 36).toNat * 65536 + va % 2 ^ lvlShift t.level),
          t.leaf.extractLsb' 12 4 ++ t.leaf.extractLsb' 52 12⟩)) ∧
      (t.leaf.getLsbD 2 = true → t.leaf.extractLsb' 5 2 = 2 → (s.part p).routes.has (t.leaf.extractLsb' 46 6).toNat = false →
        s.xlate p h c va .load = (s, .error (.prot 2)))) ∧
    (∀ t, hit h = none → hit (dieTlb (h / 64)) = some t →
      s.leafOf p h c va = (s.modPart p (fun y => y.tlbAdd { t with who := h }), .ok { t with who := h })) ∧
    (hit h = none → hit (dieTlb (h / 64)) = none → ∀ x, s.ctx p c = some x → s.ctxEntryOk p x.entry = true →
      let walk := s.walkFrom p va [3, 2, 1, 0] (bits (x.entry.getD 0 0).toNat 13 39 * 8192)
      (∀ lvl e k, walk = .ok (lvl, e, k) →
        let t : TlbEnt := ⟨h, c, va >>> lvlShift lvl, lvl, e ||| 0x80, k⟩
        let y := s.part p
        let u := s.leafOf p h c va
        u.2 = .ok t ∧ (∀ a, u.1.mem.byte a = if a = k then s.mem.byte a ||| 0x80 else s.mem.byte a) ∧
        let z := if h % 64 = 63 then y.tlbAdd t else (y.tlbAdd { t with who := dieTlb (h / 64) }).tlbAdd t
        u.1 = { s with mem := u.1.mem, parts := setNth s.parts p z }) ∧
      (∀ f, walk = .error f → s.leafOf p h c va = (s, .error f))) ∧
    (hit h = none → hit (dieTlb (h / 64)) = none → (∀ x, s.ctx p c = some x → s.ctxEntryOk p x.entry = false) →
      s.leafOf p h c va = (s, .error (.prot 6)))) ∧
  (∀ (x : Part) (t : TlbEnt),
    let of := fun (l : List TlbEnt) => l.filter (fun u => u.who == t.who)
    let room := if t.who % 64 = 63 then 16384 else 256
    x.tlbAdd t = { x with tlb := (x.tlbAdd t).tlb } ∧ (∃ l, (x.tlbAdd t).tlb = t :: l ∧ ∀ u ∈ l, u ∈ x.tlb) ∧
    ((of x.tlb).length < room → (x.tlbAdd t).tlb = t :: x.tlb) ∧
    ((of x.tlb).length ≤ room → (of (x.tlbAdd t).tlb).length ≤ room) ∧
    (∀ u ∈ x.tlb, u.who ≠ t.who → u ∈ (x.tlbAdd t).tlb))

/-- A scalar load and a scalar store (R173): at the address A + B × 2^SCALE + offset, the nb bytes as the group sees them,
extended by the type, reach s[D]; the low nb bytes of s[D] are what the group then sees there, every other byte as before. A
float type is UNDEF with UCODE 8; a misaligned or invalid address and a page without the permission are precise PROTECTION faults,
an absent page a replayable one; walks that were made stay made. -/
def Obligations.ScalarLoadsAndStores : Prop :=
  ∀ (o : MOps) (s : State),
    let m := s.marked (.scalarLd o)
    let m' := s.marked (.scalarSt o)
    let ty := o.ty.toNat
    let n := 2 ^ (ty % 4)
    let a := (s.sreg o.a + (if o.idx then s.sreg o.b <<< o.scale.toNat else 0) +
      (match o.long with | some e => e.ofs.signExtend 64 | none => o.ofs7.signExtend 64)).toNat
    let ld := m.checkScalar ty a .load
    let st := m'.checkScalar ty a .store
    (8 ≤ ty → Traps (.scalarLd o) s 1 8 ∧ Traps (.scalarSt o) s 1 8) ∧
    (ty < 8 → s.Clear (.scalarLd o) →
      (∀ pl va fmt hdr, ld.2 = .ok pl va fmt hdr → GoesOn (.scalarLd o) s (fun t =>
        Frame [.sregs, .stores, .mem, .poison, .parts] s t ∧ t.mem = ld.1.mem ∧ SeesSame ld.1 t [] ∧
        s.SetsS t o.d (if ty < 4 then (BitVec.ofNat (8 * n) (ofLe (ld.1.seesN pl n))).signExtend 64
          else BitVec.ofNat 64 (ofLe (ld.1.seesN pl n))))) ∧
      (∀ v, ld.2 = .viol v → exec (.scalarLd o) s = .next (s.precise (0x14, 0) ⟨2, 4, BitVec.ofNat 64 a, s.frag.em, false⟩)) ∧
      (a % n ≠ 0 → exec (.scalarLd o) s = .next (s.precise (0x14, 0) ⟨2, 3, BitVec.ofNat 64 a, s.frag.em, false⟩)) ∧
      (∀ va, ld.2 = .miss va →
        exec (.scalarLd o) s = .next (s.replay (0x14, 0) ⟨1, 0, BitVec.ofNat 64 va, s.frag.em, false⟩)) ∧
      (∀ d va, ld.2 = .prot d va →
        exec (.scalarLd o) s = .next (s.stopped (.scalarLd o) (m.stopAt ld.1 (.precise ⟨2, d, BitVec.ofNat 64 va, s.frag.em, false⟩)))) ∧
      (∀ va, ld.2 = .poison va →
        exec (.scalarLd o) s = .next (s.stopped (.scalarLd o) (m.stopAt ld.1 (.precise ⟨6, 0, BitVec.ofNat 64 va, s.frag.em, false⟩))))) ∧
    (ty < 8 → s.Clear (.scalarSt o) →
      (∀ pl va fmt hdr, st.2 = .ok pl va fmt hdr → GoesOn (.scalarSt o) s (fun t =>
        Frame [.window, .stores, .mem, .poison, .parts] s t ∧ t.mem = st.1.mem ∧
        (∀ i < n, t.sees (pl.add i) = (s.sreg o.d).extractLsb' (8 * i) 8) ∧
        SeesSame st.1 t ((List.range n).map pl.add))) ∧
      (∀ v, st.2 = .viol v → exec (.scalarSt o) s = .next (s.precise (0x14, 1) ⟨2, 4, BitVec.ofNat 64 a, s.frag.em, true⟩)) ∧
      (a % n ≠ 0 → exec (.scalarSt o) s = .next (s.precise (0x14, 1) ⟨2, 3, BitVec.ofNat 64 a, s.frag.em, true⟩)) ∧
      (∀ va, st.2 = .miss va →
        exec (.scalarSt o) s = .next (s.replay (0x14, 1) ⟨1, 0, BitVec.ofNat 64 va, s.frag.em, true⟩)) ∧
      (∀ d va, st.2 = .prot d va →
        exec (.scalarSt o) s = .next (s.stopped (.scalarSt o) (m'.stopAt st.1 (.precise ⟨2, d, BitVec.ofNat 64 va, s.frag.em, true⟩)))))

/-- The lane loads (R211, R212, R214): when no lane stops the instruction, violating lanes are switched off, memory keeps its
bytes, and the values of the surviving lanes are on their way to D, which the completion of the load writes; the registers stay
as they are until then. A stop leaves the whole instruction undone, but for the walks its checks have made (R369).
The oldest load of a group completes: its values reach the lane registers, and the scoreboard lets go of them (R214).
What a load puts into a register (R105, R211): an integer type extends its bytes by the type; a float type under tag 0, and
every type that moves bits, takes the bytes as they are; under tags 1 to 4 and 7 each element is decoded and rounded to the
type. -/
def Obligations.LaneLoads : Prop :=
  (∀ (o : MOps) (s : State) (i : Instr) (chk : State → Shape → Nat → State × LaneRes),
     (i = .ldG o ∧ chk = chkGlobal o) ∨ (i = .ldS o ∧ chk = chkOwn o) ∨ (i = .ldP o ∧ chk = chkPrivate o) → s.Clear i →
     let m := s.marked i
     let r := m.checked o .load chk
     let h := o.shape .load
     (∀ e, laneStop r.2 false = some e → exec i s = .next (s.stopped i (m.stopAt r.1 e))) ∧
     (laneStop r.2 false = none → GoesOn i s (fun t =>
       Frame [.fmask, .loads, .stores, .mem, .poison, .parts] s t ∧ t.mem = r.1.mem ∧ SeesSame r.1 t [] ∧
       t.gv.fmask = s.gv.fmask ||| lanesWith r.2 isViol ∧
       ((∀ lane pl va fmt hdr, ¬ Survives r.2 lane pl va fmt hdr) → t.gv.loads = s.gv.loads) ∧
       ((∃ lane pl va fmt hdr, Survives r.2 lane pl va fmt hdr) → ∃ e, t.gv.loads = s.gv.loads ++ [e] ∧
         e.regs = (if h.regBytes = 8 then [o.d.toNat, o.d.toNat + 1] else [o.d.toNat]) ∧ e.serve = none ∧
         (∀ lane pl va fmt hdr, Survives r.2 lane pl va fmt hdr →
           (SMap.setAll s.gv.vregs e.writes).get (o.d.toNat * 64 + lane) = BitVec.ofNat 32 (r.1.loadValue h pl fmt hdr) ∧
           (h.regBytes = 8 → (SMap.setAll s.gv.vregs e.writes).get ((o.d.toNat + 1) * 64 + lane) =
             BitVec.ofNat 32 (r.1.loadValue h pl fmt hdr / 2 ^ 32))) ∧
         ∀ reg lane, lane < 64 → (reg ∉ e.regs ∨ ∀ pl va fmt hdr, ¬ Survives r.2 lane pl va fmt hdr) →
           (SMap.setAll s.gv.vregs e.writes).get (reg * 64 + lane) = s.gv.v reg lane)))) ∧
  (∀ (who : GroupRef) (s : State) (g : Group), s.group who.blk who.grp = some g →
     (∀ e rest, g.loads = e :: rest → e.serve = none → Gives (exec (.loadCompletion who) s) (fun t =>
       t.group who.blk who.grp = some { g with loads := rest, vregs := SMap.setAll g.vregs e.writes } ∧
       t.mem = s.mem ∧ t.parts = s.parts ∧ t.grids = s.grids ∧ t.cores = s.cores ∧
       ∀ b k, (b ≠ who.blk ∨ k ≠ who.grp) → t.group b k = s.group b k)) ∧
     (g.loads = [] → Gives (exec (.loadCompletion who) s) (fun t => ∀ b k, t.group b k = s.group b k))) ∧
  (∀ (s : State) (h : Shape) (pl : Place) (fmt : BitVec 16) (hdr : Option Header),
     (h.ty < 8 → s.loadValue h pl fmt hdr =
       if h.ty < 4 then ((BitVec.ofNat (8 * 2 ^ (h.ty % 4)) (ofLe (s.seeN pl (2 ^ (h.ty % 4))))).signExtend (8 * h.regBytes)).toNat
       else ofLe (s.seeN pl (2 ^ (h.ty % 4)))) ∧
     (8 ≤ h.ty → h.ty ≤ 12 → fmtTag fmt = 0 → s.loadValue h pl fmt hdr = ofLe (s.seeN pl h.plain)) ∧
     ((h.ty = 13 ∨ h.ty = 14) → s.loadValue h pl fmt hdr = ofLe (s.seeN pl h.plain)) ∧
     (h.ty = 8 → h.pair = false → h.acc = .load → fmtTag fmt = 1 → s.loadValue h pl fmt none =
       Flt.f32.rne (Flt.bf16.decode (ofLe (s.seeN pl 2)))) ∧
     (h.ty = 8 → h.pair = false → h.acc = .load → fmtTag fmt = 3 → s.loadValue h pl fmt none =
       Flt.f32.rne (Flt.e4m3.decode (ofLe (s.seeN pl 1)))) ∧
     (h.ty = 10 → h.pair = false → h.acc = .load → fmtTag fmt = 7 → s.loadValue h pl fmt none =
       Flt.bf16.rne (ofInt ((s.see (pl.add 0)).toInt)) + 65536 * Flt.bf16.rne (ofInt ((s.see (pl.add 1)).toInt))))

/-- The lane stores (R95, R211 to R213, R216): the bytes each surviving lane stores are what the group then sees there, the highest
lane's where lanes meet; every other byte is seen as before, and no byte of memory has moved.
The bytes a store writes (R105, R211): the low bytes of the register for a type that moves bits and under tag 0, each value
converted to the tag's element otherwise. -/
def Obligations.LaneStores : Prop :=
  (∀ (o : MOps) (s : State) (i : Instr) (chk : State → Shape → Nat → State × LaneRes),
     (i = .stG o ∧ chk = chkGlobal o) ∨ (i = .stS o ∧ chk = chkOwn o) ∨ (i = .stP o ∧ chk = chkPrivate o) → s.Clear i →
     let m := s.marked i
     let r := m.checked o .store chk
     let h := o.shape .store
     let data := fun (lane : Nat) (fmt : BitVec 16) =>
       storeBytes h fmt (if h.regBytes = 8 then s.gv.vpair o.d.toNat lane else (s.gv.v o.d.toNat lane).toNat)
     (∀ e, laneStop r.2 true = some e → exec i s = .next (s.stopped i (m.stopAt r.1 e))) ∧
     (laneStop r.2 true = none → GoesOn i s (fun t =>
       Frame [.fmask, .stores, .window, .mem, .poison, .parts] s t ∧ t.mem = r.1.mem ∧
       t.gv.fmask = s.gv.fmask ||| lanesWith r.2 isViol ∧
       (∀ lane pl va fmt hdr k, Survives r.2 lane pl va fmt hdr → k < (data lane fmt).length →
         (∀ lane' pl' va' fmt' hdr' k', Survives r.2 lane' pl' va' fmt' hdr' → lane < lane' → k' < (data lane' fmt').length →
           (pl'.add k').norm ≠ (pl.add k).norm) →
         t.sees (pl.add k) = (data lane fmt).getD k 0) ∧
       ∀ q, (∀ lane pl va fmt hdr k, Survives r.2 lane pl va fmt hdr → k < (data lane fmt).length → (pl.add k).norm ≠ q.norm) →
         t.sees q = r.1.sees q))) ∧
  (∀ (h : Shape) (fmt : BitVec 16) (x : Nat),
     (h.ty < 8 ∨ h.ty = 13 ∨ h.ty = 14 ∨ fmtTag fmt = 0 → storeBytes h fmt x = leBytes x h.plain) ∧
     (h.ty = 8 → h.pair = false → h.acc = .store → fmtTag fmt = 1 →
       storeBytes h fmt x = leBytes (Flt.bf16.rne (Flt.f32.decode (x % 2 ^ 32))) 2) ∧
     (h.ty = 8 → h.pair = false → h.acc = .store → fmtTag fmt = 3 →
       storeBytes h fmt x = leBytes (Flt.e4m3.rne (Flt.f32.decode (x % 2 ^ 32))) 1) ∧
     (∀ n, (leBytes x n).length = n ∧ ofLe (leBytes x n) = x % 2 ^ (8 * n)))

/-- `st.m` (R217): a member not below CLUSIZE is a precise fault and nothing is stored; an empty mask stores nothing; otherwise
each member's window is stored to at the lane's offset. -/
def Obligations.MulticastStore : Prop :=
  ∀ (o : MOps) (s : State), s.Clear (.stM o) →
    let h := o.shape .store
    let members := multiMask o
    let lanes := lanesOf (s.active o.guard o.neg)
    let r := (s.marked (.stM o)).checkAll (fun a l => (a, if members.isEmpty then .ok (.win a.bkey 0) 0 0 none
      else if 2 ^ 30 ≤ a.ea o l then .viol 2 else a.checkMulti h (members.filterMap s.member) (a.ea o l))) (fun l => s.ea o l) lanes
    ((∃ j ∈ members, s.blk.clusize ≤ j) → exec (.stM o) s = .next (s.precise (0x80, 6)
      ⟨3, 0, match lanes with | l :: _ => BitVec.ofNat 64 (s.ea o l) | [] => 0, s.frag.em, true⟩)) ∧
    (members = [] → GoesOn (.stM o) s (fun t => Frame [.fmask, .stores, .window] s t ∧ SeesSame s t [] ∧
      t.gv.fmask = s.gv.fmask)) ∧
    ((∀ j ∈ members, j < s.blk.clusize) → members ≠ [] → h.ty < 8 → laneStop r.2 true = none →
      GoesOn (.stM o) s (fun t => Frame [.fmask, .stores, .window] s t ∧
        t.gv.fmask = s.gv.fmask ||| lanesWith r.2 isViol ∧
        ∀ j ∈ members, ∀ bk, s.member j = some bk → ∀ lane a pl va fmt hdr k, (lane, a, LaneRes.ok pl va fmt hdr) ∈ r.2 →
          k < h.plain →
          (∀ lane' a' pl' va' fmt' hdr' k', (lane', a', LaneRes.ok pl' va' fmt' hdr') ∈ r.2 → lane < lane' → k' < h.plain →
            a' + k' ≠ a + k) →
          t.sees (.win bk (a + k)) =
            (leBytes (if h.regBytes = 8 then s.gv.vpair o.d.toNat lane else (s.gv.v o.d.toNat lane).toNat) h.plain).getD k 0))

/-- A store that a boundary has published reaches its home (R290, R295, R369): another block's window for every block; for the other
blocks the bytes that the store gave the own window, unless a later store's are shown there already; the memory its page maps, or
that a physical store names, but for fields that the device alone writes (R10); and no other byte. A result of a relayout that the
group had read before it stored does not overwrite it later, which is the model's reading (notes/assumptions/79.md). -/
def Obligations.WritesReachTheirHome : Prop :=
  ∀ (who : GroupRef) (s : State) (b : Block) (g : Group) (e : StoreEnt), s.block who.blk = some b →
    s.group who.blk who.grp = some g → g.stores.find? (·.ready) = some e →
    -- Of the group's other stores, the earlier ones lose the bytes that this one has written (R213).
    let t' := s.modGroup who.blk who.grp (fun x => { x with stores := sentFrom g.stores e })
    let out := fun (t : State) => (t.group who.blk who.grp).map (·.stores) = some (sentFrom g.stores e)
    -- Elsewhere the results of relayouts that its group had read before it lose them (R295).
    let wins := match e.dst with | .window k => e.bytes.map (fun x => (k, x.at_)) | _ => []
    let others := fun (t : State) => ∀ k n h, (k ≠ who.blk ∨ n ≠ who.grp) → s.group k n = some h → ∃ h', t.group k n = some h' ∧
      h'.stores = if e.org.past = [] then h.stores else dropFrom (e.bytes.map (·.key)) wins (·.isOf e.org.past) h.stores
    -- What other blocks then see of a window: the bytes of the store, each with its stamp.
    let shows := fun (y y' : Block) (stamp : StoreByte → Nat) =>
      (∀ l x l', e.bytes = l ++ x :: l' → (∀ z ∈ l', z.at_ ≠ x.at_) → (∀ z ∈ l, z.at_ = x.at_ → stamp z = stamp x) →
        y'.winPub.get x.at_ = if (y.winSeq.find x.at_).getD 0 ≤ stamp x then x.val else y.winPub.get x.at_) ∧
      ∀ o, (∀ x ∈ e.bytes, x.at_ ≠ o) → y'.winPub.get o = y.winPub.get o
    (∀ k y, e.dst = .window k → s.block k = some y → Gives (exec (.writeAtHome who) s) (fun t =>
      t.mem = s.mem ∧ t.parts = s.parts ∧ (e.org.past = [] → t.grids = s.grids ∧ out t) ∧ others t ∧
      ∃ y', t.block k = some y' ∧ shows y y' (fun _ => s.stamp) ∧ y'.window = SMap.setAll y.window (e.bytes.map (fun x => (x.at_, x.val))))) ∧
    (e.dst = .own → Gives (exec (.writeAtHome who) s) (fun t => t.mem = s.mem ∧ t.parts = s.parts ∧ t.grids = s.grids ∧ out t ∧
      ∃ b', t.block who.blk = some b' ∧ shows b b' (·.key) ∧ b'.window = b.window)) ∧
    (e.dst = .phys ∨ (∃ c, (e.dst = .mem c ∨ e.dst = .priv c) ∧ ∀ x ∈ e.bytes, s.Mapped b.part b.core c x.at_ x.key 1) →
      Gives (exec (.writeAtHome who) s) (fun t =>
        t.parts = s.parts ∧ (e.org.past = [] → t.grids = s.grids ∧ t.blocks = t'.blocks ∧ out t) ∧ others t ∧
        (∀ k, (∀ x ∈ e.bytes, x.key ≠ k) ∨ s.deviceOnly k = true → t.mem.byte k = s.mem.byte k) ∧
        (∀ k, (∃ x ∈ e.bytes, x.key = k) → s.deviceOnly k = false → some (t.mem.byte k) = ownMem [e] k)))

/-! ### Copies, atomics, fences, barriers, membership, waits, launches -/

/-- The asynchronous copies (R218 to R220): a full token holds the instruction; a lane that stops leaves it undone; with no
surviving lane the token counts up and down at once; otherwise the count rises by one and the core has the job of the surviving
lanes, its addresses and window offsets, and nothing has moved.
A copy completes (R219, R221, R298): the group sees the sixteen bytes of its one lane at the destination, every other byte as
before; neither memory nor the window has them yet; the token's count falls by one with no error, and the core has the job no
more. A page without permission ends it with an error on the token, and moves nothing; that the error stays attached until an
instruction has taken it is the model's reading (notes/assumptions/11.md). -/
def Obligations.AsynchronousCopies : Prop :=
  (∀ (o : MOps) (s : State) (i : Instr) (out : Bool), (i = .cpy16 o ∧ out = false) ∨ (i = .cpy16Out o ∧ out = true) → s.Clear i →
     let k := o.ty.toNat % 8
     let m := s.marked i
     let r := m.checkAll (fun a l => a.checkCopy o out l) (fun l => s.ea o l) (lanesOf (s.active o.guard o.neg))
     let live := r.2.filter (fun c => isOk c.2.2)
     let job : CopyJob := ⟨out, s.bkey, s.gkey, s.ctxid, s.frag.pc, k,
       live.map (fun c => (c.1, BitVec.ofNat 64 c.2.1, (s.gv.v o.d.toNat c.1).toNat)), none, s.partner s.blk s.frag, [], [],
       live.map (fun c => (c.1, c.2.1))⟩
     (255 ≤ (s.grp.tok k).count → exec i s = .next (s.stopped i (.hold 4))) ∧
     ((s.grp.tok k).count < 255 → (∀ e, laneStop r.2 out = some e → exec i s = .next (s.stopped i (m.stopAt r.1 e))) ∧
       (laneStop r.2 out = none → s.gv.toks.length = 8 → GoesOn i s (fun t =>
         Frame [.fmask, .toks, .cores, .mem, .poison, .parts] s t ∧ t.mem = r.1.mem ∧
         t.gv.fmask = s.gv.fmask ||| lanesWith r.2 isViol ∧ (∀ j, j ≠ k → t.gv.tok j = s.gv.tok j) ∧
         (live = [] → t.gv.tok k = s.gv.tok k ∧ t.cores = r.1.cores) ∧
         (live ≠ [] → t.gv.tok k = { s.gv.tok k with count := (s.gv.tok k).count + 1 } ∧
           t.cores = (r.1.modCore s.blk.core (fun c => { c with copies := c.copies.put r.1.jobNo job })).cores))))) ∧
  (∀ (core job : Nat) (s : State) (j : CopyJob) (x : Block) (g : Group) (lane w : Nat) (a : W64),
     (s.core core).copies.find job = some j → j.heldBy = none → s.block j.blk = some x → s.group j.blk j.grp = some g →
     s.ctxIs x.part j.ctx .halted = false → j.lanes = [(lane, a, w)] → j.done = [] → j.words = [] → a.toNat < 2 ^ 55 →
     g.toks.length = 8 → j.tok < 8 →
     let walk := s.xlate x.part x.core j.ctx a.toNat (if j.out then .store else .load)
     let ends := fun (t : State) (err : Nat) (P : Group → Prop) => (t.core core).copies.find job = none ∧ t.mem = s.mem ∧
       (t.block j.blk).map (·.window) = some x.window ∧ ∃ g', t.group j.blk j.grp = some g' ∧
         (g'.tok j.tok).count = (g.tok j.tok).count - 1 ∧ (g'.tok j.tok).err = err ∧ P g'
     (∀ u, walk = (s, .ok u) → (j.out = false → s.poisonedFor (s.viewOf j.blk g) u.key 16 = false) →
       let own := fun (i : Nat) => Place.win j.blk (w + i)
       let far := fun (i : Nat) => Place.mem (u.key + i)
       let src := if j.out then own else far
       let dst := if j.out then far else own
       Gives (exec (.copyCompletion core job) s) (fun t => ends t (g.tok j.tok).err (fun g' =>
         (∀ i < 16, t.seenBy j.blk (t.viewOf j.blk g') (dst i) = s.seenBy j.blk (s.viewOf j.blk g) (src i)) ∧
         ∀ q : Place, (∀ i < 16, (dst i).norm ≠ q.norm) →
           t.seenBy j.blk (t.viewOf j.blk g') q = s.seenBy j.blk (s.viewOf j.blk g) q))) ∧
     (∀ d, walk = (s, .error (.prot d)) → Gives (exec (.copyCompletion core job) s) (fun t =>
       ends t 1 (fun g' => g'.stores = g.stores))))

/-- The atomics (R222 to R225, R140), relaxed, where the surviving lanes' pages are mapped and dirty: at each address the lanes
that name it act in ascending order; each lane receives the old value with the lower lanes' operands combined, and memory the
whole; no other byte of memory changes. For float addition the lanes' values are folded first. Another type is UNDEF with
UCODE 8.
Exchange and compare-and-swap serve one lane of an address at a time (R224): the instruction the lowest of each, and each later
pass of it the lowest that is left. Lanes share an address when it is one place of memory, and addresses are served in the order of
their lowest lanes: the model's choice (notes/assumptions/71.md). Stated of a group that has read no relayout's result in flight. -/
def Obligations.Atomics : Prop :=
  (∀ (o : MOps) (e : MExt) (s : State), o.long = some e →
    let ty := o.ty.toNat
    let w := if ty % 4 = 3 then 64 else 32
    let n := w / 8
    let val := fun (r l : Nat) => if w = 64 then s.gv.vpair r l else (s.gv.v r l).toNat
    let E := fun l => val (e.ext.toNat % 256) l
    let F := fun l => val (e.ext.toNat / 256) l
    let lt := fun (a b : Nat) => if ty < 4 then (BitVec.ofNat w a).slt (BitVec.ofNat w b) else decide (a < b)
    let addf := fun (x y : Nat) => (Flt.f32.add .rne (Flt.f32.decode x) (Flt.f32.decode y)).1
    -- An instruction with the value its lanes `ls` leave at an address that held `old`.
    let Does := fun (i : Instr) (float : Bool) (serial : Option Bool) (fold : Nat → List Nat → Nat) =>
      s.Clear i →
      let m := s.marked i
      let r := m.checked o .atomic (chkGlobal o)
      (¬ (ty = 2 ∨ ty = 3 ∨ ty = 6 ∨ ty = 7 ∨ (float = true ∧ ty = 8)) → exec i s = .next (s.userTrap i.word0 1 8)) ∧
      ((ty = 2 ∨ ty = 3 ∨ ty = 6 ∨ ty = 7 ∨ (float = true ∧ ty = 8)) →
        (∀ x, laneStop r.2 true = some x → exec i s = .next (s.stopped i (m.stopAt r.1 x))) ∧
        (laneStop r.2 true = none → e.ord = 0 → s.grp.stores = [] → s.grp.seen = [] →
          (∀ lane pl va fmt hdr, Survives r.2 lane pl va fmt hdr → ∃ k, pl = .mem k ∧
            r.1.Mapped s.blk.part s.blk.core s.ctxid va k n ∧ ∀ i < n, r.1.deviceOnly (k + i) = false) →
          let at_ := fun k => (r.2.filter (fun c => match c.2.2 with | .ok (.mem q) _ _ _ => q == k | _ => false)).map (·.1)
          let acts := fun k => if serial = none then at_ k else (at_ k).take 1
          let old := fun k => ofLe ((List.range n).map (fun i => r.1.mem.byte (k + i)))
          GoesOn i s (fun t =>
            Frame [.fmask, .loads, .stores, .mem, .poison, .parts] s t ∧ t.gv.stores = [] ∧
            t.gv.fmask = s.gv.fmask ||| lanesWith r.2 isViol ∧
            (∀ k, at_ k ≠ [] → ofLe ((List.range n).map (fun i => t.mem.byte (k + i))) = fold (old k) (acts k)) ∧
            (∀ q, (∀ k, at_ k ≠ [] → q < k ∨ k + n ≤ q) → t.mem.byte q = r.1.mem.byte q) ∧
            ((∃ k, at_ k ≠ []) → ∃ x, t.gv.loads = s.gv.loads ++ [x] ∧
              (∀ k, ∀ lane ∈ acts k, (SMap.setAll s.gv.vregs x.writes).get (o.d.toNat * 64 + lane) =
                BitVec.ofNat 32 (fold (old k) ((acts k).filter (fun l => decide (l < lane))))) ∧
              ((∀ k, acts k = at_ k) → x.serve = none) ∧
              ((∃ k, acts k ≠ at_ k) → ∃ v, x.serve = some v ∧ some v.cas = serial ∧ v.d = o.d.toNat ∧
                ∀ lane, lane ∈ v.lanes.map (·.lane) ↔ ∃ k, lane ∈ at_ k ∧ lane ∉ acts k)))))
    Does (.atomAdd o) true none (fun old ls => if ty = 8 then
        (match ls with | [] => old | l :: rest => addf old (rest.foldl (fun a l => addf a (E l)) (E l)))
      else ls.foldl (fun a l => (a + E l) % 2 ^ w) old) ∧
    Does (.atomMin o) false none (fun old ls => ls.foldl (fun a l => if lt (E l) a then E l else a) old) ∧
    Does (.atomMax o) false none (fun old ls => ls.foldl (fun a l => if lt a (E l) then E l else a) old) ∧
    Does (.atomAnd o) false none (fun old ls => ls.foldl (fun a l => a &&& E l) old) ∧
    Does (.atomOr o) false none (fun old ls => ls.foldl (fun a l => a ||| E l) old) ∧
    Does (.atomXor o) false none (fun old ls => ls.foldl (fun a l => a ^^^ E l) old) ∧
    Does (.atomXchg o) false (some false) (fun old ls => ls.foldl (fun _ l => E l) old) ∧
    Does (.atomCas o) false (some true) (fun old ls => ls.foldl (fun a l => if a = F l then E l else a) old)) ∧
  (∀ (who : GroupRef) (s : State) (x : Block) (g : Group) (e : LoadEnt) (rest : List LoadEnt) (v : AtomServe) (a : AtomLane) (l : List AtomLane),
    s.block who.blk = some x → s.group who.blk who.grp = some g → g.loads = e :: rest → e.serve = some v → g.stores = [] → g.seen = [] →
    v.lanes = a :: l → (∀ b ∈ l, b.win = none ∧ b.at_ = a.at_) → a.win = none → v.acq = 0 →
    let n := if v.wide then 8 else 4
    s.Mapped x.part x.core v.ctx a.va a.at_ n → (∀ i < n, s.deviceOnly (a.at_ + i) = false) →
    let old := ofLe ((List.range n).map (fun i => s.mem.byte (a.at_ + i)))
    let new := if v.cas = true ∧ old ≠ a.f then old else a.e
    Gives (exec (.loadCompletion who) s) (fun t =>
      PutsBytes s t a.at_ (leBytes new n) ∧ ∃ g' e', t.group who.blk who.grp = some g' ∧ g'.loads = e' :: rest ∧
        e'.writes = e.writes ++ laneWrites v.d v.wide a.lane old ∧
        e'.serve = if l = [] then none else some { v with lanes := l }))

/-- A fence (R226, R290 to R293, R298). Below system scope, in a user group, it publishes the stores that its scope can publish, the
group's own and those of engines it has waited on, each in its place in the buffer, and no byte of memory moves. `fence.sys`, and
`fence.dev` in a system group, bring every such store home: with their pages mapped and dirty memory holds them, no other byte
changes, and only the other stores stay behind. In both cases the fragment goes on. Stated where no other group has a store under
way, no engine has written to the group's own window, and the group has read no relayout's result in flight. That nothing moves
below system scope and that stores are home at once at system scope is the model's choice, where the spec says only that they may
become visible (notes/assumptions/61.md). -/
def Obligations.Fence : Prop :=
  ∀ (scope : Scope) (o : COps) (s : State), s.Clear (.fence scope o) →
    let n := scope.subCode + 1
    let mine := (s.marked (.fence scope o)).grp.mine
    let out := s.grp.stores.filter (fun e => mine e && decide (e.need ≤ n))
    (∀ q ∈ s.allGroups, (q.1, q.2.2.1) ≠ (s.bkey, s.gkey) → q.2.2.2.stores = []) → s.blk.rest = [] → s.grp.seen = [] →
    (∀ e ∈ s.grp.stores, e.pub < 3 ∧ e.dst ≠ .window s.bkey ∧ e.org.past = []) →
    (n < 4 → s.grp.plevel = 0 → GoesOn (.fence scope o) s (fun t => Frame [.stores] s t ∧
      t.gv.stores = s.gv.stores.map (fun e =>
        if mine e = true ∧ (e.need ≤ n ∨ e.dst = .own) then { e with pub := Nat.max e.pub n } else e))) ∧
    (n = 4 ∨ (n = 3 ∧ 0 < s.grp.plevel) →
      (∀ e ∈ out, ∃ c, e.dst = .mem c ∧ ∀ x ∈ e.bytes, s.Mapped s.blk.part s.blk.core c x.at_ x.key 1) →
      GoesOn (.fence scope o) s (fun t => Frame [.stores, .mem, .poison] s t ∧
        t.gv.stores = staysHome (fun e => mine e && decide (e.need ≤ n)) s.gv.stores ∧
        (∀ k, t.mem.byte k = if s.deviceOnly k then s.mem.byte k else (ownMem out k).getD (s.mem.byte k))))

/-- The barrier instructions on block barriers (R27, R28, R227 to R229): an arrival counts once, and completes the phase when it is
the last and the expected credits are in; `bar.wait` goes on when the phase its fragment arrived in is over and waits otherwise;
`bar.sync` arrives and waits; `bar.expect` adds to x. A grid barrier of a grid not co-resident, a barrier never arrived at, an
expect past 2^31 or beyond block scope are UNDEF with UCODE 8; an arrival at another program counter than the pending one is
BARRIER_DIVERGENT. Counts are stated in a group of one fragment; in any group an arrival joins the pending one, and what that
completes follows. -/
def Obligations.Barriers : Prop :=
  ∀ (o : COps) (s : State),
    let b := barOf o.a
    let r := s.bar s.bkey b
    let counted := s.grp.arrived.find b = some r.phase
    let pend := s.grp.pend.find b
    let next := fun (i : Instr) => s.frag.pc + BitVec.ofNat 64 i.len
    let alone := b < 16 ∧ s.blk.bars.length = 16 ∧ s.grp.frags = [] ∧ s.grp.pend = [] ∧ s.grp.stores = [] ∧ s.grp.seen = [] ∧
      (∀ q ∈ s.allGroups, q.2.2.2.stores.any (·.ready) = false) ∧ s.blk.groups.has s.gkey = false
    (24 ≤ b → s.coResident = false →
      Traps (.barArrive o) s 1 8 ∧ Traps (.barWait o) s 1 8 ∧ Traps (.barSync o) s 1 8) ∧
    (s.barBad b = false → s.frag.phases.find b = none → Traps (.barWait o) s 1 8) ∧
    (s.barBad b = false → ¬ counted → (∃ pc l, pend = some (pc, l) ∧ pc ≠ s.frag.pc) →
      Traps (.barArrive o) s 4 0 ∧ Traps (.barSync o) s 4 0) ∧
    (s.barBad b = false → (counted ∨ ∀ pc l, pend = some (pc, l) → pc = s.frag.pc) →
      let joins := fun (u : State) => Frame [.phases] s u ∧ u.iss = true ∧ u.frag.em = s.frag.em ∧ u.frag.joins = s.frag.joins ∧
        u.frag.phases.find b = some r.phase ∧
        u.grp.pend.find b = if counted then pend else some (s.frag.pc, s.fkey :: (match pend with | some (_, l) => l | none => []))
      (s.Clear (.barArrive o) → Gives (exec (.barArrive o) s) (fun t => ∃ u, joins u ∧
        t = (u.goto (next (.barArrive o))).stow.checkPend s.bkey s.gkey)) ∧
      (s.Clear (.barSync o) → Gives (exec (.barSync o) s) (fun t => ∃ u, joins u ∧ u.frag.pc = s.frag.pc + 8 ∧
        u.frag.st = .barrier b r.phase ∧ t = u.stow.checkPend s.bkey s.gkey))) ∧
    (alone → ¬ counted → (r.a + 1 < r.m ∨ r.c < r.x) → s.atJoin (next (.barArrive o)) = false → s.Clear (.barArrive o) →
      Gives (exec (.barArrive o) s) (fun t => Frame [.bars, .phases] s t ∧
        t.bar s.bkey b = { r with a := r.a + 1 } ∧ (∀ k < 16, k ≠ b → t.bar s.bkey k = s.bar s.bkey k) ∧
        t.fv.map (fun f => (f.pc, f.phases.find b)) = some (next (.barArrive o), some r.phase))) ∧
    (alone → ¬ counted → r.a + 1 = r.m → r.x ≤ r.c → s.Clear (.barSync o) →
      Gives (exec (.barSync o) s) (fun t =>
        t.bar s.bkey b = { r with a := 0, c := r.c - r.x, x := 0, phase := r.phase + 1, used := r.used + r.x } ∧
        t.fv.map (fun f => (f.pc, f.st)) = some (s.frag.pc + 8, .run))) ∧
    (alone → ¬ counted → (r.a + 1 < r.m ∨ r.c < r.x) → s.Clear (.barSync o) →
      Gives (exec (.barSync o) s) (fun t => t.bar s.bkey b = { r with a := r.a + 1 } ∧
        t.fv.map (fun f => (f.pc, f.st)) = some (s.frag.pc + 8, .barrier b r.phase))) ∧
    (s.barBad b = false → ∀ ph, s.frag.phases.find b = some ph → s.Clear (.barWait o) →
      (ph < r.phase → (∀ q ∈ s.allGroups, q.2.2.2.stores.any (·.ready) = false) →
        GoesOn (.barWait o) s (fun t => Frame [] s t)) ∧
      (r.phase ≤ ph → Gives (exec (.barWait o) s) (fun t => Frame [] s t ∧
        t.fv.map (fun f => (f.pc, f.st)) = some (s.frag.pc + 8, .barrier b ph)))) ∧
    (let n := (match o.imm with | some w => w | none => s.sreg o.b).toNat % 2 ^ 32
     (16 ≤ b ∨ 2 ^ 31 < r.x + n → Traps (.barExpect o) s 1 8) ∧
     (b < 16 → s.blk.bars.length = 16 → r.x + n ≤ 2 ^ 31 → s.Clear (.barExpect o) →
       Gives (exec (.barExpect o) s) (fun t =>
         (∃ u, s.Moves u (u.goto (next (.barExpect o))) (next (.barExpect o)) ∧ Frame [.bars] s u ∧
           u.bar s.bkey b = { r with x := r.x + n } ∧ (∀ k < 16, k ≠ b → u.bar s.bkey k = s.bar s.bkey k) ∧
           t = (u.goto (next (.barExpect o))).stow.settle s.bkey b) ∧
         (¬ (r.a = r.m ∧ 0 < r.m) → s.atJoin (next (.barExpect o)) = false → Frame [.bars] s t ∧
           t.bar s.bkey b = { r with x := r.x + n } ∧ t.fv.map (·.pc) = some (next (.barExpect o))))))

/-- `spawn` (R29, R31, R231) never waits: it writes how many groups it granted, the most that was asked for, that the block's Nmax
leaves, that is a multiple of four in a quad kernel, and that the core's free group slots and free lane registers hold; each block
barrier counts them as members that have arrived. That slots of a quadrant whose accumulators another block holds are not free is
the model's reading (notes/assumptions/22.md). `role` (R233) sets ROLE. A misaligned entry or a C above 3 is UNDEF with UCODE 8.
Lane-register grants (R40 to R42, R234, R235): `vgrow 0` answers 0 at once, a request that would pass 256 registers answers
1 and leaves the group as it was, any other waits; a grant gives the oldest request all its blocks and answers 0; a denial
answers 1 and changes no allocation. Which of several requests of one group is denied is the model's choice
(notes/assumptions/72.md); requests of a halting or halted context wait (R401). `vshrink` keeps one block at least and keeps the registers below; the others read zero, and nothing still on its way reaches them. n
above 15 is UNDEF with
UCODE 8. -/
def Obligations.GroupResources : Prop :=
  (∀ (o : COps) (s : State),
     let entry := s.sreg o.a
     let r := match o.imm with | some w => w.toNat % 2 ^ 32 | none => (s.sreg o.b).toNat
     (entry.toNat % 8 ≠ 0 ∨ 4 ≤ o.c.toNat → Traps (.spawn o) s 1 8) ∧
     (entry.toNat % 8 = 0 → o.c.toNat < 4 → s.blk.groups.has s.gkey = false → s.Clear (.spawn o) →
       let taken := s.slotsTaken s.blk.core
       let slots := fun (q : Nat) => (s.openSlots taken (s.shut s.blk.core s.bkey s.blk.lcore s.blk.acc) s.blk.lcore
         (decide (0 < s.grp.plevel)) q).length
       let regs := ((List.range (coreVblks s.blk.lcore)).filter (fun k => !(s.vblksTaken s.blk.core).contains k)).length
       -- The numbers that may be granted.
       let fits := fun (n : Nat) => n ≤ r ∧ n + (s.blk.groups.length + 1) ≤ s.blk.nmax ∧
         (s.blk.quadk = true → n % 4 = 0 ∧ n ≤ (freeIds s.blk ((s.groupsOf s.bkey).map (·.1))).length) ∧
         (if s.blk.quadk = true ∧ s.blk.lcore = false then ∀ q < 4, n / 4 ≤ slots q
          else n ≤ ((List.range (coreQuads s.blk.lcore)).map slots).sum) ∧
         n * s.blk.regblk ≤ regs
       GoesOn (.spawn o) s (fun t => ∃ n, (n = 0 ∨ fits n) ∧ (∀ k, fits k → k ≤ n) ∧ n ≤ r ∧ (s.blk.quadk = true → n % 4 = 0) ∧
         n + (s.blk.groups.length + 1) ≤ max s.blk.nmax (s.blk.groups.length + 1) ∧
         s.SetsS t o.d (BitVec.ofNat 64 n) ∧ (n = 0 → Frame [.sregs] s t) ∧ (t.groupsOf s.bkey).length = (s.groupsOf s.bkey).length + n ∧
         (s.blk.bars.length = 16 → ∀ b < 16, t.bar s.bkey b =
           { s.bar s.bkey b with m := (s.bar s.bkey b).m + n, a := (s.bar s.bkey b).a + n }))) ∧
     (4 ≤ o.c.toNat → Traps (.role o) s 1 8) ∧
     (o.c.toNat < 4 → s.Clear (.role o) →
       GoesOn (.role o) s (fun t => Frame [.role] s t ∧ t.gv.role = o.c.setWidth 2))) ∧
  ((∀ (o : COps) (s : State),
     let n := o.c.toNat
     (15 < n → Traps (.vgrow o) s 1 8 ∧ Traps (.vshrink o) s 1 8) ∧
     (n = 0 → WritesS (.vgrow o) s o.d 0) ∧
     (0 < n → n ≤ 15 → 16 < s.grp.vblk.length + n → WritesS (.vgrow o) s o.d 1) ∧
     (0 < n → n ≤ 15 → s.grp.vblk.length + n ≤ 16 → s.Clear (.vgrow o) → Gives (exec (.vgrow o) s) (fun t => Frame [] s t ∧
       t.fv.map (fun f => (f.pc, f.st)) = some (s.frag.pc + 8, .vgrow n o.d.toNat (s.stamp + 1)))) ∧
     (n ≤ 15 → s.Clear (.vshrink o) → GoesOn (.vshrink o) s (fun t => Frame [.alloc, .vregs, .loads, .held, .cores] s t ∧
       let k := max 1 (s.gv.vblk.length - n)
       t.gv.vblk = s.gv.vblk.take k ∧ (∀ r l, l < 64 → t.gv.v r l = if r < 16 * k then s.gv.v r l else 0) ∧
       (∀ e ∈ t.gv.loads, (∀ r ∈ e.regs, r < 16 * k) ∧ ∀ w ∈ e.writes, w.1 < 16 * k * 64) ∧
       (∀ h ∈ t.gv.held, h.1 + h.2 ≤ 16 * k) ∧ (∀ c, c ≠ s.blk.core → t.core c = s.core c) ∧
       (t.core s.blk.core).acc = (s.core s.blk.core).acc ∧
       ∀ j ∈ (t.core s.blk.core).pipe, j.blk = s.bkey → j.grp = s.gkey →
         j.d + j.n ≤ 16 * k ∧ ∀ w ∈ j.writes, w.1 < 16 * k * 64))) ∧
   (∀ (core : Nat) (s : State) (r : VReq) (x : Block) (g : Group), oldestReq (s.vreqs core) = some r →
     s.block r.blk = some x → s.group r.blk r.grp = some g → s.iss = false → g.frags.has r.frag = true →
     let free := s.freeVblks core x.lcore r.n
     (g.vblk.length + r.n ≤ 16 → free.length = r.n → Gives (exec (.vgrowGrant core) s) (fun t => ∃ g', t.group r.blk r.grp = some g' ∧
       g'.vblk = g.vblk ++ free ∧ (r.d ≠ 0 → g'.sregs.get r.d = 0) ∧ (g'.frags.find r.frag).map (·.st) = some .run ∧
       g'.vregs = g.vregs ∧ t.mem = s.mem)) ∧
     (free.length < r.n → g.vblk.length + r.n ≤ 16 → exec (.vgrowGrant core) s = .next s) ∧
     (∃ p ∈ s.onCore core, p.1 = r.blk ∧ s.ctxIs p.2.part (s.ctxOf p.2) .halting = false ∧
       s.ctxIs p.2.part (s.ctxOf p.2) .halted = false) ∧
     (free.length < r.n → s.vreqs core = [r] → g.plevel = 0 → r.d ≠ 0 →
       (∀ p ∈ s.onCore core, ∀ q ∈ s.groupsOf p.1, q.2.plevel = 0 → ∀ f ∈ q.2.frags, f.2.stuck = true) →
       Gives (exec (.vgrowDeadlockDenial core) s) (fun t => ∃ g', t.group r.blk r.grp = some g' ∧ g'.vblk = g.vblk ∧
         g'.sregs.get r.d = 1 ∧ (g'.frags.find r.frag).map (·.st) = some .run))))

/-- `wait` (R236) holds until the named tokens' counts are zero; then s[D] gets the mask of those that carry an error, with the
status of the lowest, and the errors are gone. `wait.y` goes to its continuation when they are drained and gives up the slot
until then; a COFF that is no multiple of 8 is UNDEF with UCODE 8. -/
def Obligations.TokenWaits : Prop :=
  ∀ (o : COps) (s : State),
    let coff := (o.imm.getD 0).setWidth 32
    let bad := (List.range 8).filter (fun t => o.c.getLsbD t && (s.grp.tok t).err != 0)
    (s.grp.waits o.c = true → s.Clear (.wait o) → exec (.wait o) s = .next (s.stopped (.wait o) (.hold 4))) ∧
    (s.grp.waits o.c = false → s.Clear (.wait o) → s.grp.toks.length = 8 → GoesOn (.wait o) s (fun t =>
      Frame [.sregs, .toks] s t ∧ ((∀ j ∈ bad, (s.grp.tok j).err < 16) → ∃ v : W64, s.SetsS t o.d v ∧ ∀ j < 64, v.getLsbD j =
        if j < 8 then decide (j ∈ bad)
        else if 16 ≤ j ∧ j < 20 then (match bad.head? with | some k => (s.grp.tok k).err.testBit (j - 16) | none => false)
        else false) ∧
      ∀ j < 8, (t.gv.tok j).count = (s.gv.tok j).count ∧ (t.gv.tok j).err = if j ∈ bad then 0 else (s.gv.tok j).err)) ∧
    (coff.toNat % 8 ≠ 0 → Traps (.waitY o) s 1 8) ∧
    (coff.toNat % 8 = 0 → s.Clear (.waitY o) →
      (s.grp.waits o.c = false → Goes (.waitY o) s (s.frag.pc + coff.signExtend 64) (fun t => Frame [] s t)) ∧
      (s.grp.waits o.c = true → Gives (exec (.waitY o) s) (fun t => Frame [] s t ∧
        t.fv.map (fun f => (f.pc, f.st)) = some (s.frag.pc, .waitY o.c (s.frag.pc + coff.signExtend 64)))))

/-- `launch` and `launch.r` (R237, R386): the packet's eight words join the device launch queue one level deeper than the
grid, and s[D] gets 0; at depth 10 it gets 1, with the queue full 2, with a misaligned packet or table 3, and nothing is
queued; a packet that cannot be read stops the instruction. Stated where no group has a store to publish. Which of several
refusals is answered is the model's choice (notes/assumptions/33.md).
Doorbells and launch queues (R377 to R382, R448): a doorbell moves TAIL forward or is refused with a notice; a NOP packet and a WAIT packet whose counter has come pass HEAD by one, and a WAIT that has not stays; a well-formed LAUNCH packet makes a
grid and passes HEAD; a malformed packet halts its queue with a notice; the device launch queue gives the first packet that has
joined it, while the partition is in service and no read of an earlier one waits (R418). That a read for a grid holds this queue too,
and that it asks nothing of the context's state, is the model's reading (notes/assumptions/49.md). -/
def Obligations.LaunchesAndQueues : Prop :=
  (∀ (o : COps) (s : State) (i : Instr) (ragged : Bool) (g : Grid),
     (i = .launch o ∧ ragged = false) ∨ (i = .launchR o ∧ ragged = true) → s.Clear i → s.grids.find s.blk.grid = some g →
     s.Quiet → s.blk.part < s.parts.length →
     let a := (s.sreg o.a).toNat
     let b := s.sreg o.b
     let bad := ragged = true ∧ b.toNat % 16 ≠ 0
     let m := s.marked i
     let answers := fun (n : Nat) => GoesOn i s (fun t => Frame [.sregs] s t ∧ s.SetsS t o.d (BitVec.ofNat 64 n))
     (a % 64 ≠ 0 → answers 3) ∧
     (a % 64 = 0 → ∀ u e, (m.boundary 3).loadWords a 8 0 = (u, .error e) → exec i s = .next (s.stopped i (m.stopAt u e))) ∧
     (a % 64 = 0 → ∀ ws, m.loadWords a 8 0 = (m, .ok ws) →
       (bad → answers 3) ∧ (¬ bad → 10 ≤ g.depth → answers 1) ∧
       (¬ bad → g.depth < 10 → 4096 ≤ (s.part s.blk.part).devq.length → answers 2) ∧
       (¬ bad → g.depth < 10 → (s.part s.blk.part).devq.length < 4096 → GoesOn i s (fun t => Frame [.sregs, .parts] s t ∧
         s.SetsS t o.d 0 ∧ (∀ p, p ≠ s.blk.part → t.part p = s.part p) ∧
         t.part s.blk.part = { s.part s.blk.part with devq := (s.part s.blk.part).devq ++
           [⟨s.blk.grid, g.ctx, g.prio, g.depth + 1, ws, if ragged then some b else none, s.grp.plevel⟩] })))) ∧
  (∀ (p q : Nat) (s : State), s.iss = false →
     let e := s.queEnt p q
     let k := s.queueKey p q
     let next := leBytes (e.head + 1) 4
     (∀ v : W32, q < 64 → p < 4 → (s.part p).pstate ≠ 0 →
       let fwd := (v.toNat + 2 ^ 32 - e.head) % 2 ^ 32
       let now := (e.tail + 2 ^ 32 - e.head) % 2 ^ 32
       (s.queueBad p q = true →
         exec (.doorbellWrite p q v) s = .next (s.notice p 6 0 e.ctx 0 (BitVec.ofNat 64 (64 * q)) false)) ∧
       (s.queueBad p q = false → v.toNat = e.tail → exec (.doorbellWrite p q v) s = .next s) ∧
       (s.queueBad p q = false → v.toNat ≠ e.tail → now < fwd → fwd ≤ 2 ^ e.log2 → Gives (exec (.doorbellWrite p q v) s) (fun t =>
         PutsBytes s t (k + 44) (leBytes v.toNat 4) ∧ t.parts = s.parts ∧ t.grids = s.grids ∧ t.blocks = s.blocks)) ∧
       (s.queueBad p q = false → v.toNat ≠ e.tail → ¬ (now < fwd ∧ fwd ≤ 2 ^ e.log2) →
         exec (.doorbellWrite p q v) s = .next (s.notice p 2 6 e.ctx 0 (BitVec.ofNat 64 (64 * q)) false))) ∧
     ((∀ g ∈ s.grids, g.2.unread = false) → s.queueOpen p q = true → ∀ w, s.headPacket p q = (s, some w) →
       (pkTy w = 0 → (∀ i < 8, w.getD i 0 = 0) → w.length = 8 → Gives (exec (.nopPacket p q) s) (fun t =>
         PutsBytes s t (k + 40) next ∧ t.parts = s.parts ∧ t.grids = s.grids ∧ t.blocks = s.blocks)) ∧
       (pkTy w = 0 → wordsNat w ≠ 0 → exec (.nopPacket p q) s = .next (s.badPacket p q 2 6 e.at_)) ∧
       (∀ i b, i = .waitPacket p q ∨ i = .waitCounterRecheck p q → pkTy w = 2 → waitBad w = false →
         s.schedRead p e.ctx (wbits w 192 64) 8 = (s, .ok b) →
         (wbits w 256 64 ≤ ofLe b → Gives (exec i s) (fun t =>
           PutsBytes s t (k + 40) next ∧ t.parts = s.parts ∧ t.grids = s.grids)) ∧
         (ofLe b < wbits w 256 64 → exec i s = .next s)) ∧
       (pkTy w = 1 → launchBad w = false → wbits w 32 32 ≠ 0 → q < 64 → p < s.parts.length →
         let r := s.createGrid p (newGrid e.ctx (some q) w 1 0 e.prio false s.stamp none 0 0)
         exec (.launchPacket p q) s = .next ((r.1.takeHead p q).readKd r.2) ∧ r.1.grids.has r.2 = true ∧
           ((s.part p).next ≠ 0 → (∀ g ∈ s.grids, ¬ (gridPart g.1 = p ∧ gridId g.1 = (s.part p).next)) →
             r.2 = gridKey p (s.part p).next)) ∧
       ((pkTy w = 1 ∧ (launchBad w = true ∨ wbits w 32 32 = 0)) ∨ 3 ≤ pkTy w → q < 64 →
         exec (.launchPacket p q) s = .next (s.badPacket p q 2 6 e.at_))) ∧
     ((∀ g ∈ s.grids, g.2.unread = false) → p < s.parts.length →
       ((s.part p).pstate ≠ 2 ∨ s.devHeld p = true → exec (.launchPacket p 64) s = .next s) ∧
       (∀ d, (s.part p).pstate = 2 → s.devHeld p = false →
         (s.part p).devq.find? (fun d => match s.ctx p d.ctx with | some x => !x.loaded | none => true) = some d →
         Gives (exec (.launchPacket p 64) s) (fun t => (t.part p).devq = (s.part p).devq.erase d))))

/-! ### Tensors, the transform pipe, matrix products, accumulators -/

/-- The descriptor instructions (R241 to R244): `tset` replaces one word of t[D], and `tset` and `tld` refuse with UCODE 8 what
would not be well formed; `tld` takes the 64 words at its address and `tst` stores them; `tq` reads one word. A register of a
relayout in flight holds all but `tq`; an address that is not 64-byte aligned is a precise fault, and what stops a scalar access
stops them. -/
def Obligations.DescriptorRegisters : Prop :=
  ∀ (o : TOps) (s : State),
    let t := o.d.toNat
    let w := s.grp.timg t
    let word := fun (u : State) (i : Nat) => u.gv.tregs.get (t * 64 + i)
    let a := s.timgAddr o
    let sets := fun (i : Instr) (k : Nat) (v : W64) => s.Clear i →
      (s.grp.inFlightT t = true → exec i s = .next (s.stopped i (.hold 15))) ∧
      (s.grp.inFlightT t = false → imgOk (setNth w k v) = false → exec i s = .next (s.userTrap i.word0 1 8)) ∧
      (s.grp.inFlightT t = false → imgOk (setNth w k v) = true → GoesOn i s (fun u => Frame [.tregs] s u ∧ word u k = v ∧ ∀ q, q ≠ t * 64 + k → u.gv.tregs.get q = s.gv.tregs.get q))
    sets (.tsetBase o) 1 (s.sreg o.a) ∧ sets (.tsetFill o) 2 (s.sreg o.a) ∧
    (8 ≤ o.b.toNat → o.b.toNat ≤ 15 → o.b.toNat - 8 ≤ (Desc.of w).ndim → ∃ v : W64,
      v.extractLsb' 0 49 = (s.sreg o.a).extractLsb' 0 49 ∧ v.extractLsb' 49 15 = (word s (o.b.toNat - 4)).extractLsb' 49 15 ∧
      sets (.tsetExt o) (o.b.toNat - 4) v) ∧
    ((o.b.toNat < 8 ∨ 15 < o.b.toNat ∨ (Desc.of w).ndim < o.b.toNat - 8) → Traps (.tsetExt o) s 1 8) ∧
    (64 ≤ o.b.toNat → Traps (.tq o) s 1 8) ∧
    (o.b.toNat < 64 → WritesS (.tq o) s o.d (s.gv.tregs.get (o.a.toNat * 64 + o.b.toNat))) ∧
    let ml := s.marked (.tld o)
    let ms := s.marked (.tst o)
    (s.Clear (.tld o) → s.grp.inFlightT t = true → exec (.tld o) s = .next (s.stopped (.tld o) (.hold 15))) ∧
    (s.Clear (.tst o) → s.grp.inFlightT t = true → exec (.tst o) s = .next (s.stopped (.tst o) (.hold 15))) ∧
    (s.Clear (.tld o) → s.grp.inFlightT t = false → a < 2 ^ 56 →
      (a % 64 ≠ 0 → exec (.tld o) s = .next (s.precise (0xB0, 0) ⟨2, 3, BitVec.ofNat 64 a, s.frag.em, false⟩)) ∧
      (a % 64 = 0 → ∀ u e, ml.loadWords a 64 0 = (u, .error e) → exec (.tld o) s = .next (s.stopped (.tld o) (ml.stopAt u e))) ∧
      (a % 64 = 0 → ∀ u ws, ml.loadWords a 64 0 = (u, .ok ws) →
        (imgOk ws = false ∨ bits (imgWord ws 3) 62 2 ≠ 0 → exec (.tld o) s = .next (s.stopped (.tld o) (ml.stopAt u undef8))) ∧
        (imgOk ws = true → bits (imgWord ws 3) 62 2 = 0 → GoesOn (.tld o) s (fun x =>
          Frame [.tregs, .stores, .mem, .poison, .parts] s x ∧ x.mem = u.mem ∧ SeesSame u x [] ∧
          (∀ i < 64, word x i = (setNth (imgSetBits ws) 3 0).getD i 0) ∧
          ∀ q, (q < t * 64 ∨ t * 64 + 64 ≤ q) → x.gv.tregs.get q = s.gv.tregs.get q)))) ∧
    (s.Clear (.tst o) → s.grp.inFlightT t = false → a < 2 ^ 56 →
      (a % 64 ≠ 0 → exec (.tst o) s = .next (s.precise (0xB0, 1) ⟨2, 3, BitVec.ofNat 64 a, s.frag.em, true⟩)) ∧
      (a % 64 = 0 → ∀ u e, ms.storePlaces a 64 0 = (u, .error e) → exec (.tst o) s = .next (s.stopped (.tst o) (ms.stopAt u e))) ∧
      (a % 64 = 0 → ∀ u l, ms.storePlaces a 64 0 = (u, .ok l) →
        let at_ := fun (i k : Nat) => (l.map (fun q => (q.1.add k).norm))[i]?
        GoesOn (.tst o) s (fun x => Frame [.stores, .window, .mem, .poison, .parts] s x ∧ x.mem = u.mem ∧
          (∀ i < 64, ∀ k < 8, ∀ pl va, l[i]? = some (pl, va) →
            (∀ i' k', i < i' → k' < 8 → at_ i' k' ≠ some (pl.add k).norm) →
            x.sees (pl.add k) = (word s i).extractLsb' (8 * k) 8) ∧
          ∀ q, (∀ i k, k < 8 → at_ i k ≠ some q.norm) → x.sees q = u.sees q)))

/-- The element accesses (R84, R105, R245 to R247): each lane that survives loads the value of its element, FILL for a phantom;
each stores its element's bits, as a store of the group, and nothing at a phantom; every other byte is seen as before,
outside the slab entries held for the access; a load that meets another group's relayout results leaves its group to see them, and
shows those of its block's window there (R295, R299), which is the model's reading (notes/assumptions/79.md). A MEMBER that must be
zero and is not is UNDEF with UCODE 8. Bytes of a store are stated for elements of whole bytes. -/
def Obligations.ElementAccess : Prop :=
  ∀ (o : TOps) (s : State) (mem : Nat),
    let d := Desc.of (s.grp.timg o.a.toNat)
    let ld := (s.marked (.tldE o)).checkElems o (s.grp.timg o.a.toNat) d mem false
    let st := (s.marked (.tstE o)).checkElems o (s.grp.timg o.a.toNat) d mem true
    let lanes := fun (l : List (Nat × Nat × Elem)) => l.map (fun e => (e.1, e.2.1, e.2.2.res.lane))
    let code := fun (lane : Nat) (fmt : BitVec 16) =>
      elemCode (fmtTag fmt) d.width (if d.ew = 5 then s.gv.vpair o.d.toNat lane else (s.gv.v o.d.toNat lane).toNat)
    -- A place outside the slab entries held for the access.
    let apart := fun (l : List (Option SlabView)) (q : Place) => ∀ v, some v ∈ l → ∀ i < 8, q.norm ≠ .mem (v.key + i)
    (d.ew ≠ 5 → memberArg s.blk d o.long = none → Traps (.tldE o) s 1 8 ∧ Traps (.tstE o) s 1 8) ∧
    (s.Clear (.tldE o) → s.ElemClear (.tldE o) o false mem → GoesOn (.tldE o) s (fun t =>
      Frame [.fmask, .loads, .stores, .seen, .window, .rest, .others, .mem, .poison, .parts] s t ∧
      (d.kind ≠ 4 → t.mem = ld.1.mem) ∧
      (s.nearResults = [] → Frame [.fmask, .loads, .stores, .mem, .poison, .parts] s t ∧
        ∀ q, apart ld.2.2 q → t.sees q = ld.1.sees q) ∧ t.gv.fmask = s.gv.fmask ||| lanesWith (lanes ld.2.1) isViol ∧
      (∀ e ∈ ld.2.1, ∀ x, (e.2.2.res = .fill ∧ x = d.fill) ∨
          (∃ pl va fmt, e.2.2.res = .ok pl va fmt ∧
            x = ld.1.elemValue (fmtTag fmt) (if e.2.2.ph then d.fill else ld.1.elemBits ld.1.seeElem pl d.width) e.2.2.hdr) →
        ∃ L, t.gv.loads = s.gv.loads ++ [L] ∧
          (SMap.setAll s.gv.vregs L.writes).get (o.d.toNat * 64 + e.1) = BitVec.ofNat 32 x ∧
          (d.ew = 5 → (SMap.setAll s.gv.vregs L.writes).get ((o.d.toNat + 1) * 64 + e.1) = BitVec.ofNat 32 (x / 2 ^ 32))))) ∧
    (s.Clear (.tstE o) → s.ElemClear (.tstE o) o true mem → GoesOn (.tstE o) s (fun t =>
      Frame [.fmask, .stores, .window, .vregs, .others, .cores, .mem, .poison, .parts] s t ∧
      t.gv.fmask = s.gv.fmask ||| lanesWith (lanes st.2.1) isViol ∧ (d.kind ≠ 4 → t.mem = st.1.mem) ∧
      (8 ≤ d.width → ∀ e ∈ st.2.1, ∀ pl va fmt k, e.2.2.res = .ok (.byte pl 0) va fmt → e.2.2.ph = false → k < d.width / 8 →
        (∀ e' ∈ st.2.1, ∀ pl' b va' fmt' k', e.1 < e'.1 → e'.2.2.res = .ok (.byte pl' b) va' fmt' → e'.2.2.ph = false →
          k' < d.width / 8 → (pl'.add k').norm ≠ (pl.add k).norm) →
        t.sees (pl.add k) = (leBytes (code e.1 fmt) (d.width / 8)).getD k 0) ∧
      (∀ e ∈ st.2.1, ∀ core idx va fmt, e.2.2.res = .ok (.acc core idx) va fmt → e.2.2.ph = false →
        (∀ e' ∈ st.2.1, ∀ va' fmt', e.1 < e'.1 → e'.2.2.ph = false → e'.2.2.res ≠ .ok (.acc core idx) va' fmt') →
        (t.core core).acc.get idx = BitVec.ofNat 32 (code e.1 fmt)) ∧
      ∀ q, (∀ e ∈ st.2.1, ∀ pl b va fmt k, e.2.2.res = .ok (.byte pl b) va fmt → e.2.2.ph = false → k < d.bytes →
          (pl.add k).norm ≠ q.norm) → apart st.2.2 q → t.sees q = st.1.sees q))

/-- The transform pipe (R255 to R262): an operation is handed to the core's pipe with the values its sources had, its
destinations are held until the pipe replies, and the reply of the oldest writes them; what each writes is given, the blocks of
`xquant` and `xdequant` by the chunks that start them; `xpack` answers at once with the header
of a literal or zeros record. Control fields that name no operation are UNDEF with UCODE 8, as are the tile forms without all
64 lanes. A source under SA, and the NaN of a special that is one, are the model's choice (notes/assumptions/77.md, 67.md). -/
def Obligations.TransformPipe : Prop :=
  (∀ (o : COps) (s : State),
    let act := s.frag.em &&& ~~~s.grp.fmask
    -- Source register j of a lane: from A on, or s[A] under SA.
    let src := fun (j l : Nat) => if o.sa then (s.sreg o.a).toNat % 2 ^ 32 else (s.gv.v (o.a.toNat + j) l).toNat
    -- The chunks at which blocks start, from whether a chunk starts one when the open block began at p; a chunk's block.
    let splits := fun (fixed : Bool) (at_ : Nat → Nat → Prop) (b : Nat → Bool) =>
      if fixed then ∀ l, b l = decide (l % 4 = 0)
      else b 0 = true ∧ ∀ p l, p < l → l < 64 → b p = true → (∀ k, p < k → k < l → b k = false) → (b l = true ↔ l - p = 8 ∨ at_ p l)
    let num := fun (b : Nat → Bool) (l : Nat) => ((List.range l).filter (fun k => b (k + 1))).length
    -- The hand-off of n registers from D with values for the lanes of `on`.
    let hands := fun (i : Instr) (n : Nat) (on : W64) (flags : Prop) (val : Nat → Nat → Nat → Prop) => s.Clear i → GoesOn i s (fun t =>
      Frame [.held, .cores, .fpstat] s t ∧ (flags → t.gv.fpstat = s.gv.fpstat) ∧
      t.gv.held = s.gv.held ++ [(o.d.toNat, n)] ∧ (∀ c, c ≠ s.blk.core → t.core c = s.core c) ∧
      ∃ ws, t.core s.blk.core = { s.core s.blk.core with pipe := (s.core s.blk.core).pipe ++ [⟨s.bkey, s.gkey, o.d.toNat, n, ws⟩] } ∧
        ∀ r l, l < 64 →
          (r < n → on.getLsbD l = true → val r l ((SMap.setAll s.gv.vregs ws).get ((o.d.toNat + r) * 64 + l)).toNat) ∧
          ((∀ k < n, r ≠ o.d.toNat + k) ∨ on.getLsbD l = false → (SMap.setAll s.gv.vregs ws).get (r * 64 + l) = s.gv.v r l))
    (64 ≤ o.c.toNat ∨ (32 ≤ o.c.toNat ∧ o.c.toNat % 32 ≠ 0) → Traps (.xquant o) s 1 8) ∧
    (o.c.toNat ≤ 32 →
      let chunk := fun (l : Nat) => (List.range 8).map (fun j => if act.getLsbD l then src j l else 0)
      let peak := fun (l : Nat) => ((chunk l).map mag32).foldl max 0
      let top := fun (p l : Nat) => ((List.range (l - p)).map (fun k => peak (p + k))).foldl max 0
      ∃ b, splits (o.c.toNat == 32) (fun p l => 0 < top p l ∧ 0 < peak l ∧ (o.c.toNat : Int) < |ex32 (peak l) - ex32 (top p l)|) b ∧
        let block := fun (n : Nat) => encodeBlock (((List.range 64).filter (fun l => num b l == n)).flatMap chunk)
        hands (.xquant o) 2 act False (fun r l v =>
          v = if r = 0 then
              packFields 4 (((block (num b l)).2.2.1.drop (8 * ((List.range l).filter (fun k => num b k == num b l)).length)).take 8)
            else (if l ≤ num b 63 then (block l).1 + 256 * (block l).2.1 else 0) + (if b l then 65536 else 0))) ∧
    (o.c.toNat % 16 < 8 ∨ 10 < o.c.toNat % 16 ∨ 32 ≤ o.c.toNat → Traps (.xdequant o) s 1 8) ∧
    (∀ (f : Flt) (ty : Nat), (ty, f) ∈ [(8, Flt.f32), (9, Flt.f16), (10, Flt.bf16)] → o.c.toNat = ty ∨ o.c.toNat = 16 + ty →
      ∃ b, splits (16 ≤ o.c.toNat) (fun _ l => (src 1 l).testBit 16 = true) b ∧
        hands (.xdequant o) (if ty = 8 then 8 else 4) act False (fun r l v =>
          let h := src 1 (num b l)
          let x := fun (j : Nat) => f.rne (decodeE2m1s (src 0 l / 2 ^ (4 * j) % 16) (h % 256) (h / 256 % 256))
          v = if ty = 8 then x r else x (2 * r) + 65536 * x (2 * r + 1))) ∧
    (let k := o.b.toNat
     let dt := o.c.toNat / 16
     let st := o.c.toNat % 16
     let ok := k ∈ List.range' 1 16 ∧ dt ∈ [0, 8, 9, 10, 11, 12] ∧ st ∈ [0, 8, 9, 10, 11, 12] ∧ (o.x.getLsbD 2 = true → dt = 11 ∨ dt = 12)
     let ws := typeWidth st
     let wd := typeWidth dt
     let n := k * 32 / ws
     (¬ ok → Traps (.xconv o) s 1 8) ∧
     (ok → hands (.xconv o) ((k * wd + ws - 1) / ws) act False (fun r l v =>
       (∀ e < n, e * wd / 32 = r → bits v (e * wd % 32) wd =
         (cvtOne dt st (rmOf o) (o.x.getLsbD 2) (bits (src (e * ws / 32) l) (e * ws % 32) ws)).1 % 2 ^ wd) ∧
       v < 2 ^ (n * wd - 32 * r)))) ∧
    (let k := s.sreg o.b
     let kind := bits k.toNat 62 2
     let e := bits k.toNat 51 4
     (s.allLanes = false → Traps (.xpack o) s 1 8 ∧ Traps (.xunpack o) s 1 8) ∧
     (o.c.toNat ∉ [1, 2, 3, 4, 5, 7, 8] → Traps (.xpack o) s 1 8) ∧
     (s.allLanes = true → o.c.toNat ∈ [1, 2, 3, 4, 5, 7, 8] →
       let n := if o.c.toNat = 5 then 8 else etagRegs o.c.toNat
       ((∀ r < n, ∀ l < 64, src r l = 0) → WritesS (.xpack o) s o.d (BitVec.ofNat 64 (2 ^ 62 + o.c.toNat * 2 ^ 51))) ∧
       ((∃ r < n, ∃ l < 64, src r l ≠ 0) →
         WritesS (.xpack o) s o.d (BitVec.ofNat 64 (o.c.toNat * 2 ^ 51 + litLen o.c.toNat)))) ∧
     let good := e ∈ [1, 2, 3, 4, 5, 7, 8] ∧ (kind = 0 ∧ bits k.toNat 0 32 = litLen e ∨ kind = 1 ∧ bits k.toNat 0 32 = 0)
     let fits := o.d.toNat + etagRegs e ≤ 16 * s.grp.vblk.length ∧ (o.sa = true ∨ o.a.toNat + etagRegs e ≤ 16 * s.grp.vblk.length)
     (¬ good → Traps (.xunpack o) s 1 8) ∧ (s.allLanes = true → good → ¬ fits → Traps (.xunpack o) s 1 5) ∧
     (s.allLanes = true → good → fits →
       s.grp.scored (VUse.rng o.d (etagRegs e) :: usesFrom o (etagRegs e)) = false → s.grp.owed [VUse.rng o.d (etagRegs e)] = false →
       hands (.xunpack o) (etagRegs e) (BitVec.allOnes 64) True (fun r l v =>
         v = if kind = 0 then src r l else if e = 5 ∧ r = 8 then 0x007F007F else 0)))) ∧
  (∀ (core : Nat) (s : State) (j : PipeJob) (rest : List PipeJob) (g : Group),
    (s.core core).pipe = j :: rest → s.group j.blk j.grp = some g →
    Gives (exec (.transformPipeReply core) s) (fun t => (t.core core).pipe = rest ∧ t.mem = s.mem ∧
      t.group j.blk j.grp = some { g with vregs := SMap.setAll g.vregs j.writes, held := g.held.erase (j.d, j.n) }))

/-- Matrix products (R138, R139, R263 to R273): a type, CMP or HDR that does not fit is UNDEF with UCODE 3; a tile that awaits
an update and a busy array hold; otherwise the operands are taken and the product is under way. A quad's fragment that finds
no quad is UNDEF with UCODE 8, the first to come waits, and the last starts one product for all four; while a slice is taken the
complete rendezvous waits for it (R399).
The oldest product of a core updates its tiles as one step (R138, R139, R267, R273): in every active row of an 8-bit
integer product of one group, entry c of the row gains the sum of the products of the row's and the column's 32 elements,
modulo 2^32; a float entry is the rounded sum of R138; no other accumulator changes. -/
def Obligations.MatrixProducts : Prop :=
  (∀ (mode : MmaMode) (o : XOps) (s : State),
     let tile := 4 * s.grp.quad + o.d.toNat
     let starts := fun (i : Instr) (form n : Nat) => s.Clear i →
       (mmaTypeOk mode o = false → exec i s = .next (s.userTrap i.word0 1 3)) ∧
       (mmaTypeOk mode o = true → s.tileBusy s.blk.core tile = true → exec i s = .next (s.stopped i (.hold 3))) ∧
       (mmaTypeOk mode o = true → s.tileBusy s.blk.core tile = false → s.arrayFree s.blk s.grp.quad (form == 0) = false →
         exec i s = .next (s.stopped i (.hold 10))) ∧
       (mmaTypeOk mode o = true → s.tileBusy s.blk.core tile = false → s.arrayFree s.blk s.grp.quad (form == 0) = true →
         GoesOn i s (fun t => Frame [.cores] s t ∧ (∀ c, c ≠ s.blk.core → t.core c = s.core c) ∧
           ∃ p : MmaPart, t.core s.blk.core = { s.core s.blk.core with jobs := (s.core s.blk.core).jobs ++ [⟨form, mode, o.ty.toNat, [p]⟩] } ∧
             (p.blk, p.grp, p.core, p.quad, p.d) = (s.bkey, s.gkey, s.blk.core, s.grp.quad, o.d.toNat) ∧
             p.live = s.frag.em &&& ~~~s.grp.fmask ∧
             (∀ r < 8 * n, ∀ l < 64, p.a.get (r * 64 + l) = s.gv.v (o.a.toNat + r) l ∧ p.b.get (r * 64 + l) = s.gv.v (o.b.toNat + r) l)))
     starts (.mmaS mode o) 0 1 ∧ starts (.mmaB mode o) 3 4 ∧
     (∀ (i : Instr) (pod : Bool), (i = .mmaQ mode o ∧ pod = false) ∨ (i = .mmaP mode o ∧ pod = true) → s.Clear i → mmaTypeOk mode o = true →
       (s.meeting pod = none → exec i s = .next (s.userTrap i.word0 1 8)) ∧
       (∀ l, s.meeting pod = some l → s.waiters l = [] → 1 < (l.filter (fun p => !(p.1 == s.bkey && p.2 == s.gkey))).length →
         s.grp.waiter = none → Gives (exec i s) (fun t => Frame [] s t ∧ t.cores = s.cores ∧
           t.fv.map (fun f => (f.pc, f.st)) = some (s.frag.pc, .rendezvous pod mode o (s.stamp + 1)))) ∧
       (∀ l : List (Nat × Nat), s.meeting pod = some l → (s.bkey, s.gkey) ∈ l → s.grp.waiter = none →
         let others := l.filter (fun p => !(p.1 == s.bkey && p.2 == s.gkey))
         let ws := s.waiters others
         ws.length = others.length →
         (∀ w ∈ ws, w.2.2.differs pod mode o = false ∧ ∃ g, s.group w.1 w.2.1 = some g ∧ g.stop = .no ∧ g.inTrap = false ∧ g.joins = [] ∧ g.pend = []) →
         ((∃ p ∈ l, ∃ g x, s.group p.1 p.2 = some g ∧ s.block p.1 = some x ∧ s.arrayUse x.core g.quad ≠ []) →
           exec i s = .next (s.stopped i (.hold 26))) ∧
         ((∀ p ∈ l, ∀ g x, s.group p.1 p.2 = some g → s.block p.1 = some x →
           s.arrayUse x.core g.quad = [] ∧ ∀ k < 4, s.tileBusy x.core (4 * g.quad + k) = false) →
         (∀ w ∈ ws, w.2.2.ops.d.toNat < 4) → o.d.toNat < 4 →
         GoesOn i s (fun t => t.mem = s.mem ∧
           (∃ c parts, (t.core c).jobs = (s.core c).jobs ++ [⟨if pod then 2 else 1, mode, o.ty.toNat, parts⟩] ∧
             parts.map (fun p => (p.blk, p.grp)) = l) ∧
           ∀ w ∈ ws, (t.fragment w.1 w.2.1 w.2.2.fid).map (·.st) = some .run))))) ∧
  (∀ (core : Nat) (s : State) (j : MmaJob) (p : MmaPart) (rest : List MmaJob),
     (s.core core).jobs = j :: rest → j.parts = [p] → j.form = 0 → p.core = core →
     let key := fun (row col : Nat) => (4 * p.quad + p.d) * 0x4000 + row * 256 + col
     Gives (exec (.matrixTileUpdate core) s) (fun t => (t.core core).jobs = rest ∧ t.blocks = s.blocks ∧ t.mem = s.mem ∧
       (∀ c, c ≠ core → t.core c = s.core c) ∧
       (∀ i < 64, ∀ c < 64, p.live.getLsbD i = true → p.live.getLsbD c = true → j.mode = .numeric → j.ty = 0 →
         ((t.core core).acc.get (key i c)).toInt % 2 ^ 32 = (((s.core core).acc.get (key i c)).toInt +
           ((List.range 32).map (fun k =>
             ((p.a.get (k / 4 * 64 + i)).extractLsb' (8 * (k % 4)) 8).toInt *
             ((p.b.get (k / 4 * 64 + c)).extractLsb' (8 * (k % 4)) 8).toInt)).sum) % 2 ^ 32) ∧
       (∀ i < 64, ∀ c < 64, p.live.getLsbD i = true → p.live.getLsbD c = true → j.mode = .numeric → j.ty = 10 →
         (t.core core).acc.get (key i c) = BitVec.ofNat 32 (mmaFloat ((s.core core).acc.get (key i c)).toNat
           ((List.range 16).map (fun k =>
             (Flt.bf16.decode ((p.a.get (k / 2 * 64 + i)).extractLsb' (16 * (k % 2)) 16).toNat,
              Flt.bf16.decode ((p.b.get (k / 2 * 64 + c)).extractLsb' (16 * (k % 2)) 16).toNat))))) ∧
       ∀ q, (∀ i c, i < 64 → c < 64 → p.live.getLsbD i = true → q ≠ key i c) → (t.core core).acc.get q = (s.core core).acc.get q))

/-- The accumulator instructions (R274 to R278) on the columns CB names, in the active rows: zero, load, store, row maximum and
sum, exponential, scaling, conversion; nothing else changes. A CB that the form or the core does not have is UNDEF with UCODE 8,
as is a scale of `accexp` that is not positive and normal; a tile that awaits an update holds.
The values of the row operations (R276, R277): the greatest number of a row, −0 below +0, the default NaN for a row of NaN; the exact
sum rounded once, with its special cases; the product rounded once, zero times infinity a zero; the exponential of the rounded scaled
difference, 0 for an entry −∞ and 1 for an entry equal to its offset. That an offset NaN makes an entry −∞ a NaN too is the model's
choice (notes/assumptions/89.md). -/
def Obligations.Accumulators : Prop :=
  (∀ (o : COps) (s : State),
    let act := s.frag.em &&& ~~~s.grp.fmask
    let cb := o.c.toNat % 8
    let bad := fun (whole : Bool) => decide (4 < cb ∨ (cb = 4 ∧ whole = false)) || (s.blk.lcore && decide (1 ≤ cb ∧ cb ≤ 3))
    let cols := if cb = 4 then List.range (if s.blk.lcore then 64 else 256) else (List.range 64).map (64 * cb + ·)
    let ready := fun (i : Instr) (tile : Nat) (whole : Bool) => s.Clear i ∧ bad whole = false ∧ s.tileBusy s.blk.core (4 * s.grp.quad + tile) = false
    let changes := fun (i : Instr) (whole : Bool) (f : Nat → Nat → Nat → Nat) => ready i o.d.toNat whole →
      GoesOn i s (fun t => Frame [.cores] s t ∧ s.SetsAcc t o.d.toNat act cols f)
    let rows := fun (i : Instr) (f : List Nat → Nat) => ready i o.a.toNat true → GoesOn i s (fun t => Frame [.vregs] s t ∧
      s.SetsV t o.d false act (fun l => f (cols.map (s.accAt o.a.toNat l))))
    let regs := fun (i : Instr) (n : Nat) (val : Nat → Nat → Nat) => ready i o.a.toNat false → GoesOn i s (fun t =>
      Frame [.vregs] s t ∧ ∀ r l, l < 64 → t.gv.v r l =
        if act.getLsbD l = true ∧ o.d.toNat ≤ r ∧ r < o.d.toNat + n then BitVec.ofNat 32 (val l (r - o.d.toNat)) else s.gv.v r l)
    let sc := if o.b = 0 then 0x3F800000 else (s.sreg o.b).toNat % 2 ^ 32
    (bad true = true → Traps (.accz o) s 1 8 ∧ Traps (.accmax o) s 1 8 ∧ Traps (.accsum o) s 1 8 ∧ Traps (.accexp o) s 1 8 ∧ Traps (.accscl o) s 1 8) ∧
    (bad false = true → Traps (.accld o) s 1 8 ∧ Traps (.accst o) s 1 8 ∧ Traps (.acccvt o) s 1 8) ∧
    (bad true = false → s.tileBusy s.blk.core (4 * s.grp.quad + o.d.toNat) = true → s.Clear (.accz o) →
      exec (.accz o) s = .next (s.stopped (.accz o) (.hold 3))) ∧
    changes (.accz o) true (fun _ _ _ => 0) ∧
    changes (.accld o) false (fun i c _ => (s.gv.v (o.a.toNat + c % 64) i).toNat) ∧
    (sc / 2 ^ 31 = 0 → 1 ≤ sc / 2 ^ 23 → sc / 2 ^ 23 < 255 →
      changes (.accexp o) true (fun i _ x => expEntry sc (s.gv.v o.a.toNat i).toNat x)) ∧
    ((sc / 2 ^ 31 = 1 ∨ sc / 2 ^ 23 % 256 = 0 ∨ sc / 2 ^ 23 % 256 = 255) → ready (.accexp o) o.d.toNat true →
      exec (.accexp o) s = .next (s.userTrap (Instr.accexp o).word0 1 8)) ∧
    changes (.accscl o) true (fun i _ x => sclEntry (if o.sa then (s.sreg o.a).toNat % 2 ^ 32 else (s.gv.v o.a.toNat i).toNat) x) ∧
    regs (.accst o) 64 (fun l r => s.accAt o.a.toNat l (64 * cb + r)) ∧
    rows (.accmax o) rowMaxNan ∧ rows (.accsum o) rowSum ∧
    (o.c.toNat / 16 = 8 → o.x = 0 → regs (.acccvt o) 64 (fun l r => s.accAt o.a.toNat l (64 * cb + r))) ∧
    (o.c.toNat / 16 = 10 → o.x.toNat < 4 → regs (.acccvt o) 32 (fun l r =>
      let e := fun (j : Nat) => (Flt.bf16.roundTo (RM.of o.x.toNat) false (Flt.f32.decode (s.accAt o.a.toNat l (64 * cb + 2 * r + j)))).1
      e 0 + 65536 * e 1)) ∧
    (o.c.toNat / 16 = 11 → regs (.acccvt o) 16 (fun l r =>
      let e := fun (j : Nat) => (Flt.e4m3.roundTo (RM.of o.x.toNat) (!o.x.getLsbD 2) (Flt.f32.decode (s.accAt o.a.toNat l (64 * cb + 4 * r + j)))).1
      e 0 + 2 ^ 8 * e 1 + 2 ^ 16 * e 2 + 2 ^ 24 * e 3)) ∧
    ((o.c.toNat / 16 ∉ [0, 2, 8, 9, 10, 11, 12]) → ready (.acccvt o) o.a.toNat false →
      exec (.acccvt o) s = .next (s.userTrap (Instr.acccvt o).word0 1 8)) ∧
    (∀ x, (Flt.f32.decode x).isZero = true → ∀ sgn, sclEntry x (Flt.f32.sgn sgn + Flt.f32.infBits) % 2 ^ 31 = 0)) ∧
  (∀ l : List Nat, (∀ x ∈ l, x < 2 ^ 32) → l ≠ [] →
    let isNan := fun (x : Nat) => (Flt.f32.decode x).isNan
    -- Numbers in their order, −0 below +0.
    let rank := fun (x : Nat) => if x < 2 ^ 31 then (x : Int) else 2 ^ 31 - 1 - (x : Int)
    ((∀ x ∈ l, isNan x = true) → rowMaxNan l = 0x7FC00000) ∧
    ((∃ x ∈ l, isNan x = false) → rowMaxNan l ∈ l ∧ isNan (rowMaxNan l) = false ∧
      ∀ x ∈ l, isNan x = false → rank x ≤ rank (rowMaxNan l)) ∧
    ((∃ x ∈ l, isNan x = true) ∨ (0x7F800000 ∈ l ∧ 0xFF800000 ∈ l) → rowSum l = 0x7FC00000) ∧
    ((∀ x ∈ l, isNan x = false) → 0x7F800000 ∈ l → 0xFF800000 ∉ l → rowSum l = 0x7F800000) ∧
    ((∀ x ∈ l, isNan x = false) → 0x7F800000 ∉ l → 0xFF800000 ∈ l → rowSum l = 0xFF800000) ∧
    ((∀ x ∈ l, (Flt.f32.decode x).isFin = true) →
      let w := (l.map Flt.f32.val).sum
      (w = 0 → rowSum l = if ∀ x ∈ l, x = 0x80000000 then 0x80000000 else 0) ∧
      (w ≠ 0 → ∃ (m : Nat) (e : Int), 0 < m ∧ (m : ℚ) * 2 ^ e = |w| ∧
        rowSum l = (Flt.f32.roundFin .rne false (decide (w < 0)) m e false).1))) ∧
  (∀ f x : Nat, f < 2 ^ 32 → x < 2 ^ 32 →
    let F := Flt.f32.decode f
    let X := Flt.f32.decode x
    let sign := if f / 2 ^ 31 = x / 2 ^ 31 then 0 else 0x80000000
    let w := Flt.f32.val f * Flt.f32.val x
    (F.isNan = true ∨ X.isNan = true → sclEntry f x = 0x7FC00000) ∧
    (F.isZero = true → X.isNan = false → sclEntry f x = sign) ∧ (F.isNan = false → X.isZero = true → sclEntry f x = sign) ∧
    (f % 2 ^ 31 = 0x7F800000 → X.isNan = false → X.isZero = false → sclEntry f x = sign + 0x7F800000) ∧
    (x % 2 ^ 31 = 0x7F800000 → F.isNan = false → F.isZero = false → sclEntry f x = sign + 0x7F800000) ∧
    (F.isFin = true → X.isFin = true → w ≠ 0 → ∃ (m : Nat) (e : Int), 0 < m ∧ (m : ℚ) * 2 ^ e = |w| ∧
      sclEntry f x = (Flt.f32.roundFin .rne false (decide (w < 0)) m e false).1)) ∧
  (∀ sc m x : Nat, sc / 2 ^ 31 = 0 → 1 ≤ sc / 2 ^ 23 → sc / 2 ^ 23 < 255 → m < 2 ^ 32 → x < 2 ^ 32 →
    let off := if m = 0xFF800000 then 0 else m
    let d := (Flt.f32.add .rne (Flt.f32.decode x) (Flt.f32.decode off).flip).1
    let t := (Flt.f32.mul .rne (Flt.f32.decode sc) (Flt.f32.decode d)).1
    expEntry sc m x = (Flt.f32.exp2 .rne (Flt.f32.decode t)).1 ∧
    ((Flt.f32.decode x).isNan = true ∨ (Flt.f32.decode m).isNan = true → expEntry sc m x = 0x7FC00000) ∧
    (x = 0xFF800000 → (Flt.f32.decode m).isNan = false → expEntry sc m x = 0) ∧
    ((Flt.f32.decode x).isFin = true → expEntry sc x x = 0x3F800000))

/-- `trel` and `tlay` at issue (R69, R239, R240, R248, R253): a register in flight and a full token hold; operands that do not
fit are UNDEF with UCODE 8; a permutation that moves nothing ends at once, its token as it was; otherwise the token rises, the
register shows STATE 2 or 1 with pass 0 of NPASS, and the core's engine has the job, with the holds of its slab sides. A permutation
that moves nothing is stated for sides outside slabs.
The layout engine's work (R77 to R82, R252, R298): a job that begins is found fit or ends with its status; a block that cannot be
translated or read ends the job with the status, or waits for the page, and is left unwritten; a block done moves CURSOR on, and the
last block of the last pass ends the job with status 0. Ending, the token falls by one with the status on it, the register
shows STATE 3, or 0 after OK, and the bytes written are the group's, as its loads see them. Stated for relayouts with a token, outside
slabs, with no earlier relayout in the way. When the statuses BOUNDS, OVERLAP, STAGING and FORMAT are found is the model's choice
(notes/assumptions/44.md), and that the error stays on the token its reading (notes/assumptions/11.md). -/
def Obligations.Relayouts : Prop :=
  (∀ (o : TOps) (s : State) (i : Instr) (inplace : Bool), (i = .trel o ∧ inplace = false) ∨ (i = .tlay o ∧ inplace = true) →
     s.Clear i →
     let wd := s.grp.timg o.d.toNat
     let wa := s.grp.timg o.a.toNat
     let dd := Desc.of wd
     let da := Desc.of wa
     let k := o.tok.toNat
     let scale : W32 := if inplace || o.b == 0 then 0x3F800000 else (s.sreg o.b).setWidth 32
     let dst := if inplace then wd.take 16 ++ wa.drop 16 else wd
     let fits := if inplace then da.n = dd.n ∧ imgOk dst = true
       else imgNull wa = false ∧ da.state ≠ 3 ∧ da.ndim = dd.ndim ∧ da.dims.map (·.2) = dd.dims.map (·.2) ∧ scale.getLsbD 31 = false ∧
         scale.extractLsb' 23 8 ≠ 0 ∧ scale.extractLsb' 23 8 ≠ 255
     let passes := passesOf dd (if inplace then dd.rows else da.rows) (Desc.of dst).rows (!inplace)
     let member := memberArg s.blk dd o.long
     let flat := dd.kind ≠ 4 ∧ (inplace = true ∨ da.kind ≠ 4)
     let same := fun (t : State) => Frame [.tregs] s t ∧ (∀ j < 64, t.gv.tregs.get (o.d.toNat * 64 + j) = dst.getD j 0) ∧
       ∀ q, (q < o.d.toNat * 64 ∨ o.d.toNat * 64 + 64 ≤ q) → t.gv.tregs.get q = s.gv.tregs.get q
     let ready := s.grp.inFlightT o.d.toNat = false ∧ imgNull wd = false ∧ dd.state ≠ 3 ∧ member.isSome = true ∧ fits
     (s.grp.inFlightT o.d.toNat = true → exec i s = .next (s.stopped i (.hold 15))) ∧
     (s.grp.inFlightT o.d.toNat = false → imgNull wd = true ∨ dd.state = 3 ∨ member = none ∨ ¬ fits →
       exec i s = .next (s.userTrap i.word0 1 8)) ∧
     (ready → o.cred = false → 255 ≤ (s.grp.tok k).count → exec i s = .next (s.stopped i (.hold 4))) ∧
     (ready → o.cred = false → (s.grp.tok k).count < 255 → s.gv.toks.length = 8 → passes = [] → flat → GoesOn i s same) ∧
     (ready → o.cred = true → passes = [] → flat → Gives (exec i s) (fun t => ∃ u v, s.Moves u v (s.frag.pc + BitVec.ofNat 64 i.len) ∧
       same u ∧ t = v.stow.credit s.bkey o.bar.toNat (cdiv (2 ^ (Desc.of dst).n) 4096))) ∧
     (ready → (o.cred = true ∨ (s.grp.tok k).count < 255) → s.gv.toks.length = 8 → ∀ m, member = some m →
       let sides := (s.marked i).slabSides
         ((s.marked i).newJob o inplace m scale wa dst (if inplace then dd.rows else da.rows) passes)
       (∀ u, sides = (u, none) → exec i s = .next (s.stopped i ((s.marked i).stopAt u (.hold 15)))) ∧
       (∀ u j, sides = (u, some j) → passes ≠ [] → GoesOn i s (fun t => Frame [.tregs, .toks, .cores, .mem, .poison, .parts] s t ∧
         t.mem = u.mem ∧ t.gv.tregs.get (o.d.toNat * 64 + 3) = progWord (if inplace then 1 else 2) 0 passes.length 0 0 ∧
         t.gv.tok k = { s.gv.tok k with count := (s.gv.tok k).count + (if o.cred then 0 else 1) } ∧
         t.core s.blk.core = { s.core s.blk.core with rels := (s.core s.blk.core).rels.put s.jobNo j }))) ∧
     (ready → (o.cred = true ∨ (s.grp.tok k).count < 255) → s.gv.toks.length = 8 → passes ≠ [] → flat →
       GoesOn i s (fun t => Frame [.tregs, .toks, .cores] s t ∧ t.gv.tok k = { s.gv.tok k with count := (s.gv.tok k).count + (if o.cred then 0 else 1) } ∧ (∀ j, j ≠ k → t.gv.tok j = s.gv.tok j) ∧
         t.gv.tregs.get (o.d.toNat * 64 + 3) = progWord (if inplace then 1 else 2) 0 passes.length 0 0 ∧
         (∀ c, c ≠ s.blk.core → t.core c = s.core c) ∧
         ∃ j, t.core s.blk.core = { s.core s.blk.core with rels := (s.core s.blk.core).rels.put s.jobNo j } ∧
           (j.inplace, j.blk, j.grp, j.ctx, j.tok, j.cred, j.bar, j.tdst) =
             (inplace, s.bkey, s.gkey, s.ctxid, k, o.cred, o.bar.toNat, o.d.toNat) ∧
           some j.member = member ∧ j.scale = scale ∧ j.dst = dst ∧ j.passes = passes ∧
           (j.started, j.pass, j.cursor, j.credited, j.fail) = (false, 0, 0, 0, 0)))) ∧
  (∀ (core job : Nat) (s : State) (j : Relayout) (x : Block) (g : Group), (s.core core).rels.find job = some j → j.heldBy = none →
     s.block j.blk = some x → s.group j.blk j.grp = some g → s.behind core job j = false → s.engineStops j x = false →
     j.gone = false → j.cred = false → j.grow = false → j.slabs = [] → g.toks.length = 8 → j.tok < 8 →
     ∀ s1 stream, s.isStream j x (Desc.of j.src) = (s1, .inr stream) →
     let place := fun (e : EngineByte) => match e.win with | some b => Place.win b e.at_ | none => .mem e.at_
     -- The job is over, from a state and the job as it then stood, with a status.
     let ends := fun (u : State × Relayout) (status : Nat) => ∀ h, u.1.group j.blk j.grp = some h → h.toks = g.toks →
       Gives (exec (.relayoutBlock core job) s) (fun t => (t.core core).rels.find job = none ∧ t.mem = u.1.mem ∧
         ∃ g', t.group j.blk j.grp = some g' ∧ (g'.tok j.tok).count = (g.tok j.tok).count - 1 ∧
           (g'.tok j.tok).err = (if status = 0 then (g.tok j.tok).err else status) ∧ g'.vregs = h.vregs ∧
           g'.tregs.get (j.tdst * 64 + 3) = (if status = 0 then 0 else progWord 3 j.pass j.passes.length status j.cursor) ∧
           ∀ l e r, u.2.done ++ u.2.fresh = l ++ e :: r → (∀ c ∈ r, place c ≠ place e) → t.seenBy j.blk (t.viewOf j.blk g') (place e) = e.val)
     -- It waits for a page.
     let waits := fun (u : State × Relayout) => Gives (exec (.relayoutBlock core job) s) (fun t =>
       ∃ n, (t.core core).rels.find job = some { u.2 with heldBy := some n })
     -- It goes on as the job `k`.
     let stays := fun (u : State × Relayout) (k : Relayout) => Gives (exec (.relayoutBlock core job) s) (fun t =>
       t.mem = u.1.mem ∧ (t.core core).rels.find job = some k)
     (j.started = false → s.startWaits j x = true → exec (.relayoutBlock core job) s = .next s) ∧
     (j.started = false → s.startWaits j x = false → ∀ u,
       (s1.relayoutStart j x stream = (u, .inr 0) → stays u { u.2 with started := true }) ∧
       (∀ n, n ≠ 0 → s1.relayoutStart j x stream = (u, .inr n) → ends u n) ∧
       (∀ va wr, s1.relayoutStart j x stream = (u, .inl (.miss va wr)) → waits u)) ∧
     (j.started = true → ∀ p, j.passes[j.pass]? = some p → ∀ u,
       let inv := (gfInverse (Desc.of j.dst).n (j.before j.pass)).getD []
       let moved := s1.doBlock j x p inv (!j.inplace && j.pass == 0) stream
       (∀ h, moved = (u, some h) → u.1.blocks = s1.blocks ∧ u.1.grp = s1.grp ∧ u.1.cores = s1.cores ∧ u.2.done = j.done ∧ u.2.fresh = j.fresh) ∧
       (∀ n, n ≠ 0 → moved = (u, some (.stop n)) → ends u n) ∧ (∀ va wr, moved = (u, some (.miss va wr)) → waits u) ∧
       (moved = (u, none) → j.cursor + 1 = j.blocks p → j.pass + 1 = j.passes.length → ends u 0) ∧
       (moved = (u, none) → ¬ (j.cursor + 1 = j.blocks p ∧ j.pass + 1 = j.passes.length) →
         stays u (if j.cursor + 1 = j.blocks p then { u.2 with pass := j.pass + 1, cursor := 0 } else { u.2 with cursor := j.cursor + 1 }))))

/-! ### Masks and signatures -/

/-- The mask unit (R279 to R287): `mkld` takes a well-formed image with its lengths into a slot, and refuses another with its
reason; `mkcls` writes 0 when no pair of the tile is allowed, 1 when all are, else 2, and counts it; `mkapply` puts minus
infinity where a pair of an active row is not allowed; `mkcnt` and `mkclr` read and clear; what stops the reads that these make stops
them. An empty slot is MASK_ILLEGAL with
UCODE 4, a reversed range and a C out of range UNDEF with UCODE 8.
`sgpack` gathers signs, `sgsel` and `sgcnt` the active lanes within a Hamming radius (R288, R289); with no active lane
neither of these writes; a radius above 64 is UNDEF with UCODE 8. -/
def Obligations.MaskUnitAndSignatures : Prop :=
  (∀ (o : KOps) (s : State),
     let slot := fun (t : State) (n : Nat) => t.bv.masks.getD n none
     let n := o.psel.toNat
     let half := fun (x : W64) (j : Nat) => (x.extractLsb' (32 * j) 32).toNat
     let allowed := fun (m : MaskSlot) (docs : List (Nat × Nat)) (q k : Nat) =>
       let doc := fun (p : Nat) => (KL.find docs p).getD 0
       q < m.lq.toNat ∧ k < m.lk.toNat ∧ ∃ r ∈ maskRules m.prog, (r.a : Int) * q + r.b ≤ k ∧ (k : Int) ≤ r.c * q + r.d ∧
         (r.doc = 0 ∨ (r.doc = 1 ∧ doc q = doc k) ∨ (2 ≤ r.doc ∧ doc k ≤ doc q))
     let a := (s.sreg o.a).toNat
     (1 < o.c.toNat → Traps (.mkclr o) s 1 8) ∧
     (o.c.toNat ≤ 1 → s.bv.masks.length = 4 → s.Clear (.mkclr o) → GoesOn (.mkclr o) s (fun t => Frame [.masks, .counts] s t ∧
       (∀ k, slot t k = if k = n then none else slot s k) ∧
       (t.bv.nEmpty, t.bv.nFull, t.bv.nPart) = if o.c = 1 then (0, 0, 0) else (s.bv.nEmpty, s.bv.nFull, s.bv.nPart))) ∧
     (2 < o.c.toNat → Traps (.mkcnt o) s 1 8) ∧
     (o.c.toNat ≤ 2 → WritesS (.mkcnt o) s o.d
       (BitVec.ofNat 64 ((if o.c = 0 then s.blk.nEmpty else if o.c = 1 then s.blk.nFull else s.blk.nPart) % 2 ^ 32))) ∧
     (half (s.sreg o.a) 1 < half (s.sreg o.a) 0 ∨ half (s.sreg o.b) 1 < half (s.sreg o.b) 0 → Traps (.mkcls o) s 1 8) ∧
     (half (s.sreg o.a) 0 ≤ half (s.sreg o.a) 1 → half (s.sreg o.b) 0 ≤ half (s.sreg o.b) 1 →
       (slot s n = none → Traps (.mkcls o) s 3 4) ∧
       (∀ m u, slot s n = some m → s.Clear (.mkcls o) →
         let look := (s.marked (.mkcls o)).maskDocsOf m (posRange (half (s.sreg o.a) 0) (half (s.sreg o.a) 1))
           (posRange (half (s.sreg o.b) 0) (half (s.sreg o.b) 1))
         (∀ e, look = (u, .error e) → exec (.mkcls o) s = .next (s.stopped (.mkcls o) ((s.marked (.mkcls o)).stopAt u e))) ∧
         ∀ docs, look = (u, .ok docs) →
         let tile := fun (f : Nat → Nat → Prop) => ∀ q k, half (s.sreg o.a) 0 ≤ q → q ≤ half (s.sreg o.a) 1 →
           half (s.sreg o.b) 0 ≤ k → k ≤ half (s.sreg o.b) 1 → f q k
         GoesOn (.mkcls o) s (fun t => Frame [.sregs, .counts, .stores, .seen, .window, .rest, .others, .mem, .poison, .parts] s t ∧
             (s.nearResults = [] → Frame [.sregs, .counts, .stores, .mem, .poison, .parts] s t) ∧ t.mem = u.mem ∧
             ∃ c : Nat, s.SetsS t o.d (BitVec.ofNat 64 c) ∧ c ≤ 2 ∧ (c = 0 ↔ tile (fun q k => ¬ allowed m docs q k)) ∧
             (c = 1 ↔ tile (allowed m docs)) ∧
             (t.bv.nEmpty, t.bv.nFull, t.bv.nPart) =
               (if c = 0 then (s.bv.nEmpty + 1) % 2 ^ 32 else s.bv.nEmpty, if c = 1 then (s.bv.nFull + 1) % 2 ^ 32 else s.bv.nFull,
                 if c = 2 then (s.bv.nPart + 1) % 2 ^ 32 else s.bv.nPart)))) ∧
     (∀ cols, accCols s.blk.lcore true o.c.toNat = some cols → s.tileBusy s.blk.core (4 * s.grp.quad + o.d.toNat) = false →
       (slot s n = none → Traps (.mkapply o) s 3 4) ∧
       (∀ m u, slot s n = some m → s.Clear (.mkapply o) →
         let q := fun (i : Nat) => half (s.sreg o.a) 0 + i
         let k := fun (c : Nat) => half (s.sreg o.b) 0 + (c - cols.headD 0)
         let look := (s.marked (.mkapply o)).maskDocsOf m ((lanesOf s.live).map q) (cols.map k)
         (∀ e, look = (u, .error e) → exec (.mkapply o) s = .next (s.stopped (.mkapply o) ((s.marked (.mkapply o)).stopAt u e))) ∧
         ∀ docs, look = (u, .ok docs) →
         GoesOn (.mkapply o) s (fun t => Frame [.cores, .stores, .seen, .window, .rest, .others, .mem, .poison, .parts] s t ∧
             (s.nearResults = [] → Frame [.cores, .stores, .mem, .poison, .parts] s t) ∧ t.mem = u.mem ∧ ∃ f, s.SetsAcc t o.d.toNat (s.frag.em &&& ~~~s.grp.fmask) cols f ∧
             ∀ i c x, (q i < 2 ^ 32 ∧ k c < 2 ^ 32 ∧ allowed m docs (q i) (k c) → f i c x = x) ∧
               (¬ (q i < 2 ^ 32 ∧ k c < 2 ^ 32 ∧ allowed m docs (q i) (k c)) → f i c x = 0xFF800000)))) ∧
     (s.Clear (.mkld o) → a < 2 ^ 56 →
       (a % 16 ≠ 0 → exec (.mkld o) s = .next (s.precise (0xE0, 0) ⟨2, 3, BitVec.ofNat 64 a, s.frag.em, false⟩)) ∧
       (a % 16 = 0 → ∀ u,
         let m := s.marked (.mkld o)
         let stops := fun (e : Stop) => exec (.mkld o) s = .next (s.stopped (.mkld o) (m.stopAt u e))
         (∀ e, m.maskWords a = (u, .error e) → stops e) ∧
         (∀ ws, m.maskWords a = (u, .ok ws) →
           let docs := maskDocs (wordsLe ws)
           let fit := docOk (s.grp.timg o.c.toNat) (half (s.sreg o.b) 0) (half (s.sreg o.b) 1)
           (docs = true → s.grp.inFlightT o.c.toNat = true → stops (.hold 15)) ∧
           (docs = false ∨ s.grp.inFlightT o.c.toNat = false →
             (∀ r, maskBad (wordsLe ws) = some r → stops (.trap 3 r)) ∧
             (maskBad (wordsLe ws) = none → docs = true → fit = false → stops (.trap 3 3)) ∧
             (maskBad (wordsLe ws) = none → docs = false ∨ fit = true → s.bv.masks.length = 4 → GoesOn (.mkld o) s (fun t =>
               Frame [.masks, .stores, .mem, .poison, .parts] s t ∧ t.mem = u.mem ∧ ∀ k, slot t k = if k = n then
                 some ⟨wordsLe ws, BitVec.ofNat 64 (half (s.sreg o.b) 0), BitVec.ofNat 64 (half (s.sreg o.b) 1),
                   if docs then s.grp.timg o.c.toNat else []⟩ else slot s k))))))) ∧
  (∀ (o : COps) (s : State),
     let act := s.frag.em &&& ~~~s.grp.fmask
     let near := fun (i : Nat) => decide (((List.range 64).filter (fun j =>
       ((if o.sa then s.sreg o.a else BitVec.ofNat 64 (s.gv.vpair o.a.toNat i)) ^^^ s.sreg o.b).getLsbD j)).length ≤ o.c.toNat)
     (∀ cols, accCols s.blk.lcore false o.c.toNat = some cols → s.tileBusy s.blk.core (4 * s.grp.quad + o.a.toNat) = false → s.Clear (.sgpack o) →
       GoesOn (.sgpack o) s (fun t => Frame [.vregs] s t ∧ ∃ f, s.SetsV t o.d true act f ∧
         ∀ i, ∀ j < 64, (f i).testBit j = decide ((Flt.f32.decode (s.accAt o.a.toNat i (64 * o.c.toNat + j))).val < 0 ∨
           Flt.f32.decode (s.accAt o.a.toNat i (64 * o.c.toNat + j)) = .inf true))) ∧
     (accCols s.blk.lcore false o.c.toNat = none → Traps (.sgpack o) s 1 8) ∧
     (64 < o.c.toNat → Traps (.sgsel o) s 1 8 ∧ Traps (.sgcnt o) s 1 8) ∧
     (o.c.toNat ≤ 64 → act = 0 →
       (s.Clear (.sgsel o) → GoesOn (.sgsel o) s (fun t => Frame [] s t)) ∧
       (s.Clear (.sgcnt o) → GoesOn (.sgcnt o) s (fun t => Frame [] s t))) ∧
     (o.c.toNat ≤ 64 → act ≠ 0 → WritesK (.sgsel o) s o.d act near ∧
       WritesS (.sgcnt o) s o.d (BitVec.ofNat 64 ((lanesOf act).filter near).length)))

/-! ### Privileged instructions -/

/-- The context instructions (R353 to R355): a CTXID of 0 or above 16 bits and a misaligned image are UNDEF with UCODE 8, a full
token holds; halting, saving and loading are taken up, with the token one higher, where the context's state allows, and
otherwise complete with status STATE; `ctxrun` makes a halted context run with TIME going on from TSAVE, unless what it reads is
poisoned (R115); `ctxkill` ends a context. Stated where no store is under way.
A halt completes when nothing of the context is in flight and its stores are home (R400, R401): HALTED, TSAVE its time, the token
down by one.
A save and a load complete (R354, R355, R404, R409): the image is in memory where its address is mapped, and the context
counts as saved; a load whose image is refused completes with the status, and one whose image is placed with 0; with the context's
entry poisoned either completes with status 2. That context 0 is UNDEF, the status STATE of a load of a context not in service and of
a save after `ctxrun`, the one of a poisoned entry, and that a second save is served after the first, are the model's reading
(notes/assumptions/47.md), as is that an error stays on its token (notes/assumptions/11.md). -/
def Obligations.ContextControl : Prop :=
  (∀ (o : COps) (s : State), s.Quiet → s.blk.part < s.parts.length →
     let p := s.blk.part
     let c := (s.sreg o.a).toNat
     let k := o.c.toNat % 8
     let b := s.sreg o.b
     let r : TokRef := ⟨s.bkey, s.gkey, k⟩
     let named := 0 < c ∧ c < 2 ^ 16
     let tok := fun (t : State) (n e : Nat) => (t.gv.tok k).count = n ∧ (t.gv.tok k).err = e
     let n := (s.gv.tok k).count
     let e := (s.gv.tok k).err
     let takes := fun (i : Instr) (P : State → Prop) => named → n < 255 → s.gv.toks.length = 8 → s.Clear i → Passes i s (fun t =>
       Frame [.toks, .parts, .phases] s t ∧ (∀ q, q ≠ p → t.part q = s.part q) ∧ (∀ j, j ≠ k → t.gv.tok j = s.gv.tok j) ∧ P t)
     (¬ named → Traps (.ctxhalt o) s 1 8 ∧ Traps (.ctxsave o) s 1 8 ∧ Traps (.ctxload o) s 1 8 ∧ Traps (.ctxrun o) s 1 8 ∧ Traps (.ctxkill o) s 1 8) ∧
     (named → b.toNat % 64 ≠ 0 → Traps (.ctxsave o) s 1 8 ∧ Traps (.ctxload o) s 1 8) ∧
     (named → 255 ≤ n → s.Clear (.ctxhalt o) → exec (.ctxhalt o) s = .next (s.stopped (.ctxhalt o) (.hold 4))) ∧
     takes (.ctxhalt o) (fun t =>
       (∀ x, s.ctx p c = some x → x.st = .running → tok t (n + 1) e ∧ t.ctx p c = some { x with st := .halting, halt := [r] }) ∧
       (∀ x, s.ctx p c = some x → x.st = .halted → tok t n e ∧ t.part p = s.part p) ∧
       ((∀ x, s.ctx p c = some x → x.st = .halting ∨ x.st = .ended) → tok t n 6 ∧ t.part p = s.part p)) ∧
     (b.toNat % 64 = 0 → takes (.ctxsave o) (fun t =>
       (∀ x, s.ctx p c = some x → x.st = .halted → tok t (n + 1) e ∧ t.ctx p c = some { x with save := x.save ++ [(b, r)] }) ∧
       ((∀ x, s.ctx p c = some x → x.st ≠ .halted) → tok t n 6 ∧ t.part p = s.part p))) ∧
     (b.toNat % 64 = 0 → takes (.ctxload o) (fun t =>
       (s.ctx p c = none → (s.part p).pstate = 2 → (∀ l ∈ (s.part p).loads, l.ctx ≠ c) →
         tok t (n + 1) e ∧ t.part p = { s.part p with loads := (s.part p).loads ++ [⟨c, b, r⟩] }) ∧
       (s.ctx p c ≠ none ∨ (s.part p).pstate ≠ 2 ∨ (∃ l ∈ (s.part p).loads, l.ctx = c) → tok t n 6 ∧ t.part p = s.part p))) ∧
     (named → s.Clear (.ctxrun o) → ∀ x, s.ctx p c = some x →
       (x.st ≠ .halted → Passes (.ctxrun o) s (fun t => Frame [.phases] s t)) ∧
       (∀ q, s.runReads p c = some q →
         exec (.ctxrun o) s = .next (s.stopped (.ctxrun o) (.precise ⟨6, 0, BitVec.ofNat 64 q, s.frag.em, false⟩))) ∧
       (x.st = .halted → s.runReads p c = none → x.loaded = false → s.ctxGrids p c = [] → Passes (.ctxrun o) s (fun t => ∃ y,
         t.ctx p c = some y ∧ y.st = .running ∧ y.tofs = x.tsave - BitVec.ofNat 64 s.time ∧ y.entry = s.readEntry p c))) ∧
     (named → s.Clear (.ctxkill o) → ∀ x, s.ctx p c = some x →
       (x.st = .ended → Passes (.ctxkill o) s (fun t => Frame [.phases] s t)) ∧
       (x.st ≠ .ended → s.ctxGrids p c = [] → x.halt = [] → x.save = [] →
         Passes (.ctxkill o) s (fun t => t.ctx p c = none)))) ∧
  (∀ (part ctx : Nat) (s : State) (x : Ctx), s.ctx part ctx = some x → part < s.parts.length →
     (x.st ≠ .halting ∨ s.ctxBusy part ctx = true → exec (.contextHaltComplete part ctx) s = .next s) ∧
     (x.st = .halting → s.ctxBusy part ctx = false → (s.flushCtx part ctx).2 = false →
       exec (.contextHaltComplete part ctx) s = .next (s.flushCtx part ctx).1 ∧ (s.flushCtx part ctx).1.ctx part ctx = some x) ∧
     (x.st = .halting → s.ctxBusy part ctx = false → (s.flushCtx part ctx).2 = true → Gives (exec (.contextHaltComplete part ctx) s) (fun t =>
       t.ctx part ctx = some { x with st := .halted, tsave := BitVec.ofNat 64 (s.ctxTime part ctx), halt := [] } ∧
       ∀ r g, x.halt = [r] → s.group r.blk r.grp = some g → g.toks.length = 8 → r.tok < 8 →
         ∃ g', t.group r.blk r.grp = some g' ∧ (g'.tok r.tok).count = (g.tok r.tok).count - 1 ∧ (g'.tok r.tok).err = (g.tok r.tok).err))) ∧
  ((∀ (part ctx : Nat) (s : State) (x : Ctx) (a : W64) (r : TokRef) (rest : List (W64 × TokRef)) (g : Group),
     s.iss = false → s.ctx part ctx = some x → part < s.parts.length → x.save = (a, r) :: rest → s.group r.blk r.grp = some g → g.toks.length = 8 → r.tok < 8 →
     let img := s.image part ctx
     let down := fun (t : State) (err : Nat) => ∃ g', t.group r.blk r.grp = some g' ∧
       (g'.tok r.tok).count = (g.tok r.tok).count - 1 ∧ (g'.tok r.tok).err = err
     (x.st ≠ .halted → Gives (exec (.contextSaveComplete part ctx) s) (fun t => down t 6 ∧ t.mem = s.mem ∧
       t.ctx part ctx = some { x with save := rest })) ∧
     let h := s.schedTlb part
     (x.st = .halted → s.entryBad part ctx = true → Gives (exec (.contextSaveComplete part ctx) s) (fun t => down t 2 ∧ t.mem = s.mem ∧
       t.ctx part ctx = some { x with save := rest })) ∧
     (∀ key, x.st = .halted → s.entryBad part ctx = false → a.toNat + img.length ≤ 2 ^ 55 → s.Mapped part h 0 a.toNat key img.length →
       (∀ i < img.length, ∃ u, s.xlate part h 0 (a.toNat + i) .store = (s, .ok u) ∧ u.key = key + i ∧ s.deviceOnly (key + i) = false) →
       Gives (exec (.contextSaveComplete part ctx) s) (fun t => down t (g.tok r.tok).err ∧ PutsBytes s t key img ∧
         t.ctx part ctx = some { x with save := rest, saved := true }))) ∧
   (∀ (part ctx : Nat) (s : State) (l : CtxLoad) (g : Group), s.iss = false → part < s.parts.length →
     (s.part part).loads.find? (fun l => l.ctx == ctx) = some l → s.group l.ref.blk l.ref.grp = some g →
     g.toks.length = 8 → l.ref.tok < 8 →
     let s1 := s.modPart part (fun y => { y with loads := y.loads.erase l })
     let down := fun (u t : State) (err : Nat) => u.group l.ref.blk l.ref.grp = some g →
       t.mem = u.mem ∧ t.parts = u.parts ∧ t.grids = u.grids ∧ ∃ g', t.group l.ref.blk l.ref.grp = some g' ∧
         (g'.tok l.ref.tok).count = (g.tok l.ref.tok).count - 1 ∧ (g'.tok l.ref.tok).err = err
     ((s.part part).pstate ≠ 2 → Gives (exec (.contextLoadComplete part ctx) s) (fun t => down s1 t 6)) ∧
     ((s.part part).pstate = 2 → s.entryBad part ctx = true → Gives (exec (.contextLoadComplete part ctx) s) (fun t => down s1 t 2)) ∧
     ((s.part part).pstate = 2 → s.entryBad part ctx = false → ∀ u n, n ≠ 0 → s1.readImage part l.addr.toNat = (u, .inl n) → Gives (exec (.contextLoadComplete part ctx) s) (fun t => down u t n)) ∧
     ((s.part part).pstate = 2 → s.entryBad part ctx = false → ∀ u h rs, s1.readImage part l.addr.toNat = (u, .inr (h, rs)) →
       (∀ n, n ≠ 0 → u.placeImage part ctx h rs = .inr n → Gives (exec (.contextLoadComplete part ctx) s) (fun t => down u t n)) ∧
       (∀ v, u.placeImage part ctx h rs = .inl v → Gives (exec (.contextLoadComplete part ctx) s) (fun t =>
         down v t (g.tok l.ref.tok).err)))))

/-- `tlbinv` removes the entries of a context for a page, `tlbinv.all` all of them, and no other entry (R356); the context's
entry is then read again (R362), unless it is poisoned (R115). An atomic of the context with lanes still to serve holds them. A CTXID
above 16 bits is UNDEF with UCODE 8. Stated where no store is under way. -/
def Obligations.TranslationInvalidation : Prop :=
  ∀ (o : COps) (s : State), s.Quiet → s.blk.part < s.parts.length →
    let p := s.blk.part
    let c := (s.sreg o.a).toNat
    let va := (s.sreg o.b).toNat
    (2 ^ 16 ≤ c → Traps (.tlbinv o) s 1 8 ∧ Traps (.tlbinvAll o) s 1 8) ∧
    (c < 2 ^ 16 → s.ctxServing p c = true → ∀ i, i = .tlbinv o ∨ i = .tlbinvAll o → s.Clear i → exec i s = .next (s.stopped i (.hold 7))) ∧
    (c < 2 ^ 16 → s.ctxServing p c = false → s.Clear (.tlbinv o) → Passes (.tlbinv o) s (fun t => Frame [.parts, .phases] s t ∧ (∀ q, q ≠ p → t.part q = s.part q) ∧ t.part p = { s.part p with tlb := (t.part p).tlb } ∧
      ∀ e, e ∈ (t.part p).tlb ↔ e ∈ (s.part p).tlb ∧ ¬ (e.ctx = c ∧ e.at_ = va >>> lvlShift e.level))) ∧
    (c < 2 ^ 16 → s.ctxServing p c = false → s.ctx p c ≠ none → s.entryBad p c = true → s.Clear (.tlbinvAll o) →
      exec (.tlbinvAll o) s = .next (s.stopped (.tlbinvAll o)
        (.precise ⟨6, 0, BitVec.ofNat 64 ((s.part p).ctxTab + 64 * c), s.frag.em, false⟩))) ∧
    (c < 2 ^ 16 → s.ctxServing p c = false → s.ctx p c = none ∨ s.entryBad p c = false → s.Clear (.tlbinvAll o) → Passes (.tlbinvAll o) s (fun t => Frame [.parts, .phases] s t ∧ (∀ q, q ≠ p → t.part q = s.part q) ∧ (∀ e, e ∈ (t.part p).tlb ↔ e ∈ (s.part p).tlb ∧ e.ctx ≠ c) ∧
      ∀ x, s.ctx p c = some x → t.ctx p c = some { x with entry := s.readEntry p c }))

/-- `fltres` (R357): a SEQ that no outstanding record carries changes nothing; REPLAY forgets the record and lets the group it
stopped issue; END_GRID ends the record's grid, none of whose blocks stays; END_CONTEXT ends the record's context. Another
action code than the one decoded is UNDEF with UCODE 8. Stated where no store is under way and nothing else waits on a record. -/
def Obligations.FaultResolution : Prop :=
  ∀ (o : COps) (s : State), s.Quiet → s.blk.part < s.parts.length →
    let p := s.blk.part
    let find := (s.part p).outs.find? (fun r => r.seq == some ((s.sreg o.a).toNat % 2 ^ 16))
    let gone := fun (t : State) (r : Outst) => ∀ q ∈ (t.part p).outs, q.num ≠ r.num
    (∀ i n, (i = .fltresReplay o ∧ n = 0) ∨ (i = .fltresEndGrid o ∧ n = 1) ∨ (i = .fltresEndContext o ∧ n = 2) →
      ((s.sreg o.b).toNat ≠ n → Traps i s 1 8) ∧
      ((s.sreg o.b).toNat = n → find = none → s.Clear i → Passes i s (fun t => Frame [.phases] s t))) ∧
    (∀ r, find = some r → (∀ q ∈ s.grids, q.2.todo = []) →
      ((s.sreg o.b).toNat = 0 → r.cls ≠ 8 → r.cls ≠ 9 → r.cls ≠ 11 → s.Clear (.fltresReplay o) → s.group r.blk r.grp ≠ none →
        Passes (.fltresReplay o) s (fun t => gone t r ∧
          ∃ g', t.group r.blk r.grp = some g' ∧ g'.stop ≠ .fault r.num)) ∧
      (∀ gk g, (s.sreg o.b).toNat = 1 → r.grid = some gk → r.sched = false → s.grids.find gk = some g → gridPart gk = p →
        (∀ q ∈ s.grids, g.parentOf gk q.1 q.2 = false) → (s.part p).devq = [] → s.Clear (.fltresEndGrid o) → Passes (.fltresEndGrid o) s (fun t =>
          ∀ b ∈ t.blocks, b.2.grid ≠ gk)) ∧
      (∀ x, (s.sreg o.b).toNat = 2 → r.ctx ≠ 0 → s.ctx p r.ctx = some x → x.st ≠ .ended → s.ctxGrids p r.ctx = [] → x.halt = [] → x.save = [] →
        s.Clear (.fltresEndContext o) → Passes (.fltresEndContext o) s (fun t => t.ctx p r.ctx = none)))

/-- `dtrd`, `pld`, `pst`, `evsig`, `migset` and `migclr` (R358 to R361): the decode class; eight bytes of the partition's memory, of a
host aperture, which the group's own earlier stores show in and which `pst` stores to as other stores do (R290); of a block's window or
of a core's accumulators; the interrupt; a block's migration pending or not. A misaligned or absent physical address is a precise PROTECTION fault, what
answers on the host bus a constant of the model's (notes/assumptions/51.md); fields that must be zero are UNDEF with UCODE 8. A user group's privileged instruction is UNDEF with UCODE 1
(R158, R342). -/
def Obligations.PrivilegedAccess : Prop :=
  ∀ (o : COps) (s : State),
    let a := s.sreg o.a
    let p := s.blk.part
    (2 ^ 13 ≤ a.toNat → Traps (.dtrd o) s 1 8) ∧
    (a.toNat < 2 ^ 13 → WritesS (.dtrd o) s o.d (BitVec.ofNat 64 ((s.part p).decClass (a.getLsbD 12) (a.toNat % 4096)))) ∧
    (a.toNat % 8 ≠ 0 ∨ (2 ^ 52 ≤ a.toNat ∧ a.toNat < 2 ^ 63) ∨
        (a.toNat < 2 ^ 52 ∧ s.hbmBytes p < a.toNat + 8 ∧ Config.hostBus (s.hostPort p) a.toNat = none) →
      (s.Clear (.pld o) → exec (.pld o) s = .next (s.precise (0xF4, 0) ⟨2, 4, a, s.frag.em, false⟩)) ∧
      (s.Clear (.pst o) → exec (.pst o) s = .next (s.precise (0xF4, 1) ⟨2, 4, a, s.frag.em, true⟩))) ∧
    (∀ k, a.toNat % 8 = 0 → (a.toNat + 8 ≤ s.hbmBytes p ∧ a.toNat < 2 ^ 52 ∧ k = hbmKey p a.toNat ∨
        s.hbmBytes p < a.toNat + 8 ∧ a.toNat < 2 ^ 52 ∧ ∃ b, Config.hostBus (s.hostPort p) a.toNat = some b ∧ k = hostKey (s.hostPort p) b) →
      (s.poisonedFor (s.viewOf s.bkey s.gv) k 8 = false → WritesS (.pld o) s o.d (BitVec.ofNat 64 (ofLe (s.seesN (.mem k) 8)))) ∧
      (s.Clear (.pst o) → GoesOn (.pst o) s (fun t => Frame [.stores] s t ∧
        (∃ e, t.gv.stores = s.gv.stores ++ [e] ∧ (e.dst, e.pub, e.maker) = (.phys, 0, .group)) ∧
        (∀ i < 8, t.sees (.mem (k + i)) = (s.sreg o.d).extractLsb' (8 * i) 8) ∧
        SeesSame s t ((List.range 8).map (fun i => .mem (k + i)))))) ∧
    (∀ c off b x, s.physOf p a = some (.core c 0 off) → s.windowAt c off = some (b, x) → s.Clear (.pst o) →
      let at_ := fun (i : Nat) => Place.win b (off - x.winbase * 65536 + i)
      GoesOn (.pst o) s (fun t => Frame [.stores, .window] s t ∧ (∀ i < 8, t.sees (at_ i) = (s.sreg o.d).extractLsb' (8 * i) 8) ∧
        SeesSame s t ((List.range 8).map at_))) ∧
    (∀ c off, s.physOf p a = some (.core c 1 off) →
      WritesS (.pld o) s o.d ((s.core c).acc.get (off / 4 + 1) ++ (s.core c).acc.get (off / 4)) ∧
      (s.Clear (.pst o) → GoesOn (.pst o) s (fun t => Frame [.cores] s t ∧ (∀ n, n ≠ c → t.core n = s.core n) ∧
        ∀ n, (t.core c).acc.get n = if n = off / 4 then (s.sreg o.d).setWidth 32 else if n = off / 4 + 1 then (s.sreg o.d).extractLsb' 32 32
          else (s.core c).acc.get n))) ∧
    (2 ^ 11 ≤ a.toNat → Traps (.evsig o) s 1 8) ∧
    (a.toNat < 2 ^ 11 → s.Quiet → s.Clear (.evsig o) → Passes (.evsig o) s (fun t => Frame [.irqs, .phases] s t ∧ t.irqs = s.irqs ++ [(p, a.toNat)])) ∧
    (let bk := s.migArg p a
     (bk = blockKey (gridKey p (a.toNat / 2 ^ 32)) (a.toNat % 2 ^ 32) ∨ ∃ b ∈ s.allBlocks, b.1 = bk ∧ b.2.part = p ∧
       gridId b.2.grid = a.toNat / 2 ^ 32 ∧ b.2.blkid = a.toNat % 2 ^ 32) ∧
     (s.Quiet → bk ≠ s.bkey → ∀ x, s.block bk = some x →
      (s.Clear (.migset o) → Passes (.migset o) s (fun t => Frame [.others, .phases] s t ∧
        t.block bk = some (if x.retired then x else { x with mig := .set }) ∧ ∀ b, b ≠ bk → b ≠ s.bkey → t.block b = s.block b)) ∧
      ((∀ g ∈ x.groups, g.2.pend = [] ∧ ∀ f ∈ g.2.frags, f.2.st = .run) → s.Clear (.migclr o) → Passes (.migclr o) s (fun t =>
        Frame [.others, .phases] s t ∧ (t.block bk).map (fun y => (y.mig, y.core, y.window)) = some (.none, x.core, x.window))))) ∧
    (∀ w0 w1, s.grp.plevel = 0 → (s.part p).decClass s.blk.lcore (bits w0.toNat 0 8 * 16 + bits w0.toNat 8 4) = 3 →
      s.decodeWords w0 w1 = .error 1)

/-! ### Scheduling -/

/-- Dispatch and completion (R32, R33, R37, R238, R379, R383, R389 to R391): a grid alone in the ranking starts its next blocks where
they fit: they are resident on the run of cores found first, each with N0 groups in the state in which every group starts, in slots
and registers that were free; a grid whose blocks and children have retired, with no record, no counter and no write waiting, is gone,
its interrupt raised if it asked for one. Which free slot, registers and window place a group or block gets is the model's choice
(notes/assumptions/18.md, 68.md). -/
def Obligations.DispatchAndCompletion : Prop :=
  (∀ (p gk : Nat) (s : State) (g : Grid), s.iss = false → s.ranked p = [(gk, g)] → s.grids.find gk = some g →
    (g.ragged = none ∨ g.list ≠ none) → g.pk 9 1 = 0 →
    (s.placeNext gk g = none → exec (.blockDispatch p) s = .next s) ∧
    (∀ u, s.placeNext gk g = some u → g.again = [] →
      Gives (exec (.blockDispatch p) s) (fun t => (t.grids.find gk).map (·.next) = some (g.next + g.nextIds.length) ∧ g.nextIds ≠ [])) ∧
    (∀ u, s.placeNext gk g = some u → g.again = [] → (g.pk 8 1 = 0 ∨ g.nextIds.length = 1) →
      (∀ id ∈ g.nextIds, s.blocks.find (blockKey gk id) = none) → Gives (exec (.blockDispatch p) s) (fun t =>
        let lcore := g.pk 8 1 == 1
        let n0 := g.kdb 21 7
        ∃ cs, (s.sites (gridPart gk) lcore g.nextIds.length).find? (fun l => l.all (fun c => (s.fitsCore g lcore c).isSome)) = some cs ∧
        ∀ k id, g.nextIds[k]? = some id → ∃ x, t.block (blockKey gk id) = some x ∧ cs[k]? = some x.core ∧
          x = { Block.reset with part := gridPart gk, grid := gk, blkid := id, core := x.core, lcore := lcore, cluidx := k, clusize := g.pk 4 4, n0 := n0, nmax := g.kdb 14 7, regblk := g.kdb 28 5, legacy := g.kdb 8 1 == 1, quadk := g.kdb 10 1 == 1, acc := g.kdb 11 1 == 1, priv := g.kdb 224 32, groups := x.groups, winbase := x.winbase, winsize := g.kdb 192 16 * 65536, winfmt := x.winfmt, bars := List.replicate 16 { Barrier.reset with m := n0 }, runs := x.runs, argbase := x.argbase, lastIss := s.time } ∧
          x.winbase + g.kdb 192 16 ≤ coreWin64 lcore ∧
          (∀ j, n0 ≤ j → t.group (blockKey gk id) j = none) ∧
          (∀ j < n0, ∃ h f, t.group (blockKey gk id) j = some h ∧ h.frags = [(0, f)] ∧
            f = { Fragment.reset with pc := g.entry (s.codeOf x) lcore, em := f.em } ∧
            h = { Group.reset with slot := h.slot, quad := h.quad, plevel := g.level, role := BitVec.ofNat 2 (g.kdb 12 2), vblk := h.vblk, frags := h.frags, sregs := h.sregs, trap := { TrapRegs.reset with hdl := g.handler (s.codeOf x) lcore }, pbase := h.pbase, since := h.since } ∧
            (h.quad, h.slot) ∉ s.slotsTaken x.core ∧ (x.quadk = true → lcore = false → h.quad = j % 4) ∧
            h.vblk.length = g.kdb 28 5 ∧ (∀ v ∈ h.vblk, v ∉ s.vblksTaken x.core) ∧
            (∀ j' h', j' ≠ j → t.group (blockKey gk id) j' = some h' → (h'.quad, h'.slot) ≠ (h.quad, h.slot) ∧ ∀ v ∈ h.vblk, v ∉ h'.vblk) ∧
            (g.list = none → x.argbase = g.packet.getD 2 0 ∧ (∀ r, h.sreg r = 0) ∧ ∀ l < 64, f.em.getLsbD l = decide (x.legacy = true → l < 32)) ∧
            (∀ l q r, g.list = some l → l[q]? = some r →
              let first := ((l.take q).map (fun r => cdiv r.rows 64)).sum
              first ≤ id → id < first + cdiv r.rows 64 →
              let n := Nat.min 64 (r.rows - 64 * (id - first))
              x.argbase = r.arg ∧ (∀ i, h.sreg i = if i = 1 then BitVec.ofNat 64 q else if i = 2 then BitVec.ofNat 64 (id - first) else
                if i = 3 then BitVec.ofNat 64 n else 0) ∧ ∀ l < 64, f.em.getLsbD l = decide (l < n ∧ (x.legacy = true → l < 32))))))) ∧
  (∀ (gk : Nat) (s : State) (g : Grid), s.iss = false → s.grids.find gk = some g → s.ctxIs (gridPart gk) g.ctx .halted = false →
    (s.gridDone gk = false → exec (.gridCompletion gk) s = .next s) ∧
    (s.gridDone gk = true → g.rest = [] → g.recAddr = 0 → g.pk 192 64 = 0 → Gives (exec (.gridCompletion gk) s) (fun t =>
      t.grids.find gk = none ∧ t.mem = s.mem ∧ t.blocks = s.blocks ∧
      t.irqs = s.irqs ++ (if g.pk 10 1 = 1 ∧ g.device = false then [(gridPart gk, g.pk 11 11)] else []))))

/-- Migration and the guards (R44, R45, R48, R186, R347, R393, R394, R397): a fragment alone at a point of a block whose migration is
pending waits there, with its partner address; one that only passes has that address too; at no point, and in a trap handler, the
instruction has no effect. When all groups wait the block moves to the core chosen, of the other kind, each group's registers crossing
through the table of its point; a `mig.req` for which there is none goes on; a migration is withdrawn where groups also wait elsewhere;
the tail policy marks the last blocks; a group passed over 64 times is raised; a block silent for the period has its oldest group
stopped. That a fragment just moved does not wait again, and what a handler does at a point, are readings of the model's
(notes/assumptions/16.md, 53.md). -/
def Obligations.MigrationAndGuards : Prop :=
  (∀ (o : COps) (s : State) (i : Instr) (req : Bool), (i = .mig o ∧ req = false) ∨ (i = .migReq o ∧ req = true) → s.Clear i →
    (s.pointHere = none ∨ s.grp.inTrap = true → GoesOn i s (fun t => Frame [] s t)) ∧
    (∀ t, s.pointHere = some t → s.grp.inTrap = false →
      let waits := s.frag.moved = false ∧ (req = true ∨ s.blk.mig ≠ .none) ∧ s.grp.frags = [] ∧ s.migratable s.bkey s.blk = true
      (waits → Gives (exec i s) (fun u => Frame [] s u ∧
        u.fv.map (fun f => (f.pc, f.st, f.partner)) = some (s.frag.pc, .mig req, some (t.doff, t.loff)))) ∧
      (¬ waits → GoesOn i s (fun u => Frame [] s u ∧ u.fv.map (·.partner) = some (some (t.doff, t.loff)))))) ∧
  (∀ (blk : Nat) (s : State) (x : Block), s.iss = false → s.blocks.find blk = some x → s.Quiet → x.groups ≠ [] →
    (∀ g ∈ x.groups, g.2.atMig = true ∧ g.2.stop = .no) → s.blockBusy blk = false → s.ctxIs x.part (s.ctxOf x) .running = true →
    let to_ := (s.targets x).find? (fun c => s.fitsOther x x.groups c)
    (∀ c im, to_ = some c → s.imageOf x = some im → Gives (exec (.blockMigration blk) s) (fun t =>
      t.mem = s.mem ∧ (t.block blk).map (fun y => (y.core, y.lcore, y.mig, y.window)) = some (c, !x.lcore, .none, x.window) ∧
      ∀ gk g tb, x.groups.find gk = some g → s.pointOf x g = some tb →
        let src := fun (e : Nat × Nat × Nat) => if x.lcore then e.2.2 else e.2.1
        let dst := fun (e : Nat × Nat × Nat) => if x.lcore then e.2.1 else e.2.2
        (∀ e ∈ tb.ents, ∀ e' ∈ tb.ents, e.1 = e'.1 → dst e = dst e' → e = e') →
        ∃ h, t.group blk gk = some h ∧
          h.frags = g.frags.map (fun f => (f.1, { f.2 with pc := if x.lcore then im.dtext + BitVec.ofNat 64 tb.doff else im.ltext + BitVec.ofNat 64 tb.loff, st := .run, joins := [], moved := true })) ∧
          h.role = g.role ∧ h.fpstat = g.fpstat ∧ h.winsel = g.winsel ∧ h.trap.hdl = g.trap.hdl ∧
          (∀ e ∈ tb.ents, (e.1 = 0 → h.sregs.get (dst e) = g.sregs.get (src e)) ∧
            (∀ l < 64, e.1 = 1 → h.vregs.get (dst e * 64 + l) = g.vregs.get (src e * 64 + l)) ∧
            (e.1 = 2 → h.kregs.get (dst e) = g.kregs.get (src e)) ∧
            (∀ w < 64, e.1 = 3 → h.tregs.get (dst e * 64 + w) = g.tregs.get (src e * 64 + w)) ∧
            (e.1 = 4 → dst e < 8 → h.tok (dst e) = g.tok (src e))) ∧
          (∀ d, (∀ e ∈ tb.ents, e.1 = 0 → dst e ≠ d) → h.sregs.get d = 0) ∧
          (∀ d, ∀ l < 64, (∀ e ∈ tb.ents, e.1 = 1 → dst e ≠ d) → h.vregs.get (d * 64 + l) = 0) ∧
          (∀ d, (∀ e ∈ tb.ents, e.1 = 2 → dst e ≠ d) → h.kregs.get d = 0) ∧
          (∀ d, ∀ w < 64, (∀ e ∈ tb.ents, e.1 = 3 → dst e ≠ d) → h.tregs.get (d * 64 + w) = 0))) ∧
    (to_ = none → x.mig ≠ .none → exec (.blockMigration blk) s = .next s) ∧
    (to_ = none → x.mig = .none → (x.groups.map (·.1)).Nodup → (∀ g ∈ x.groups, g.2.joins = [] ∧ g.2.pend = [] ∧ g.2.frags.length = 1) →
      Gives (exec (.blockMigration blk) s) (fun t => t.mem = s.mem ∧ ∀ gk g fid f, x.groups.find gk = some g → g.frags = [(fid, f)] →
        t.fragment blk gk fid = some { f with st := .run, pc := f.pc + 8 }))) ∧
  (∀ (blk : Nat) (s : State) (x : Block), s.iss = false → s.blocks.find blk = some x →
    (∀ g ∈ x.groups, g.2.frags ≠ [] ∧ (g.2.atMig = true ∨ ∀ f ∈ g.2.frags, f.2.waitsElse = true)) →
    (∃ g ∈ x.groups, g.2.atMig = true) → (∃ g ∈ x.groups, ∀ f ∈ g.2.frags, f.2.waitsElse = true) →
    Gives (exec (.migrationWithdrawal blk) s) (fun t => t.mem = s.mem ∧ (t.block blk).map (·.mig) = some .none)) ∧
  (∀ (gk q : Nat) (s : State) (g : Grid), s.iss = false → s.grids.find gk = some g → g.queue = some q →
    let n := (s.queEnt (gridPart gk) q).tailn
    let mine := s.blocks.filter (fun b => b.2.grid == gk && !b.2.retired)
    s.queueBad (gridPart gk) q = false → n ≠ 0 → g.kdRead = true → g.pk 8 1 = 0 → g.kdb 6 1 = 1 → g.next = g.nblk → g.again = [] → mine.length ≤ n →
    Gives (exec (.tailPolicy gk) s) (fun t => t.mem = s.mem ∧ ∀ b x, s.blocks.find b = some x → (b, x) ∈ mine → x.mig = .none →
      x.lcore = false → s.migratable b x = true → (t.block b).map (·.mig) = some .tail)) ∧
  (∀ (who : GroupRef) (s : State) (g : Group), s.group who.blk who.grp = some g → Gives (exec (.starvationGuard who) s) (fun t =>
    t.group who.blk who.grp = some (if 64 ≤ g.starve then { g with raised := true } else g) ∧ t.mem = s.mem)) ∧
  (∀ (blk gk fid : Nat) (s : State) (x : Block) (g : Group) (f : Fragment), s.iss = false → s.blocks.find blk = some x →
    x.groups = [(gk, g)] → g.frags = [(fid, f)] → (s.part x.part).wdog ≠ 0 → s.wdogExempt blk x = false →
    (s.time < x.lastIss + (s.part x.part).wdog.toNat * 1000000 → exec (.watchdog blk) s = .next s) ∧
    (x.lastIss + (s.part x.part).wdog.toNat * 1000000 ≤ s.time → Gives (exec (.watchdog blk) s) (fun t =>
      (t.group blk gk).map (·.stop) = some (.fault s.recNo))))

/-- Errors in storage (R114 to R117, R449): an uncorrectable error in a dirty line or in HBM, and a lost flit, poison one sector;
a clean line and free storage only count; a resident block is killed, its cluster with it, and counted on its grid, or, of an
idempotent kernel, made ready to run again; a scrub counts a corrected error. -/
def Obligations.StorageErrors : Prop :=
  ∀ s : State,
    let counts := fun (i : Instr) (P : State → Prop) => Gives (exec i s) (fun t => t.mem = s.mem ∧ t.time = s.time ∧ P t)
    (∀ site, counts (.patrolScrub site) (fun t => t.husk.corrErr = s.husk.corrErr + 1 ∧ t.blocks = s.blocks ∧ t.poison = s.poison)) ∧
    (∀ a, counts (.uncorrectableError (.cleanLine a)) (fun t => t.husk.uncErr = s.husk.uncErr + 1 ∧ t.poison = s.poison ∧ t.blocks = s.blocks)) ∧
    (∀ c, counts (.uncorrectableError (.free c)) (fun t => t.husk.uncErr = s.husk.uncErr + 1 ∧ t.poison = s.poison ∧ t.blocks = s.blocks)) ∧
    (∀ a i, i = .uncorrectableError (.dirtyLine a) ∨ i = .uncorrectableError (.hbm a) ∨ i = .peerFlitLoss a → counts i (fun t =>
      (∀ q, q ∈ t.poison ↔ q ∈ s.poison ∨ q = a / 32) ∧ t.blocks = s.blocks ∧ t.poisoned a 1 = true)) ∧
    (∀ bk x g i, i = .blockKill bk ∨ i = .uncorrectableError (.onchip bk) → s.iss = false → s.blocks.find bk = some x →
      s.grids.find x.grid = some g → g.todo = [] → (s.part x.part).outs = [] →
      let mates := s.blocks.filter (fun p => p.2.grid == x.grid && p.2.cluster == x.cluster)
      let gone := fun (t : State) => ∀ b ∈ t.blocks, ¬ (b.2.grid = x.grid ∧ b.2.cluster = x.cluster)
      (g.kdb 9 1 = 0 ∨ (∃ m ∈ mates, 3 ≤ m.2.runs) → Gives (exec i s) (fun t => gone t ∧
        (t.grids.find x.grid).map (fun y => (y.nkill, y.status, y.again)) = some (g.nkill + mates.length, 4, g.again))) ∧
      (g.kdb 9 1 = 1 → (∀ m ∈ mates, m.2.runs < 3) → Gives (exec i s) (fun t => gone t ∧
        (t.grids.find x.grid).map (fun y => (y.nkill, y.status, y.again)) = some (g.nkill, g.status, g.again ++ mates.map (·.2.blkid)))))

/-! ### Sampling, trace, debug -/

/-- Sampling (R424, R430 to R433): a due quadrant's counter returns to 0, and with a sampled group and room its FIFO takes one
record; a finished memory record leaves the open ones; a FIFO's oldest record goes to the ring's place at TAIL. -/
def Obligations.Sampling : Prop :=
  ∀ (core quad : Nat) (s : State), (s.core core).samp.length = 4 → quad < 4 →
    let m := fun (t : State) => (t.core core).samp.getD quad .reset
    let p := s.partOfDie (core / 64)
    p < s.parts.length →
    (s.sampleDue core quad = false → exec (.stallSample core quad) s = .next s) ∧
    (s.sampleDue core quad = true → Gives (exec (.stallSample core quad) s) (fun t => (m t).clocks = 0 ∧ t.mem = s.mem ∧
      (s.sampleSlot core quad (slotsPerQuad (decide (34 ≤ core % 64))) (m s).ptr = none → (m t).fifo = (m s).fifo) ∧
      (∀ slot bk x gk g f, s.sampleSlot core quad (slotsPerQuad (decide (34 ≤ core % 64))) (m s).ptr = some (slot, bk, x, gk, g) →
        s.sampled (m s).seen bk gk x g = some f → (m t).ptr = (slot + 1) % slotsPerQuad (decide (34 ≤ core % 64)) ∧
          ((m s).fifo.length < 8 → (m t).fifo = (m s).fifo ++ [s.stallRecord core quad x gk g f.2.1 f.2.2])))) ∧
    (∀ r, (s.core core).memOpen.find? (fun r => s.memDone r) = some r → Gives (exec (.memorySample core) s) (fun t =>
      (t.core core).memOpen = (s.core core).memOpen.erase r ∧ t.mem = s.mem ∧
      ((s.core core).memFifo.length < 4 → (t.core core).memFifo.length = (s.core core).memFifo.length + 1))) ∧
    (∀ w rest, (s.core core).memFifo = w :: rest → w.length = 8 → (s.part p).ms.full = false → Gives (exec (.sampleFifoDrain core quad true) s) (fun t =>
      (t.core core).memFifo = rest ∧ (t.part p).ms = { (s.part p).ms with tail := (s.part p).ms.tail + 1 } ∧
      PutsBytes s t (hbmKey p ((s.part p).ms.base.toNat + 64 * ((s.part p).ms.tail.toNat % 2 ^ (s.part p).ms.log2))) (wordsLe w))) ∧
    (∀ w rest, (m s).fifo = w :: rest → w.length = 4 → (s.part p).sm.full = false → Gives (exec (.sampleFifoDrain core quad false) s) (fun t =>
      (m t).fifo = rest ∧ (t.part p).sm = { (s.part p).sm with tail := (s.part p).sm.tail + 1 } ∧
      PutsBytes s t (hbmKey p ((s.part p).sm.base.toNat + 32 * ((s.part p).sm.tail.toNat % 2 ^ (s.part p).sm.log2))) (wordsLe w)))

/-! ### The host, Husk and power -/

/-- The host's windows (R302, R446 to R448), the time base (R450), and the mailbox's answers over SPDM (R452): whole words of HBM are
read and written, bytes that the device alone writes excepted (R10); BOOTSTAT and the time base are read, a doorbell is rung by an
aligned write of four bytes alone; a steer is kept once ready; each request and its answer join the connection, which GET_VERSION
begins, and the signed ones are signed over the transcript. What the SPDM bytes are, and what a module that is off answers, is the
model's choice (notes/assumptions/9.md, 10.md, 21.md). -/
def Obligations.HostAndSession : Prop :=
  ∀ s : State,
    (∀ p pa n, Gives (exec (.hostWindowAccess (.read p pa n)) s) (fun t => t.mem = s.mem ∧ t.blocks = s.blocks ∧ t.parts = s.parts ∧
      t.husk.winRead.length = n ∧ ∀ i < n, s.husk.off = false → pa / 4 * 4 + 4 * i + 4 ≤ s.hbmBytes p →
        s.poisoned (hbmKey p (pa / 4 * 4 + 4 * i)) 4 = false →
        (t.husk.winRead.getD i 0).toNat = ofLe (s.mem.read (hbmKey p (pa / 4 * 4 + 4 * i)) 4))) ∧
    (∀ p pa (w : W32), (s.husk.off = true → exec (.hostWindowAccess (.write p pa [w])) s = .next s) ∧
      (s.husk.off = false → pa / 4 * 4 + 4 ≤ s.hbmBytes p → Gives (exec (.hostWindowAccess (.write p pa [w])) s) (fun t =>
        (∀ q, t.mem.byte q = if hbmKey p (pa / 4 * 4) ≤ q ∧ q < hbmKey p (pa / 4 * 4) + 4 ∧ s.deviceOnly q = false then
          (leBytes w.toNat 4).getD (q - hbmKey p (pa / 4 * 4)) 0 else s.mem.byte q) ∧
        t.blocks = s.blocks ∧ t.parts = s.parts ∧ t.time = s.time))) ∧
    (∀ p off n, Gives (exec (.hostWindowAccess (.read0 p off n)) s) (fun t => t.mem = s.mem ∧ t.blocks = s.blocks ∧ t.parts = s.parts ∧
      t.husk.winRead.length = n ∧ ∀ i < n,
        let a := off / 4 * 4 + 4 * i
        let w := t.husk.winRead.getD i 0
        (a = 0 → w = s.bootstat.extractLsb' 0 32) ∧ (a = 4 → w = s.bootstat.extractLsb' 32 32) ∧
        (a = 8 → w = BitVec.ofNat 32 s.time) ∧ (a = 12 → w = BitVec.ofNat 32 (s.time / 2 ^ 32)) ∧
        (0x10000 ≤ a → a < 0x11000 → w = 0))) ∧
    (s.husk.step < 16 → s.husk.fail < 256 → (∀ p < 4, (s.part p).pstate < 4) →
      s.bootstat.toNat = s.husk.step + (if s.husk.step = 15 then s.husk.fail else 0) * 2 ^ 24 +
        ((s.part 0).pstate + 4 * (s.part 1).pstate + 16 * (s.part 2).pstate + 64 * (s.part 3).pstate) * 2 ^ 8) ∧
    (∀ p off (l : List Byte), let rings := l.length = 4 ∧ 0x10000 ≤ off ∧ off < 0x11000 ∧ off % 64 = 0
      (s.husk.off = false → rings → exec (.hostWindowAccess (.write0 p off l)) s =
        exec (.doorbellWrite p ((off - 0x10000) / 64) (BitVec.ofNat 32 (ofLe l))) s) ∧
      (s.husk.off = true ∨ ¬ rings → exec (.hostWindowAccess (.write0 p off l)) s = .next s)) ∧
    (∀ ns, (s.husk.step = 6 → Gives (exec (.timeBaseSteer ns) s) (fun t => t.husk.steer = ns ∧ t.time = s.time ∧ t.mem = s.mem)) ∧
      (s.husk.step ≠ 6 → exec (.timeBaseSteer ns) s = .next s)) ∧
    (let answers := fun (i : Instr) (P : List (List Byte) → Prop) => Gives (exec i s) (fun t => P t.husk.spdm ∧ t.mem = s.mem ∧
        t.husk.meas = s.husk.meas ∧ t.husk.record = s.husk.record ∧ t.parts = s.parts)
     let signed := fun (req body : List Byte) =>
       let h := sha384 (s.husk.spdm.flatten ++ req ++ body)
       body ++ Config.rsaSign h ++ Config.slhSign h
     (s.huskUp = false → exec .getVersion s = .next s ∧ exec .getCapabilities s = .next s ∧ exec .negotiateAlgorithms s = .next s) ∧
     (s.huskUp = true → answers .getVersion (fun l => l = [[0x84], [0x04, 0x13]]) ∧
      answers .getCapabilities (fun l => ∃ a, l = s.husk.spdm ++ [[0xE1], a]) ∧
      answers .negotiateAlgorithms (fun l => ∃ a, l = s.husk.spdm ++ [[0xE3], a]) ∧
      answers .getDigests (fun l => l = s.husk.spdm ++ [[0x81], 0x01 :: sha384 s.husk.certs]) ∧
      answers .getCertificate (fun l => l = s.husk.spdm ++ [[0x82], 0x02 :: s.husk.certs]) ∧
      (∀ n, answers (.challenge n) (fun l => l = s.husk.spdm ++ [0x83 :: n, signed (0x83 :: n) (0x03 :: sha384 s.husk.certs)])) ∧
      ∀ n, answers (.getMeasurements n) (fun l => l = s.husk.spdm ++ [0xE0 :: n, signed (0xE0 :: n) (0x60 :: s.husk.meas.flatten)])))

/-- Partitions and bring-up (R338, R339, R417 to R420, R449, R451 to R454): each mailbox command acts in the state it needs and
answers, or answers STATE and changes nothing; DRAIN drains, and a drained partition without a user context goes OFFLINE; BRINGUP
launches a supervisor whose image verifies, as do those of the firmware beside it, its tables named in its arguments, on each L-core of the partition as system groups of
context 0; SUPERVISOR_READY puts the partition IN_SERVICE, and more than ten seconds without it fail bring-up; POWER_ON stops at the step that
fails, and nothing further runs. The codes of the answers, what a RECONFIG may touch, when certificates and tables are verified, the
parameters of an event and what is placed at physical addresses are the model's choice (notes/assumptions/21.md).
Power and cooling (R455, R456): from 105 degrees on a die's clocks are halved, at 115 the module goes off with FAIL 7; a
power step lowers a partition's clocks by 25 MHz while it draws more than its share, in proportion to its enabled D-cores, and raises
them while it does not; below 4.0 L/min the module is held to its limit until flow returns. -/
def Obligations.PartitionsAndPower : Prop :=
  (∀ (s : State) (p : Nat), p < s.parts.length → p < 4 → s.iss = false →
     let up := s.huskUp = true
     let answers := fun (i : Instr) (n : Nat) => Gives (exec i s) (fun t => t.husk.mailbox = s.husk.mailbox ++ [n] ∧ t.mem = s.mem ∧ t.parts = s.parts)
     let needs := fun (i : Instr) (st : Nat) => (¬ up → exec i s = .next s) ∧ (up → s.partCount ≤ p ∨ (s.part p).pstate ≠ st → answers i 1)
     needs (.drain p) 2 ∧ (∀ r, needs (.reconfig p r) 0 ∧ needs (.spare p r) 0) ∧ (∀ im tb, needs (.fwload p im tb) 0) ∧ (∀ b, needs (.bringup p b) 0) ∧
     (up → p < s.partCount → (s.part p).pstate = 2 → Gives (exec (.drain p) s) (fun t => t.husk.mailbox = s.husk.mailbox ++ [0] ∧
       t.part p = { s.part p with pstate := 3 } ∧ t.blocks = s.blocks)) ∧
     ((s.part p).pstate = 3 → (∀ c ∈ (s.part p).ctxs, c.1 = 0) → Gives (exec (.drainComplete p) s) (fun t =>
       (t.part p).pstate = 0 ∧ (t.part p).ctxs = [] ∧ (∀ b ∈ t.blocks, b.2.part ≠ p) ∧ ∀ g ∈ t.grids, gridPart g.1 ≠ p)) ∧
     (up → p < s.partCount → (s.part p).pstate = 0 →
       (∀ r, (s.acceptRecord r = none → answers (.reconfig p r) 2 ∧ answers (.spare p r) 2) ∧
         ∀ w, s.acceptRecord r = some w → (s.touchedOff w = false → answers (.reconfig p r) 1) ∧
           (s.touchedOff w = true → Gives (exec (.reconfig p r) s) (fun t =>
             t.husk.record = w ∧ t.husk.mailbox = s.husk.mailbox ++ [0] ∧ t.husk.serial = wbits w 32 32 ∧ t.mem = s.mem))) ∧
       (∀ r w d i, s.acceptRecord r = some w → d < 4 → i < 34 → (∀ e < 4, enableOf w e ≠ enableOf s.husk.record e ↔ e = d) →
         (∀ j < 34, (enableOf w d).testBit j = true ∧ (enableOf s.husk.record d).testBit j = false ↔ j = i) → s.partOfDie d = p →
         wbits w 234 6 = wbits s.husk.record 234 6 → Gives (exec (.spare p r) s) (fun t =>
           t.husk.record = w ∧ t.cores.find (coreKey d i) = none ∧ t.husk.mailbox = s.husk.mailbox ++ [0])) ∧
       (∀ im tb, (∃ c ∈ (s.part p).ctxs, c.1 ≠ 0) → answers (.fwload p im tb) 1) ∧
       (∀ im tb, (s.imageOk im = false ∨ s.imageOk tb = false) → (∀ c ∈ (s.part p).ctxs, c.1 = 0) → answers (.fwload p im tb) 2) ∧
       (∀ im tb u, s.imageOk im = true → s.imageOk tb = true → (∀ c ∈ (s.part p).ctxs, c.1 = 0) →
         s.loadTables p (tb.body.take 1024) (tb.body.drop 1024) = some u → Gives (exec (.fwload p im tb) s) (fun t =>
           t.parts = u.parts ∧ t.husk.meas = u.husk.meas ∧ t.husk.mailbox = s.husk.mailbox ++ [0])) ∧
       (∀ b, (s.imageOk b.image = false ∨ ∃ k ∈ b.firmware, s.imageOk k.1 = false) → answers (.bringup p b) 2) ∧
       (∀ b, s.imageOk b.image = true → (∀ k ∈ b.firmware, s.imageOk k.1 = true) → Gives (exec (.bringup p b) s) (fun t => t.husk.mailbox = s.husk.mailbox ++ [0] ∧
         (t.part p).pstate = 1 ∧ (t.part p).ctxTab = b.ctxTab ∧ (t.part p).queTab = b.queTab ∧
         (t.part p).routes = s.routeTable p s.husk.ports ∧ (t.part p).bootAt = some s.time ∧
         (t.part p).ctxs = [(0, ⟨.running, b.entry0, 0, 0, [], [], false, false, none⟩)] ∧
         (b.entry0.length = 8 → t.mem.read (hbmKey p b.ctxTab) 64 = wordsLe b.entry0) ∧
         ∃ g, t.grids.find (gridKey p 1) = some g ∧ g.level = 1 ∧ g.ctx = 0 ∧ g.kd = b.kernel.kd ∧ g.nblk = (s.lCores p).length ∧
           let f := fun (lo n : Nat) => wbits b.kernel.kd lo n
           (∀ q ∈ s.blocks, q.2.part ≠ p → ∀ c ∈ s.lCores p, q.2.core ≠ c) → f 21 7 ≤ s.sysSlots → f 21 7 * f 28 5 ≤ 128 → f 192 16 ≤ 512 →
           ∀ i c, (s.lCores p)[i]? = some c → ∃ x, t.block (blockKey (gridKey p 1) i) = some x ∧ x.core = c ∧ x.lcore = true ∧
             ∀ j < f 21 7, ∃ h, t.group (blockKey (gridKey p 1) i) j = some h ∧ h.plevel = 1 ∧
               h.frags.map (·.2.pc) = [b.kernel.base + BitVec.ofNat 64 (f 160 32)]))) ∧
     ((s.part p).pstate = 1 → (∀ t0, (s.part p).bootAt = some t0 → s.time ≤ t0 + 10000000000) → Gives (exec (.supervisorReady p) s) (fun t =>
       (t.part p).pstate = 2 ∧ (t.part p).bootAt = none ∧ t.mem = s.mem ∧
       (s.husk.step ≠ 5 → t.husk = s.husk) ∧
       (s.husk.step = 5 → (∀ q < s.partCount, q ≠ p → (s.part q).pstate = 2) → t.husk.step = 6))) ∧
     (∀ t0, (s.part p).bootAt = some t0 →
       (s.time ≤ t0 + 10000000000 → exec (.supervisorReadyTimeout p) s = .next s) ∧
       (∀ i, t0 + 10000000000 < s.time → i = .supervisorReadyTimeout p ∨ (i = .supervisorReady p ∧ (s.part p).pstate = 1) →
         (s.husk.step = 5 → Gives (exec i s) (fun t => t.husk.step = 15 ∧ t.husk.fail = 5 ∧ (∀ b ∈ t.blocks, b.2.part ≠ p) ∧
           ∀ q < 4, (t.part q).pstate = 0)) ∧
         (s.husk.step ≠ 5 → (s.part p).pstate = 1 → Gives (exec i s) (fun t => (t.part p).pstate = 0 ∧ (∀ b ∈ t.blocks, b.2.part ≠ p) ∧
           t.husk.step = s.husk.step ∧ t.husk.mailbox = s.husk.mailbox ++ [0x200 + p])))) ∧
     (∀ b, (s.husk.step ≠ 0 → exec (.powerOn b) s = .next s) ∧
       (s.husk.step = 0 → s.husk.off = false → s.blocks = [] → s.parts.length = 4 → s.husk.meas.length = 16 →
         let fails := fun (n : Nat) (P : State → Prop) => Gives (exec (.powerOn b) s) (fun t => t.husk.step = 15 ∧ t.husk.fail = n ∧ t.blocks = [] ∧
           (∀ q < 4, (t.part q).pstate = 0) ∧ P t)
         let begins := signedOk b.husk = true ∧ signedOk b.certs = true ∧ b.selfTest = true
         (signedOk b.husk = false → fails 0 (fun t => t.mem = s.mem)) ∧
         (signedOk b.husk = true → signedOk b.certs = false ∨ b.selfTest = false → fails 1 (fun t => t.mem = s.mem)) ∧
         (begins → s.acceptRecord b.record = none → fails 2 (fun t => t.mem = s.mem ∧ t.husk.record = s.husk.record)) ∧
         (∀ w, begins → s.acceptRecord b.record = some w →
           let n := match wbits w 234 2 with | 0 => 1 | 1 => 2 | _ => 4
           let good := fun (x : Signed) => signedOk x = true ∧ wbits w 192 16 ≤ x.svn
           let tables := good b.tables ∧ decTable false (b.tables.body.take 1024) ≠ none ∧ decTable true (b.tables.body.drop 1024) ≠ none
           let sups := n ≤ b.sups.length ∧ ∀ x ∈ b.sups.take n, good x.image ∧ ∀ k ∈ x.firmware, good k.1
           (b.hbmTrained = false → fails 3 (fun t => t.mem = s.mem ∧ t.husk.record = w)) ∧
           (b.hbmTrained = true → b.portsUp = false → fails 4 (fun t => t.mem = s.mem ∧ t.husk.record = w)) ∧
           (b.hbmTrained = true → b.portsUp = true → ¬ (tables ∧ sups) → fails 5 (fun t => t.husk.record = w ∧ t.husk.ports = b.ports ∧
             t.time = s.time + b.setForward.toNat)) ∧
           (b.hbmTrained = true → b.portsUp = true → tables → sups → Gives (exec (.powerOn b) s) (fun t =>
             t.husk.step = 5 ∧ t.husk.record = w ∧ t.husk.ports = b.ports ∧ t.husk.certs = b.certs.body ∧ t.time = s.time + b.setForward.toNat ∧
             (∀ r m, (r, m) ∈ [(0, b.husk.body), (1, b.record.body), (2, b.hbmParams)] → t.husk.meas.getD r [] = sha384 (s.husk.meas.getD r [] ++ sha384 m)) ∧
             ∀ q < n, (t.part q).pstate = 1 ∧ (t.part q).routes = t.routeTable q b.ports ∧ ∀ x, b.sups[q]? = some x → (t.part q).ctxTab = x.ctxTab)))))) ∧
  (∀ s : State,
     (∀ die temp, Gives (exec (.thermalThrottle die temp) s) (fun t => t.mem = s.mem ∧ t.parts = s.parts ∧
       ∀ d, d ∈ t.husk.half ↔ if d = die then 105 ≤ temp else d ∈ s.husk.half)) ∧
     (∀ temp, (115 ≤ temp → Gives (exec (.thermalShutdown temp) s) (fun t =>
         t.husk.off = true ∧ t.husk.step = 15 ∧ t.husk.fail = 7 ∧ (∀ q < 4, (t.part q).pstate = 0) ∧ (∀ b ∈ t.blocks, 4 ≤ b.2.part) ∧
         (s.iss = false → s.blocks = [] → t.mem = s.mem))) ∧
       (temp < 115 → exec (.thermalShutdown temp) s = .next s)) ∧
     (∀ p draw, p < s.parts.length →
       let on := fun (l : List Nat) => (l.map (fun d => popN (enableOf s.husk.record d) 34)).sum
       let limit := wbits s.husk.record 416 32
       let share := (if s.husk.cool then Nat.min 2000 limit else limit) * on (s.diesOf p) / on [0, 1, 2, 3]
       let most := Nat.max (wbits s.husk.record 400 16) (wbits s.husk.record 384 16)
       Gives (exec (.powerLimitStep p draw) s) (fun t => t.mem = s.mem ∧ t.husk = s.husk ∧ t.part p = { s.part p with
         clkCut := if share < draw then Nat.min most ((s.part p).clkCut + 25) else (s.part p).clkCut - 25 })) ∧
     (∀ f, (f < 400 → Gives (exec (.coolantFlowLow f) s) (fun t => t.husk.cool = true ∧ t.mem = s.mem)) ∧
       (400 ≤ f → exec (.coolantFlowLow f) s = .next s) ∧
       (400 ≤ f → Gives (exec (.coolantFlowRestored f) s) (fun t => t.husk.cool = false ∧ t.mem = s.mem)) ∧
       (f < 400 → exec (.coolantFlowRestored f) s = .next s)))

/-! ### Completion on plain operands -/

/-- On plain operands each of these forms completes with its own effect: reads and writes of special registers (R171, R351, R422),
the transform pipe (R255 to R262), migration points (R186), and what runs by itself in the scheduler, the home of stores, Husk and the
cooling (R45, R48, R255, R293, R383, R389, R393, R394, R418, R453 to R456). -/
def Obligations.PlainOperandsComplete : Prop :=
  (∀ (o : COps) (s : State), s.blk.part < s.parts.length →
    let v := s.sreg o.a
    let p := s.blk.part
    let x := s.part p
    let does := fun (i : Instr) (P : State → Prop) => s.Clear i → GoesOn i s P
    (o.c ≠ 0 → o.d ≠ 0 → does (.sread o) (fun t => t.gv.sreg o.d = s.special o.c.toNat)) ∧
    (o.c = 0x99 → does (.swrite o) (fun t => (t.part p).dbg = v)) ∧
    does (.swriteRole o) (fun t => t.gv.role = v.setWidth 2) ∧ does (.swriteFpstat o) (fun t => t.gv.fpstat = v.setWidth 6) ∧
    (0 < s.blk.winsize / 65536 → v = 0 → does (.swriteWinfmt o) (fun t => t.gv.winsel = 0)) ∧
    (o.c = 0x20 → v.toNat % 8 = 0 → does (.swriteTrappc o) (fun t => t.gv.trap.pc = v)) ∧
    (x.held = [] → does (.swriteFqctl o) (fun t => (t.part p).vec = v.toNat / 2 ^ 21 % 2 ^ 11)) ∧
    (x.held = [] → v.setWidth 32 = x.fqtail → does (.swriteFqhead o) (fun t => (t.part p).fqhead = x.fqtail)) ∧
    does (.swriteWdog o) (fun t => (t.part p).wdog = v.setWidth 16) ∧
    (o.c = 0x8A → x.tr.en = false → v = 5 * 2 ^ 16 → does (.swriteRingCtl o) (fun t => (t.part p).tr = { x.tr with log2 := 5, period := 0 })) ∧
    (o.c = 0x8B → v.setWidth 32 = x.tr.tail → does (.swriteRingHead o) (fun t => (t.part p).tr = { x.tr with head := x.tr.tail })) ∧
    (v = 0 → does (.swriteTrfilt o) (fun t => (t.part p).trfilt = 0)) ∧
    (o.c = 0 → does (.xquant o) (fun t => t.gv.held = s.gv.held ++ [(o.d.toNat, 2)])) ∧
    (o.c = 8 → does (.xdequant o) (fun t => t.gv.held = s.gv.held ++ [(o.d.toNat, 8)])) ∧
    (o.b = 1 → o.c = 0x99 → o.x.getLsbD 2 = false → does (.xconv o) (fun t => t.gv.held = s.gv.held ++ [(o.d.toNat, 1)])) ∧
    (s.allLanes = true → o.c = 7 → o.sa = true → v = 0 → o.d ≠ 0 → does (.xpack o) (fun t => t.gv.sreg o.d = BitVec.ofNat 64 (2 ^ 62 + 7 * 2 ^ 51))) ∧
    (s.allLanes = true → s.sreg o.b = BitVec.ofNat 64 (2 ^ 62 + 7 * 2 ^ 51) → o.sa = true → o.d.toNat + etagRegs 7 ≤ 16 * s.grp.vblk.length →
      s.grp.scored (VUse.rng o.d (etagRegs 7) :: usesFrom o (etagRegs 7)) = false → s.grp.owed [VUse.rng o.d (etagRegs 7)] = false →
      does (.xunpack o) (fun t => t.gv.held = s.gv.held ++ [(o.d.toNat, etagRegs 7)])) ∧
    (∀ tb, s.pointHere = some tb → s.grp.inTrap = false → s.blk.mig = .none → does (.mig o) (fun t => t.fv.map (·.partner) = some (some (tb.doff, tb.loff)))) ∧
    (∀ tb, s.pointHere = some tb → s.grp.inTrap = false → s.grp.frags ≠ [] → does (.migReq o) (fun t => t.fv.map (·.partner) = some (some (tb.doff, tb.loff))))) ∧
  (∀ (core : Nat) (s : State) (j : PipeJob) (rest : List PipeJob), (s.core core).pipe = j :: rest →
    Gives (exec (.transformPipeReply core) s) (fun t => (t.core core).pipe = rest)) ∧
  (∀ (who : GroupRef) (s : State) (b : Block) (g : Group) (e : StoreEnt), s.block who.blk = some b → s.group who.blk who.grp = some g →
    g.stores = [e] → e.ready = true → e.dst = .own → Gives (exec (.writeAtHome who) s) (fun t => (t.group who.blk who.grp).map (·.stores) = some [])) ∧
  (∀ (s : State), s.iss = false →
    (∀ p gk g u, s.ranked p = [(gk, g)] → s.grids.find gk = some g → g.ragged = none → g.pk 9 1 = 0 → g.again = [] → s.placeNext gk g = some u →
      Gives (exec (.blockDispatch p) s) (fun t => (t.grids.find gk).map (·.next) = some (g.next + g.nextIds.length))) ∧
    (∀ gk g, s.grids.find gk = some g → s.ctxIs (gridPart gk) g.ctx .halted = false → s.gridDone gk = true → g.rest = [] → g.recAddr = 0 →
      g.pk 192 64 = 0 → Gives (exec (.gridCompletion gk) s) (fun t => t.grids.find gk = none)) ∧
    (∀ blk x c im, s.blocks.find blk = some x → s.Quiet → x.groups ≠ [] → (∀ g ∈ x.groups, g.2.atMig = true ∧ g.2.stop = .no) →
      s.blockBusy blk = false → s.ctxIs x.part (s.ctxOf x) .running = true → (s.targets x).find? (fun c => s.fitsOther x x.groups c) = some c →
      s.imageOf x = some im → Gives (exec (.blockMigration blk) s) (fun t => (t.block blk).map (·.core) = some c)) ∧
    (∀ blk x, s.blocks.find blk = some x → (∀ g ∈ x.groups, g.2.frags ≠ [] ∧ (g.2.atMig = true ∨ ∀ f ∈ g.2.frags, f.2.waitsElse = true)) →
      (∃ g ∈ x.groups, g.2.atMig = true) → (∃ g ∈ x.groups, ∀ f ∈ g.2.frags, f.2.waitsElse = true) →
      Gives (exec (.migrationWithdrawal blk) s) (fun t => (t.block blk).map (·.mig) = some .none)) ∧
    (∀ gk q g b x, s.grids.find gk = some g → g.queue = some q → g.kdRead = true → g.pk 8 1 = 0 → g.kdb 6 1 = 1 → g.next = g.nblk → g.again = [] →
      s.blocks = [(b, x)] → x.grid = gk → x.retired = false → x.mig = .none → x.lcore = false → s.migratable b x = true →
      s.queueBad (gridPart gk) q = false → (s.queEnt (gridPart gk) q).tailn = 1 → Gives (exec (.tailPolicy gk) s) (fun t => (t.block b).map (·.mig) = some .tail)) ∧
    (∀ blk gk fid x g f, s.blocks.find blk = some x → x.groups = [(gk, g)] → g.frags = [(fid, f)] → (s.part x.part).wdog ≠ 0 →
      s.wdogExempt blk x = false → x.lastIss + (s.part x.part).wdog.toNat * 1000000 ≤ s.time →
      Gives (exec (.watchdog blk) s) (fun t => (t.group blk gk).map (·.stop) = some (.fault s.recNo))) ∧
    (∀ who g, s.group who.blk who.grp = some g → 64 ≤ g.starve →
      Gives (exec (.starvationGuard who) s) (fun t => (t.group who.blk who.grp).map (·.raised) = some true))) ∧
  (∀ (s : State) (p : Nat), s.iss = false → p < s.parts.length → p < 4 →
    let done := fun (i : Instr) (P : State → Prop) => Gives (exec i s) (fun t => t.husk.mailbox = s.husk.mailbox ++ [0] ∧ P t)
    (s.huskUp = true → p < s.partCount → (s.part p).pstate = 2 → done (.drain p) (fun t => (t.part p).pstate = 3)) ∧
    ((s.part p).pstate = 3 → (s.part p).ctxs = [] → Gives (exec (.drainComplete p) s) (fun t => (t.part p).pstate = 0)) ∧
    (s.huskUp = true → p < s.partCount → (s.part p).pstate = 0 →
      (∀ r w, s.acceptRecord r = some w → s.touchedOff w = true → done (.reconfig p r) (fun t => t.husk.record = w)) ∧
      (∀ im tb u, s.imageOk im = true → s.imageOk tb = true → (s.part p).ctxs = [] →
        s.loadTables p (tb.body.take 1024) (tb.body.drop 1024) = some u → done (.fwload p im tb) (fun t => t.parts = u.parts)) ∧
      (∀ b, s.imageOk b.image = true → b.firmware = [] → done (.bringup p b) (fun t => (t.part p).pstate = 1)) ∧
      (∀ r w d i, s.acceptRecord r = some w → d < 4 → i < 34 → (∀ e < 4, enableOf w e ≠ enableOf s.husk.record e ↔ e = d) →
        (∀ j < 34, (enableOf w d).testBit j = true ∧ (enableOf s.husk.record d).testBit j = false ↔ j = i) → s.partOfDie d = p →
        wbits w 234 6 = wbits s.husk.record 234 6 → done (.spare p r) (fun t => t.husk.record = w))) ∧
    ((s.part p).pstate = 1 → (s.part p).bootAt = none → Gives (exec (.supervisorReady p) s) (fun t => (t.part p).pstate = 2)) ∧
    (∀ t0, (s.part p).bootAt = some t0 → (s.part p).pstate = 1 → t0 + 10000000000 < s.time →
      Gives (exec (.supervisorReadyTimeout p) s) (fun t => (t.part p).pstate = 0)) ∧
    (∀ b w, s.husk.step = 0 → s.husk.off = false → signedOk b.husk = true → signedOk b.certs = true → b.selfTest = true →
      s.acceptRecord b.record = some w → b.hbmTrained = true → b.portsUp = true → wbits w 234 2 = 0 →
      let good := fun (x : Signed) => signedOk x = true ∧ wbits w 192 16 ≤ x.svn
      good b.tables → decTable false (b.tables.body.take 1024) ≠ none → decTable true (b.tables.body.drop 1024) ≠ none →
      ∀ x, b.sups = [x] → good x.image → x.firmware = [] → Gives (exec (.powerOn b) s) (fun t => t.husk.step = 5 ∧ t.husk.record = w ∧ (t.part 0).pstate = 1)) ∧
    (∀ die, Gives (exec (.thermalThrottle die 105) s) (fun t => die ∈ t.husk.half)) ∧
    Gives (exec (.thermalShutdown 115) s) (fun t => t.husk.off = true) ∧
    Gives (exec (.powerLimitStep p 0) s) (fun t => (t.part p).clkCut = (s.part p).clkCut - 25) ∧
    Gives (exec (.coolantFlowLow 0) s) (fun t => t.husk.cool = true) ∧
    Gives (exec (.coolantFlowRestored 400) s) (fun t => t.husk.cool = false))
end

