-- ==== Sys2Proof/Laws/Bits.lean ====
section
/-!
SUPPORT. Laws of the containers of Machine/Bits.lean: lists by key and sparse maps.
-/

namespace Sys2Proof

/-! ### Lists by key -/

@[simp] theorem KL.find_nil {α : Type} (a : Nat) : KL.find ([] : KL α) a = none := rfl

theorem KL.find_cons {α : Type} (k : Nat) (v : α) (m : KL α) (a : Nat) :
    KL.find ((k, v) :: m) a = if k = a then some v else KL.find m a := rfl

theorem KL.find_put {α : Type} (m : KL α) (a b : Nat) (x : α) :
    KL.find (KL.put m a x) b = if a = b then some x else KL.find m b := by
  induction m with
  | nil => rfl
  | cons p m ih =>
    obtain ⟨k, v⟩ := p
    simp only [KL.put]
    split
    · simp only [KL.find_cons]; split <;> simp_all
    · split
      · simp only [KL.find_cons]
      · simp only [KL.find_cons, ih]; split <;> split <;> simp_all

@[simp] theorem KL.find_put_self {α : Type} (m : KL α) (a : Nat) (x : α) : KL.find (KL.put m a x) a = some x := by
  simp [KL.find_put]

theorem KL.find_put_ne {α : Type} (m : KL α) {a b : Nat} (x : α) (h : a ≠ b) : KL.find (KL.put m a x) b = KL.find m b := by
  simp [KL.find_put, h]

theorem KL.find_del {α : Type} (m : KL α) (a b : Nat) : KL.find (KL.del m a) b = if a = b then none else KL.find m b := by
  induction m with
  | nil => simp [KL.del]
  | cons p m ih =>
    obtain ⟨k, v⟩ := p
    simp only [KL.del] at ih ⊢
    rw [List.filter_cons]
    by_cases hk : k = a
    · subst hk
      simp only [ne_eq, not_true_eq_false, decide_false, Bool.false_eq_true, if_false, KL.find_cons]
      rw [ih]
      by_cases hb : k = b <;> simp [hb]
    · simp only [ne_eq, hk, not_false_eq_true, decide_true, if_true, KL.find_cons]
      rw [ih]
      by_cases hb : k = b
      · have : a ≠ b := fun h => hk (hb.trans h.symm)
        simp [hb, this]
      · simp [hb]

@[simp] theorem KL.find_del_self {α : Type} (m : KL α) (a : Nat) : KL.find (KL.del m a) a = none := by simp [KL.find_del]

theorem KL.find_del_ne {α : Type} (m : KL α) {a b : Nat} (h : a ≠ b) : KL.find (KL.del m a) b = KL.find m b := by
  simp [KL.find_del, h]

theorem KL.find_mod {α : Type} (m : KL α) (a b : Nat) (f : α → α) :
    KL.find (KL.mod m a f) b = if a = b then (KL.find m b).map f else KL.find m b := by
  induction m with
  | nil => simp [KL.mod]
  | cons p m ih =>
    obtain ⟨k, v⟩ := p
    simp only [KL.mod, List.map_cons] at ih ⊢
    by_cases hk : k = a
    · subst hk; simp [KL.find_cons, ih]; split <;> simp_all
    · simp [hk, KL.find_cons, ih]; split <;> split <;> simp_all

@[simp] theorem KL.find_mod_self {α : Type} (m : KL α) (a : Nat) (f : α → α) :
    KL.find (KL.mod m a f) a = (KL.find m a).map f := by simp [KL.find_mod]

theorem KL.find_mod_ne {α : Type} (m : KL α) {a b : Nat} (f : α → α) (h : a ≠ b) :
    KL.find (KL.mod m a f) b = KL.find m b := by simp [KL.find_mod, h]

theorem KL.has_eq {α : Type} (m : KL α) (a : Nat) : KL.has m a = (KL.find m a).isSome := rfl

/-- Changing values, key by key, changes what is found. -/
theorem KL.find_map {α β : Type} (m : KL α) (f : Nat → α → β) (a : Nat) :
    KL.find (m.map (fun p => (p.1, f p.1 p.2))) a = (KL.find m a).map (f a) := by
  induction m with
  | nil => rfl
  | cons p m ih =>
    obtain ⟨k, v⟩ := p
    simp only [List.map_cons, KL.find_cons, ih]
    split
    · next h => subst h; rfl
    · rfl

/-! ### Sparse maps -/

variable {w : Nat}

theorem SMap.okFrom_mono {m : SMap w} {lo lo' : Nat} (h : SMap.okFrom lo m = true) (hl : lo' ≤ lo) :
    SMap.okFrom lo' m = true := by
  cases m with
  | nil => rfl
  | cons p m =>
    obtain ⟨k, v⟩ := p
    simp only [SMap.okFrom, Bool.and_eq_true, decide_eq_true_eq] at h ⊢
    exact ⟨⟨by omega, h.1.2⟩, h.2⟩

theorem SMap.okFrom_cons {k : Nat} {v : BitVec w} {m : SMap w} {lo : Nat} :
    SMap.okFrom lo ((k, v) :: m) = true ↔ (lo ≤ k ∧ v ≠ 0) ∧ SMap.okFrom (k + 1) m = true := by
  simp only [SMap.okFrom, Bool.and_eq_true, decide_eq_true_eq]

theorem SMap.okFrom_del {m : SMap w} {lo : Nat} (h : SMap.okFrom lo m = true) (a : Nat) :
    SMap.okFrom lo (KL.del m a) = true := by
  induction m generalizing lo with
  | nil => rfl
  | cons p m ih =>
    obtain ⟨k, v⟩ := p
    obtain ⟨h1, h3⟩ := SMap.okFrom_cons.1 h
    simp only [KL.del, List.filter_cons]
    split
    · exact SMap.okFrom_cons.2 ⟨h1, ih h3⟩
    · exact SMap.okFrom_mono (ih h3) (by omega)

theorem SMap.okFrom_put {m : SMap w} {lo a : Nat} {x : BitVec w} (hx : x ≠ 0) (h : SMap.okFrom lo m = true) (ha : lo ≤ a) :
    SMap.okFrom lo (KL.put m a x) = true := by
  induction m generalizing lo with
  | nil => exact SMap.okFrom_cons.2 ⟨⟨ha, hx⟩, rfl⟩
  | cons p m ih =>
    obtain ⟨k, v⟩ := p
    obtain ⟨⟨h1, h2⟩, h3⟩ := SMap.okFrom_cons.1 h
    simp only [KL.put]
    split
    · next hk => subst hk; exact SMap.okFrom_cons.2 ⟨⟨h1, hx⟩, h3⟩
    · split
      · exact SMap.okFrom_cons.2 ⟨⟨ha, hx⟩, SMap.okFrom_cons.2 ⟨⟨by omega, h2⟩, h3⟩⟩
      · exact SMap.okFrom_cons.2 ⟨⟨h1, h2⟩, ih h3 (by omega)⟩

theorem SMap.okFrom_set {m : SMap w} {lo a : Nat} (x : BitVec w) (h : SMap.okFrom lo m = true) (ha : lo ≤ a) :
    SMap.okFrom lo (SMap.set m a x) = true := by
  simp only [SMap.set]
  split
  · exact SMap.okFrom_del h a
  · next hx => exact SMap.okFrom_put hx h ha

/-- A write keeps the canonical form. -/
theorem SMap.wf_set {m : SMap w} (h : SMap.wf m = true) (a : Nat) (x : BitVec w) : SMap.wf (SMap.set m a x) = true :=
  SMap.okFrom_set x h (Nat.zero_le a)

theorem SMap.wf_setAll {m : SMap w} (h : SMap.wf m = true) (l : List (Nat × BitVec w)) : SMap.wf (SMap.setAll m l) = true := by
  induction l generalizing m with
  | nil => exact h
  | cons p l ih => exact ih (SMap.wf_set h p.1 p.2)

/-- A read after a write. -/
theorem SMap.get_set (m : SMap w) (a b : Nat) (x : BitVec w) :
    SMap.get (SMap.set m a x) b = if a = b then x else SMap.get m b := by
  by_cases hx : x = 0
  · rw [SMap.set, if_pos hx, SMap.get, KL.find_del, hx]; split <;> simp [SMap.get]
  · rw [SMap.set, if_neg hx, SMap.get, KL.find_put]; split <;> simp [SMap.get]

@[simp] theorem SMap.get_set_self (m : SMap w) (a : Nat) (x : BitVec w) : SMap.get (SMap.set m a x) a = x := by
  simp [SMap.get_set]

theorem SMap.get_set_ne (m : SMap w) {a b : Nat} (x : BitVec w) (h : a ≠ b) :
    SMap.get (SMap.set m a x) b = SMap.get m b := by simp [SMap.get_set, h]

/-- Reading where nothing was written. -/
theorem SMap.get_setAll_of_not_mem (m : SMap w) (l : List (Nat × BitVec w)) (b : Nat) (hb : ∀ p ∈ l, p.1 ≠ b) :
    SMap.get (SMap.setAll m l) b = SMap.get m b := by
  induction l generalizing m with
  | nil => rfl
  | cons p l ih =>
    have h1 := ih (SMap.set m p.1 p.2) (fun q hq => hb q (List.mem_cons_of_mem _ hq))
    simp only [SMap.setAll, List.foldl_cons] at h1 ⊢
    rw [h1, SMap.get_set]
    simp [hb p (List.mem_cons_self ..)]

theorem SMap.setAll_append (m : SMap w) (l k : List (Nat × BitVec w)) :
    SMap.setAll m (l ++ k) = SMap.setAll (SMap.setAll m l) k := by simp [SMap.setAll]

/-- Reading where every write of a list puts the same word. -/
theorem SMap.get_setAll_of_mem (m : SMap w) (l : List (Nat × BitVec w)) (b : Nat) (x : BitVec w) (h : (b, x) ∈ l)
    (hx : ∀ p ∈ l, p.1 = b → p.2 = x) : SMap.get (SMap.setAll m l) b = x := by
  induction l using List.reverseRecOn with
  | nil => cases h
  | append_singleton l p ih =>
    rw [SMap.setAll_append]
    simp only [SMap.setAll, List.foldl_cons, List.foldl_nil, SMap.get_set]
    split
    · next hp => exact hx p (by simp) hp
    · next hp =>
      have hm : (b, x) ∈ l := by
        rcases List.mem_append.1 h with h | h
        · exact h
        · rw [List.mem_singleton] at h; exact absurd (by rw [← h]) hp
      exact ih hm (fun q hq => hx q (List.mem_append_left _ hq))

end Sys2Proof
end

