-- ==== Sys2Proof/Laws/State.lean ====
section
/-!
SUPPORT. The state's updates, field by field, and its views while a fragment is issuing and after it is back in its lists.
-/

namespace Sys2Proof.Machine

/-! ### Updates of the issuing group, field by field -/

section
variable (s : State)

@[simp] theorem mark_iss : s.mark.iss = s.iss := rfl
@[simp] theorem mark_bkey : s.mark.bkey = s.bkey := rfl
@[simp] theorem mark_gkey : s.mark.gkey = s.gkey := rfl
@[simp] theorem mark_fkey : s.mark.fkey = s.fkey := rfl
@[simp] theorem mark_mem : s.mark.mem = s.mem := rfl
@[simp] theorem mark_poison : s.mark.poison = s.poison := rfl
@[simp] theorem mark_blocks : s.mark.blocks = s.blocks := rfl
@[simp] theorem mark_grids : s.mark.grids = s.grids := rfl
@[simp] theorem mark_cores : s.mark.cores = s.cores := rfl
@[simp] theorem mark_parts : s.mark.parts = s.parts := rfl
@[simp] theorem mark_images : s.mark.images = s.images := rfl
@[simp] theorem mark_husk : s.mark.husk = s.husk := rfl
@[simp] theorem mark_irqs : s.mark.irqs = s.irqs := rfl
@[simp] theorem mark_time : s.mark.time = s.time := rfl
@[simp] theorem mark_free : s.mark.free = s.free := rfl
@[simp] theorem mark_recNo : s.mark.recNo = s.recNo := rfl
@[simp] theorem mark_jobNo : s.mark.jobNo = s.jobNo := rfl
@[simp] theorem mark_stamp : s.mark.stamp = s.stamp + 1 := rfl
@[simp] theorem mark_pc : s.mark.frag.pc = s.frag.pc := rfl
@[simp] theorem mark_em : s.mark.frag.em = s.frag.em := rfl
@[simp] theorem mark_fjoins : s.mark.frag.joins = s.frag.joins := rfl
@[simp] theorem mark_st : s.mark.frag.st = s.frag.st := rfl
@[simp] theorem mark_sregs : s.mark.grp.sregs = s.grp.sregs := rfl
@[simp] theorem mark_vregs : s.mark.grp.vregs = s.grp.vregs := rfl
@[simp] theorem mark_kregs : s.mark.grp.kregs = s.grp.kregs := rfl
@[simp] theorem mark_tregs : s.mark.grp.tregs = s.grp.tregs := rfl
@[simp] theorem mark_toks : s.mark.grp.toks = s.grp.toks := rfl
@[simp] theorem mark_frags : s.mark.grp.frags = s.grp.frags := rfl
@[simp] theorem mark_joins : s.mark.grp.joins = s.grp.joins := rfl
@[simp] theorem mark_fmask : s.mark.grp.fmask = s.grp.fmask := rfl
@[simp] theorem mark_trap : s.mark.grp.trap = s.grp.trap := rfl
@[simp] theorem mark_stores : s.mark.grp.stores = s.grp.stores := rfl
@[simp] theorem mark_loads : s.mark.grp.loads = s.grp.loads := rfl
@[simp] theorem mark_vblk : s.mark.grp.vblk = s.grp.vblk := rfl
@[simp] theorem mark_plevel : s.mark.grp.plevel = s.grp.plevel := rfl
@[simp] theorem mark_gstop : s.mark.grp.stop = s.grp.stop := rfl
@[simp] theorem mark_lcore : s.mark.blk.lcore = s.blk.lcore := rfl
@[simp] theorem mark_legacy : s.mark.blk.legacy = s.blk.legacy := rfl
@[simp] theorem mark_part : s.mark.blk.part = s.blk.part := rfl
@[simp] theorem mark_grid : s.mark.blk.grid = s.blk.grid := rfl
@[simp] theorem mark_core : s.mark.blk.core = s.blk.core := rfl
@[simp] theorem mark_window : s.mark.blk.window = s.blk.window := rfl
@[simp] theorem mark_bars : s.mark.blk.bars = s.blk.bars := rfl
@[simp] theorem mark_groups : s.mark.blk.groups = s.blk.groups := rfl

/-! ### Operands read the same before and after the mark of an issue -/

@[simp] theorem mark_sreg (r : BitVec 8) : s.mark.sreg r = s.sreg r := rfl
@[simp] theorem mark_kreg (r : BitVec 8) : s.mark.kreg r = s.kreg r := rfl
@[simp] theorem mark_sB (o : COps) : s.mark.sB o = s.sB o := rfl
@[simp] theorem mark_live : s.mark.live = s.live := rfl
@[simp] theorem mark_active (g : BitVec 4) (n : Bool) : s.mark.active g n = s.active g n := rfl
@[simp] theorem mark_v (r l : Nat) : s.mark.grp.v r l = s.grp.v r l := rfl
@[simp] theorem mark_vpair (r l : Nat) : s.mark.grp.vpair r l = s.grp.vpair r l := rfl
@[simp] theorem mark_lA (o : COps) (w : Bool) (l : Nat) : s.mark.lA o w l = s.lA o w l := rfl
@[simp] theorem mark_lB (o : COps) (w : Bool) (l : Nat) : s.mark.lB o w l = s.lB o w l := rfl
@[simp] theorem mark_lC (o : COps) (w : Bool) (l : Nat) : s.mark.lC o w l = s.lC o w l := rfl
@[simp] theorem mark_atJoin (pc : W64) : s.mark.atJoin pc = s.atJoin pc := rfl
@[simp] theorem mark_target (o : JOps) : s.mark.target o = s.target o := rfl
@[simp] theorem mark_ctxid : s.mark.ctxid = s.ctxid := rfl
@[simp] theorem mark_now : s.mark.now = s.now := rfl
@[simp] theorem mark_slot : s.mark.slot = s.slot := rfl

/-! ### The same of the state in which an instruction has issued -/

@[simp] theorem marked_iss (i : Instr) : (s.marked i).iss = s.iss := rfl
@[simp] theorem marked_bkey (i : Instr) : (s.marked i).bkey = s.bkey := rfl
@[simp] theorem marked_gkey (i : Instr) : (s.marked i).gkey = s.gkey := rfl
@[simp] theorem marked_fkey (i : Instr) : (s.marked i).fkey = s.fkey := rfl
@[simp] theorem marked_mem (i : Instr) : (s.marked i).mem = s.mem := rfl
@[simp] theorem marked_poison (i : Instr) : (s.marked i).poison = s.poison := rfl
@[simp] theorem marked_blocks (i : Instr) : (s.marked i).blocks = s.blocks := rfl
@[simp] theorem marked_grids (i : Instr) : (s.marked i).grids = s.grids := rfl
@[simp] theorem marked_cores (i : Instr) : (s.marked i).cores = s.cores := rfl
@[simp] theorem marked_parts (i : Instr) : (s.marked i).parts = s.parts := rfl
@[simp] theorem marked_images (i : Instr) : (s.marked i).images = s.images := rfl
@[simp] theorem marked_husk (i : Instr) : (s.marked i).husk = s.husk := rfl
@[simp] theorem marked_irqs (i : Instr) : (s.marked i).irqs = s.irqs := rfl
@[simp] theorem marked_time (i : Instr) : (s.marked i).time = s.time := rfl
@[simp] theorem marked_free (i : Instr) : (s.marked i).free = s.free := rfl
@[simp] theorem marked_recNo (i : Instr) : (s.marked i).recNo = s.recNo := rfl
@[simp] theorem marked_jobNo (i : Instr) : (s.marked i).jobNo = s.jobNo := rfl
@[simp] theorem marked_stamp (i : Instr) : (s.marked i).stamp = s.stamp + 1 := rfl
@[simp] theorem marked_pc (i : Instr) : (s.marked i).frag.pc = s.frag.pc := rfl
@[simp] theorem marked_em (i : Instr) : (s.marked i).frag.em = s.frag.em := rfl
@[simp] theorem marked_fjoins (i : Instr) : (s.marked i).frag.joins = s.frag.joins := rfl
@[simp] theorem marked_st (i : Instr) : (s.marked i).frag.st = s.frag.st := rfl
@[simp] theorem marked_sregs (i : Instr) : (s.marked i).grp.sregs = s.grp.sregs := rfl
@[simp] theorem marked_vregs (i : Instr) : (s.marked i).grp.vregs = s.grp.vregs := rfl
@[simp] theorem marked_kregs (i : Instr) : (s.marked i).grp.kregs = s.grp.kregs := rfl
@[simp] theorem marked_tregs (i : Instr) : (s.marked i).grp.tregs = s.grp.tregs := rfl
@[simp] theorem marked_toks (i : Instr) : (s.marked i).grp.toks = s.grp.toks := rfl
@[simp] theorem marked_frags (i : Instr) : (s.marked i).grp.frags = s.grp.frags := rfl
@[simp] theorem marked_joins (i : Instr) : (s.marked i).grp.joins = s.grp.joins := rfl
@[simp] theorem marked_fmask (i : Instr) : (s.marked i).grp.fmask = s.grp.fmask := rfl
@[simp] theorem marked_trap (i : Instr) : (s.marked i).grp.trap = s.grp.trap := rfl
@[simp] theorem marked_stores (i : Instr) : (s.marked i).grp.stores = s.grp.stores := rfl
@[simp] theorem marked_loads (i : Instr) : (s.marked i).grp.loads = s.grp.loads := rfl
@[simp] theorem marked_vblk (i : Instr) : (s.marked i).grp.vblk = s.grp.vblk := rfl
@[simp] theorem marked_plevel (i : Instr) : (s.marked i).grp.plevel = s.grp.plevel := rfl
@[simp] theorem marked_gstop (i : Instr) : (s.marked i).grp.stop = s.grp.stop := rfl
@[simp] theorem marked_lcore (i : Instr) : (s.marked i).blk.lcore = s.blk.lcore := rfl
@[simp] theorem marked_legacy (i : Instr) : (s.marked i).blk.legacy = s.blk.legacy := rfl
@[simp] theorem marked_part (i : Instr) : (s.marked i).blk.part = s.blk.part := rfl
@[simp] theorem marked_grid (i : Instr) : (s.marked i).blk.grid = s.blk.grid := rfl
@[simp] theorem marked_core (i : Instr) : (s.marked i).blk.core = s.blk.core := rfl
@[simp] theorem marked_window (i : Instr) : (s.marked i).blk.window = s.blk.window := rfl
@[simp] theorem marked_bars (i : Instr) : (s.marked i).blk.bars = s.blk.bars := rfl
@[simp] theorem marked_groups (i : Instr) : (s.marked i).blk.groups = s.blk.groups := rfl
@[simp] theorem marked_sreg (i : Instr) (r : BitVec 8) : (s.marked i).sreg r = s.sreg r := rfl
@[simp] theorem marked_kreg (i : Instr) (r : BitVec 8) : (s.marked i).kreg r = s.kreg r := rfl
@[simp] theorem marked_sB (i : Instr) (o : COps) : (s.marked i).sB o = s.sB o := rfl
@[simp] theorem marked_live (i : Instr) : (s.marked i).live = s.live := rfl
@[simp] theorem marked_active (i : Instr) (g : BitVec 4) (n : Bool) : (s.marked i).active g n = s.active g n := rfl
@[simp] theorem marked_v (i : Instr) (r l : Nat) : (s.marked i).grp.v r l = s.grp.v r l := rfl
@[simp] theorem marked_vpair (i : Instr) (r l : Nat) : (s.marked i).grp.vpair r l = s.grp.vpair r l := rfl
@[simp] theorem marked_lA (i : Instr) (o : COps) (w : Bool) (l : Nat) : (s.marked i).lA o w l = s.lA o w l := rfl
@[simp] theorem marked_lB (i : Instr) (o : COps) (w : Bool) (l : Nat) : (s.marked i).lB o w l = s.lB o w l := rfl
@[simp] theorem marked_lC (i : Instr) (o : COps) (w : Bool) (l : Nat) : (s.marked i).lC o w l = s.lC o w l := rfl
@[simp] theorem marked_atJoin (i : Instr) (pc : W64) : (s.marked i).atJoin pc = s.atJoin pc := rfl
@[simp] theorem marked_target (i : Instr) (o : JOps) : (s.marked i).target o = s.target o := rfl
@[simp] theorem marked_ctxid (i : Instr) : (s.marked i).ctxid = s.ctxid := rfl
@[simp] theorem marked_now (i : Instr) : (s.marked i).now = s.now := rfl
@[simp] theorem marked_slot (i : Instr) : (s.marked i).slot = s.slot := rfl

end

/-! ### Writing registers -/

section
variable (s : State)

theorem setS_eq (i : BitVec 8) (v : W64) :
    s.setS i v = { s with grp := { s.grp with sregs := if i = 0 then s.grp.sregs else s.grp.sregs.set i.toNat v } } := by
  simp only [State.setS]; split <;> rfl

theorem setK_eq (i : BitVec 8) (v : W64) :
    s.setK i v = { s with grp := { s.grp with
      kregs := if i = 0 then s.grp.kregs else s.grp.kregs.set i.toNat (v &&& laneMask s.blk.legacy) } } := by
  simp only [State.setK]; split <;> rfl

@[simp] theorem setS_iss (i : BitVec 8) (v : W64) : (s.setS i v).iss = s.iss := by simp [setS_eq]
@[simp] theorem setS_frag (i : BitVec 8) (v : W64) : (s.setS i v).frag = s.frag := by simp [setS_eq]
@[simp] theorem setS_blk (i : BitVec 8) (v : W64) : (s.setS i v).blk = s.blk := by simp [setS_eq]
@[simp] theorem setK_iss (i : BitVec 8) (v : W64) : (s.setK i v).iss = s.iss := by simp [setK_eq]
@[simp] theorem setK_frag (i : BitVec 8) (v : W64) : (s.setK i v).frag = s.frag := by simp [setK_eq]
@[simp] theorem setKLanes_iss (i : BitVec 8) (a v : W64) : (s.setKLanes i a v).iss = s.iss := by simp [State.setKLanes]
@[simp] theorem writeV_iss (l : List (Nat × W32)) : (s.writeV l).iss = s.iss := rfl
@[simp] theorem writeV_frag (l : List (Nat × W32)) : (s.writeV l).frag = s.frag := rfl
@[simp] theorem mapLanes_iss (o : COps) (w : Bool) (f : Nat → Nat) : (s.mapLanes o w f).iss = s.iss := rfl
@[simp] theorem mapLanes_frag (o : COps) (w : Bool) (f : Nat → Nat) : (s.mapLanes o w f).frag = s.frag := rfl
@[simp] theorem raise_iss (f : Fl) : (s.raise f).iss = s.iss := rfl
@[simp] theorem mapFlags_iss (o : COps) (w : Bool) (f : Nat → Nat × Fl) : (s.mapFlags o w f).iss = s.iss := rfl
@[simp] theorem modPart_iss (p : Nat) (f : Part → Part) : (s.modPart p f).iss = s.iss := rfl
@[simp] theorem modPart_grp (p : Nat) (f : Part → Part) : (s.modPart p f).grp = s.grp := rfl
@[simp] theorem modPart_blk (p : Nat) (f : Part → Part) : (s.modPart p f).blk = s.blk := rfl
@[simp] theorem modPart_frag (p : Nat) (f : Part → Part) : (s.modPart p f).frag = s.frag := rfl
@[simp] theorem modPart_mem (p : Nat) (f : Part → Part) : (s.modPart p f).mem = s.mem := rfl
@[simp] theorem modPart_blocks (p : Nat) (f : Part → Part) : (s.modPart p f).blocks = s.blocks := rfl
@[simp] theorem modCore_iss (c : Nat) (f : Core → Core) : (s.modCore c f).iss = s.iss := rfl
@[simp] theorem modCore_grp (c : Nat) (f : Core → Core) : (s.modCore c f).grp = s.grp := rfl
@[simp] theorem modCore_blk (c : Nat) (f : Core → Core) : (s.modCore c f).blk = s.blk := rfl
@[simp] theorem modCore_frag (c : Nat) (f : Core → Core) : (s.modCore c f).frag = s.frag := rfl
@[simp] theorem modCore_mem (c : Nat) (f : Core → Core) : (s.modCore c f).mem = s.mem := rfl
@[simp] theorem modCore_parts (c : Nat) (f : Core → Core) : (s.modCore c f).parts = s.parts := rfl
@[simp] theorem modGrid_iss (g : Nat) (f : Grid → Grid) : (s.modGrid g f).iss = s.iss := rfl
@[simp] theorem modGrid_mem (g : Nat) (f : Grid → Grid) : (s.modGrid g f).mem = s.mem := rfl
@[simp] theorem poke_iss (l : List (Nat × Byte)) : (s.poke l).iss = s.iss := rfl
@[simp] theorem poke_mem (l : List (Nat × Byte)) : (s.poke l).mem = SMap.setAll s.mem l := rfl
@[simp] theorem poke_grp (l : List (Nat × Byte)) : (s.poke l).grp = s.grp := rfl
@[simp] theorem poke_blk (l : List (Nat × Byte)) : (s.poke l).blk = s.blk := rfl

end

/-! ### The views -/

section
variable {s : State}

theorem group_iss (h : s.iss = true) : s.group s.bkey s.gkey = some s.grp := by simp [State.group, h]
theorem block_iss (h : s.iss = true) : s.block s.bkey = some s.blk := by simp [State.block, h]

theorem gv_iss (h : s.iss = true) : s.gv = s.grp := by simp [State.gv, group_iss h]
theorem bv_iss (h : s.iss = true) : s.bv = s.blk := by simp [State.bv, block_iss h]
theorem fv_iss (h : s.iss = true) : s.fv = some s.frag := by simp [State.fv, State.fragment, h]

theorem sreg_iss (h : s.iss = true) (r : BitVec 8) : s.gv.sreg r = s.sreg r := by rw [gv_iss h]; rfl

theorem stow_of (h : s.iss = true) : s.stow =
    { s with iss := false, blocks := s.blocks.put s.bkey { s.blk with
        groups := s.blk.groups.put s.gkey { s.grp with frags := s.grp.frags.put s.fkey s.frag } } } := by
  simp [State.stow, h]

theorem stow_of_not (h : s.iss = false) : s.stow = s := by simp [State.stow, h]

@[simp] theorem stow_iss : s.stow.iss = false := by
  cases h : s.iss
  · rw [stow_of_not h, h]
  · rw [stow_of h]

@[simp] theorem stow_stow : s.stow.stow = s.stow := stow_of_not stow_iss

@[simp] theorem stow_mem : s.stow.mem = s.mem := by cases h : s.iss <;> simp [State.stow, h]
@[simp] theorem stow_grids : s.stow.grids = s.grids := by cases h : s.iss <;> simp [State.stow, h]
@[simp] theorem stow_parts : s.stow.parts = s.parts := by cases h : s.iss <;> simp [State.stow, h]
@[simp] theorem stow_cores : s.stow.cores = s.cores := by cases h : s.iss <;> simp [State.stow, h]
@[simp] theorem stow_husk : s.stow.husk = s.husk := by cases h : s.iss <;> simp [State.stow, h]
@[simp] theorem stow_time : s.stow.time = s.time := by cases h : s.iss <;> simp [State.stow, h]
@[simp] theorem stow_poison : s.stow.poison = s.poison := by cases h : s.iss <;> simp [State.stow, h]
@[simp] theorem stow_images : s.stow.images = s.images := by cases h : s.iss <;> simp [State.stow, h]
@[simp] theorem stow_irqs : s.stow.irqs = s.irqs := by cases h : s.iss <;> simp [State.stow, h]
@[simp] theorem stow_free : s.stow.free = s.free := by cases h : s.iss <;> simp [State.stow, h]
@[simp] theorem stow_bkey : s.stow.bkey = s.bkey := by cases h : s.iss <;> simp [State.stow, h]
@[simp] theorem stow_gkey : s.stow.gkey = s.gkey := by cases h : s.iss <;> simp [State.stow, h]
@[simp] theorem stow_fkey : s.stow.fkey = s.fkey := by cases h : s.iss <;> simp [State.stow, h]
@[simp] theorem stow_slots : s.stow.slots = s.slots := by cases h : s.iss <;> simp [State.stow, h]
@[simp] theorem stow_agenda : s.stow.agenda = s.agenda := by cases h : s.iss <;> simp [State.stow, h]
@[simp] theorem stow_stamp : s.stow.stamp = s.stamp := by cases h : s.iss <;> simp [State.stow, h]

theorem block_stow_ne {b : Nat} (hb : b ≠ s.bkey) : s.stow.block b = s.block b := by
  cases h : s.iss
  · rw [stow_of_not h]
  · rw [stow_of h]
    simp [State.block, h, hb, KL.find_put_ne _ _ (Ne.symm hb)]

theorem block_stow_self (h : s.iss = true) : s.stow.block s.bkey = some { s.blk with
    groups := s.blk.groups.put s.gkey { s.grp with frags := s.grp.frags.put s.fkey s.frag } } := by
  rw [stow_of h]; simp [State.block]

theorem group_stow_self (h : s.iss = true) : s.stow.group s.bkey s.gkey =
    some { s.grp with frags := s.grp.frags.put s.fkey s.frag } := by
  rw [stow_of h]; simp [State.group]

theorem group_stow_ne (h : s.iss = true) {g : Nat} (hg : g ≠ s.gkey) : s.stow.group s.bkey g = s.group s.bkey g := by
  rw [stow_of h]; simp [State.group, h, hg, KL.find_put_ne _ _ (Ne.symm hg)]

theorem fv_stow (h : s.iss = true) : s.stow.fv = some s.frag := by
  have := group_stow_self h
  simp only [State.fv, State.fragment, stow_iss, stow_bkey, stow_gkey, stow_fkey, this]
  simp

end

/-! ### Taking a fragment out -/

theorem take_iss {s t : State} {r : FragRef} (h : s.take r = some t) : t.iss = true := by
  simp only [State.take] at h
  split at h
  · cases h
  · split at h
    · cases h
    · split at h
      · cases h
      · cases h; rfl

end Sys2Proof.Machine
end

