-- ==== Sys2Proof/Laws/Frame.lean ====
section
/-!
SUPPORT. Frames: their algebra, and one lemma for each shared operation that says what it leaves unchanged. What an issue
that succeeds gives.
-/

namespace Sys2Proof.Machine

/-! ### The algebra of frames -/

theorem Piece.same_refl (s : State) (p : Piece) : p.same s s := by cases p <;> simp [Piece.same]

theorem Frame.refl (s : State) : Frame [] s s := ⟨⟨rfl, rfl, rfl⟩, fun p _ => p.same_refl s⟩

theorem Piece.same_trans {s t u : State} (hb : t.bkey = s.bkey) (hg : t.gkey = s.gkey) {p : Piece} (h : p.same s t)
    (k : p.same t u) : p.same s u := by
  cases p <;> simp only [Piece.same] at * <;> simp_all

theorem Frame.trans {l m : List Piece} {s t u : State} (h : Frame l s t) (k : Frame m t u) : Frame (l ++ m) s u := by
  obtain ⟨⟨h1, h2, h3⟩, h4⟩ := h
  obtain ⟨⟨k1, k2, k3⟩, k4⟩ := k
  refine ⟨⟨k1.trans h1, k2.trans h2, k3.trans h3⟩, fun p hp => ?_⟩
  rw [List.mem_append, not_or] at hp
  exact Piece.same_trans h1 h2 (h4 p hp.1) (k4 p hp.2)

theorem Frame.mono {l m : List Piece} {s t : State} (h : Frame l s t) (hl : ∀ p ∈ l, p ∈ m) : Frame m s t :=
  ⟨h.1, fun p hp => h.2 p (fun hm => hp (hl p hm))⟩

theorem Frame.then {l : List Piece} {s t u : State} (h : Frame l s t) (k : Frame [] t u) : Frame l s u := by
  simpa using h.trans k

theorem Frame.after {l : List Piece} {s t u : State} (h : Frame [] s t) (k : Frame l t u) : Frame l s u := by
  simpa using h.trans k

/-! ### Updates while a fragment is issuing -/

/-- While a fragment is issuing, a frame is read off the issuing group and block themselves. -/
theorem frame_iss {l : List Piece} {s t : State} (hs : s.iss = true) (ht : t.iss = true)
    (hk : t.bkey = s.bkey ∧ t.gkey = s.gkey ∧ t.fkey = s.fkey)
    (h : ∀ p, p ∉ l → match p with
      | .sregs => t.grp.sregs = s.grp.sregs
      | .vregs => t.grp.vregs = s.grp.vregs
      | .kregs => t.grp.kregs = s.grp.kregs
      | .tregs => t.grp.tregs = s.grp.tregs
      | .toks => t.grp.toks = s.grp.toks
      | .fpstat => t.grp.fpstat = s.grp.fpstat
      | .fmask => t.grp.fmask = s.grp.fmask ∧ t.grp.viol = s.grp.viol
      | .trap => t.grp.trap = s.grp.trap
      | .role => t.grp.role = s.grp.role
      | .winsel => t.grp.winsel = s.grp.winsel
      | .alloc => t.grp.vblk = s.grp.vblk
      | .phases => t.frag.phases = s.frag.phases ∧ t.grp.pend = s.grp.pend ∧ t.grp.arrived = s.grp.arrived
      | .stores => t.grp.stores = s.grp.stores
      | .loads => t.grp.loads = s.grp.loads
      | .held => t.grp.held = s.grp.held
      | .seen => t.grp.seen = s.grp.seen
      | .stop => t.grp.stop = s.grp.stop
      | .place => t.grp.slot = s.grp.slot ∧ t.grp.quad = s.grp.quad ∧ t.grp.plevel = s.grp.plevel ∧ t.grp.pbase = s.grp.pbase
      | .window => t.blk.window = s.blk.window ∧ t.blk.winPub = s.blk.winPub ∧ t.blk.winSeq = s.blk.winSeq
      | .rest => t.blk.rest = s.blk.rest
      | .winfmt => t.blk.winfmt = s.blk.winfmt
      | .bars => t.blk.bars = s.blk.bars ∧ t.blk.carr = s.blk.carr
      | .masks => t.blk.masks = s.blk.masks
      | .counts => t.blk.nEmpty = s.blk.nEmpty ∧ t.blk.nFull = s.blk.nFull ∧ t.blk.nPart = s.blk.nPart
      | .migr => t.blk.mig = s.blk.mig
      | .ident => t.blk.part = s.blk.part ∧ t.blk.grid = s.blk.grid ∧ t.blk.blkid = s.blk.blkid ∧ t.blk.core = s.blk.core ∧
          t.blk.lcore = s.blk.lcore ∧ t.blk.legacy = s.blk.legacy ∧ t.blk.winsize = s.blk.winsize ∧ t.blk.argbase = s.blk.argbase ∧
          t.blk.cluidx = s.blk.cluidx ∧ t.blk.clusize = s.blk.clusize ∧ t.blk.winbase = s.blk.winbase ∧ t.blk.regblk = s.blk.regblk ∧
          t.blk.quadk = s.blk.quadk ∧ t.blk.acc = s.blk.acc ∧ t.blk.priv = s.blk.priv
      | .others => t.blocks = s.blocks ∧ t.blk.groups = s.blk.groups
      | p => p.same s t) : Frame l s t := by
  refine ⟨hk, fun p hp => ?_⟩
  have := h p hp
  cases p <;> simp only [Piece.same, gv_iss hs, gv_iss ht, bv_iss hs, bv_iss ht, fv_iss hs, fv_iss ht] at this ⊢ <;> try exact this
  case phases => exact ⟨by rw [Option.map_some, Option.map_some, this.1], this.2⟩
  case others =>
    refine ⟨fun b hb => ?_, fun g hg => ?_⟩
    · simp [State.block, hk.1, hb, this.1]
    · have hg' : g ≠ t.gkey := by rw [hk.2.1]; exact hg
      simp [State.group, hs, ht, hk.1, hg, hg', this.2]

theorem frame_marked {s : State} (hs : s.iss = true) (i : Instr) : Frame [] s (s.marked i) :=
  frame_iss hs hs ⟨rfl, rfl, rfl⟩ (fun p _ => by cases p <;> simp [State.marked, State.mark, Group.waited, Piece.same])

theorem frame_setS {s : State} (hs : s.iss = true) (i : BitVec 8) (v : W64) : Frame [.sregs] s (s.setS i v) := by
  rw [setS_eq]
  exact frame_iss hs hs ⟨rfl, rfl, rfl⟩ (fun p hp => by cases p <;> simp_all [Piece.same])

theorem frame_setK {s : State} (hs : s.iss = true) (i : BitVec 8) (v : W64) : Frame [.kregs] s (s.setK i v) := by
  rw [setK_eq]
  exact frame_iss hs hs ⟨rfl, rfl, rfl⟩ (fun p hp => by cases p <;> simp_all [Piece.same])

theorem frame_setKLanes {s : State} (hs : s.iss = true) (i : BitVec 8) (a v : W64) :
    Frame [.kregs] s (s.setKLanes i a v) := frame_setK hs i _

theorem frame_writeV {s : State} (hs : s.iss = true) (l : List (Nat × W32)) : Frame [.vregs] s (s.writeV l) :=
  frame_iss hs hs ⟨rfl, rfl, rfl⟩ (fun p hp => by cases p <;> simp_all [Piece.same, State.writeV])

theorem frame_mapLanes {s : State} (hs : s.iss = true) (o : COps) (w : Bool) (f : Nat → Nat) :
    Frame [.vregs] s (s.mapLanes o w f) := frame_writeV hs _

theorem frame_raise {s : State} (hs : s.iss = true) (f : Fl) : Frame [.fpstat] s (s.raise f) :=
  frame_iss hs hs ⟨rfl, rfl, rfl⟩ (fun p hp => by cases p <;> simp_all [Piece.same, State.raise])

theorem frame_mapFlags {s : State} (hs : s.iss = true) (o : COps) (w : Bool) (f : Nat → Nat × Fl) :
    Frame [.vregs, .fpstat] s (s.mapFlags o w f) :=
  (frame_writeV hs _).trans (frame_raise (by simpa using hs) _)

theorem frame_modPart {s : State} (hs : s.iss = true) (p : Nat) (f : Part → Part) : Frame [.parts] s (s.modPart p f) :=
  frame_iss hs hs ⟨rfl, rfl, rfl⟩ (fun q hq => by cases q <;> simp_all [Piece.same, State.modPart])

theorem frame_modCore {s : State} (hs : s.iss = true) (c : Nat) (f : Core → Core) : Frame [.cores] s (s.modCore c f) :=
  frame_iss hs hs ⟨rfl, rfl, rfl⟩ (fun q hq => by cases q <;> simp_all [Piece.same, State.modCore])

/-! ### Returning to the lists -/

theorem frame_stow {s : State} (hs : s.iss = true) : Frame [] s s.stow := by
  have hb := block_stow_self hs
  have hg := group_stow_self hs
  have gv : s.stow.gv = { s.grp with frags := s.grp.frags.put s.fkey s.frag } := by
    simp only [State.gv, stow_bkey, stow_gkey, hg]; rfl
  have bv : s.stow.bv = { s.blk with
      groups := s.blk.groups.put s.gkey { s.grp with frags := s.grp.frags.put s.fkey s.frag } } := by
    simp only [State.bv, stow_bkey, hb]; rfl
  refine ⟨⟨stow_bkey, stow_gkey, stow_fkey⟩, fun p _ => ?_⟩
  cases p <;> simp only [Piece.same, gv, bv, gv_iss hs, bv_iss hs, fv_iss hs, fv_stow hs] <;> try simp
  case others => exact ⟨fun b h => block_stow_ne h, fun g h => group_stow_ne hs h⟩

/-! ### Fragments and joins change nothing else of a group -/

/-- A group without its fragments and joins. -/
def Group.bare (g : Group) : Group := { g with frags := [], joins := [], handler := 0 }

theorem bare_with (g : Group) (f : KL Fragment) (j : KL JoinRec) (h : Nat) :
    ({ g with frags := f, joins := j, handler := h } : Group).bare = g.bare := rfl

@[simp] theorem bare_dropJoin (g : Group) (r : Nat) : (g.dropJoin r).bare = g.bare := rfl

theorem bare_fillN (n : Nat) (g : Group) (used : Nat) : (g.fillN n used).bare = g.bare := by
  induction n generalizing g with
  | zero => rfl
  | succ n ih =>
    simp only [Group.fillN]
    split
    · split
      · exact (ih _).trans rfl
      · rfl
    · rfl

@[simp] theorem bare_fill (g : Group) : g.fill.bare = g.bare := bare_fillN 4 g 0

@[simp] theorem bare_spill (g : Group) (used : Nat) : (g.spill used).bare = g.bare := by
  simp only [Group.spill]
  split
  · rfl
  · split <;> rfl

@[simp] theorem bare_fuse (g : Group) (r : Nat) : (g.fuse r).1.bare = g.bare := by
  simp only [Group.fuse]
  split
  · rfl
  · split
    · simp
    · split
      · split
        · simp
        · simp only [bare_fill, bare_dropJoin]; rfl
      · rfl

theorem bare_leaveJoins (g : Group) (em : W64) (l : List Nat) : (g.leaveJoins em l).1.bare = g.bare := by
  simp only [Group.leaveJoins]
  suffices h : ∀ (a : Group × List Nat), (l.foldl (fun (a : Group × List Nat) r =>
      let g1 := { a.1 with joins := a.1.joins.mod r (fun j => { j with expected := j.expected &&& ~~~em }) }
      let x := g1.fuse r
      (x.1, a.2 ++ x.2.toList)) a).1.bare = a.1.bare from h (g, [])
  induction l with
  | nil => intro a; rfl
  | cons r l ih => intro a; rw [List.foldl_cons, ih]; simp only [bare_fuse]; rfl

theorem bare_arrive (n : Nat) (g : Group) (now : Nat) (l : List Nat) : (g.arrive n now l).bare = g.bare := by
  induction n generalizing g l with
  | zero => rfl
  | succ n ih =>
    cases l with
    | nil => rfl
    | cons i more =>
      simp only [Group.arrive]
      split
      · exact ih _ _
      · split
        · exact ih _ _
        · rw [ih, bare_fuse]
          have := bare_leaveJoins
          exact (this _ _ _).trans rfl

/-- Two groups that are the same without fragments and joins. -/
theorem bare_fields {g h : Group} (e : h.bare = g.bare) :
    h.sregs = g.sregs ∧ h.vregs = g.vregs ∧ h.kregs = g.kregs ∧ h.tregs = g.tregs ∧ h.toks = g.toks ∧ h.fpstat = g.fpstat ∧
    h.fmask = g.fmask ∧ h.viol = g.viol ∧ h.trap = g.trap ∧ h.role = g.role ∧ h.winsel = g.winsel ∧ h.vblk = g.vblk ∧
    h.pend = g.pend ∧ h.arrived = g.arrived ∧ h.stores = g.stores ∧ h.loads = g.loads ∧
    h.held = g.held ∧ h.seen = g.seen ∧ h.stop = g.stop ∧ h.slot = g.slot ∧ h.quad = g.quad ∧ h.plevel = g.plevel ∧ h.pbase = g.pbase := by
  simp only [Group.bare, Group.mk.injEq] at e
  simp_all

/-- A change of a resident group's fragments and joins alone. -/
theorem frame_modGroup_bare {s : State} (hs : s.iss = false) {x : Block} (hx : s.blocks.find s.bkey = some x) {g : Group}
    (hg : x.groups.find s.gkey = some g) (f : Group → Group) (hf : (f g).bare = g.bare) :
    Frame [.phases] s (s.modGroup s.bkey s.gkey f) := by
  have e : s.modGroup s.bkey s.gkey f =
      { s with blocks := s.blocks.mod s.bkey (fun x => { x with groups := x.groups.mod s.gkey f }) } := by
    simp [State.modGroup, hs]
  have g1 : s.gv = g := by simp [State.gv, State.group, hs, hx, hg]
  have b1 : s.bv = x := by simp [State.bv, State.block, hs, hx]
  have g2 : (s.modGroup s.bkey s.gkey f).gv = f g := by
    rw [e]; simp [State.gv, State.group, hs, hx, hg]
  have b2 : (s.modGroup s.bkey s.gkey f).bv = { x with groups := x.groups.mod s.gkey f } := by
    rw [e]; simp [State.bv, State.block, hs, hx]
  have e2 := bare_fields hf
  refine ⟨by rw [e]; exact ⟨rfl, rfl, rfl⟩, fun p hp => ?_⟩
  cases p <;> simp only [Piece.same, g1, g2, b1, b2] <;> try (first | exact e2.1 | (simp [e2]; done) | (rw [e]; simp; done) | (rw [e]; done))
  case phases => exact absurd (by simp) hp
  case others =>
    rw [e]
    refine ⟨fun b hb => ?_, fun k hk => ?_⟩
    · simp [State.block, hs, KL.find_mod_ne _ _ (Ne.symm hb)]
    · simp [State.group, hs, hx, KL.find_mod_ne _ _ (Ne.symm hk)]

/-- Away from joins the program counter moves, and nothing else. -/
theorem frame_goto {s : State} (hs : s.iss = true) (pc : W64) (hj : s.atJoin pc = false) : Frame [] s (s.goto pc) := by
  simp only [State.goto, hj, Bool.false_eq_true, if_false]
  exact frame_iss hs hs ⟨rfl, rfl, rfl⟩ (fun p _ => by cases p <;> simp [Piece.same])

/-- With no arrival of the group pending, no pending arrival completes. -/
theorem checkPend_nil {s : State} {b g : Nat} (h : ∀ x, s.group b g = some x → x.pend = []) : s.checkPend b g = s := by
  simp only [State.checkPend]
  split
  · rfl
  · next x hx => rw [h x hx]; rfl

/-- At a join of its stack the fragment parks or fuses; with no arrival pending, nothing outside the group's fragments, their
joins and phases changes. -/
theorem frame_join {s : State} (hs : s.iss = true) (pc : W64) (hj : s.atJoin pc = true) (hp : s.grp.pend = []) :
    Frame [.phases] s (s.goto pc) := by
  let u : State := { s with frag := { s.frag with pc := pc } }
  have hu : u.iss = true := hs
  have h1 : Frame [] s u := frame_iss hs hs ⟨rfl, rfl, rfl⟩ (fun p _ => by cases p <;> simp [Piece.same, u])
  have h2 : Frame [] u u.stow := frame_stow hu
  have h4 : u.stow.blocks.find u.stow.bkey = some { u.blk with
      groups := u.blk.groups.put u.gkey { u.grp with frags := u.grp.frags.put u.fkey u.frag } } := by
    rw [stow_bkey]; simpa [State.block] using block_stow_self hu
  have h5 := frame_modGroup_bare (s := u.stow) stow_iss h4 (g := { u.grp with frags := u.grp.frags.put u.fkey u.frag })
    (by rw [stow_gkey]; simp) (fun g => g.arrive joinFuel u.stow.stamp [s.fkey]) (bare_arrive _ _ _ _)
  have e : s.goto pc = u.stow.settleJoins s.bkey s.gkey [s.fkey] := by
    simp only [State.goto, hj, if_true]; rfl
  have hpend : ∀ x, (u.stow.modGroup s.bkey s.gkey (fun g => g.arrive joinFuel u.stow.stamp [s.fkey])).group s.bkey s.gkey = some x →
      x.pend = [] := by
    intro x hx
    have : (u.stow.modGroup s.bkey s.gkey (fun g => g.arrive joinFuel u.stow.stamp [s.fkey])).group s.bkey s.gkey =
        some (({ u.grp with frags := u.grp.frags.put u.fkey u.frag } : Group).arrive joinFuel u.stow.stamp [s.fkey]) := by
      have hb : u.stow.bkey = s.bkey := stow_bkey
      have hg : u.stow.gkey = s.gkey := stow_gkey
      rw [hb] at h4
      simp [State.modGroup, State.group, stow_iss, h4, show u.gkey = s.gkey from rfl]
    rw [this] at hx
    cases hx
    exact (bare_fields (bare_arrive _ _ _ _)).2.2.2.2.2.2.2.2.2.2.2.2.1.trans hp
  rw [e, State.settleJoins, checkPend_nil hpend]
  rw [stow_bkey, stow_gkey] at h5
  exact h1.after (h2.after h5)

/-- Away from joins, the fragment goes on at the address given. -/
theorem goto_pc {s : State} (hs : s.iss = true) (pc : W64) (hj : s.atJoin pc = false) :
    (s.goto pc).fv.map (·.pc) = some pc := by
  simp only [State.goto, hj, Bool.false_eq_true, if_false]
  rw [fv_iss (s := { s with frag := { s.frag with pc := pc } }) hs]; rfl

/-! ### Issue -/

theorem issue_ok {i : Instr} {s : State} (h : s.Clear i) {body : State → Except Stop State} {t : State}
    (hb : body (s.marked i) = .ok t) : issue i s body = .next t := by
  simp [issue, h.iss, h.waits, h.tokens, h.regs, h.owed, h.serving, hb]

theorem issue_error {i : Instr} {s : State} (h : s.Clear i) {body : State → Except Stop State} {e : Stop}
    (hb : body (s.marked i) = .error e) : issue i s body = .next (s.stopped i e) := by
  simp [issue, h.iss, h.waits, h.tokens, h.regs, h.owed, h.serving, hb]

/-- An instruction whose effect makes a state `u`, from which its fragment goes on. -/
theorem goesOn_of {i : Instr} {s u : State} {P : State → Prop} (h : s.Clear i) {body : State → Except Stop State}
    (he : exec i s = issue i s body) (hb : body (s.marked i) = .ok (u.advance i)) (hu : u.iss = true)
    (hf : u.frag.pc = s.frag.pc ∧ u.frag.em = s.frag.em ∧ u.frag.joins = s.frag.joins) (hp : P u) : GoesOn i s P :=
  ⟨u.advance i, he.trans (issue_ok h hb), u, ⟨hu, hf.1, hf.2.1, hf.2.2, by rw [State.advance, hf.1]⟩, hp⟩

end Sys2Proof.Machine
end

