-- ==== Sys2Proof/Laws/Memory.lean ====
section
/-!
SUPPORT. Memory: what a write changes, and that every operation over memory keeps its canonical form.
-/

namespace Sys2Proof.Machine

/-! ### Bytes -/

theorem mem_seqFrom {k a : Nat} {x : Byte} {bs : List Byte} (h : (a, x) ∈ seqFrom k bs) :
    k ≤ a ∧ a < k + bs.length ∧ x = bs.getD (a - k) 0 := by
  induction bs generalizing k with
  | nil => cases h
  | cons b bs ih =>
    simp only [seqFrom, List.mem_cons, Prod.mk.injEq] at h
    rcases h with ⟨rfl, rfl⟩ | h
    · simp
    · obtain ⟨h1, h2, h3⟩ := ih h
      refine ⟨by omega, by simp only [List.length_cons]; omega, ?_⟩
      rw [h3, show a - k = (a - (k + 1)) + 1 by omega, List.getD_cons_succ]

theorem seqFrom_mem {k a : Nat} {bs : List Byte} (h1 : k ≤ a) (h2 : a < k + bs.length) : (a, bs.getD (a - k) 0) ∈ seqFrom k bs := by
  induction bs generalizing k with
  | nil => simp at h2; omega
  | cons b bs ih =>
    simp only [seqFrom, List.mem_cons, Prod.mk.injEq]
    by_cases h : a = k
    · subst h; simp
    · right
      have := ih (k := k + 1) (by omega) (by simp only [List.length_cons] at h2; omega)
      rwa [show a - k = (a - (k + 1)) + 1 by omega, List.getD_cons_succ]

/-- What a write of consecutive bytes leaves at a key. -/
theorem Memory.byte_write (m : Memory) (k : Nat) (bs : List Byte) (q : Nat) :
    (m.write k bs).byte q = if k ≤ q ∧ q < k + bs.length then bs.getD (q - k) 0 else m.byte q := by
  split
  · next h =>
    refine SMap.get_setAll_of_mem m _ q _ (seqFrom_mem h.1 h.2) (fun p hp hq => ?_)
    obtain ⟨a, x⟩ := p
    subst hq
    exact (mem_seqFrom hp).2.2
  · next h =>
    refine SMap.get_setAll_of_not_mem m _ q (fun p hp hq => h ?_)
    obtain ⟨a, x⟩ := p
    subst hq
    exact ⟨(mem_seqFrom hp).1, (mem_seqFrom hp).2.1⟩

theorem Memory.wf_nil : Memory.wf [] = true := rfl

/-- Every write keeps the canonical form. -/
theorem Memory.wf_write {m : Memory} (h : m.wf = true) (k : Nat) (bs : List Byte) : (m.write k bs).wf = true := SMap.wf_setAll h _

variable {s : State}

theorem pokeBytes_mem (k : Nat) (bs : List Byte) : (s.pokeBytes k bs).mem = s.mem.write k bs := rfl

/-- Writing bytes puts them there, and changes no other byte. -/
theorem pokeBytes_puts (k : Nat) (bs : List Byte) : PutsBytes s (s.pokeBytes k bs) k bs := fun q => by
  rw [pokeBytes_mem]; exact s.mem.byte_write k bs q

/-! ### The operations that write memory keep its form -/

theorem wf_poke (h : s.mem.wf = true) (l : List (Nat × Byte)) : (s.poke l).mem.wf = true := SMap.wf_setAll h l
theorem wf_pokeBytes (h : s.mem.wf = true) (k : Nat) (bs : List Byte) : (s.pokeBytes k bs).mem.wf = true := wf_poke h _

/-- A fold of steps that keep the form keeps it. -/
theorem wf_foldl {α : Type} {f : State → α → State} (hf : ∀ t a, t.mem.wf = true → (f t a).mem.wf = true) (l : List α) {t : State}
    (h : t.mem.wf = true) : (l.foldl f t).mem.wf = true := by
  induction l generalizing t with
  | nil => exact h
  | cons a l ih => exact ih (hf t a h)

/-- A fold that keeps the form of the state it carries beside other data keeps it. -/
theorem wf_foldl_fst {α β : Type} {f : State × β → α → State × β} (hf : ∀ t a, t.1.mem.wf = true → (f t a).1.mem.wf = true) (l : List α)
    {t : State × β} (h : t.1.mem.wf = true) : (l.foldl f t).1.mem.wf = true := by
  induction l generalizing t with
  | nil => exact h
  | cons a l ih => exact ih (hf t a h)

/-- Bytes that programs and the host write keep the form: of those the device alone writes, none is written. -/
theorem wf_pokeSoft (h : s.mem.wf = true) (l : List (Nat × Byte)) : (s.pokeSoft l).mem.wf = true := SMap.wf_setAll h _

theorem wf_leafOf (h : s.mem.wf = true) (p k c va : Nat) : (s.leafOf p k c va).1.mem.wf = true := by
  unfold State.leafOf
  split
  · exact h
  · split
    · exact h
    · split
      · exact h
      · split
        · split
          · exact h
          · dsimp only
            rw [modPart_mem]
            split
            · exact h
            · exact wf_pokeBytes h _ _
        · exact h

theorem xlate_fst (p k c va : Nat) (acc : Acc) : (s.xlate p k c va acc).1 = (s.leafOf p k c va).1 := by
  unfold State.xlate
  split <;> next hl => simp [hl]

/-- A translation keeps the form: it sets A in an entry at most. -/
theorem wf_xlate (h : s.mem.wf = true) (p k c va : Nat) (acc : Acc) : (s.xlate p k c va acc).1.mem.wf = true := by
  rw [xlate_fst]; exact wf_leafOf h p k c va

theorem wf_logDirty (h : s.mem.wf = true) (p c : Nat) (t : TlbEnt) : (s.logDirty p c t).mem.wf = true := by
  unfold State.logDirty
  split
  · exact h
  · dsimp only
    split
    · exact h
    · split
      · exact wf_pokeBytes h _ _
      · exact wf_pokeBytes (wf_pokeBytes h _ _) _ _

theorem wf_dirty (h : s.mem.wf = true) (p k c va : Nat) : (s.dirty p k c va).1.mem.wf = true := by
  have hl := wf_leafOf h p k c va
  unfold State.dirty
  split
  · next s1 f he => rw [he] at hl; exact hl
  · next s1 t he =>
    rw [he] at hl
    split
    · exact hl
    · exact wf_logDirty (by rw [modPart_mem]; exact wf_pokeBytes hl _ _) p c t

/-- The look at whether a write can be made keeps the form. -/
theorem wf_homeStop (h : s.mem.wf = true) (p k c va : Nat) : (s.homeStop p k c va).1.mem.wf = true := by
  have hl := wf_leafOf h p k c va
  unfold State.homeStop
  split
  · next s1 f he => rw [he] at hl; exact hl
  · next s1 t he => rw [he] at hl; split <;> exact hl

theorem wf_lost (l : List Nat) {t : State} (h : t.mem.wf = true) (p k c : Nat) : (t.lost p k c l).1.mem.wf = true := by
  induction l generalizing t with
  | nil => exact h
  | cons va l ih =>
    have hl := wf_homeStop h p k c va
    simp only [State.lost]
    split
    · next s1 f he => rw [he] at hl; exact hl
    · next s1 e he => rw [he] at hl; exact ih hl

/-- Bytes that go home through a translation keep the form. -/
theorem wf_writeVirt (h : s.mem.wf = true) (p k c : Nat) (l : List StoreByte) : (s.writeVirt p k c l).1.mem.wf = true := by
  have hl := wf_lost (l.map (·.at_)) h p k c
  unfold State.writeVirt
  split
  · next s1 f he => rw [he] at hl; exact hl
  · next s1 he =>
    rw [he] at hl
    dsimp only
    refine wf_pokeSoft ?_ _
    refine wf_foldl_fst (fun a b ha => ?_) l (t := (s1, [])) hl
    have hd := wf_dirty ha p k c b.at_
    split <;> next u q hq => rw [hq] at hd; exact hd

@[simp] theorem modBlock_mem (b : Nat) (f : Block → Block) : (s.modBlock b f).mem = s.mem := by
  unfold State.modBlock; split <;> rfl

@[simp] theorem modGroup_mem (b g : Nat) (f : Group → Group) : (s.modGroup b g f).mem = s.mem := by
  unfold State.modGroup; split
  · split <;> rfl
  · rfl

theorem wf_flushRecs (n : Nat) {t : State} (h : t.mem.wf = true) (p : Nat) : (State.flushRecs n t p).mem.wf = true := by
  induction n generalizing t with
  | zero => exact h
  | succ n ih =>
    simp only [State.flushRecs]
    split
    · exact h
    · split
      · exact h
      · split
        · exact h
        · refine ih ?_
          have hp := wf_pokeBytes h
          split <;> exact hp _ _

/-- A fault record that is written keeps the form. -/
theorem wf_record (h : s.mem.wf = true) (p : Nat) (w : List W64) (o : Option Outst) : (s.record p w o).mem.wf = true :=
  wf_flushRecs _ (by rw [modPart_mem]; exact h) p

theorem wf_homeFault (h : s.mem.wf = true) (p c : Nat) (o : Origin) (va : Nat) (f : XFault) :
    (s.homeFault p c o va f).1.mem.wf = true := by
  unfold State.homeFault
  cases f <;> dsimp only
  case miss => split
               · exact h
               · exact wf_record h _ _ _
  all_goals exact wf_record h _ _ _

@[simp] theorem mapGroups_mem (f : Group → Group) : (s.mapGroups f).mem = s.mem := rfl
@[simp] theorem mapStores_mem (f : List StoreEnt → List StoreEnt) : (s.mapStores f).mem = s.mem := rfl

/-- That results give way to later stores moves no byte of memory. -/
@[simp] theorem overResults_mem (j k : List Nat) (w : List (Nat × Nat)) : (s.overResults j k w).mem = s.mem := by
  unfold State.overResults
  split <;> rfl

/-- A store that reaches its home keeps the form. -/
theorem wf_home (h : s.mem.wf = true) (b p : Nat) (e : StoreEnt) : (s.home b p e).1.mem.wf = true := by
  have hm : ∀ k c : Nat, (match s.writeVirt p k c e.bytes with
      | (s1, none) => (s1.overResults e.org.past (e.bytes.map StoreByte.key) [], true)
      | (s1, some f) => s1.homeFault p c e.org f.1 f.2).1.mem.wf = true := by
    intro k c
    have hw := wf_writeVirt h p k c e.bytes
    split
    · next s1 he => rw [he] at hw; rw [overResults_mem]; exact hw
    · next s1 f he => rw [he] at hw; exact wf_homeFault hw _ _ _ _ _
  unfold State.home
  dsimp only
  split
  · exact hm _ _
  · exact hm _ _
  · rw [overResults_mem]; exact wf_pokeSoft h _
  · rw [overResults_mem, modBlock_mem]; exact h
  · rw [modBlock_mem]; exact h

/-- Stores that go home keep the form. -/
theorem wf_sendHome (h : s.mem.wf = true) (b p : Nat) (out : StoreEnt → Bool) (l : List StoreEnt) :
    (s.sendHome b p out l).1.mem.wf = true := by
  unfold State.sendHome
  refine wf_foldl_fst (fun t a ht => ?_) _ h
  split
  · dsimp only
    split <;> exact wf_home ht _ _ _
  · exact ht

theorem wf_groupHome (h : s.mem.wf = true) (b g : Nat) (out : StoreEnt → Bool) : (s.groupHome b g out).mem.wf = true := by
  unfold State.groupHome
  split
  · split
    · dsimp only
      rw [modGroup_mem]
      exact wf_sendHome h _ _ _ _
    · exact h
  · exact h

theorem wf_bringHome (h : s.mem.wf = true) (pick : Nat → Block → Nat → StoreEnt → Bool) : (s.bringHome pick).mem.wf = true :=
  wf_foldl (fun _ _ ht => wf_groupHome ht _ _ _) _ h

theorem wf_flushAt (h : s.mem.wf = true) (b g : Nat) : (s.flushAt b g).mem.wf = true := wf_bringHome h _
theorem wf_acquire (h : s.mem.wf = true) (n : Nat) : (s.acquire n).mem.wf = true := wf_bringHome h _

@[simp] theorem showEngine_mem (b g : Nat) (pick : StoreEnt → Bool) : (s.showEngine b g pick).mem = s.mem := by
  unfold State.showEngine
  split
  · rfl
  · dsimp only
    split
    · rw [modBlock_mem, modGroup_mem]
    · rfl

@[simp] theorem showOwn_mem (b g : Nat) : (s.showOwn b g).mem = s.mem := by
  unfold State.showOwn
  split
  · rfl
  · exact showEngine_mem _ _ _

@[simp] theorem markRead_mem (b g n : Nat) : (s.markRead b g n).mem = s.mem := by
  unfold State.markRead
  split
  · rfl
  · split <;> rfl

theorem wf_publishAt (h : s.mem.wf = true) (b g n : Nat) : (s.publishAt b g n).mem.wf = true := by
  have h1 : ((s.flushAt b g).showOwn b g).mem.wf = true := by rw [showOwn_mem]; exact wf_flushAt h b g
  have h2 : ∀ t : State, t.mem.wf = true → ∀ c : Bool, (if c then ((t.markRead b g n).modGroup b g (fun x => x.publish n)).flushAt b g
      else (t.markRead b g n).modGroup b g (fun x => x.publish n)).mem.wf = true := by
    intro t ht c
    have : ((t.markRead b g n).modGroup b g (fun x => x.publish n)).mem.wf = true := by rw [modGroup_mem, markRead_mem]; exact ht
    cases c
    · exact this
    · exact wf_flushAt this b g
  unfold State.publishAt
  refine h2 _ ?_ _
  split
  · exact h1
  · split
    · exact h1
    · dsimp only
      rw [modBlock_mem]
      exact wf_foldl (fun t a ht => wf_home ht _ _ _) _ h1

/-- A boundary keeps the form. -/
theorem wf_release (h : s.mem.wf = true) (n : Nat) : (s.release n).mem.wf = true := wf_flushAt (wf_publishAt h _ _ _) _ _
theorem wf_boundary (h : s.mem.wf = true) (n : Nat) : (s.boundary n).mem.wf = true := wf_acquire (wf_release h n) n

theorem wf_stow (h : s.mem.wf = true) : s.stow.mem.wf = true := by rw [stow_mem]; exact h

end Sys2Proof.Machine
end

