-- ==== Sys2Proof/Laws/PerInstr.lean ====
section
/-!
SUPPORT. For every constructor: the words of an instruction name that instruction (R142 to R156).
-/

namespace Sys2Proof

/-! ### Fields of a word put together from fields -/

theorem fld_or (a b : W64) (lo n : Nat) : fld (a ||| b) lo n = fld a lo n ||| fld b lo n := by
  apply BitVec.eq_of_getLsbD_eq; intro i hi; simp [fld, Bool.and_or_distrib_left]

theorem getLsbD_put {n : Nat} (x : BitVec n) (lo i : Nat) :
    (put x.toNat lo).getLsbD i = (decide (i < 64) && (decide (lo ≤ i) && x.getLsbD (i - lo))) := by
  simp only [put, BitVec.getLsbD_ofNat, Nat.testBit_shiftLeft, BitVec.testBit_toNat]

theorem fld_put_self {n : Nat} (x : BitVec n) (lo : Nat) (h : lo + n ≤ 64) : fld (put x.toNat lo) lo n = x := by
  apply BitVec.eq_of_getLsbD_eq
  intro i hi
  have : lo + i < 64 := by omega
  rw [fld, BitVec.getLsbD_extractLsb', getLsbD_put]
  simp [hi, this]

theorem fld_put_ne {n : Nat} (x : BitVec n) (lo p m : Nat) (h : lo + n ≤ p ∨ p + m ≤ lo) :
    fld (put x.toNat lo) p m = 0#m := by
  apply BitVec.eq_of_getLsbD_eq
  intro i hi
  rw [fld, BitVec.getLsbD_extractLsb', getLsbD_put, BitVec.getLsbD_zero]
  rcases h with h | h
  · rw [BitVec.getLsbD_of_ge x _ (by omega)]; simp
  · have : ¬ lo ≤ p + i := by omega
    simp [this]

theorem put_bool (b : Bool) (lo : Nat) : put (b2n b) lo = put (BitVec.ofBool b).toNat lo := by cases b <;> rfl

theorem put_nat {f n : Nat} (h : f < 2 ^ n) (lo : Nat) : put f lo = put (BitVec.ofNat n f).toNat lo := by
  simp [Nat.mod_eq_of_lt h]

theorem put_zero4 (lo : Nat) : put (0#4).toNat lo = 0 := by simp [put]

theorem getLsbD_fld (w : W64) (i : Nat) : w.getLsbD i = (fld w i 1 == 1#1) := by
  have : fld w i 1 = BitVec.ofBool (w.getLsbD i) := by
    apply BitVec.eq_of_getLsbD_eq; intro j hj
    have : j = 0 := by omega
    subst this
    cases h : w.getLsbD i <;> simp [fld, h]
  rw [this]; cases w.getLsbD i <;> rfl

theorem bits_fld (w : W64) (lo n : Nat) : bits w.toNat lo n = (fld w lo n).toNat := by
  simp [bits, fld]

theorem fld_zero (lo n : Nat) : fld (0 : W64) lo n = 0#n := by simp [fld]

theorem bool_field (b : Bool) : (BitVec.ofBool b == 1#1) = b := by cases b <;> rfl

theorem zero_field : (0#1 == 1#1) = false := rfl

/-! ### The fields of each format -/

section
variable {op sub : Nat} (hop : op < 256) (hsub : sub < 16)
include hop hsub

theorem op_encC (o : COps) : bits (encC op sub o).1.toNat 0 8 = op ∧ bits (encC op sub o).1.toNat 8 4 = sub := by
  rw [bits_fld, bits_fld]
  simp (disch := decide) only [encC, encCommon, put_bool, put_nat (n := 8) hop, put_nat (n := 4) hsub, fld_or,
    fld_put_self, fld_put_ne, BitVec.or_zero, BitVec.zero_or]
  simp only [BitVec.toNat_ofNat]
  exact ⟨Nat.mod_eq_of_lt hop, Nat.mod_eq_of_lt hsub⟩

theorem cFields_encC (o : COps) : cFields (encC op sub o).1 ((encC op sub o).2.getD 0) = o := by
  cases o with
  | mk wait guard neg x sa sb sc d a b c imm =>
    simp (disch := decide) only [cFields, isLong, getLsbD_fld, encC, encCommon, put_bool, put_nat (n := 8) hop,
      put_nat (n := 4) hsub, fld_or, fld_put_self, fld_put_ne, BitVec.or_zero, BitVec.zero_or, bool_field]
    cases imm <;> simp

theorem op_encJ (o : JOps) : bits (encJ op sub o).1.toNat 0 8 = op ∧ bits (encJ op sub o).1.toNat 8 4 = sub := by
  rw [bits_fld, bits_fld]
  simp (disch := decide) only [encJ, encCommon, put_bool, put_nat (n := 8) hop, put_nat (n := 4) hsub, fld_or,
    fld_put_self, fld_put_ne, BitVec.or_zero, BitVec.zero_or]
  simp only [BitVec.toNat_ofNat]
  exact ⟨Nat.mod_eq_of_lt hop, Nat.mod_eq_of_lt hsub⟩

theorem jFields_encJ (o : JOps) : jFields (encJ op sub o).1 ((encJ op sub o).2.getD 0) = o := by
  cases o with
  | mk wait creg tgt joff =>
    simp (disch := decide) only [jFields, isLong, getLsbD_fld, encJ, encCommon, put_bool, put_nat (n := 8) hop,
      put_nat (n := 4) hsub, fld_or, fld_put_self, fld_put_ne, BitVec.or_zero, BitVec.zero_or, bool_field]
    cases joff <;> simp (disch := decide) [fld_put_self]

theorem op_encM (o : MOps) : bits (encM op sub o).1.toNat 0 8 = op ∧ bits (encM op sub o).1.toNat 8 4 = sub := by
  rw [bits_fld, bits_fld]
  simp (disch := decide) only [encM, encCommon, put_bool, put_nat (n := 8) hop, put_nat (n := 4) hsub, fld_or,
    fld_put_self, fld_put_ne, BitVec.or_zero, BitVec.zero_or]
  simp only [BitVec.toNat_ofNat]
  exact ⟨Nat.mod_eq_of_lt hop, Nat.mod_eq_of_lt hsub⟩

theorem mFields_encM (o : MOps) : mFields (encM op sub o).1 ((encM op sub o).2.getD 0) = o := by
  cases o with
  | mk wait guard neg ty scale idx ofs7 d a b long =>
    simp (disch := decide) only [mFields, isLong, getLsbD_fld, encM, encCommon, put_bool, put_nat (n := 8) hop,
      put_nat (n := 4) hsub, fld_or, fld_put_self, fld_put_ne, BitVec.or_zero, BitVec.zero_or, bool_field]
    cases long with
    | none => simp
    | some e =>
      simp (disch := decide) only [Option.isSome_some, Option.map_some, Option.getD_some, if_true, fld_or, fld_put_self,
        fld_put_ne, BitVec.or_zero, BitVec.zero_or, bool_field]

theorem op_encT (o : TOps) : bits (encT op sub o).1.toNat 0 8 = op ∧ bits (encT op sub o).1.toNat 8 4 = sub := by
  rw [bits_fld, bits_fld]
  simp (disch := decide) only [encT, encCommon, put_bool, put_nat (n := 8) hop, put_nat (n := 4) hsub, fld_or,
    fld_put_self, fld_put_ne, BitVec.or_zero, BitVec.zero_or]
  simp only [BitVec.toNat_ofNat]
  exact ⟨Nat.mod_eq_of_lt hop, Nat.mod_eq_of_lt hsub⟩

theorem tFields_encT (o : TOps) : tFields (encT op sub o).1 ((encT op sub o).2.getD 0) = o := by
  cases o with
  | mk wait guard neg x sb tok cred bar d a b long =>
    simp (disch := decide) only [tFields, isLong, getLsbD_fld, encT, encCommon, put_bool, put_nat (n := 8) hop,
      put_nat (n := 4) hsub, fld_or, fld_put_self, fld_put_ne, BitVec.or_zero, BitVec.zero_or, bool_field]
    cases long with
    | none => simp
    | some e =>
      simp (disch := decide) only [Option.isSome_some, Option.map_some, Option.getD_some, if_true, fld_or, fld_put_self,
        fld_put_ne, BitVec.or_zero, BitVec.zero_or]

theorem op_encX (o : XOps) : bits (encX op sub o).1.toNat 0 8 = op ∧ bits (encX op sub o).1.toNat 8 4 = sub := by
  rw [bits_fld, bits_fld]
  simp (disch := decide) only [encX, encCommon, put_bool, put_nat (n := 8) hop, put_nat (n := 4) hsub, fld_or,
    fld_put_self, fld_put_ne, BitVec.or_zero, BitVec.zero_or]
  simp only [BitVec.toNat_ofNat]
  exact ⟨Nat.mod_eq_of_lt hop, Nat.mod_eq_of_lt hsub⟩

theorem xFields_encX (o : XOps) : xFields (encX op sub o).1 = o := by
  cases o with
  | mk wait ty cmp hdr d a b c =>
    simp (disch := decide) only [xFields, getLsbD_fld, encX, encCommon, put_bool, put_nat (n := 8) hop,
      put_nat (n := 4) hsub, fld_or, fld_put_self, fld_put_ne, BitVec.or_zero, BitVec.zero_or, bool_field]

theorem op_encK (o : KOps) : bits (encK op sub o).1.toNat 0 8 = op ∧ bits (encK op sub o).1.toNat 8 4 = sub := by
  rw [bits_fld, bits_fld]
  simp (disch := decide) only [encK, encCommon, put_bool, put_nat (n := 8) hop, put_nat (n := 4) hsub, fld_or,
    fld_put_self, fld_put_ne, BitVec.or_zero, BitVec.zero_or]
  simp only [BitVec.toNat_ofNat]
  exact ⟨Nat.mod_eq_of_lt hop, Nat.mod_eq_of_lt hsub⟩

theorem kFields_encK (o : KOps) : kFields (encK op sub o).1 = o := by
  cases o with
  | mk wait psel d a b c =>
    simp (disch := decide) only [kFields, encK, encCommon, put_bool, put_nat (n := 8) hop,
      put_nat (n := 4) hsub, fld_or, fld_put_self, fld_put_ne, BitVec.or_zero, BitVec.zero_or]

end

/-! ### Every instruction -/

namespace Laws.Encodes

/-- The words of a well-formed instruction name it, with every operand it has; an event is no well-formed instruction. -/
def Statement (i : Instr) : Prop :=
  i.wf .full = true → ∃ p, encode i = some p ∧ build p.1 (p.2.getD 0) = some i

theorem ofC {i : Instr} {op sub : Nat} {o : COps} (hop : op < 256) (hsub : sub < 16)
    (he : encode i = some (encC op sub o))
    (hb : ∀ (j : JOps) (m : MOps) (t : TOps) (x : XOps) (k : KOps), ofPair op sub o j m t x k = some i) : Statement i := by
  intro _
  refine ⟨_, he, ?_⟩
  obtain ⟨h1, h2⟩ := op_encC hop hsub o
  rw [build, h1, h2, cFields_encC hop hsub]
  exact hb _ _ _ _ _

theorem ofJ {i : Instr} {op sub : Nat} {j : JOps} (hop : op < 256) (hsub : sub < 16)
    (he : encode i = some (encJ op sub j))
    (hb : ∀ (o : COps) (m : MOps) (t : TOps) (x : XOps) (k : KOps), ofPair op sub o j m t x k = some i) : Statement i := by
  intro _
  refine ⟨_, he, ?_⟩
  obtain ⟨h1, h2⟩ := op_encJ hop hsub j
  rw [build, h1, h2, jFields_encJ hop hsub]
  exact hb _ _ _ _ _

theorem ofM {i : Instr} {op sub : Nat} {m : MOps} (hop : op < 256) (hsub : sub < 16)
    (he : encode i = some (encM op sub m))
    (hb : ∀ (o : COps) (j : JOps) (t : TOps) (x : XOps) (k : KOps), ofPair op sub o j m t x k = some i) : Statement i := by
  intro _
  refine ⟨_, he, ?_⟩
  obtain ⟨h1, h2⟩ := op_encM hop hsub m
  rw [build, h1, h2, mFields_encM hop hsub]
  exact hb _ _ _ _ _

theorem ofT {i : Instr} {op sub : Nat} {t : TOps} (hop : op < 256) (hsub : sub < 16)
    (he : encode i = some (encT op sub t))
    (hb : ∀ (o : COps) (j : JOps) (m : MOps) (x : XOps) (k : KOps), ofPair op sub o j m t x k = some i) : Statement i := by
  intro _
  refine ⟨_, he, ?_⟩
  obtain ⟨h1, h2⟩ := op_encT hop hsub t
  rw [build, h1, h2, tFields_encT hop hsub]
  exact hb _ _ _ _ _

theorem ofX {i : Instr} {op sub : Nat} {x : XOps} (hop : op < 256) (hsub : sub < 16)
    (he : encode i = some (encX op sub x))
    (hb : ∀ (o : COps) (j : JOps) (m : MOps) (t : TOps) (k : KOps), ofPair op sub o j m t x k = some i) : Statement i := by
  intro _
  refine ⟨_, he, ?_⟩
  obtain ⟨h1, h2⟩ := op_encX hop hsub x
  rw [build, h1, h2, xFields_encX hop hsub]
  exact hb _ _ _ _ _

theorem ofK {i : Instr} {op sub : Nat} {k : KOps} (hop : op < 256) (hsub : sub < 16)
    (he : encode i = some (encK op sub k))
    (hb : ∀ (o : COps) (j : JOps) (m : MOps) (t : TOps) (x : XOps), ofPair op sub o j m t x k = some i) : Statement i := by
  intro _
  refine ⟨_, he, ?_⟩
  obtain ⟨h1, h2⟩ := op_encK hop hsub k
  rw [build, h1, h2, kFields_encK hop hsub]
  exact hb _ _ _ _ _
theorem nop (o : COps) : Statement (.nop o) := ofC (by decide) (by decide) rfl (fun _ _ _ _ _ => rfl)
theorem br (o : JOps) : Statement (.br o) := ofJ (by decide) (by decide) rfl (fun _ _ _ _ _ => rfl)
theorem call (o : JOps) : Statement (.call o) := ofJ (by decide) (by decide) rfl (fun _ _ _ _ _ => rfl)
theorem brR (o : COps) : Statement (.brR o) := ofC (by decide) (by decide) rfl (fun _ _ _ _ _ => rfl)
theorem callR (o : COps) : Statement (.callR o) := ofC (by decide) (by decide) rfl (fun _ _ _ _ _ => rfl)
theorem ret (o : COps) : Statement (.ret o) := ofC (by decide) (by decide) rfl (fun _ _ _ _ _ => rfl)
theorem brc (cc : ZCond) (o : JOps) : Statement (.brc cc o) := by
  cases cc <;> exact ofJ (by decide) (by decide) rfl (fun _ _ _ _ _ => rfl)
theorem brv (o : JOps) : Statement (.brv o) := ofJ (by decide) (by decide) rfl (fun _ _ _ _ _ => rfl)
theorem brvN (o : JOps) : Statement (.brvN o) := ofJ (by decide) (by decide) rfl (fun _ _ _ _ _ => rfl)
theorem exit (o : COps) : Statement (.exit o) := ofC (by decide) (by decide) rfl (fun _ _ _ _ _ => rfl)
theorem trap (o : COps) : Statement (.trap o) := ofC (by decide) (by decide) rfl (fun _ _ _ _ _ => rfl)
theorem tret (o : COps) : Statement (.tret o) := ofC (by decide) (by decide) rfl (fun _ _ _ _ _ => rfl)
theorem sleep (o : COps) : Statement (.sleep o) := ofC (by decide) (by decide) rfl (fun _ _ _ _ _ => rfl)
theorem sleepWake (who : FragRef) : Statement (.sleepWake who) := fun h => by cases h
theorem mark (o : COps) : Statement (.mark o) := ofC (by decide) (by decide) rfl (fun _ _ _ _ _ => rfl)
theorem mig (o : COps) : Statement (.mig o) := ofC (by decide) (by decide) rfl (fun _ _ _ _ _ => rfl)
theorem migReq (o : COps) : Statement (.migReq o) := ofC (by decide) (by decide) rfl (fun _ _ _ _ _ => rfl)
theorem brk (o : COps) : Statement (.brk o) := ofC (by decide) (by decide) rfl (fun _ _ _ _ _ => rfl)
theorem scalarAdd (o : COps) : Statement (.scalarAdd o) := ofC (by decide) (by decide) rfl (fun _ _ _ _ _ => rfl)
theorem scalarSub (o : COps) : Statement (.scalarSub o) := ofC (by decide) (by decide) rfl (fun _ _ _ _ _ => rfl)
theorem scalarMul (o : COps) : Statement (.scalarMul o) := ofC (by decide) (by decide) rfl (fun _ _ _ _ _ => rfl)
theorem scalarMulh (o : COps) : Statement (.scalarMulh o) := ofC (by decide) (by decide) rfl (fun _ _ _ _ _ => rfl)
theorem scalarDiv (o : COps) : Statement (.scalarDiv o) := ofC (by decide) (by decide) rfl (fun _ _ _ _ _ => rfl)
theorem scalarRem (o : COps) : Statement (.scalarRem o) := ofC (by decide) (by decide) rfl (fun _ _ _ _ _ => rfl)
theorem scalarAnd (o : COps) : Statement (.scalarAnd o) := ofC (by decide) (by decide) rfl (fun _ _ _ _ _ => rfl)
theorem scalarOr (o : COps) : Statement (.scalarOr o) := ofC (by decide) (by decide) rfl (fun _ _ _ _ _ => rfl)
theorem scalarXor (o : COps) : Statement (.scalarXor o) := ofC (by decide) (by decide) rfl (fun _ _ _ _ _ => rfl)
theorem scalarShl (o : COps) : Statement (.scalarShl o) := ofC (by decide) (by decide) rfl (fun _ _ _ _ _ => rfl)
theorem scalarShr (o : COps) : Statement (.scalarShr o) := ofC (by decide) (by decide) rfl (fun _ _ _ _ _ => rfl)
theorem scalarMin (o : COps) : Statement (.scalarMin o) := ofC (by decide) (by decide) rfl (fun _ _ _ _ _ => rfl)
theorem scalarMax (o : COps) : Statement (.scalarMax o) := ofC (by decide) (by decide) rfl (fun _ _ _ _ _ => rfl)
theorem scalarClz (o : COps) : Statement (.scalarClz o) := ofC (by decide) (by decide) rfl (fun _ _ _ _ _ => rfl)
theorem scalarPopc (o : COps) : Statement (.scalarPopc o) := ofC (by decide) (by decide) rfl (fun _ _ _ _ _ => rfl)
theorem scalarNot (o : COps) : Statement (.scalarNot o) := ofC (by decide) (by decide) rfl (fun _ _ _ _ _ => rfl)
theorem scalarCmp (cc : ICond) (o : COps) : Statement (.scalarCmp cc o) := by
  cases cc <;> exact ofC (by decide) (by decide) rfl (fun _ _ _ _ _ => rfl)
theorem scalarMov (o : COps) : Statement (.scalarMov o) := ofC (by decide) (by decide) rfl (fun _ _ _ _ _ => rfl)
theorem li (o : COps) : Statement (.li o) := ofC (by decide) (by decide) rfl (fun _ _ _ _ _ => rfl)
theorem lea (o : COps) : Statement (.lea o) := ofC (by decide) (by decide) rfl (fun _ _ _ _ _ => rfl)
theorem scalarBfx (o : COps) : Statement (.scalarBfx o) := ofC (by decide) (by decide) rfl (fun _ _ _ _ _ => rfl)
theorem scalarBfi (o : COps) : Statement (.scalarBfi o) := ofC (by decide) (by decide) rfl (fun _ _ _ _ _ => rfl)
theorem scalarSel (o : COps) : Statement (.scalarSel o) := ofC (by decide) (by decide) rfl (fun _ _ _ _ _ => rfl)
theorem sread (o : COps) : Statement (.sread o) := ofC (by decide) (by decide) rfl (fun _ _ _ _ _ => rfl)
theorem of_row {i : Instr} {o : COps} (he : encode i = some (encC 0x13 1 o)) (hi : i.rowOk = true → swriteRow o = i) :
    Statement i := by
  intro h
  have hr : i.rowOk = true := by simp only [Instr.wf, Bool.and_eq_true] at h; exact h.1.2
  exact ofC (by decide) (by decide) he (fun _ _ _ _ _ => congrArg some (hi hr)) h
theorem swrite (o : COps) : Statement (.swrite o) := of_row rfl (fun h => by
  simp only [Instr.rowOk, Bool.not_eq_true', Bool.or_eq_false_iff, decide_eq_false_iff_not] at h
  unfold swriteRow
  split <;> first | rfl | (exfalso; simp_all [BitVec.toNat_eq]))
theorem swriteRole (o : COps) : Statement (.swriteRole o) := of_row rfl (fun h => by
  simp only [Instr.rowOk, decide_eq_true_eq] at h
  simp [swriteRow, h])
theorem swriteFpstat (o : COps) : Statement (.swriteFpstat o) := of_row rfl (fun h => by
  simp only [Instr.rowOk, decide_eq_true_eq] at h
  simp [swriteRow, h])
theorem swriteWinfmt (o : COps) : Statement (.swriteWinfmt o) := of_row rfl (fun h => by
  simp only [Instr.rowOk, decide_eq_true_eq] at h
  simp [swriteRow, h])
theorem swriteTrappc (o : COps) : Statement (.swriteTrappc o) := of_row rfl (fun h => by
  simp only [Instr.rowOk, Bool.or_eq_true, decide_eq_true_eq] at h
  rcases h with h | h <;> simp [swriteRow, h])
theorem swriteFqctl (o : COps) : Statement (.swriteFqctl o) := of_row rfl (fun h => by
  simp only [Instr.rowOk, decide_eq_true_eq] at h
  simp [swriteRow, h])
theorem swriteFqhead (o : COps) : Statement (.swriteFqhead o) := of_row rfl (fun h => by
  simp only [Instr.rowOk, decide_eq_true_eq] at h
  simp [swriteRow, h])
theorem swriteWdog (o : COps) : Statement (.swriteWdog o) := of_row rfl (fun h => by
  simp only [Instr.rowOk, decide_eq_true_eq] at h
  simp [swriteRow, h])
theorem swriteRingCtl (o : COps) : Statement (.swriteRingCtl o) := of_row rfl (fun h => by
  simp only [Instr.rowOk, Bool.or_eq_true, decide_eq_true_eq] at h
  rcases h with (h | h) | h <;> simp [swriteRow, h])
theorem swriteRingHead (o : COps) : Statement (.swriteRingHead o) := of_row rfl (fun h => by
  simp only [Instr.rowOk, Bool.or_eq_true, decide_eq_true_eq] at h
  rcases h with (h | h) | h <;> simp [swriteRow, h])
theorem swriteTrfilt (o : COps) : Statement (.swriteTrfilt o) := of_row rfl (fun h => by
  simp only [Instr.rowOk, decide_eq_true_eq] at h
  simp [swriteRow, h])
theorem scalarLd (o : MOps) : Statement (.scalarLd o) := ofM (by decide) (by decide) rfl (fun _ _ _ _ _ => rfl)
theorem scalarSt (o : MOps) : Statement (.scalarSt o) := ofM (by decide) (by decide) rfl (fun _ _ _ _ _ => rfl)
theorem laneAdd (o : COps) : Statement (.laneAdd o) := ofC (by decide) (by decide) rfl (fun _ _ _ _ _ => rfl)
theorem laneSub (o : COps) : Statement (.laneSub o) := ofC (by decide) (by decide) rfl (fun _ _ _ _ _ => rfl)
theorem laneMul (o : COps) : Statement (.laneMul o) := ofC (by decide) (by decide) rfl (fun _ _ _ _ _ => rfl)
theorem laneMulh (o : COps) : Statement (.laneMulh o) := ofC (by decide) (by decide) rfl (fun _ _ _ _ _ => rfl)
theorem laneAnd (o : COps) : Statement (.laneAnd o) := ofC (by decide) (by decide) rfl (fun _ _ _ _ _ => rfl)
theorem laneOr (o : COps) : Statement (.laneOr o) := ofC (by decide) (by decide) rfl (fun _ _ _ _ _ => rfl)
theorem laneXor (o : COps) : Statement (.laneXor o) := ofC (by decide) (by decide) rfl (fun _ _ _ _ _ => rfl)
theorem laneShl (o : COps) : Statement (.laneShl o) := ofC (by decide) (by decide) rfl (fun _ _ _ _ _ => rfl)
theorem laneShr (o : COps) : Statement (.laneShr o) := ofC (by decide) (by decide) rfl (fun _ _ _ _ _ => rfl)
theorem laneMin (o : COps) : Statement (.laneMin o) := ofC (by decide) (by decide) rfl (fun _ _ _ _ _ => rfl)
theorem laneMax (o : COps) : Statement (.laneMax o) := ofC (by decide) (by decide) rfl (fun _ _ _ _ _ => rfl)
theorem laneClz (o : COps) : Statement (.laneClz o) := ofC (by decide) (by decide) rfl (fun _ _ _ _ _ => rfl)
theorem lanePopc (o : COps) : Statement (.lanePopc o) := ofC (by decide) (by decide) rfl (fun _ _ _ _ _ => rfl)
theorem mad (o : COps) : Statement (.mad o) := ofC (by decide) (by decide) rfl (fun _ _ _ _ _ => rfl)
theorem laneSel (o : COps) : Statement (.laneSel o) := ofC (by decide) (by decide) rfl (fun _ _ _ _ _ => rfl)
theorem laneBfx (o : COps) : Statement (.laneBfx o) := ofC (by decide) (by decide) rfl (fun _ _ _ _ _ => rfl)
theorem laneBfi (o : COps) : Statement (.laneBfi o) := ofC (by decide) (by decide) rfl (fun _ _ _ _ _ => rfl)
theorem laneMov (o : COps) : Statement (.laneMov o) := ofC (by decide) (by decide) rfl (fun _ _ _ _ _ => rfl)
theorem laneCmp (cc : ICond) (o : COps) : Statement (.laneCmp cc o) := by
  cases cc <;> exact ofC (by decide) (by decide) rfl (fun _ _ _ _ _ => rfl)
theorem shfl (o : COps) : Statement (.shfl o) := ofC (by decide) (by decide) rfl (fun _ _ _ _ _ => rfl)
theorem shflUp (o : COps) : Statement (.shflUp o) := ofC (by decide) (by decide) rfl (fun _ _ _ _ _ => rfl)
theorem shflDn (o : COps) : Statement (.shflDn o) := ofC (by decide) (by decide) rfl (fun _ _ _ _ _ => rfl)
theorem shflX (o : COps) : Statement (.shflX o) := ofC (by decide) (by decide) rfl (fun _ _ _ _ _ => rfl)
theorem voteAll (o : COps) : Statement (.voteAll o) := ofC (by decide) (by decide) rfl (fun _ _ _ _ _ => rfl)
theorem voteAny (o : COps) : Statement (.voteAny o) := ofC (by decide) (by decide) rfl (fun _ _ _ _ _ => rfl)
theorem ballot (o : COps) : Statement (.ballot o) := ofC (by decide) (by decide) rfl (fun _ _ _ _ _ => rfl)
theorem laneMatch (o : COps) : Statement (.laneMatch o) := ofC (by decide) (by decide) rfl (fun _ _ _ _ _ => rfl)
theorem scanAdd (o : COps) : Statement (.scanAdd o) := ofC (by decide) (by decide) rfl (fun _ _ _ _ _ => rfl)
theorem scanMax (o : COps) : Statement (.scanMax o) := ofC (by decide) (by decide) rfl (fun _ _ _ _ _ => rfl)
theorem redAdd (o : COps) : Statement (.redAdd o) := ofC (by decide) (by decide) rfl (fun _ _ _ _ _ => rfl)
theorem redMin (o : COps) : Statement (.redMin o) := ofC (by decide) (by decide) rfl (fun _ _ _ _ _ => rfl)
theorem redMax (o : COps) : Statement (.redMax o) := ofC (by decide) (by decide) rfl (fun _ _ _ _ _ => rfl)
theorem redOr (o : COps) : Statement (.redOr o) := ofC (by decide) (by decide) rfl (fun _ _ _ _ _ => rfl)
theorem kand (o : COps) : Statement (.kand o) := ofC (by decide) (by decide) rfl (fun _ _ _ _ _ => rfl)
theorem kor (o : COps) : Statement (.kor o) := ofC (by decide) (by decide) rfl (fun _ _ _ _ _ => rfl)
theorem kxor (o : COps) : Statement (.kxor o) := ofC (by decide) (by decide) rfl (fun _ _ _ _ _ => rfl)
theorem kandn (o : COps) : Statement (.kandn o) := ofC (by decide) (by decide) rfl (fun _ _ _ _ _ => rfl)
theorem kset (o : COps) : Statement (.kset o) := ofC (by decide) (by decide) rfl (fun _ _ _ _ _ => rfl)
theorem kget (o : COps) : Statement (.kget o) := ofC (by decide) (by decide) rfl (fun _ _ _ _ _ => rfl)
theorem addF32 (o : COps) : Statement (.addF32 o) := ofC (by decide) (by decide) rfl (fun _ _ _ _ _ => rfl)
theorem subF32 (o : COps) : Statement (.subF32 o) := ofC (by decide) (by decide) rfl (fun _ _ _ _ _ => rfl)
theorem mulF32 (o : COps) : Statement (.mulF32 o) := ofC (by decide) (by decide) rfl (fun _ _ _ _ _ => rfl)
theorem fmaF32 (o : COps) : Statement (.fmaF32 o) := ofC (by decide) (by decide) rfl (fun _ _ _ _ _ => rfl)
theorem minF32 (o : COps) : Statement (.minF32 o) := ofC (by decide) (by decide) rfl (fun _ _ _ _ _ => rfl)
theorem maxF32 (o : COps) : Statement (.maxF32 o) := ofC (by decide) (by decide) rfl (fun _ _ _ _ _ => rfl)
theorem absF32 (o : COps) : Statement (.absF32 o) := ofC (by decide) (by decide) rfl (fun _ _ _ _ _ => rfl)
theorem negF32 (o : COps) : Statement (.negF32 o) := ofC (by decide) (by decide) rfl (fun _ _ _ _ _ => rfl)
theorem divF32 (o : COps) : Statement (.divF32 o) := ofC (by decide) (by decide) rfl (fun _ _ _ _ _ => rfl)
theorem sqrtF32 (o : COps) : Statement (.sqrtF32 o) := ofC (by decide) (by decide) rfl (fun _ _ _ _ _ => rfl)
theorem rcpF32 (o : COps) : Statement (.rcpF32 o) := ofC (by decide) (by decide) rfl (fun _ _ _ _ _ => rfl)
theorem rsqrtF32 (o : COps) : Statement (.rsqrtF32 o) := ofC (by decide) (by decide) rfl (fun _ _ _ _ _ => rfl)
theorem exp2F32 (o : COps) : Statement (.exp2F32 o) := ofC (by decide) (by decide) rfl (fun _ _ _ _ _ => rfl)
theorem log2F32 (o : COps) : Statement (.log2F32 o) := ofC (by decide) (by decide) rfl (fun _ _ _ _ _ => rfl)
theorem sinF32 (o : COps) : Statement (.sinF32 o) := ofC (by decide) (by decide) rfl (fun _ _ _ _ _ => rfl)
theorem cosF32 (o : COps) : Statement (.cosF32 o) := ofC (by decide) (by decide) rfl (fun _ _ _ _ _ => rfl)
theorem tanhF32 (o : COps) : Statement (.tanhF32 o) := ofC (by decide) (by decide) rfl (fun _ _ _ _ _ => rfl)
theorem packedF16Arith (op : PackOp) (o : COps) : Statement (.packedF16Arith op o) := by
  cases op <;> exact ofC (by decide) (by decide) rfl (fun _ _ _ _ _ => rfl)
theorem packedBf16Arith (op : PackOp) (o : COps) : Statement (.packedBf16Arith op o) := by
  cases op <;> exact ofC (by decide) (by decide) rfl (fun _ _ _ _ _ => rfl)
theorem floatCmp (cc : FCond) (o : COps) : Statement (.floatCmp cc o) := by
  cases cc <;> exact ofC (by decide) (by decide) rfl (fun _ _ _ _ _ => rfl)
theorem cvt (o : COps) : Statement (.cvt o) := ofC (by decide) (by decide) rfl (fun _ _ _ _ _ => rfl)
theorem ldG (o : MOps) : Statement (.ldG o) := ofM (by decide) (by decide) rfl (fun _ _ _ _ _ => rfl)
theorem stG (o : MOps) : Statement (.stG o) := ofM (by decide) (by decide) rfl (fun _ _ _ _ _ => rfl)
theorem ldS (o : MOps) : Statement (.ldS o) := ofM (by decide) (by decide) rfl (fun _ _ _ _ _ => rfl)
theorem stS (o : MOps) : Statement (.stS o) := ofM (by decide) (by decide) rfl (fun _ _ _ _ _ => rfl)
theorem ldP (o : MOps) : Statement (.ldP o) := ofM (by decide) (by decide) rfl (fun _ _ _ _ _ => rfl)
theorem stP (o : MOps) : Statement (.stP o) := ofM (by decide) (by decide) rfl (fun _ _ _ _ _ => rfl)
theorem stM (o : MOps) : Statement (.stM o) := ofM (by decide) (by decide) rfl (fun _ _ _ _ _ => rfl)
theorem loadCompletion (who : GroupRef) : Statement (.loadCompletion who) := fun h => by cases h
theorem writeAtHome (who : GroupRef) : Statement (.writeAtHome who) := fun h => by cases h
theorem cpy16 (o : MOps) : Statement (.cpy16 o) := ofM (by decide) (by decide) rfl (fun _ _ _ _ _ => rfl)
theorem cpy16Out (o : MOps) : Statement (.cpy16Out o) := ofM (by decide) (by decide) rfl (fun _ _ _ _ _ => rfl)
theorem copyCompletion (core : Nat) (job : Nat) : Statement (.copyCompletion core job) := fun h => by cases h
theorem atomAdd (o : MOps) : Statement (.atomAdd o) := ofM (by decide) (by decide) rfl (fun _ _ _ _ _ => rfl)
theorem atomMin (o : MOps) : Statement (.atomMin o) := ofM (by decide) (by decide) rfl (fun _ _ _ _ _ => rfl)
theorem atomMax (o : MOps) : Statement (.atomMax o) := ofM (by decide) (by decide) rfl (fun _ _ _ _ _ => rfl)
theorem atomAnd (o : MOps) : Statement (.atomAnd o) := ofM (by decide) (by decide) rfl (fun _ _ _ _ _ => rfl)
theorem atomOr (o : MOps) : Statement (.atomOr o) := ofM (by decide) (by decide) rfl (fun _ _ _ _ _ => rfl)
theorem atomXor (o : MOps) : Statement (.atomXor o) := ofM (by decide) (by decide) rfl (fun _ _ _ _ _ => rfl)
theorem atomXchg (o : MOps) : Statement (.atomXchg o) := ofM (by decide) (by decide) rfl (fun _ _ _ _ _ => rfl)
theorem atomCas (o : MOps) : Statement (.atomCas o) := ofM (by decide) (by decide) rfl (fun _ _ _ _ _ => rfl)
theorem fence (scope : Scope) (o : COps) : Statement (.fence scope o) := by
  cases scope <;> exact ofC (by decide) (by decide) rfl (fun _ _ _ _ _ => rfl)
theorem barArrive (o : COps) : Statement (.barArrive o) := ofC (by decide) (by decide) rfl (fun _ _ _ _ _ => rfl)
theorem barWait (o : COps) : Statement (.barWait o) := ofC (by decide) (by decide) rfl (fun _ _ _ _ _ => rfl)
theorem barSync (o : COps) : Statement (.barSync o) := ofC (by decide) (by decide) rfl (fun _ _ _ _ _ => rfl)
theorem barExpect (o : COps) : Statement (.barExpect o) := ofC (by decide) (by decide) rfl (fun _ _ _ _ _ => rfl)
theorem spawn (o : COps) : Statement (.spawn o) := ofC (by decide) (by decide) rfl (fun _ _ _ _ _ => rfl)
theorem leave (o : COps) : Statement (.leave o) := ofC (by decide) (by decide) rfl (fun _ _ _ _ _ => rfl)
theorem role (o : COps) : Statement (.role o) := ofC (by decide) (by decide) rfl (fun _ _ _ _ _ => rfl)
theorem vgrow (o : COps) : Statement (.vgrow o) := ofC (by decide) (by decide) rfl (fun _ _ _ _ _ => rfl)
theorem vgrowGrant (core : Nat) : Statement (.vgrowGrant core) := fun h => by cases h
theorem vgrowDeadlockDenial (core : Nat) : Statement (.vgrowDeadlockDenial core) := fun h => by cases h
theorem vshrink (o : COps) : Statement (.vshrink o) := ofC (by decide) (by decide) rfl (fun _ _ _ _ _ => rfl)
theorem wait (o : COps) : Statement (.wait o) := ofC (by decide) (by decide) rfl (fun _ _ _ _ _ => rfl)
theorem waitY (o : COps) : Statement (.waitY o) := ofC (by decide) (by decide) rfl (fun _ _ _ _ _ => rfl)
theorem launch (o : COps) : Statement (.launch o) := ofC (by decide) (by decide) rfl (fun _ _ _ _ _ => rfl)
theorem launchR (o : COps) : Statement (.launchR o) := ofC (by decide) (by decide) rfl (fun _ _ _ _ _ => rfl)
theorem tld (o : TOps) : Statement (.tld o) := ofT (by decide) (by decide) rfl (fun _ _ _ _ _ => rfl)
theorem tst (o : TOps) : Statement (.tst o) := ofT (by decide) (by decide) rfl (fun _ _ _ _ _ => rfl)
theorem of_tset {i : Instr} {o : TOps} (he : encode i = some (encT 0xB0 2 o)) (hi : i.rowOk = true → tsetRow o = i) :
    Statement i := by
  intro h
  have hr : i.rowOk = true := by simp only [Instr.wf, Bool.and_eq_true] at h; exact h.1.2
  exact ofT (by decide) (by decide) he (fun _ _ _ _ _ => congrArg some (hi hr)) h
theorem tsetBase (o : TOps) : Statement (.tsetBase o) := of_tset rfl (fun h => by
  simp only [Instr.rowOk, decide_eq_true_eq] at h; simp [tsetRow, h])
theorem tsetFill (o : TOps) : Statement (.tsetFill o) := of_tset rfl (fun h => by
  simp only [Instr.rowOk, decide_eq_true_eq] at h; simp [tsetRow, h])
theorem tsetExt (o : TOps) : Statement (.tsetExt o) := of_tset rfl (fun h => by
  simp only [Instr.rowOk, Bool.and_eq_true, decide_eq_true_eq] at h
  unfold tsetRow
  split <;> first | rfl | (exfalso; simp_all [BitVec.toNat_eq]))
theorem tq (o : TOps) : Statement (.tq o) := ofT (by decide) (by decide) rfl (fun _ _ _ _ _ => rfl)
theorem tldE (o : TOps) : Statement (.tldE o) := ofT (by decide) (by decide) rfl (fun _ _ _ _ _ => rfl)
theorem tstE (o : TOps) : Statement (.tstE o) := ofT (by decide) (by decide) rfl (fun _ _ _ _ _ => rfl)
theorem trel (o : TOps) : Statement (.trel o) := ofT (by decide) (by decide) rfl (fun _ _ _ _ _ => rfl)
theorem tlay (o : TOps) : Statement (.tlay o) := ofT (by decide) (by decide) rfl (fun _ _ _ _ _ => rfl)
theorem relayoutBlock (core : Nat) (job : Nat) : Statement (.relayoutBlock core job) := fun h => by cases h
theorem xquant (o : COps) : Statement (.xquant o) := ofC (by decide) (by decide) rfl (fun _ _ _ _ _ => rfl)
theorem xdequant (o : COps) : Statement (.xdequant o) := ofC (by decide) (by decide) rfl (fun _ _ _ _ _ => rfl)
theorem xpack (o : COps) : Statement (.xpack o) := ofC (by decide) (by decide) rfl (fun _ _ _ _ _ => rfl)
theorem xunpack (o : COps) : Statement (.xunpack o) := ofC (by decide) (by decide) rfl (fun _ _ _ _ _ => rfl)
theorem xconv (o : COps) : Statement (.xconv o) := ofC (by decide) (by decide) rfl (fun _ _ _ _ _ => rfl)
theorem transformPipeReply (core : Nat) : Statement (.transformPipeReply core) := fun h => by cases h
theorem mmaS (mode : MmaMode) (o : XOps) : Statement (.mmaS mode o) := by
  cases mode <;> exact ofX (by decide) (by decide) rfl (fun _ _ _ _ _ => rfl)
theorem mmaQ (mode : MmaMode) (o : XOps) : Statement (.mmaQ mode o) := by
  cases mode <;> exact ofX (by decide) (by decide) rfl (fun _ _ _ _ _ => rfl)
theorem mmaP (mode : MmaMode) (o : XOps) : Statement (.mmaP mode o) := by
  cases mode <;> exact ofX (by decide) (by decide) rfl (fun _ _ _ _ _ => rfl)
theorem mmaB (mode : MmaMode) (o : XOps) : Statement (.mmaB mode o) := by
  cases mode <;> exact ofX (by decide) (by decide) rfl (fun _ _ _ _ _ => rfl)
theorem matrixTileUpdate (core : Nat) : Statement (.matrixTileUpdate core) := fun h => by cases h
theorem accz (o : COps) : Statement (.accz o) := ofC (by decide) (by decide) rfl (fun _ _ _ _ _ => rfl)
theorem accld (o : COps) : Statement (.accld o) := ofC (by decide) (by decide) rfl (fun _ _ _ _ _ => rfl)
theorem accst (o : COps) : Statement (.accst o) := ofC (by decide) (by decide) rfl (fun _ _ _ _ _ => rfl)
theorem accmax (o : COps) : Statement (.accmax o) := ofC (by decide) (by decide) rfl (fun _ _ _ _ _ => rfl)
theorem accsum (o : COps) : Statement (.accsum o) := ofC (by decide) (by decide) rfl (fun _ _ _ _ _ => rfl)
theorem accexp (o : COps) : Statement (.accexp o) := ofC (by decide) (by decide) rfl (fun _ _ _ _ _ => rfl)
theorem accscl (o : COps) : Statement (.accscl o) := ofC (by decide) (by decide) rfl (fun _ _ _ _ _ => rfl)
theorem acccvt (o : COps) : Statement (.acccvt o) := ofC (by decide) (by decide) rfl (fun _ _ _ _ _ => rfl)
theorem mkld (o : KOps) : Statement (.mkld o) := ofK (by decide) (by decide) rfl (fun _ _ _ _ _ => rfl)
theorem mkcls (o : KOps) : Statement (.mkcls o) := ofK (by decide) (by decide) rfl (fun _ _ _ _ _ => rfl)
theorem mkapply (o : KOps) : Statement (.mkapply o) := ofK (by decide) (by decide) rfl (fun _ _ _ _ _ => rfl)
theorem mkcnt (o : KOps) : Statement (.mkcnt o) := ofK (by decide) (by decide) rfl (fun _ _ _ _ _ => rfl)
theorem mkclr (o : KOps) : Statement (.mkclr o) := ofK (by decide) (by decide) rfl (fun _ _ _ _ _ => rfl)
theorem sgpack (o : COps) : Statement (.sgpack o) := ofC (by decide) (by decide) rfl (fun _ _ _ _ _ => rfl)
theorem sgsel (o : COps) : Statement (.sgsel o) := ofC (by decide) (by decide) rfl (fun _ _ _ _ _ => rfl)
theorem sgcnt (o : COps) : Statement (.sgcnt o) := ofC (by decide) (by decide) rfl (fun _ _ _ _ _ => rfl)
theorem ctxhalt (o : COps) : Statement (.ctxhalt o) := ofC (by decide) (by decide) rfl (fun _ _ _ _ _ => rfl)
theorem contextHaltComplete (part : Nat) (ctx : Nat) : Statement (.contextHaltComplete part ctx) := fun h => by cases h
theorem ctxsave (o : COps) : Statement (.ctxsave o) := ofC (by decide) (by decide) rfl (fun _ _ _ _ _ => rfl)
theorem contextSaveComplete (part : Nat) (ctx : Nat) : Statement (.contextSaveComplete part ctx) := fun h => by cases h
theorem ctxload (o : COps) : Statement (.ctxload o) := ofC (by decide) (by decide) rfl (fun _ _ _ _ _ => rfl)
theorem contextLoadComplete (part : Nat) (ctx : Nat) : Statement (.contextLoadComplete part ctx) := fun h => by cases h
theorem ctxrun (o : COps) : Statement (.ctxrun o) := ofC (by decide) (by decide) rfl (fun _ _ _ _ _ => rfl)
theorem ctxkill (o : COps) : Statement (.ctxkill o) := ofC (by decide) (by decide) rfl (fun _ _ _ _ _ => rfl)
theorem tlbinv (o : COps) : Statement (.tlbinv o) := ofC (by decide) (by decide) rfl (fun _ _ _ _ _ => rfl)
theorem tlbinvAll (o : COps) : Statement (.tlbinvAll o) := ofC (by decide) (by decide) rfl (fun _ _ _ _ _ => rfl)
theorem fltresReplay (o : COps) : Statement (.fltresReplay o) := ofC (by decide) (by decide) rfl (fun _ _ _ _ _ => rfl)
theorem fltresEndGrid (o : COps) : Statement (.fltresEndGrid o) := fun h => by simp [Instr.wf] at h
theorem fltresEndContext (o : COps) : Statement (.fltresEndContext o) := fun h => by simp [Instr.wf] at h
theorem dtrd (o : COps) : Statement (.dtrd o) := ofC (by decide) (by decide) rfl (fun _ _ _ _ _ => rfl)
theorem pld (o : COps) : Statement (.pld o) := ofC (by decide) (by decide) rfl (fun _ _ _ _ _ => rfl)
theorem pst (o : COps) : Statement (.pst o) := ofC (by decide) (by decide) rfl (fun _ _ _ _ _ => rfl)
theorem migset (o : COps) : Statement (.migset o) := ofC (by decide) (by decide) rfl (fun _ _ _ _ _ => rfl)
theorem migclr (o : COps) : Statement (.migclr o) := ofC (by decide) (by decide) rfl (fun _ _ _ _ _ => rfl)
theorem evsig (o : COps) : Statement (.evsig o) := ofC (by decide) (by decide) rfl (fun _ _ _ _ _ => rfl)
theorem blockMigration (blk : Nat) : Statement (.blockMigration blk) := fun h => by cases h
theorem migrationWithdrawal (blk : Nat) : Statement (.migrationWithdrawal blk) := fun h => by cases h
theorem tailPolicy (grid : Nat) : Statement (.tailPolicy grid) := fun h => by cases h
theorem starvationGuard (who : GroupRef) : Statement (.starvationGuard who) := fun h => by cases h
theorem doorbellWrite (part : Nat) (queue : Nat) (v : W32) : Statement (.doorbellWrite part queue v) := fun h => by cases h
theorem launchPacket (part : Nat) (queue : Nat) : Statement (.launchPacket part queue) := fun h => by cases h
theorem waitPacket (part : Nat) (queue : Nat) : Statement (.waitPacket part queue) := fun h => by cases h
theorem nopPacket (part : Nat) (queue : Nat) : Statement (.nopPacket part queue) := fun h => by cases h
theorem waitCounterRecheck (part : Nat) (queue : Nat) : Statement (.waitCounterRecheck part queue) := fun h => by cases h
theorem blockDispatch (part : Nat) : Statement (.blockDispatch part) := fun h => by cases h
theorem gridCompletion (grid : Nat) : Statement (.gridCompletion grid) := fun h => by cases h
theorem blockKill (blk : Nat) : Statement (.blockKill blk) := fun h => by cases h
theorem uncorrectableError (site : ErrSite) : Statement (.uncorrectableError site) := fun h => by cases h
theorem patrolScrub (site : ErrSite) : Statement (.patrolScrub site) := fun h => by cases h
theorem watchdog (blk : Nat) : Statement (.watchdog blk) := fun h => by cases h
theorem stallSample (core : Nat) (quad : Nat) : Statement (.stallSample core quad) := fun h => by cases h
theorem memorySample (core : Nat) : Statement (.memorySample core) := fun h => by cases h
theorem sampleFifoDrain (core : Nat) (quad : Nat) (mem : Bool) : Statement (.sampleFifoDrain core quad mem) := fun h => by cases h
theorem hostWindowAccess (acc : HostAccess) : Statement (.hostWindowAccess acc) := fun h => by cases h
theorem peerFlitLoss (addr : Nat) : Statement (.peerFlitLoss addr) := fun h => by cases h
theorem timeBaseSteer (ns : W64) : Statement (.timeBaseSteer ns) := fun h => by cases h
theorem getVersion : Statement .getVersion := fun h => by cases h
theorem getCapabilities : Statement .getCapabilities := fun h => by cases h
theorem negotiateAlgorithms : Statement .negotiateAlgorithms := fun h => by cases h
theorem getDigests : Statement .getDigests := fun h => by cases h
theorem getCertificate : Statement .getCertificate := fun h => by cases h
theorem challenge (nonce : List Byte) : Statement (.challenge nonce) := fun h => by cases h
theorem getMeasurements (nonce : List Byte) : Statement (.getMeasurements nonce) := fun h => by cases h
theorem drain (part : Nat) : Statement (.drain part) := fun h => by cases h
theorem drainComplete (part : Nat) : Statement (.drainComplete part) := fun h => by cases h
theorem reconfig (part : Nat) (record : Signed) : Statement (.reconfig part record) := fun h => by cases h
theorem fwload (part : Nat) (image : Signed) (tables : Signed) : Statement (.fwload part image tables) := fun h => by cases h
theorem spare (part : Nat) (record : Signed) : Statement (.spare part record) := fun h => by cases h
theorem bringup (part : Nat) (boot : SupervisorBoot) : Statement (.bringup part boot) := fun h => by cases h
theorem powerOn (boot : PowerOn) : Statement (.powerOn boot) := fun h => by cases h
theorem supervisorReadyTimeout (part : Nat) : Statement (.supervisorReadyTimeout part) := fun h => by cases h
theorem thermalThrottle (die : Nat) (temp : Nat) : Statement (.thermalThrottle die temp) := fun h => by cases h
theorem thermalShutdown (temp : Nat) : Statement (.thermalShutdown temp) := fun h => by cases h
theorem powerLimitStep (part : Nat) (draw : Nat) : Statement (.powerLimitStep part draw) := fun h => by cases h
theorem coolantFlowLow (centilitres : Nat) : Statement (.coolantFlowLow centilitres) := fun h => by cases h
theorem supervisorReady (part : Nat) : Statement (.supervisorReady part) := fun h => by cases h
theorem coolantFlowRestored (centilitres : Nat) : Statement (.coolantFlowRestored centilitres) := fun h => by cases h

end Laws.Encodes

end Sys2Proof
end

