-- ==== Sys2Proof/Laws/Results.lean ====
section
/-!
SUPPORT. What the shared shapes of instructions give: a scalar register, lane registers, mask bits, flags; and typed
integers as words of w bits.
-/

namespace Sys2Proof

/-! ### Typed integers -/

theorem sextI_toInt {n : Nat} (x : Nat) (hn : 0 < n) : sextI x n = (BitVec.ofNat n x).toInt := by
  have h2 : 2 ^ n = 2 * 2 ^ (n - 1) := by rw [← Nat.pow_succ']; congr 1; omega
  simp only [sextI, BitVec.toInt_eq_toNat_cond, BitVec.toNat_ofNat, Nat.pos_iff_ne_zero.mp hn, if_false]
  split <;> split <;> first | rfl | omega

theorem COps.opnd_val (o : COps) (x : Nat) : o.opnd x = o.val (BitVec.ofNat 64 x) := by
  have hw : ∀ k < 4, 8 * 2 ^ k ≤ 64 := by decide
  have hx : o.x.toNat % 4 < 4 := Nat.mod_lt _ (by decide)
  have h0 : 0 < 8 * 2 ^ (o.x.toNat % 4) := by positivity
  simp only [COps.opnd, COps.val, COps.signed, COps.w, decide_eq_true_eq]
  have e : (BitVec.ofNat 64 x).setWidth (8 * 2 ^ (o.x.toNat % 4)) = BitVec.ofNat (8 * 2 ^ (o.x.toNat % 4)) x := by
    apply BitVec.eq_of_toNat_eq
    simp only [BitVec.toNat_setWidth, BitVec.toNat_ofNat]
    exact Nat.mod_mod_of_dvd _ (pow_dvd_pow 2 (hw _ hx))
  rw [e]
  split
  · exact sextI_toInt x h0
  · simp

theorem COps.opnd_val64 (o : COps) (x : W64) : o.opnd x.toNat = o.val x := by rw [o.opnd_val]; simp

theorem COps.result_ext (o : COps) (y : Int) : o.result y = o.ext y := by
  have h0 : 0 < 8 * 2 ^ (o.x.toNat % 4) := by positivity
  have e : (y % ((2 ^ (8 * 2 ^ (o.x.toNat % 4)) : Nat) : Int)).toNat = (BitVec.ofInt (8 * 2 ^ (o.x.toNat % 4)) y).toNat := by
    simp [BitVec.toNat_ofInt]
  simp only [COps.result, COps.ext, COps.signed, COps.w, decide_eq_true_eq]
  rw [e]
  split
  · rw [sext64, sextI_toInt _ h0, BitVec.ofNat_toNat, BitVec.setWidth_eq, BitVec.signExtend]
  · apply BitVec.eq_of_toNat_eq
    simp

end Sys2Proof

namespace Sys2Proof.Machine

variable {s : State}

/-! ### One register written -/

theorem setS_sets (h : s.iss = true) (d : BitVec 8) (v : W64) : s.SetsS (s.setS d v) d v := by
  intro r
  rw [gv_iss (by simpa using h), gv_iss h, setS_eq]
  simp only [Group.sreg]
  by_cases h0 : r = 0
  · rw [if_pos h0, if_pos h0, if_neg (fun h => h.2 (h.1 ▸ h0))]
  · rw [if_neg h0, if_neg h0]
    by_cases hd : d = 0
    · rw [if_pos hd, if_neg (fun h => h.2 hd)]
    · rw [if_neg hd]
      by_cases hr : r = d
      · rw [if_pos ⟨hr, hd⟩, hr, SMap.get_set_self]
      · rw [if_neg (fun h => hr h.1), SMap.get_set_ne _ _ (fun e => hr (BitVec.eq_of_toNat_eq e).symm)]

theorem writesS_of {i : Instr} {d : BitVec 8} {v : W64} (he : exec i s = issue i s (fun a => .ok ((a.setS d v).advance i))) :
    WritesS i s d v := by
  intro h
  have hm : (s.marked i).iss = true := h.iss
  refine goesOn_of h he rfl (by simpa using h.iss) (by simp) ⟨Frame.after (frame_marked h.iss i) (frame_setS hm d v), ?_⟩
  intro r; rw [setS_sets hm d v r, gv_iss hm, gv_iss h.iss]; rfl

/-! ### Lane registers -/

theorem mem_lanesOf {x : W64} {l : Nat} : l ∈ lanesOf x ↔ l < 64 ∧ x.getLsbD l = true := by
  simp [lanesOf]

theorem mem_laneWrites {d l v : Nat} {wide : Bool} {p : Nat × W32} (h : p ∈ laneWrites d wide l v) :
    p = (d * 64 + l, BitVec.ofNat 32 v) ∨ (wide = true ∧ p = ((d + 1) * 64 + l, BitVec.ofNat 32 (v / 2 ^ 32))) := by
  cases wide <;> simp [laneWrites, Nat.shiftRight_eq_div_pow] at h
  · exact .inl h
  · exact h.imp id (fun h => ⟨rfl, h⟩)

/-- What writes of one lane after another leave in the lane registers. -/
theorem get_laneWrites (m : SMap 32) (d : Nat) (wide : Bool) (act : W64) (f : Nat → Nat) (r l : Nat) (hl : l < 64) :
    (SMap.setAll m ((lanesOf act).flatMap (fun i => laneWrites d wide i (f i)))).get (r * 64 + l) =
    if act.getLsbD l = true ∧ r = d then BitVec.ofNat 32 (f l)
    else if wide = true ∧ act.getLsbD l = true ∧ r = d + 1 then BitVec.ofNat 32 (f l / 2 ^ 32)
    else m.get (r * 64 + l) := by
  have key : ∀ {p : Nat × W32}, p ∈ (lanesOf act).flatMap (fun i => laneWrites d wide i (f i)) → p.1 = r * 64 + l →
      act.getLsbD l = true ∧ ((r = d ∧ p.2 = BitVec.ofNat 32 (f l)) ∨
        (wide = true ∧ r = d + 1 ∧ p.2 = BitVec.ofNat 32 (f l / 2 ^ 32))) := by
    intro p hp e
    obtain ⟨i, hi, hp⟩ := List.mem_flatMap.1 hp
    obtain ⟨hi1, hi2⟩ := mem_lanesOf.1 hi
    rcases mem_laneWrites hp with rfl | ⟨hw, rfl⟩
    · have : i = l := by simp at e; omega
      have : d = r := by simp at e; omega
      subst_vars; exact ⟨hi2, .inl ⟨rfl, rfl⟩⟩
    · have : i = l := by simp at e; omega
      have : d + 1 = r := by simp at e; omega
      subst_vars; exact ⟨hi2, .inr ⟨rfl, rfl, rfl⟩⟩
  by_cases h1 : act.getLsbD l = true ∧ r = d
  · rw [if_pos h1]
    refine SMap.get_setAll_of_mem _ _ _ _ (List.mem_flatMap.2 ⟨l, mem_lanesOf.2 ⟨hl, h1.1⟩, ?_⟩) ?_
    · rw [h1.2]; cases wide <;> simp [laneWrites]
    · intro p hp e
      rcases (key hp e).2 with h | h
      · exact h.2
      · exact absurd (h1.2.symm.trans h.2.1) (by omega)
  · rw [if_neg h1]
    by_cases h2 : wide = true ∧ act.getLsbD l = true ∧ r = d + 1
    · rw [if_pos h2]
      refine SMap.get_setAll_of_mem _ _ _ _ (List.mem_flatMap.2 ⟨l, mem_lanesOf.2 ⟨hl, h2.2.1⟩, ?_⟩) ?_
      · rw [h2.2.2, h2.1]; simp [laneWrites, Nat.shiftRight_eq_div_pow]
      · intro p hp e
        rcases (key hp e).2 with h | h
        · exact absurd (h2.2.2.symm.trans h.1) (by omega)
        · exact h.2.2
    · rw [if_neg h2]
      refine SMap.get_setAll_of_not_mem _ _ _ (fun p hp e => ?_)
      rcases key hp e with ⟨h3, h | h⟩
      · exact h1 ⟨h3, h.1⟩
      · exact h2 ⟨h.1, h3, h.2.1⟩

theorem mapLanes_sets (h : s.iss = true) (o : COps) (wide : Bool) (f : Nat → Nat) :
    s.SetsV (s.mapLanes o wide f) o.d wide (s.active o.guard o.neg) f := by
  intro r l hl
  rw [gv_iss (by simpa using h), gv_iss h]
  exact get_laneWrites _ _ _ _ _ _ _ hl

theorem writesV_of {i : Instr} {o : COps} {wide : Bool} {f : State → Nat → Nat}
    (he : exec i s = issue i s (fun a => .ok ((a.mapLanes o wide (f a)).advance i))) (hf : ∀ l, f (s.marked i) l = f s l) :
    WritesV i s o wide (f s) := by
  intro h
  have hm : (s.marked i).iss = true := h.iss
  refine goesOn_of h he rfl (by simpa using h.iss) (by simp) ⟨Frame.after (frame_marked h.iss i) (frame_mapLanes hm o wide _), ?_⟩
  intro r l hl
  rw [mapLanes_sets hm o wide (f (s.marked i)) r l hl, gv_iss hm, gv_iss h.iss, hf]; rfl

/-- Flags gathered over a list. -/
theorem foldl_or_getLsbD {α : Type} (l : List α) (f : α → Fl) (a : Fl) (j : Nat) :
    (l.foldl (fun a p => a ||| f p) a).getLsbD j = (a.getLsbD j || l.any (fun p => (f p).getLsbD j)) := by
  induction l generalizing a with
  | nil => simp
  | cons p l ih => simp [ih, Bool.or_assoc]

theorem writesVF_of {i : Instr} {o : COps} {wide : Bool} {f : State → Nat → Nat × Fl}
    (he : exec i s = issue i s (fun a => .ok ((a.mapFlags o wide (f a)).advance i))) (hf : ∀ l, f (s.marked i) l = f s l) :
    WritesVF i s o wide (f s) := by
  intro h
  have hm : (s.marked i).iss = true := h.iss
  have hu : ((s.marked i).mapFlags o wide (f (s.marked i))).iss = true := by simpa using h.iss
  have e : f (s.marked i) = f s := funext hf
  have fl : ((s.marked i).mapFlags o wide (f (s.marked i))) = ((s.marked i).mapLanes o wide (fun l => (f s l).1)).raise
      ((lanesOf (s.active o.guard o.neg)).foldl (fun a p => a ||| (f s p).2) 0) := by
    rw [e]
    simp only [State.mapFlags, State.mapLanes, marked_active, List.flatMap_map, List.foldl_map]
  refine goesOn_of h he rfl hu ⟨rfl, rfl, rfl⟩ ⟨Frame.after (frame_marked h.iss i) (frame_mapFlags hm o wide _), ?_, ?_⟩
  · intro r l hl
    have := mapLanes_sets hm o wide (fun l => (f s l).1) r l hl
    rw [gv_iss hu, gv_iss h.iss, fl]
    rw [gv_iss (by simpa using h.iss), gv_iss hm] at this
    exact this
  · intro j
    rw [fl, gv_iss (by simpa using h.iss), gv_iss h.iss]
    simp only [State.raise, BitVec.getLsbD_or, foldl_or_getLsbD]
    simp [State.mapLanes, State.writeV, State.marked, State.mark, Group.waited]

/-! ### Mask registers -/

theorem getLsbD_foldl_maskOf (l : List Nat) (m : W64) (j : Nat) (hj : j < 64) :
    (l.foldl (fun m i => m ||| (1#64 <<< i)) m).getLsbD j = (m.getLsbD j || decide (j ∈ l)) := by
  induction l generalizing m with
  | nil => simp
  | cons i l ih =>
    rw [List.foldl_cons, ih]
    by_cases h : j = i
    · subst h; simp [hj]
    · have : (1#64 <<< i).getLsbD j = false := by
        simp only [BitVec.getLsbD_shiftLeft, BitVec.getLsbD_one, hj, decide_true, Bool.true_and, Bool.and_eq_false_iff]
        by_cases hlt : j < i
        · left; simp [hlt]
        · right; simp; omega
      simp [this, h]

theorem getLsbD_maskOf (l : List Nat) (j : Nat) (hj : j < 64) : (maskOf l).getLsbD j = decide (j ∈ l) := by
  rw [maskOf, getLsbD_foldl_maskOf l _ _ hj]; simp

theorem setK_sets (h : s.iss = true) (d : BitVec 8) (v : W64) :
    s.SetsK (s.setK d v) d 0xFFFFFFFFFFFFFFFF#64 (fun l => v.getLsbD l) := by
  intro r l hl
  have hones : (0xFFFFFFFFFFFFFFFF#64 : W64).getLsbD l = true := by
    have : ∀ l < 64, (0xFFFFFFFFFFFFFFFF#64 : W64).getLsbD l = true := by decide
    exact this l hl
  rw [gv_iss (by simpa using h), gv_iss h, setK_eq]
  simp only [Group.kraw, hones, if_true]
  by_cases hd : d = 0
  · rw [if_pos hd, if_neg (fun h => h.2 hd)]
  · rw [if_neg hd]
    by_cases hr : r = d
    · rw [if_pos ⟨hr, hd⟩, hr, SMap.get_set_self, BitVec.getLsbD_and, Bool.and_comm]
    · rw [if_neg (fun h => hr h.1), SMap.get_set_ne _ _ (fun e => hr (BitVec.eq_of_toNat_eq e).symm)]

theorem setKLanes_sets (h : s.iss = true) (d : BitVec 8) (act v : W64) :
    s.SetsK (s.setKLanes d act v) d act (fun l => v.getLsbD l) := by
  intro r l hl
  have := setK_sets h d ((s.kreg d &&& ~~~act) ||| (v &&& act)) r l hl
  have hones : (0xFFFFFFFFFFFFFFFF#64 : W64).getLsbD l = true := by
    have : ∀ l < 64, (0xFFFFFFFFFFFFFFFF#64 : W64).getLsbD l = true := by decide
    exact this l hl
  rw [State.setKLanes, this, gv_iss h]
  by_cases hd : r = d ∧ d ≠ 0
  · rw [if_pos hd, if_pos hd, hones, if_pos rfl]
    have hk : (s.kreg d).getLsbD l = ((s.grp.kraw d).getLsbD l && (laneMask s.blk.legacy).getLsbD l) := by
      simp only [State.kreg, if_neg hd.2, BitVec.getLsbD_and, Group.kraw]
    simp only [BitVec.getLsbD_or, BitVec.getLsbD_and, BitVec.getLsbD_not, hl, hk, decide_true, Bool.true_and]
    cases act.getLsbD l <;> cases (laneMask s.blk.legacy).getLsbD l <;> simp
  · rw [if_neg hd, if_neg hd]

theorem writesK_of {i : Instr} {d : BitVec 8} {act v : State → W64}
    (he : exec i s = issue i s (fun a => .ok ((a.setKLanes d (act a) (v a)).advance i))) (ha : act (s.marked i) = act s)
    (hv : v (s.marked i) = v s) : WritesK i s d (act s) (fun l => (v s).getLsbD l) := by
  intro h
  have hm : (s.marked i).iss = true := h.iss
  refine goesOn_of h he rfl (by simpa using h.iss) (by simp [State.setKLanes])
    ⟨Frame.after (frame_marked h.iss i) (frame_setKLanes hm d _ _), ?_⟩
  intro r l hl
  rw [setKLanes_sets hm d (act (s.marked i)) (v (s.marked i)) r l hl, gv_iss hm, gv_iss h.iss, ha, hv]; rfl

end Sys2Proof.Machine
end

