-- ==== Sys2Proof/Tests/Slice0.lean ====
section
/-!
SUPPORT. Tests: words written out from the spec's encodings, ill-formed instructions that are refused, single steps worked by
hand from the spec's text and tables.
-/

set_option Elab.async false

namespace Sys2Proof.Tests
open Sys2Proof Sys2Proof.Machine

/-! ### Words of R143 to R155, written out field by field; those the spec itself writes out are among them -/

def reads (w0 w1 : W64) : Option Instr := match decode .full w0 w1 with | .ok i => some i | .error _ => none

def readsAll (l : List (W64 × W64 × Instr)) : Bool := l.all (fun x => decide (reads x.1 x.2.1 = some x.2.2))

theorem test_decode_control : readsAll [
    (0x0000000002040000, 0, .nop ⟨0x81, 0, false, 0, false, false, false, 0, 0, 0, 0, none⟩),
    (0x03FFFFF400040100, 0, .br ⟨1, 0, 0xfffffd, none⟩),
    (0x0000048CF8000200, 0, .call ⟨0, 0x3e, 0x123, none⟩),
    (0x0000002400000300, 0, .brR ⟨0, 0, false, 0, false, false, false, 0, 9, 0, 0, none⟩),
    (0x00000024F8000400, 0, .callR ⟨0, 0, false, 0, false, false, false, 0x3e, 9, 0, 0, none⟩),
    (0x000000F800000500, 0, .ret ⟨0, 0, false, 0, false, false, false, 0, 0x3e, 0, 0, none⟩),
    (0x0000000000000600, 0, .exit ⟨0, 0, false, 0, false, false, false, 0, 0, 0, 0, none⟩),
    (0x00A8000000000700, 0, .trap ⟨0, 0, false, 0, false, false, false, 0, 0, 0, 0x2a, none⟩),
    (0x0000000000000800, 0, .tret ⟨0, 0, false, 0, false, false, false, 0, 0, 0, 0, none⟩),
    (0x00001C0000000900, 0, .sleep ⟨0, 0, false, 0, false, false, false, 0, 0, 7, 0, none⟩),
    (0x0000000000001900, 0x3e8, .sleep ⟨0, 0, false, 0, false, false, false, 0, 0, 0, 0, some 0x3e8⟩),
    (0x0000000000000A00, 0, .mark ⟨0, 0, false, 0, false, false, false, 0, 0, 0, 0, none⟩),
    (0x0000000000000B00, 0, .mig ⟨0, 0, false, 0, false, false, false, 0, 0, 0, 0, none⟩),
    (0x0000000000000C00, 0, .migReq ⟨0, 0, false, 0, false, false, false, 0, 0, 0, 0, none⟩),
    (0x03FC000000000D00, 0, .brk ⟨0, 0, false, 0, false, false, false, 0, 0, 0, 0xff, none⟩),
    (0x000000141C000001, 0, .brc .z ⟨0, 7, 5, none⟩),
    (0x000000141C000101, 0, .brc .nz ⟨0, 7, 5, none⟩),
    (0x03FFFFE01C000201, 0, .brc .lt ⟨0, 7, 0xfffff8, none⟩),
    (0x000000141C000301, 0, .brc .ge ⟨0, 7, 5, none⟩),
    (0x000000141C000401, 0, .brc .gt ⟨0, 7, 5, none⟩),
    (0x000000141C000501, 0, .brc .le ⟨0, 7, 5, none⟩),
    (0x0000004014001002, 0x200, .brv ⟨0, 5, 0x10, some 0x200⟩),
    (0x0000004014001102, 0xfffffff8, .brvN ⟨0, 5, 0x10, some 0xfffffff8⟩)] = true := by decide +kernel

theorem test_decode_scalar_1 : readsAll [
    (0x600000100C001010, 0xfffffffb, .scalarAdd ⟨0, 0, false, 3, false, false, false, 3, 4, 0, 0, some 0xfffffffb⟩),
    (0x000014100C000010, 0, .scalarAdd ⟨0, 0, false, 0, false, false, false, 3, 4, 5, 0, none⟩),
    (0x200014100C000110, 0, .scalarSub ⟨0, 0, false, 1, false, false, false, 3, 4, 5, 0, none⟩),
    (0x400014100C000210, 0, .scalarMul ⟨0, 0, false, 2, false, false, false, 3, 4, 5, 0, none⟩),
    (0x600014100C000310, 0, .scalarMulh ⟨0, 0, false, 3, false, false, false, 3, 4, 5, 0, none⟩),
    (0x800014100C000410, 0, .scalarDiv ⟨0, 0, false, 4, false, false, false, 3, 4, 5, 0, none⟩),
    (0xA00014100C000510, 0, .scalarRem ⟨0, 0, false, 5, false, false, false, 3, 4, 5, 0, none⟩),
    (0xC00014100C000610, 0, .scalarAnd ⟨0, 0, false, 6, false, false, false, 3, 4, 5, 0, none⟩),
    (0xE00014100C000710, 0, .scalarOr ⟨0, 0, false, 7, false, false, false, 3, 4, 5, 0, none⟩),
    (0x000014100C000810, 0, .scalarXor ⟨0, 0, false, 0, false, false, false, 3, 4, 5, 0, none⟩),
    (0x200014100C000910, 0, .scalarShl ⟨0, 0, false, 1, false, false, false, 3, 4, 5, 0, none⟩),
    (0x400014100C000A10, 0, .scalarShr ⟨0, 0, false, 2, false, false, false, 3, 4, 5, 0, none⟩),
    (0x600014100C000B10, 0, .scalarMin ⟨0, 0, false, 3, false, false, false, 3, 4, 5, 0, none⟩),
    (0x800014100C000C10, 0, .scalarMax ⟨0, 0, false, 4, false, false, false, 3, 4, 5, 0, none⟩),
    (0xC00000100C000D10, 0, .scalarClz ⟨0, 0, false, 6, false, false, false, 3, 4, 0, 0, none⟩),
    (0xC00000100C000E10, 0, .scalarPopc ⟨0, 0, false, 6, false, false, false, 3, 4, 0, 0, none⟩),
    (0xC00000100C000F10, 0, .scalarNot ⟨0, 0, false, 6, false, false, false, 3, 4, 0, 0, none⟩),
    (0x600014100C000011, 0, .scalarCmp .eq ⟨0, 0, false, 3, false, false, false, 3, 4, 5, 0, none⟩),
    (0x600014100C000111, 0, .scalarCmp .ne ⟨0, 0, false, 3, false, false, false, 3, 4, 5, 0, none⟩),
    (0x600014100C000211, 0, .scalarCmp .lt ⟨0, 0, false, 3, false, false, false, 3, 4, 5, 0, none⟩),
    (0x600014100C000311, 0, .scalarCmp .le ⟨0, 0, false, 3, false, false, false, 3, 4, 5, 0, none⟩),
    (0x600014100C000411, 0, .scalarCmp .gt ⟨0, 0, false, 3, false, false, false, 3, 4, 5, 0, none⟩),
    (0x600014100C000511, 0, .scalarCmp .ge ⟨0, 0, false, 3, false, false, false, 3, 4, 5, 0, none⟩),
    (0x600014000C000012, 0, .scalarMov ⟨0, 0, false, 3, false, false, false, 3, 0, 5, 0, none⟩)] = true := by decide +kernel

theorem test_decode_scalar_2 : readsAll [
    (0x000000000C001112, 0x123456789abcdef, .li ⟨0, 0, false, 0, false, false, false, 3, 0, 0, 0, some 0x123456789abcdef⟩),
    (0x600C14100C000212, 0, .lea ⟨0, 0, false, 3, false, false, false, 3, 4, 5, 3, none⟩),
    (0xE00000100C001312, 0x1008, .scalarBfx ⟨0, 0, false, 7, false, false, false, 3, 4, 0, 0, some 0x1008⟩),
    (0xE00014100C000412, 0, .scalarBfi ⟨0, 0, false, 7, false, false, false, 3, 4, 5, 0, none⟩),
    (0x601814100C000512, 0, .scalarSel ⟨0, 0, false, 3, false, false, false, 3, 4, 5, 6, none⟩),
    (0x6A20181014000014, 0, .scalarLd ⟨0, 0, false, 6, 2, true, 8, 5, 4, 6, none⟩),
    (0x7000001014001114, 0xfffffffc, .scalarSt ⟨0, 0, false, 7, 0, false, 0, 5, 4, 0, some ⟨false, false, 0, 0, 0, 0xfffffffc⟩⟩)] = true := by decide +kernel

theorem test_decode_special : readsAll [
    (0x0038000010000013, 0, .sread ⟨0, 0, false, 0, false, false, false, 4, 0, 0, 0xe, none⟩),
    (0x0000000000000013, 0, .sread ⟨0, 0, false, 0, false, false, false, 0, 0, 0, 0, none⟩),
    (0x0208001800000113, 0, .swrite ⟨0, 0, false, 0, false, false, false, 0, 6, 0, 0x82, none⟩),
    (0x0014001800000113, 0, .swriteRole ⟨0, 0, false, 0, false, false, false, 0, 6, 0, 5, none⟩),
    (0x001C001800000113, 0, .swriteFpstat ⟨0, 0, false, 0, false, false, false, 0, 6, 0, 7, none⟩),
    (0x0024001800000113, 0, .swriteWinfmt ⟨0, 0, false, 0, false, false, false, 0, 6, 0, 9, none⟩),
    (0x00A4001800000113, 0, .swriteTrappc ⟨0, 0, false, 0, false, false, false, 0, 6, 0, 0x29, none⟩),
    (0x020C001800000113, 0, .swriteFqctl ⟨0, 0, false, 0, false, false, false, 0, 6, 0, 0x83, none⟩),
    (0x0210001800000113, 0, .swriteFqhead ⟨0, 0, false, 0, false, false, false, 0, 6, 0, 0x84, none⟩),
    (0x0220001800000113, 0, .swriteWdog ⟨0, 0, false, 0, false, false, false, 0, 6, 0, 0x88, none⟩),
    (0x0240001800000113, 0, .swriteRingCtl ⟨0, 0, false, 0, false, false, false, 0, 6, 0, 0x90, none⟩),
    (0x0258001800000113, 0, .swriteRingHead ⟨0, 0, false, 0, false, false, false, 0, 6, 0, 0x96, none⟩),
    (0x0238001800000113, 0, .swriteTrfilt ⟨0, 0, false, 0, false, false, false, 0, 6, 0, 0x8e, none⟩)] = true := by decide +kernel

theorem test_decode_lane_integer_1 : readsAll [
    (0x480024081C2A6030, 0, .laneAdd ⟨0xa, 3, true, 2, false, true, false, 7, 2, 9, 0, none⟩),
    (0x0000282018004030, 0, .laneAdd ⟨0, 2, false, 0, false, false, false, 6, 8, 0xa, 0, none⟩),
    (0x2000282018004130, 0, .laneSub ⟨0, 2, false, 1, false, false, false, 6, 8, 0xa, 0, none⟩),
    (0x4000282018004230, 0, .laneMul ⟨0, 2, false, 2, false, false, false, 6, 8, 0xa, 0, none⟩),
    (0x6000282018004330, 0, .laneMulh ⟨0, 2, false, 3, false, false, false, 6, 8, 0xa, 0, none⟩),
    (0x8000282018004430, 0, .laneAnd ⟨0, 2, false, 4, false, false, false, 6, 8, 0xa, 0, none⟩),
    (0xA000282018004530, 0, .laneOr ⟨0, 2, false, 5, false, false, false, 6, 8, 0xa, 0, none⟩),
    (0xC000282018004630, 0, .laneXor ⟨0, 2, false, 6, false, false, false, 6, 8, 0xa, 0, none⟩),
    (0xE000282018004730, 0, .laneShl ⟨0, 2, false, 7, false, false, false, 6, 8, 0xa, 0, none⟩),
    (0x0000282018004830, 0, .laneShr ⟨0, 2, false, 0, false, false, false, 6, 8, 0xa, 0, none⟩),
    (0x2000282018004930, 0, .laneMin ⟨0, 2, false, 1, false, false, false, 6, 8, 0xa, 0, none⟩),
    (0x4000282018004A30, 0, .laneMax ⟨0, 2, false, 2, false, false, false, 6, 8, 0xa, 0, none⟩),
    (0x4000002018000B30, 0, .laneClz ⟨0, 0, false, 2, false, false, false, 6, 8, 0, 0, none⟩),
    (0x4000002018000C30, 0, .lanePopc ⟨0, 0, false, 2, false, false, false, 6, 8, 0, 0, none⟩),
    (0x5030282018000031, 0, .mad ⟨0, 0, false, 2, false, false, true, 6, 8, 0xa, 0xc, none⟩),
    (0x400C282018000131, 0, .laneSel ⟨0, 0, false, 2, false, false, false, 6, 8, 0xa, 3, none⟩),
    (0xC000282018000231, 0, .laneBfx ⟨0, 0, false, 6, false, false, false, 6, 8, 0xa, 0, none⟩),
    (0x4000002018001331, 0x804, .laneBfi ⟨0, 0, false, 2, false, false, false, 6, 8, 0, 0, some 0x804⟩),
    (0x4000000058001431, 0x9, .laneMov ⟨0, 0, false, 2, false, false, false, 0x16, 0, 0, 0, some 9⟩),
    (0x4400282010000032, 0, .laneCmp .eq ⟨0, 0, false, 2, true, false, false, 4, 8, 0xa, 0, none⟩),
    (0x4400282010000132, 0, .laneCmp .ne ⟨0, 0, false, 2, true, false, false, 4, 8, 0xa, 0, none⟩),
    (0x4000000004001232, 0x4, .laneCmp .lt ⟨0, 0, false, 2, false, false, false, 1, 0, 0, 0, some 4⟩),
    (0x4400282010000332, 0, .laneCmp .le ⟨0, 0, false, 2, true, false, false, 4, 8, 0xa, 0, none⟩),
    (0x4400282010000432, 0, .laneCmp .gt ⟨0, 0, false, 2, true, false, false, 4, 8, 0xa, 0, none⟩)] = true := by decide +kernel

theorem test_decode_lane_integer_2 : readsAll [
    (0x4400282010000532, 0, .laneCmp .ge ⟨0, 0, false, 2, true, false, false, 4, 8, 0xa, 0, none⟩),
    (0x4000282018000033, 0, .shfl ⟨0, 0, false, 2, false, false, false, 6, 8, 0xa, 0, none⟩),
    (0x6000282018000133, 0, .shflUp ⟨0, 0, false, 3, false, false, false, 6, 8, 0xa, 0, none⟩),
    (0x4000002018001233, 0x1, .shflDn ⟨0, 0, false, 2, false, false, false, 6, 8, 0, 0, some 1⟩),
    (0x4000000004001333, 0x10, .shflX ⟨0, 0, false, 2, false, false, false, 1, 0, 0, 0, some 0x10⟩),
    (0x0000002018000034, 0, .voteAll ⟨0, 0, false, 0, false, false, false, 6, 8, 0, 0, none⟩),
    (0x0000002018000134, 0, .voteAny ⟨0, 0, false, 0, false, false, false, 6, 8, 0, 0, none⟩),
    (0x0000002018000234, 0, .ballot ⟨0, 0, false, 0, false, false, false, 6, 8, 0, 0, none⟩),
    (0x6000002018000334, 0, .laneMatch ⟨0, 0, false, 3, false, false, false, 6, 8, 0, 0, none⟩),
    (0x4000002018000035, 0, .scanAdd ⟨0, 0, false, 2, false, false, false, 6, 8, 0, 0, none⟩),
    (0x4000002018000135, 0, .scanMax ⟨0, 0, false, 2, false, false, false, 6, 8, 0, 0, none⟩),
    (0x4000002018000235, 0, .redAdd ⟨0, 0, false, 2, false, false, false, 6, 8, 0, 0, none⟩),
    (0x4000002018000335, 0, .redMin ⟨0, 0, false, 2, false, false, false, 6, 8, 0, 0, none⟩),
    (0x4000002018000435, 0, .redMax ⟨0, 0, false, 2, false, false, false, 6, 8, 0, 0, none⟩),
    (0x4000002018000535, 0, .redOr ⟨0, 0, false, 2, false, false, false, 6, 8, 0, 0, none⟩),
    (0x0000282018000036, 0, .kand ⟨0, 0, false, 0, false, false, false, 6, 8, 0xa, 0, none⟩),
    (0x0000282018000136, 0, .kor ⟨0, 0, false, 0, false, false, false, 6, 8, 0xa, 0, none⟩),
    (0x0000282018000236, 0, .kxor ⟨0, 0, false, 0, false, false, false, 6, 8, 0xa, 0, none⟩),
    (0x0000282018000336, 0, .kandn ⟨0, 0, false, 0, false, false, false, 6, 8, 0xa, 0, none⟩),
    (0x0000000018001436, 0xffffffff, .kset ⟨0, 0, false, 0, false, false, false, 6, 0, 0, 0, some 0xffffffff⟩),
    (0x0000002018000536, 0, .kget ⟨0, 0, false, 0, false, false, false, 6, 8, 0, 0, none⟩)] = true := by decide +kernel

theorem test_decode_lane_float_1 : readsAll [
    (0x0000282018000060, 0, .addF32 ⟨0, 0, false, 0, false, false, false, 6, 8, 0xa, 0, none⟩),
    (0x2000282018000160, 0, .subF32 ⟨0, 0, false, 1, false, false, false, 6, 8, 0xa, 0, none⟩),
    (0x4000282018000260, 0, .mulF32 ⟨0, 0, false, 2, false, false, false, 6, 8, 0xa, 0, none⟩),
    (0x200C080420000360, 0, .fmaF32 ⟨0, 0, false, 1, false, false, false, 8, 1, 2, 3, none⟩),
    (0x0000000404001260, 0x40000000, .mulF32 ⟨0, 0, false, 0, false, false, false, 1, 1, 0, 0, some 0x40000000⟩),
    (0x0000282018000460, 0, .minF32 ⟨0, 0, false, 0, false, false, false, 6, 8, 0xa, 0, none⟩),
    (0x0000282018000560, 0, .maxF32 ⟨0, 0, false, 0, false, false, false, 6, 8, 0xa, 0, none⟩),
    (0x0000282018000860, 0, .divF32 ⟨0, 0, false, 0, false, false, false, 6, 8, 0xa, 0, none⟩),
    (0x0000002018000660, 0, .absF32 ⟨0, 0, false, 0, false, false, false, 6, 8, 0, 0, none⟩),
    (0x0000002018000760, 0, .negF32 ⟨0, 0, false, 0, false, false, false, 6, 8, 0, 0, none⟩),
    (0x0000002018000960, 0, .sqrtF32 ⟨0, 0, false, 0, false, false, false, 6, 8, 0, 0, none⟩),
    (0x0000002018000A60, 0, .rcpF32 ⟨0, 0, false, 0, false, false, false, 6, 8, 0, 0, none⟩),
    (0x0000002018000B60, 0, .rsqrtF32 ⟨0, 0, false, 0, false, false, false, 6, 8, 0, 0, none⟩),
    (0x6000002018000061, 0, .exp2F32 ⟨0, 0, false, 3, false, false, false, 6, 8, 0, 0, none⟩),
    (0x6000002018000161, 0, .log2F32 ⟨0, 0, false, 3, false, false, false, 6, 8, 0, 0, none⟩),
    (0x6000002018000261, 0, .sinF32 ⟨0, 0, false, 3, false, false, false, 6, 8, 0, 0, none⟩),
    (0x6000002018000361, 0, .cosF32 ⟨0, 0, false, 3, false, false, false, 6, 8, 0, 0, none⟩),
    (0x6000002018000461, 0, .tanhF32 ⟨0, 0, false, 3, false, false, false, 6, 8, 0, 0, none⟩),
    (0x0000282018000062, 0, .packedF16Arith .add ⟨0, 0, false, 0, false, false, false, 6, 8, 0xa, 0, none⟩),
    (0x0000282018000162, 0, .packedF16Arith .sub ⟨0, 0, false, 0, false, false, false, 6, 8, 0xa, 0, none⟩),
    (0x0000282018000262, 0, .packedF16Arith .mul ⟨0, 0, false, 0, false, false, false, 6, 8, 0xa, 0, none⟩),
    (0x0030282018000362, 0, .packedF16Arith .fma ⟨0, 0, false, 0, false, false, false, 6, 8, 0xa, 0xc, none⟩),
    (0x0000282018000462, 0, .packedF16Arith .min ⟨0, 0, false, 0, false, false, false, 6, 8, 0xa, 0, none⟩),
    (0x0000282018000562, 0, .packedF16Arith .max ⟨0, 0, false, 0, false, false, false, 6, 8, 0xa, 0, none⟩)] = true := by decide +kernel

theorem test_decode_lane_float_2 : readsAll [
    (0x0000002018000662, 0, .packedF16Arith .abs ⟨0, 0, false, 0, false, false, false, 6, 8, 0, 0, none⟩),
    (0x0000002018000762, 0, .packedF16Arith .neg ⟨0, 0, false, 0, false, false, false, 6, 8, 0, 0, none⟩),
    (0x0000282018000063, 0, .packedBf16Arith .add ⟨0, 0, false, 0, false, false, false, 6, 8, 0xa, 0, none⟩),
    (0x0000282018000163, 0, .packedBf16Arith .sub ⟨0, 0, false, 0, false, false, false, 6, 8, 0xa, 0, none⟩),
    (0x0000282018000263, 0, .packedBf16Arith .mul ⟨0, 0, false, 0, false, false, false, 6, 8, 0xa, 0, none⟩),
    (0x0030282018000363, 0, .packedBf16Arith .fma ⟨0, 0, false, 0, false, false, false, 6, 8, 0xa, 0xc, none⟩),
    (0x0000282018000463, 0, .packedBf16Arith .min ⟨0, 0, false, 0, false, false, false, 6, 8, 0xa, 0, none⟩),
    (0x0000282018000563, 0, .packedBf16Arith .max ⟨0, 0, false, 0, false, false, false, 6, 8, 0xa, 0, none⟩),
    (0x0000002018000663, 0, .packedBf16Arith .abs ⟨0, 0, false, 0, false, false, false, 6, 8, 0, 0, none⟩),
    (0x0000002018000763, 0, .packedBf16Arith .neg ⟨0, 0, false, 0, false, false, false, 6, 8, 0, 0, none⟩),
    (0x2004241008000064, 0, .floatCmp .eq ⟨0, 0, false, 1, false, false, false, 2, 4, 9, 1, none⟩),
    (0x2004241008000164, 0, .floatCmp .ne ⟨0, 0, false, 1, false, false, false, 2, 4, 9, 1, none⟩),
    (0x0000241008000264, 0, .floatCmp .lt ⟨0, 0, false, 0, false, false, false, 2, 4, 9, 0, none⟩),
    (0x2004241008000364, 0, .floatCmp .le ⟨0, 0, false, 1, false, false, false, 2, 4, 9, 1, none⟩),
    (0x2004241008000464, 0, .floatCmp .gt ⟨0, 0, false, 1, false, false, false, 2, 4, 9, 1, none⟩),
    (0x2004241008000564, 0, .floatCmp .ge ⟨0, 0, false, 1, false, false, false, 2, 4, 9, 1, none⟩),
    (0x2004241008000664, 0, .floatCmp .un ⟨0, 0, false, 1, false, false, false, 2, 4, 9, 1, none⟩),
    (0x02E0001814000065, 0, .cvt ⟨0, 0, false, 0, false, false, false, 5, 6, 0, 0xb8, none⟩)] = true := by decide +kernel

theorem test_decode_memory : readsAll [
    (0x8A00081028001080, 0x40, .ldG ⟨0, 0, false, 8, 2, true, 0, 0xa, 4, 2, some ⟨false, false, 0, 0, 0, 0x40⟩⟩),
    (0x6A40001850002180, 0, .stG ⟨0, 1, false, 6, 2, true, 0x10, 0x14, 6, 0, none⟩),
    (0xB000001018001280, 0x200000fffffff0, .ldS ⟨0, 0, false, 11, 0, false, 0, 6, 4, 0, some ⟨true, false, 0, 0, 0, 0xfffffff0⟩⟩),
    (0x3200241018001380, 0x10000000000000, .stS ⟨0, 0, false, 3, 0, true, 0, 6, 4, 9, some ⟨false, true, 0, 0, 0, 0⟩⟩),
    (0x03FC241018000480, 0, .ldP ⟨0, 0, false, 0, 0, true, 0x7f, 6, 4, 9, none⟩),
    (0x5000001018000580, 0, .stP ⟨0, 0, false, 5, 0, false, 0, 6, 4, 0, none⟩),
    (0x6000002810001680, 0x600000100, .stM ⟨0, 0, false, 6, 0, false, 0, 4, 0xa, 0, some ⟨false, false, 0, 0, 6, 0x100⟩⟩),
    (0x2E000C1030000081, 0, .cpy16 ⟨0, 0, false, 2, 3, true, 0, 0xc, 4, 3, none⟩),
    (0x7000001030000181, 0, .cpy16Out ⟨0, 0, false, 7, 0, false, 0, 0xc, 4, 0, none⟩)] = true := by decide +kernel

theorem test_decode_sync_membership_1 : readsAll [
    (0x6A00082018001082, 0x8000900000000, .atomAdd ⟨0, 0, false, 6, 2, true, 0, 6, 8, 2, some ⟨false, false, 2, 0, 9, 0⟩⟩),
    (0x2000002018001182, 0xc000900000000, .atomMin ⟨0, 0, false, 2, 0, false, 0, 6, 8, 0, some ⟨false, false, 3, 0, 9, 0⟩⟩),
    (0x2000002018001282, 0xd000900000000, .atomMax ⟨0, 0, false, 2, 0, false, 0, 6, 8, 0, some ⟨false, false, 3, 1, 9, 0⟩⟩),
    (0x2000002018001382, 0xe000900000000, .atomAnd ⟨0, 0, false, 2, 0, false, 0, 6, 8, 0, some ⟨false, false, 3, 2, 9, 0⟩⟩),
    (0x2000002018001482, 0xf000900000000, .atomOr ⟨0, 0, false, 2, 0, false, 0, 6, 8, 0, some ⟨false, false, 3, 3, 9, 0⟩⟩),
    (0x2000002018001582, 0xc000900000000, .atomXor ⟨0, 0, false, 2, 0, false, 0, 6, 8, 0, some ⟨false, false, 3, 0, 9, 0⟩⟩),
    (0x6000002018001083, 0x1000900000000, .atomXchg ⟨0, 0, false, 6, 0, false, 0, 6, 8, 0, some ⟨false, false, 0, 1, 9, 0⟩⟩),
    (0x6000002018001183, 0x30b0900000000, .atomCas ⟨0, 0, false, 6, 0, false, 0, 6, 8, 0, some ⟨false, false, 0, 3, 0xb09, 0⟩⟩),
    (0x0000000000000084, 0, .fence .blk ⟨0, 0, false, 0, false, false, false, 0, 0, 0, 0, none⟩),
    (0x0000000000000184, 0, .fence .clu ⟨0, 0, false, 0, false, false, false, 0, 0, 0, 0, none⟩),
    (0x0000000000000284, 0, .fence .dev ⟨0, 0, false, 0, false, false, false, 0, 0, 0, 0, none⟩),
    (0x0000000000000384, 0, .fence .sys ⟨0, 0, false, 0, false, false, false, 0, 0, 0, 0, none⟩),
    (0x0000003C000000A0, 0, .barArrive ⟨0, 0, false, 0, false, false, false, 0, 0xf, 0, 0, none⟩),
    (0x00000108000001A0, 0, .barWait ⟨0, 0, false, 0, false, false, false, 0, 0x42, 0, 0, none⟩),
    (0x0000000C000002A0, 0, .barSync ⟨0, 0, false, 0, false, false, false, 0, 3, 0, 0, none⟩),
    (0x00001C10000003A0, 0, .barExpect ⟨0, 0, false, 0, false, false, false, 0, 4, 7, 0, none⟩),
    (0x00041C18140000A1, 0, .spawn ⟨0, 0, false, 0, false, false, false, 5, 6, 7, 1, none⟩),
    (0x00000000000001A1, 0, .leave ⟨0, 0, false, 0, false, false, false, 0, 0, 0, 0, none⟩),
    (0x000C0000000002A1, 0, .role ⟨0, 0, false, 0, false, false, false, 0, 0, 0, 3, none⟩),
    (0x00100000140003A1, 0, .vgrow ⟨0, 0, false, 0, false, false, false, 5, 0, 0, 4, none⟩),
    (0x00080000000004A1, 0, .vshrink ⟨0, 0, false, 0, false, false, false, 0, 0, 0, 2, none⟩),
    (0x02040000140000A2, 0, .wait ⟨0, 0, false, 0, false, false, false, 5, 0, 0, 0x81, none⟩),
    (0x02040000000011A2, 0x40, .waitY ⟨0, 0, false, 0, false, false, false, 0, 0, 0, 0x81, some 0x40⟩),
    (0x00000018140000A3, 0, .launch ⟨0, 0, false, 0, false, false, false, 5, 6, 0, 0, none⟩)] = true := by decide +kernel

theorem test_decode_sync_membership_2 : readsAll [
    (0x00001C18140001A3, 0, .launchR ⟨0, 0, false, 0, false, false, false, 5, 6, 7, 0, none⟩)] = true := by decide +kernel

theorem test_decode_tensor : readsAll [
    (0x00000024040000B0, 0, .tld ⟨0, 0, false, 0, false, 0, false, 0, 1, 9, 0, none⟩),
    (0x00000024040011B0, 0x40, .tst ⟨0, 0, false, 0, false, 0, false, 0, 1, 9, 0, some ⟨0, 0x40⟩⟩),
    (0x00000028000002B0, 0, .tsetBase ⟨0, 0, false, 0, false, 0, false, 0, 0, 0xa, 0, none⟩),
    (0x00000428040002B0, 0, .tsetFill ⟨0, 0, false, 0, false, 0, false, 0, 1, 0xa, 1, none⟩),
    (0x00002428040002B0, 0, .tsetExt ⟨0, 0, false, 0, false, 0, false, 0, 1, 0xa, 9, none⟩),
    (0x0000FC08140003B0, 0, .tq ⟨0, 0, false, 0, false, 0, false, 0, 5, 2, 0x3f, none⟩),
    (0x00005010280040B1, 0, .tldE ⟨0, 2, false, 0, false, 0, false, 0, 0xa, 4, 0x14, none⟩),
    (0x04005010280011B1, 0x500000000, .tstE ⟨0, 0, false, 0, true, 0, false, 0, 0xa, 4, 0x14, some ⟨5, 0⟩⟩),
    (0x010024040C0000B2, 0, .trel ⟨0, 0, false, 0, false, 2, false, 0, 3, 1, 9, none⟩),
    (0x205424040C0000B2, 0, .trel ⟨0, 0, false, 1, false, 0, true, 5, 3, 1, 9, none⟩),
    (0x0000001C080001B2, 0, .tlay ⟨0, 0, false, 0, false, 0, false, 0, 2, 7, 0, none⟩)] = true := by decide +kernel

theorem test_decode_transform : readsAll [
    (0x000C0020A00000C0, 0, .xquant ⟨0, 0, false, 0, false, false, false, 0x28, 8, 0, 3, none⟩),
    (0x006000A0200001C0, 0, .xdequant ⟨0, 0, false, 0, false, false, false, 8, 0x28, 0, 0x18, none⟩),
    (0x001C0020140002C0, 0, .xpack ⟨0, 0, false, 0, false, false, false, 5, 8, 0, 7, none⟩),
    (0x000018A0200003C0, 0, .xunpack ⟨0, 0, false, 0, false, false, false, 8, 0x28, 6, 0, none⟩),
    (0x02E01010500004C0, 0, .xconv ⟨0, 0, false, 0, false, false, false, 0x14, 4, 4, 0xb8, none⟩)] = true := by decide +kernel

theorem test_decode_matrix : readsAll [
    (0xA0008040040000C8, 0, .mmaS .numeric ⟨0, 10, false, false, 1, 0x10, 0x20, 0⟩),
    (0xA0008040040001C8, 0, .mmaQ .numeric ⟨0, 10, false, false, 1, 0x10, 0x20, 0⟩),
    (0xA0008040040002C8, 0, .mmaP .numeric ⟨0, 10, false, false, 1, 0x10, 0x20, 0⟩),
    (0xA0008040040003C8, 0, .mmaB .numeric ⟨0, 10, false, false, 1, 0x10, 0x20, 0⟩),
    (0xE0008040040004C8, 0, .mmaS .xor ⟨0, 14, false, false, 1, 0x10, 0x20, 0⟩),
    (0xE0008040040005C8, 0, .mmaQ .xor ⟨0, 14, false, false, 1, 0x10, 0x20, 0⟩),
    (0xE0008040040006C8, 0, .mmaP .xor ⟨0, 14, false, false, 1, 0x10, 0x20, 0⟩),
    (0xE0008040040007C8, 0, .mmaB .xor ⟨0, 14, false, false, 1, 0x10, 0x20, 0⟩),
    (0xE0008040040008C8, 0, .mmaS .land ⟨0, 14, false, false, 1, 0x10, 0x20, 0⟩),
    (0xE0008040040009C8, 0, .mmaQ .land ⟨0, 14, false, false, 1, 0x10, 0x20, 0⟩),
    (0xE000804004000AC8, 0, .mmaP .land ⟨0, 14, false, false, 1, 0x10, 0x20, 0⟩),
    (0xE000804004000BC8, 0, .mmaB .land ⟨0, 14, false, false, 1, 0x10, 0x20, 0⟩),
    (0xB0006040040001C8, 0, .mmaQ .numeric ⟨0, 11, false, false, 1, 0x10, 0x18, 0⟩),
    (0xDCA04020000000C8, 0, .mmaS .numeric ⟨0, 13, true, true, 0, 8, 0x10, 0x28⟩),
    (0xE00080000C0007C8, 0, .mmaB .xor ⟨0, 14, false, false, 3, 0, 0x20, 0⟩),
    (0x00100000080000CA, 0, .accz ⟨0, 0, false, 0, false, false, false, 2, 0, 0, 4, none⟩),
    (0x00040100080001CA, 0, .accld ⟨0, 0, false, 0, false, false, false, 2, 0x40, 0, 1, none⟩),
    (0x00040009000002CA, 0, .accst ⟨0, 0, false, 0, false, false, false, 0x40, 2, 0, 1, none⟩),
    (0x00100008180003CA, 0, .accmax ⟨0, 0, false, 0, false, false, false, 6, 2, 0, 4, none⟩),
    (0x00100008180004CA, 0, .accsum ⟨0, 0, false, 0, false, false, false, 6, 2, 0, 4, none⟩),
    (0x00101C18080005CA, 0, .accexp ⟨0, 0, false, 0, false, false, false, 2, 6, 7, 4, none⟩),
    (0x04100018080006CA, 0, .accscl ⟨0, 0, false, 0, true, false, false, 2, 6, 0, 4, none⟩),
    (0x02C40008800007CA, 0, .acccvt ⟨0, 0, false, 0, false, false, false, 0x20, 2, 0, 0xb1, none⟩)] = true := by decide +kernel

theorem test_decode_mask_signature : readsAll [
    (0xC0241C18000000E0, 0, .mkld ⟨0, 3, 0, 6, 7, 9⟩),
    (0x40001C18140001E0, 0, .mkcls ⟨0, 1, 5, 6, 7, 0⟩),
    (0x80001C18040002E0, 0, .mkapply ⟨0, 2, 1, 6, 7, 0⟩),
    (0x00080000140003E0, 0, .mkcnt ⟨0, 0, 5, 0, 0, 2⟩),
    (0x40040000000004E0, 0, .mkclr ⟨0, 1, 0, 0, 0, 1⟩),
    (0x00000008500000E8, 0, .sgpack ⟨0, 0, false, 0, false, false, false, 0x14, 2, 0, 0, none⟩),
    (0x003024500C0001E8, 0, .sgsel ⟨0, 0, false, 0, false, false, false, 3, 0x14, 9, 0xc, none⟩),
    (0x00102450100002E8, 0, .sgcnt ⟨0, 0, false, 0, false, false, false, 4, 0x14, 9, 4, none⟩)] = true := by decide +kernel

theorem test_decode_privileged : readsAll [
    (0x00080018000000F0, 0, .ctxhalt ⟨0, 0, false, 0, false, false, false, 0, 6, 0, 2, none⟩),
    (0x00081C18000001F0, 0, .ctxsave ⟨0, 0, false, 0, false, false, false, 0, 6, 7, 2, none⟩),
    (0x00081C18000002F0, 0, .ctxload ⟨0, 0, false, 0, false, false, false, 0, 6, 7, 2, none⟩),
    (0x00000018000003F0, 0, .ctxrun ⟨0, 0, false, 0, false, false, false, 0, 6, 0, 0, none⟩),
    (0x00000018000004F0, 0, .ctxkill ⟨0, 0, false, 0, false, false, false, 0, 6, 0, 0, none⟩),
    (0x00001C18000000F1, 0, .tlbinv ⟨0, 0, false, 0, false, false, false, 0, 6, 7, 0, none⟩),
    (0x00000018000001F1, 0, .tlbinvAll ⟨0, 0, false, 0, false, false, false, 0, 6, 0, 0, none⟩),
    (0x00001C18000000F2, 0, .fltresReplay ⟨0, 0, false, 0, false, false, false, 0, 6, 7, 0, none⟩),
    (0x00000018140000F3, 0, .dtrd ⟨0, 0, false, 0, false, false, false, 5, 6, 0, 0, none⟩),
    (0x00000018140000F4, 0, .pld ⟨0, 0, false, 0, false, false, false, 5, 6, 0, 0, none⟩),
    (0x00000018140001F4, 0, .pst ⟨0, 0, false, 0, false, false, false, 5, 6, 0, 0, none⟩),
    (0x00000018000000F5, 0, .migset ⟨0, 0, false, 0, false, false, false, 0, 6, 0, 0, none⟩),
    (0x00000018000001F5, 0, .migclr ⟨0, 0, false, 0, false, false, false, 0, 6, 0, 0, none⟩),
    (0x00000018000000F6, 0, .evsig ⟨0, 0, false, 0, false, false, false, 0, 6, 0, 0, none⟩),
    (0x000C001C000000F0, 0, .ctxhalt ⟨0, 0, false, 0, false, false, false, 0, 7, 0, 3, none⟩),
    (0x00001814000000F1, 0, .tlbinv ⟨0, 0, false, 0, false, false, false, 0, 5, 6, 0, none⟩),
    (0x00002824000000F2, 0, .fltresReplay ⟨0, 0, false, 0, false, false, false, 0, 9, 0xa, 0, none⟩),
    (0x000000100C0000F3, 0, .dtrd ⟨0, 0, false, 0, false, false, false, 3, 4, 0, 0, none⟩),
    (0x00000008000000F6, 0, .evsig ⟨0, 0, false, 0, false, false, false, 0, 2, 0, 0, none⟩)] = true := by decide +kernel

/-! ### Words and instructions that steps 2 to 4 of decode refuse, one for each check, with the code of R159 -/

def refusesAll (l : List (W64 × W64 × Instr × Nat)) : Bool :=
  l.all (fun x => (match decode .full x.1 x.2.1 with | .ok _ => false | .error c => c == x.2.2.2) && !x.2.2.1.wf .full)

theorem test_ill_formed_refused_1 : refusesAll [
    (0x600000100C001D10, 0x5, .scalarClz ⟨0, 0, false, 3, false, false, false, 3, 4, 0, 0, some 5⟩, 2),
    (0x000000000C000112, 0, .li ⟨0, 0, false, 0, false, false, false, 3, 0, 0, 0, none⟩, 2),
    (0x0000000400001100, 0x8, .br ⟨0, 0, 1, some 8⟩, 2),
    (0x0000004014000002, 0, .brv ⟨0, 5, 0x10, none⟩, 2),
    (0x6000002810000680, 0, .stM ⟨0, 0, false, 6, 0, false, 0, 4, 0xa, 0, none⟩, 2),
    (0x6000002018000082, 0, .atomAdd ⟨0, 0, false, 6, 0, false, 0, 6, 8, 0, none⟩, 2),
    (0x00000028000012B0, 0x0, .tsetBase ⟨0, 0, false, 0, false, 0, false, 0, 0, 0xa, 0, some ⟨0, 0⟩⟩, 2),
    (0x0000000004000600, 0, .exit ⟨0, 0, false, 0, false, false, false, 1, 0, 0, 0, none⟩, 3),
    (0x0000010000000300, 0, .brR ⟨0, 0, false, 0, false, false, false, 0, 0x40, 0, 0, none⟩, 4),
    (0x0000080440000036, 0, .kand ⟨0, 0, false, 0, false, false, false, 0x10, 1, 2, 0, none⟩, 4),
    (0x00000000100000CA, 0, .accz ⟨0, 0, false, 0, false, false, false, 4, 0, 0, 0, none⟩, 4),
    (0x0020001C000000F0, 0, .ctxhalt ⟨0, 0, false, 0, false, false, false, 0, 7, 0, 8, none⟩, 4),
    (0x00000040000000A0, 0, .barArrive ⟨0, 0, false, 0, false, false, false, 0, 0x10, 0, 0, none⟩, 4),
    (0x00000120000000A0, 0, .barArrive ⟨0, 0, false, 0, false, false, false, 0, 0x48, 0, 0, none⟩, 4),
    (0x00000210000000A0, 0, .barArrive ⟨0, 0, false, 0, false, false, false, 0, 0x84, 0, 0, none⟩, 4),
    (0x00000300000000A0, 0, .barArrive ⟨0, 0, false, 0, false, false, false, 0, 0xc0, 0, 0, none⟩, 4),
    (0x0004000100000013, 0, .sread ⟨0, 0, false, 0, false, false, false, 0x40, 0, 0, 1, none⟩, 4),
    (0x4801002018000030, 0, .laneAdd ⟨0, 0, false, 2, false, true, false, 6, 8, 0x40, 0, none⟩, 4),
    (0x4000042018001030, 0x5, .laneAdd ⟨0, 0, false, 2, false, false, false, 6, 8, 1, 0, some 5⟩, 3),
    (0x4800002018001030, 0x5, .laneAdd ⟨0, 0, false, 2, false, true, false, 6, 8, 0, 0, some 5⟩, 3),
    (0x4000002018001030, 0x100000000, .laneAdd ⟨0, 0, false, 2, false, false, false, 6, 8, 0, 0, some 0x100000000⟩, 3),
    (0x0400002018000034, 0, .voteAll ⟨0, 0, false, 0, true, false, false, 6, 8, 0, 0, none⟩, 4),
    (0x04000020080001CA, 0, .accld ⟨0, 0, false, 0, true, false, false, 2, 8, 0, 0, none⟩, 3),
    (0x500C282018000131, 0, .laneSel ⟨0, 0, false, 2, false, false, true, 6, 8, 0xa, 3, none⟩, 4)] = true := by decide +kernel

theorem test_ill_formed_refused_2 : refusesAll [
    (0x2000000000000600, 0, .exit ⟨0, 0, false, 1, false, false, false, 0, 0, 0, 0, none⟩, 3),
    (0x8000282018000060, 0, .addF32 ⟨0, 0, false, 4, false, false, false, 6, 8, 0xa, 0, none⟩, 3),
    (0x601014100C000212, 0, .lea ⟨0, 0, false, 3, false, false, false, 3, 4, 5, 4, none⟩, 3),
    (0x600400100C001212, 0x8, .lea ⟨0, 0, false, 3, false, false, false, 3, 4, 0, 1, some 8⟩, 3),
    (0x0050000010000013, 0, .sread ⟨0, 0, false, 0, false, false, false, 4, 0, 0, 0x14, none⟩, 4),
    (0x00AC001800000113, 0, .swrite ⟨0, 0, false, 0, false, false, false, 0, 6, 0, 0x2b, none⟩, 4),
    (0x2008241008000264, 0, .floatCmp .lt ⟨0, 0, false, 1, false, false, false, 2, 4, 9, 2, none⟩, 3),
    (0x0004241008000264, 0, .floatCmp .lt ⟨0, 0, false, 0, false, false, false, 2, 4, 9, 1, none⟩, 3),
    (0x03E0001814000065, 0, .cvt ⟨0, 0, false, 0, false, false, false, 5, 6, 0, 0xf8, none⟩, 3),
    (0x00040000140400A2, 0, .wait ⟨1, 0, false, 0, false, false, false, 5, 0, 0, 1, none⟩, 3),
    (0x00200000080000CA, 0, .accz ⟨0, 0, false, 0, false, false, false, 2, 0, 0, 8, none⟩, 3),
    (0x02E00008800007CA, 0, .acccvt ⟨0, 0, false, 0, false, false, false, 0x20, 2, 0, 0xb8, none⟩, 3),
    (0x600014100C002010, 0, .scalarAdd ⟨0, 1, false, 3, false, false, false, 3, 4, 5, 0, none⟩, 7),
    (0x4000282018020030, 0, .laneAdd ⟨0, 0, true, 2, false, false, false, 6, 8, 0xa, 0, none⟩, 7),
    (0x0000000500000001, 0, .brc .z ⟨0, 0x40, 1, none⟩, 4),
    (0x0000000440001002, 0x8, .brv ⟨0, 0x10, 1, some 8⟩, 4),
    (0x0000000404000100, 0, .br ⟨0, 1, 1, none⟩, 3),
    (0xF000001018000080, 0, .ldG ⟨0, 0, false, 15, 0, false, 0, 6, 4, 0, none⟩, 3),
    (0x8000001030000081, 0, .cpy16 ⟨0, 0, false, 8, 0, false, 0, 0xc, 4, 0, none⟩, 3),
    (0x6000041018000080, 0, .ldG ⟨0, 0, false, 6, 0, false, 0, 6, 4, 1, none⟩, 3),
    (0x6400001018000080, 0, .ldG ⟨0, 0, false, 6, 1, false, 0, 6, 4, 0, none⟩, 3),
    (0x6000010018000080, 0, .ldG ⟨0, 0, false, 6, 0, false, 0, 6, 0x40, 0, none⟩, 4),
    (0x6000001100000014, 0, .scalarLd ⟨0, 0, false, 6, 0, false, 0, 0x40, 4, 0, none⟩, 4),
    (0x6201001014000014, 0, .scalarLd ⟨0, 0, false, 6, 0, true, 0, 5, 4, 0x40, none⟩, 4)] = true := by decide +kernel

theorem test_ill_formed_refused_3 : refusesAll [
    (0x6010001018001080, 0x0, .ldG ⟨0, 0, false, 6, 0, false, 4, 6, 4, 0, some ⟨false, false, 0, 0, 0, 0⟩⟩, 3),
    (0x6000001018001080, 0x20000000000000, .ldG ⟨0, 0, false, 6, 0, false, 0, 6, 4, 0, some ⟨true, false, 0, 0, 0, 0⟩⟩, 3),
    (0x8000001018001082, 0x20000800000000, .atomAdd ⟨0, 0, false, 8, 0, false, 0, 6, 4, 0, some ⟨true, false, 0, 0, 8, 0⟩⟩, 3),
    (0x6200141018001014, 0x10000000000000, .scalarLd ⟨0, 0, false, 6, 0, true, 0, 6, 4, 5, some ⟨false, true, 0, 0, 0, 0⟩⟩, 3),
    (0x6000001018001080, 0x10000000000000, .ldG ⟨0, 0, false, 6, 0, false, 0, 6, 4, 0, some ⟨false, true, 0, 0, 0, 0⟩⟩, 3),
    (0x6000001018001080, 0x4000000000000, .ldG ⟨0, 0, false, 6, 0, false, 0, 6, 4, 0, some ⟨false, false, 1, 0, 0, 0⟩⟩, 3),
    (0x6000001018001080, 0x1000000000000, .ldG ⟨0, 0, false, 6, 0, false, 0, 6, 4, 0, some ⟨false, false, 0, 1, 0, 0⟩⟩, 3),
    (0x6000001018001082, 0x10000000000, .atomAdd ⟨0, 0, false, 6, 0, false, 0, 6, 4, 0, some ⟨false, false, 0, 0, 0x100, 0⟩⟩, 3),
    (0x6000001018001680, 0x100000000000, .stM ⟨0, 0, false, 6, 0, false, 0, 6, 4, 0, some ⟨false, false, 0, 0, 0x1000, 0⟩⟩, 3),
    (0x6000001018001080, 0x100000000, .ldG ⟨0, 0, false, 6, 0, false, 0, 6, 4, 0, some ⟨false, false, 0, 0, 1, 0⟩⟩, 3),
    (0x6201001018001080, 0x10000000000000, .ldG ⟨0, 0, false, 6, 0, true, 0, 6, 4, 0x40, some ⟨false, true, 0, 0, 0, 0⟩⟩, 4),
    (0x6000001018002014, 0, .scalarLd ⟨0, 1, false, 6, 0, false, 0, 6, 4, 0, none⟩, 7),
    (0x00000024400000B0, 0, .tld ⟨0, 0, false, 0, false, 0, false, 0, 0x10, 9, 0, none⟩, 4),
    (0x00000100040000B0, 0, .tld ⟨0, 0, false, 0, false, 0, false, 0, 1, 0x40, 0, none⟩, 4),
    (0x00000005000003B0, 0, .tq ⟨0, 0, false, 0, false, 0, false, 0, 0x40, 1, 0, none⟩, 4),
    (0x04000024040000B0, 0, .tld ⟨0, 0, false, 0, true, 0, false, 0, 1, 9, 0, none⟩, 3),
    (0x2000001C080001B2, 0, .tlay ⟨0, 0, false, 1, false, 0, false, 0, 2, 7, 0, none⟩, 3),
    (0x00800024040000B0, 0, .tld ⟨0, 0, false, 0, false, 1, false, 0, 1, 9, 0, none⟩, 3),
    (0x001424040C0000B2, 0, .trel ⟨0, 0, false, 0, false, 0, false, 5, 3, 1, 9, none⟩, 3),
    (0x014024040C0000B2, 0, .trel ⟨0, 0, false, 0, false, 2, true, 0, 3, 1, 9, none⟩, 3),
    (0x00000024040010B0, 0x100000000, .tld ⟨0, 0, false, 0, false, 0, false, 0, 1, 9, 0, some ⟨1, 0⟩⟩, 3),
    (0x00005010280010B1, 0x4, .tldE ⟨0, 0, false, 0, false, 0, false, 0, 0xa, 4, 0x14, some ⟨0, 4⟩⟩, 3),
    (0x00000024040020B0, 0, .tld ⟨0, 1, false, 0, false, 0, false, 0, 1, 9, 0, none⟩, 7),
    (0xE0008040040000C8, 0, .mmaS .numeric ⟨0, 14, false, false, 1, 0x10, 0x20, 0⟩, 3)] = true := by decide +kernel

theorem test_ill_formed_refused_4 : refusesAll [
    (0xA0008040040004C8, 0, .mmaS .xor ⟨0, 10, false, false, 1, 0x10, 0x20, 0⟩, 3),
    (0xD4208040040000C8, 0, .mmaS .numeric ⟨0, 13, false, true, 1, 0x10, 0x20, 8⟩, 3),
    (0xA8008040040000C8, 0, .mmaS .numeric ⟨0, 10, true, false, 1, 0x10, 0x20, 0⟩, 3),
    (0xA0208040040000C8, 0, .mmaS .numeric ⟨0, 10, false, false, 1, 0x10, 0x20, 8⟩, 3),
    (0xA0008040100000C8, 0, .mmaS .numeric ⟨0, 10, false, false, 4, 0x10, 0x20, 0⟩, 4),
    (0x40001C19000001E0, 0, .mkcls ⟨0, 1, 0x40, 6, 7, 0⟩, 4),
    (0x40401C18000000E0, 0, .mkld ⟨0, 1, 0, 6, 7, 0x10⟩, 4),
    (0x40000000140003E0, 0, .mkcnt ⟨0, 1, 5, 0, 0, 0⟩, 3),
    (0x600028201C000030, 0, .laneAdd ⟨0, 0, false, 3, false, false, false, 7, 8, 0xa, 0, none⟩, 6)] = true := by decide +kernel

/-- The code with which decode refuses a word in a group. -/
def codeIn (env : DecEnv) (w0 w1 : W64) : Option Nat := match decode env w0 w1 with | .ok _ => none | .error c => some c

/-- Outside every row (R156, R159's worked word), a register the
group does not hold (R40), the lowest code of several (R159): class Z and a guard. -/
theorem test_other_refusals :
    codeIn .full 0x00000000000001FC 0 = some 0 ∧ codeIn .full 0x0000000000000FC8 0 = some 0 ∧
    codeIn ⟨16, 0⟩ 0x4000282040000030 0 = some 5 ∧
    codeIn .full 0x0000000004002600 0 = some 3 := by decide +kernel

/-- Events are no encoded instructions, `swrite` of ROLE is its own row, and the word of `fltres` names no action. -/
theorem test_rows_that_no_word_names :
    Instr.wf .full (.sleepWake ⟨0, 0, 0⟩) = false ∧
    Instr.wf .full (.swrite ⟨0, 0, false, 0, false, false, false, 0, 6, 0, 5, none⟩) = false ∧
    Instr.wf .full (.swriteRole ⟨0, 0, false, 0, false, false, false, 0, 6, 0, 7, none⟩) = false ∧
    Instr.wf .full (.fltresEndGrid ⟨0, 0, false, 0, false, false, false, 0, 6, 7, 0, none⟩) = false ∧
    Instr.wf .full (.fltresEndContext ⟨0, 0, false, 0, false, false, false, 0, 6, 7, 0, none⟩) = false := by decide +kernel

/-! ### Single steps -/

/-- A fragment with all lanes at 0x3000. -/
def frag0 : Fragment := { Fragment.reset with pc := 0x3000, em := 0xFFFFFFFFFFFFFFFF }

/-- A group with 256 lane registers and a trap handler at 0x8000. -/
def grp0 : Group := { Group.reset with vblk := List.range 16, trap := { TrapRegs.reset with hdl := 0x8000 } }

/-- A grid of context 1. -/
def grid0 : Grid :=
  { newGrid 1 none [0x100000011, 0, 0, 0, 0, 0, 0, 0] 1 0 7 false 0 none 0 0 with
    kd := List.replicate 8 0, kdRead := true, next := 1, nblk := 1
    cbs := [(0, List.replicate 8 { Barrier.reset with m := 1 })], gbs := List.replicate 4 { Barrier.reset with m := 1 } }

/-- A block alone in its cluster, with a window of 64 KiB. -/
def blk0 : Block :=
  { Block.reset with
    grid := 1, core := 0, regblk := 16, nmax := 4, winsize := 65536, bars := List.replicate 16 { Barrier.reset with m := 1 } }

/-- A TLB entry that maps page 0 of context 1 to physical page 0, readable, writable, executable, accessed and dirty. -/
def tlb0 : TlbEnt := ⟨0, 1, 0, 0, 0x19F, 0⟩

/-- The partition, in service; the tables of context 1 at 0x100000 are empty. -/
def part0 : Part :=
  { Part.reset with pstate := 2, tlb := [tlb0], ctxs := [(1, ⟨.running, [0x100001, 0, 0, 0, 0, 0, 0, 0], 0, 0, [], [], false, false, none⟩)] }

/-- A fragment issues. -/
def issuing (g : Group) (f : Fragment) : State :=
  { State.reset with
    iss := true, bkey := 1 * 2 ^ 32, blk := blk0, grp := g, frag := f, grids := [(1, grid0)], parts := [part0, .reset, .reset, .reset] }

def base : State := issuing grp0 frag0

/-- Lane registers from a list of (register, lane, word). -/
def lanes (l : List (Nat × Nat × W32)) : SMap 32 := SMap.setAll [] (l.map (fun p => (p.1 * 64 + p.2.1, p.2.2)))

/-- Scalar registers. -/
def regs (l : List (Nat × W64)) : Group := { grp0 with sregs := SMap.setAll [] l }

/-- What a next state shows. -/
def shows {α : Type} (r : Host.Outcome State Fault Refusal) (f : State → α) : Option α := match r with | .next t => some (f t) | _ => none

/-- Format C with no guard, no substitution and no long form. -/
def c (x : BitVec 3) (d a b : BitVec 8) (c : BitVec 8 := 0) : COps := ⟨0, 0, false, x, false, false, false, d, a, b, c, none⟩

/-- R167: division by 0 gives all ones of the width and a; the least number by -1 gives itself and 0. -/
theorem test_division_by_zero :
    let s := issuing (regs [(4, 7)]) frag0
    shows (exec (.scalarDiv (c 2 3 4 5)) s) (fun t => t.gv.sreg 3) = some 0xFFFFFFFFFFFFFFFF ∧
    shows (exec (.scalarDiv (c 6 3 4 5)) s) (fun t => t.gv.sreg 3) = some 0xFFFFFFFF ∧
    shows (exec (.scalarRem (c 2 3 4 5)) s) (fun t => t.gv.sreg 3) = some 7 := by decide +kernel
theorem test_division_overflow :
    let s := issuing (regs [(4, 0x80), (5, 0xFF)]) frag0
    shows (exec (.scalarDiv (c 0 3 4 5)) s) (fun t => t.gv.sreg 3) = some 0xFFFFFFFFFFFFFF80 ∧
    shows (exec (.scalarRem (c 0 3 4 5)) s) (fun t => t.gv.sreg 3) = some 0 := by decide +kernel

/-- R166: `mulh` keeps the high bits of the exact product; a shift by the width or more. R165: s0 discards. -/
theorem test_scalar_corners :
    let s := issuing (regs [(4, 0x8000000000000000), (5, 64), (6, 2)]) frag0
    shows (exec (.scalarMulh (c 3 3 4 6)) s) (fun t => t.gv.sreg 3) = some 0xFFFFFFFFFFFFFFFF ∧
    shows (exec (.scalarMulh (c 7 3 4 6)) s) (fun t => t.gv.sreg 3) = some 1 ∧
    shows (exec (.scalarShr (c 3 3 4 5)) s) (fun t => t.gv.sreg 3) = some 0xFFFFFFFFFFFFFFFF ∧
    shows (exec (.scalarShl (c 3 3 6 5)) s) (fun t => t.gv.sreg 3) = some 0 ∧
    shows (exec (.scalarAdd (c 3 0 6 6)) s) (fun t => (t.gv.sreg 0, t.gv.sregs.length)) = some (0, 3) := by decide +kernel

/-- R169: every source is read before s[D] is written, so `lea s4, [s4 + s4*2]` triples s4. -/
theorem test_lea_triples :
    shows (exec (.lea (c 3 4 4 4 1)) (issuing (regs [(4, 7)]) frag0)) (fun t => t.gv.sreg 4) = some 21 := by decide +kernel

/-- R170: a field that would pass bit 63 reads zeros there and writes nothing there. -/
theorem test_bit_fields_at_the_top :
    let s := issuing (regs [(3, 1), (4, 0xF000000000000000), (5, 60 + 256 * 8)]) frag0
    shows (exec (.scalarBfx (c 7 3 4 5)) s) (fun t => t.gv.sreg 3) = some 0xF ∧
    shows (exec (.scalarBfx (c 3 3 4 5)) s) (fun t => t.gv.sreg 3) = some 0xF ∧
    shows (exec (.scalarBfi (c 3 3 5 5)) s) (fun t => t.gv.sreg 3) = some 0xC000000000000001 := by decide +kernel

/-- R257's `brc.lt s7, loop` with loop at 0x2000, taken and not. -/
theorem test_brc :
    let f := { frag0 with pc := 0x2040 }
    shows (exec (.brc .lt ⟨0, 7, 0xFFFFF8, none⟩) (issuing (regs [(7, 0xFFFFFFFFFFFFFFFF)]) f)) (fun t => t.fv.map (·.pc)) = some (some 0x2000) ∧
    shows (exec (.brc .lt ⟨0, 7, 0xFFFFF8, none⟩) (issuing (regs []) f)) (fun t => t.fv.map (·.pc)) = some (some 0x2048) := by
  decide +kernel

/-- R174: a target read before the link is written; R175: a target that is not a multiple of 8. -/
theorem test_call_and_ret :
    let s := issuing (regs [(62, 0x4000), (5, 0x4004)]) frag0
    shows (exec (.callR (c 0 62 62 0)) s) (fun t => (t.fv.map (·.pc), t.gv.sreg 62)) = some (some 0x4000, 0x3008) ∧
    shows (exec (.ret (c 0 0 5 0)) s) (fun t => (t.fv.map (·.pc), t.gv.trap.op.toNat / 2 ^ 56)) = some (some 0x8000, 0x18) := by
  decide +kernel

/-- R18, R177: the taken lanes keep the fragment, the others get a new one behind the 16 bytes of the branch. -/
theorem test_brv_splits :
    let s := issuing { grp0 with kregs := [(5, 0xFF)] } frag0
    shows (exec (.brv ⟨0, 5, 16, some 0x200⟩) s) (fun t => (t.fv.map (fun f => (f.pc, f.em)),
      (t.gv.frags.map (fun p => (p.2.pc, p.2.em))), t.gv.joins.map (fun p => (p.2.addr, p.2.expected, p.2.parked)))) =
      some (some (0x3080, 0xFF), [(0x3080, 0xFF), (0x3010, 0xFFFFFFFFFFFFFF00)], [(0x3200, 0xFFFFFFFFFFFFFFFF, 0)]) := by decide +kernel

/-- The table of R185: `trap 0x2A` at 0x3000, then `tret` to 0x3008. -/
theorem test_trap_0x2A :
    shows (exec (.trap (c 0 0 0 0 0x2A)) (issuing grp0 { frag0 with em := 0xFFFF0000 })) (fun t =>
      (t.fv.map (·.pc), t.gv.trap.act, t.gv.trap.pc, t.gv.trap.c, t.gv.trap.em, t.gv.trap.op)) =
      some (some 0x8000, 1, 0x3000, 0x2A, 0xFFFF0000, 0x2000000000000700) := by decide +kernel
theorem test_tret :
    shows (exec (.tret (c 0 0 0 0)) (issuing { grp0 with trap := { grp0.trap with act := 1, pc := 0x3008, em := 0xFFFF0000 } } { frag0 with pc := 0x8010 }))
      (fun t => (t.fv.map (fun f => (f.pc, f.em)), t.gv.trap.act)) = some (some (0x3008, 0xFFFF0000), 0) := by decide +kernel

/-- R180: at most 1,048,575 ns. R179: a group's last `exit` ends it. -/
theorem test_sleep_is_bounded :
    shows (exec (.sleep (c 0 0 0 5)) (issuing (regs [(5, 0xFFFFFFFFFF)]) frag0)) (fun t => t.fv.map (·.st)) = some (some (.sleep 1048575)) := by
  decide +kernel
theorem test_last_exit :
    shows (exec (.exit (c 0 0 0 0)) base) (fun t => (t.fv.isNone, (t.group (2 ^ 32) 0).isNone)) = some (true, true) := by decide +kernel

/-- R171: LANEID into the active lanes; REGALLOC, COREKIND, DEPTH; a write of a register marked RO does nothing. -/
theorem test_special_registers :
    shows (exec (.sread (c 0 6 0 0 0)) (issuing grp0 { frag0 with em := 0x8000000000000001 })) (fun t => (t.gv.v 6 0, t.gv.v 6 1, t.gv.v 6 63)) =
      some (0, 0, 63) ∧
    shows (exec (.sread (c 0 6 0 0 0x0C)) base) (fun t => t.gv.sreg 6) = some 256 ∧
    shows (exec (.sread (c 0 6 0 0 0x0D)) base) (fun t => t.gv.sreg 6) = some 0x3000 ∧
    shows (exec (.swrite (c 0 0 4 0 0x0D)) (issuing (regs [(4, 8)]) frag0)) (fun t => t.fv.map (·.pc)) = some (some 0x3008) := by decide +kernel
theorem test_fpstat_takes_six_bits :
    shows (exec (.swriteFpstat (c 0 0 4 0 7)) (issuing (regs [(4, 0xFFFF)]) frag0)) (fun t => t.gv.fpstat) = some 0x3F := by decide +kernel
theorem test_trappc_must_be_aligned :
    shows (exec (.swriteTrappc (c 0 0 4 0 0x20)) (issuing (regs [(4, 0x3004)]) frag0)) (fun t => (t.gv.trap.op.toNat / 2 ^ 56, t.gv.trap.pc)) =
      some (0x18, 0x3000) := by decide +kernel

/-- A guarded scan (R199's example): `?!k1 scan.add.s32 v2, v1` with em 0xF and k1 0b0100. -/
def scanning : State :=
  issuing { grp0 with kregs := [(1, 4)], vregs := lanes [(1, 0, 5), (1, 1, 0xFFFFFFFF), (1, 2, 7), (1, 3, 2), (2, 2, 99)] } { frag0 with em := 0xF }
theorem test_scan_add :
    shows (exec (.scanAdd ⟨0, 1, true, 2, false, false, false, 2, 1, 0, 0, none⟩) scanning) (fun t => [0, 1, 2, 3].map (t.gv.v 2)) =
      some [5, 4, 99, 6] := by decide +kernel
theorem test_red_add :
    shows (exec (.redAdd ⟨0, 1, true, 2, false, false, false, 9, 1, 0, 0, none⟩) scanning) (fun t => t.gv.sreg 9) = some 6 := by decide +kernel

/-- R193: an 8-bit sum wraps and is sign-extended; `mov.s8` takes the low byte (R194); a 64-bit add carries into the pair. -/
theorem test_lane_widths :
    let s := issuing { grp0 with vregs := lanes [(8, 0, 0x7F), (10, 0, 1), (2, 0, 0x1280), (12, 0, 0xFFFFFFFF), (14, 0, 1)] } { frag0 with em := 1 }
    shows (exec (.laneAdd (c 0 6 8 10)) s) (fun t => t.gv.v 6 0) = some 0xFFFFFF80 ∧
    shows (exec (.laneMov (c 0 1 0 2)) s) (fun t => t.gv.v 1 0) = some 0xFFFFFF80 ∧
    shows (exec (.laneAdd (c 7 6 12 14)) s) (fun t => (t.gv.v 6 0, t.gv.v 7 0)) = some (0, 1) := by decide +kernel

/-- R190: `cmp` changes the bits of its own lanes (the two fragments of R306); R200: `kset k5, -1` sets all. -/
theorem test_mask_bits :
    shows (exec (.laneCmp .gt (c 2 4 1 2)) (issuing { grp0 with kregs := [(4, 0xFF)], vregs := lanes ((List.range 64).map (fun i => (1, i, 1))) }
      { frag0 with em := 0xFF00 })) (fun t => t.gv.kraw 4) = some 0xFFFF ∧
    shows (exec (.kset ⟨0, 0, false, 0, false, false, false, 5, 0, 0, 0, some 0xFFFFFFFF⟩) (issuing grp0 { frag0 with em := 0 }))
      (fun t => t.gv.kraw 5) = some 0xFFFFFFFFFFFFFFFF ∧
    shows (exec (.kand (c 0 0 1 1)) base) (fun t => t.gv.kregs) = some [] := by decide +kernel

/-- R197: lane 0 takes nothing from below; a source lane that is off gives the lane its own value. -/
theorem test_shuffles :
    let s := issuing { grp0 with vregs := lanes [(8, 0, 10), (8, 1, 11), (8, 2, 12), (10, 0, 1), (10, 1, 1), (10, 2, 1)] } { frag0 with em := 7 }
    shows (exec (.shflUp (c 2 6 8 10)) s) (fun t => [0, 1, 2].map (t.gv.v 6)) = some [10, 10, 11] ∧
    shows (exec (.shflDn (c 2 6 8 10)) s) (fun t => [0, 1, 2].map (t.gv.v 6)) = some [11, 12, 12] ∧
    shows (exec (.shflX (c 2 6 8 10)) s) (fun t => [0, 1, 2].map (t.gv.v 6)) = some [11, 10, 12] := by decide +kernel

/-- R198: `ballot`, `match` over the active lanes, and nothing written with no lane active. -/
theorem test_votes :
    let s := issuing { grp0 with kregs := [(3, 0xA)], vregs := lanes [(8, 1, 5), (8, 2, 5)] } { frag0 with em := 7 }
    shows (exec (.ballot (c 0 6 3 0)) s) (fun t => t.gv.sreg 6) = some 2 ∧
    shows (exec (.laneMatch (c 2 6 8 0)) s) (fun t => [0, 1, 2].map (t.gv.v 6)) = some [1, 6, 6] ∧
    shows (exec (.voteAll (c 0 6 3 0)) (issuing { grp0 with sregs := [(6, 9)] } { frag0 with em := 0 })) (fun t => t.gv.sreg 6) = some 9 := by
  decide +kernel

/-- R203, R201: −0 is below +0, a NaN gives way; 1 ÷ 0 raises DZ; `add` of the largest numbers overflows. -/
theorem test_floats :
    let v := fun (a b : W32) => issuing { grp0 with vregs := lanes [(8, 0, a), (10, 0, b)] } { frag0 with em := 1 }
    shows (exec (.minF32 (c 0 6 8 10)) (v 0 0x80000000)) (fun t => (t.gv.v 6 0, t.gv.fpstat)) = some (0x80000000, 0) ∧
    shows (exec (.maxF32 (c 0 6 8 10)) (v 0x7FC00000 0x3F800000)) (fun t => (t.gv.v 6 0, t.gv.fpstat)) = some (0x3F800000, 0) ∧
    shows (exec (.divF32 (c 0 6 8 10)) (v 0x3F800000 0)) (fun t => (t.gv.v 6 0, t.gv.fpstat)) = some (0x7F800000, 2) ∧
    shows (exec (.addF32 (c 0 6 8 10)) (v 0x7F7FFFFF 0x7F7FFFFF)) (fun t => (t.gv.v 6 0, t.gv.fpstat)) = some (0x7F800000, 0x14) ∧
    shows (exec (.addF32 (c 1 6 8 10)) (v 0x7F7FFFFF 0x7F7FFFFF)) (fun t => (t.gv.v 6 0, t.gv.fpstat)) = some (0x7F7FFFFF, 0x14) ∧
    shows (exec (.sqrtF32 (c 0 6 8 0)) (v 0x80000000 0)) (fun t => (t.gv.v 6 0, t.gv.fpstat)) = some (0x80000000, 0) := by decide +kernel

/-- The worked cases of R209 through the instruction: NV and SAT of `cvt.s8.f32` 200.5, and −2.5 under RDN. -/
theorem test_cvt :
    let v := fun (a : W32) => issuing { grp0 with vregs := lanes [(6, 0, a)] } { frag0 with em := 1 }
    shows (exec (.cvt (c 0 5 6 0 0x08)) (v 0x43488000)) (fun t => (t.gv.v 5 0, t.gv.fpstat)) = some (0x7F, 0x21) ∧
    shows (exec (.cvt (c 3 5 6 0 0x28)) (v 0xC0200000)) (fun t => (t.gv.v 5 0, t.gv.fpstat)) = some (0xFFFFFFFD, 0x10) := by decide +kernel

/-- R206: the ordered conditions raise NV for a quiet NaN, `.un` does not. -/
theorem test_float_compare :
    let s := issuing { grp0 with vregs := lanes [(4, 0, 0x7FC00000), (9, 0, 0x3F800000)] } { frag0 with em := 1 }
    shows (exec (.floatCmp .lt (c 0 2 4 9)) s) (fun t => (t.gv.kraw 2, t.gv.fpstat)) = some (0, 1) ∧
    shows (exec (.floatCmp .un (c 0 2 4 9)) s) (fun t => (t.gv.kraw 2, t.gv.fpstat)) = some (1, 0) := by decide +kernel

/-- The worked quantisation of R137: `xquant` with T = 3 on chunks 0 and 1 (R250). -/
theorem test_quantised_chunk :
    (encodeBlock [0x40400000, 0xBF333333, 0x3F8CCCCD, 0x40A66666, 0, 0xC039999A, 0x3E99999A, 0x40800000]).1 = 0x7F ∧
    (encodeBlock [0x40400000, 0xBF333333, 0x3F8CCCCD, 0x40A66666, 0, 0xC039999A, 0x3E99999A, 0x40800000]).2.1 = 0x4A ∧
    (encodeBlock [0x40400000, 0xBF333333, 0x3F8CCCCD, 0x40A66666, 0, 0xC039999A, 0x3E99999A, 0x40800000]).2.2.1 = [5, 9, 2, 8, 0, 0xD, 1, 6] ∧
    (encodeBlock [0x3D4CCCCD, 0xBCA3D70A, 0x3C23D70A, 0x3CF5C28F, 0, 0x3D23D70A, 0xBD75C28F, 0x3CA3D70A]).1 = 0x78 ∧
    (encodeBlock [0x3D4CCCCD, 0xBCA3D70A, 0x3C23D70A, 0x3CF5C28F, 0, 0x3D23D70A, 0xBD75C28F, 0x3CA3D70A]).2.1 = 0xCF ∧
    (encodeBlock [0x3D4CCCCD, 0xBCA3D70A, 0x3C23D70A, 0x3CF5C28F, 0, 0x3D23D70A, 0xBD75C28F, 0x3CA3D70A]).2.2.1 = [7, 0xD, 3, 6, 0, 7, 8, 5] := by
  decide +kernel

/-! Memory: page 0 of context 1 is physical page 0. -/

def m (ty : BitVec 4) (d a : BitVec 8) (ofs : BitVec 7) : MOps := ⟨0, 0, false, ty, 0, false, ofs, d, a, 0, none⟩
def mx (ty : BitVec 4) (d a b : BitVec 8) (e : MExt) : MOps := ⟨0, 0, false, ty, 2, true, 0, d, a, b, some e⟩

/-- R173: a signed byte is extended; a misaligned word is a precise fault; another page is a replayable one. -/
theorem test_scalar_load :
    let s := { issuing (regs [(4, 0x100), (6, 0x20000)]) frag0 with mem := [⟨0x108, 0x80⟩] }
    shows (exec (.scalarLd (m 0 5 4 8)) s) (fun t => t.gv.sreg 5) = some 0xFFFFFFFFFFFFFF80 ∧
    shows (exec (.scalarLd (m 4 5 4 8)) s) (fun t => t.gv.sreg 5) = some 0x80 ∧
    shows (exec (.scalarLd (m 2 5 4 1)) s) (fun t => (t.gv.stop, (t.part 0).outs.map (·.cls))) = some (.fault 1, [2]) ∧
    shows (exec (.scalarLd (m 2 5 6 0)) s) (fun t => (t.fv.map (·.st), (t.part 0).outs.map (·.cls))) = some (some (.fault 1), [1]) := by decide +kernel

/-- A group sees its own store before it is home (R293); `fence.dev` publishes it, and `fence.sys` brings it home (R226). -/
theorem test_scalar_store_and_fence :
    let s := issuing (regs [(4, 0x100), (5, 0x11223344)]) frag0
    let st := fun (f : Instr) => match exec (.scalarSt (m 6 5 4 0)) s with | .next t => exec f t | r => r
    shows (exec (.scalarSt (m 6 5 4 0)) s) (fun t => (t.sees (.mem 0x101), t.mem.byte 0x101)) = some (0x33, 0) ∧
    shows (st (.fence .dev (c 0 0 0 0))) (fun t => (t.mem.byte 0x100, t.gv.stores.map (·.pub))) = some (0, [3]) ∧
    shows (st (.fence .sys (c 0 0 0 0))) (fun t => (t.mem.byte 0x100, t.mem.byte 0x103, t.gv.stores)) = some (0x44, 0x11, []) := by decide +kernel

/-- The ladder of spec/11: a store that a group has published at block scope is home after the block-scope fence of a group of
its block (R294), and not after that of a group of another cluster (R291). -/
theorem test_block_fence_reaches_the_block :
    let e : StoreEnt := ⟨.mem 1, [⟨0x100, 0x100, 7⟩], 1, .group, none, .none⟩
    let s := { base with blk := { blk0 with groups := [(5, { grp0 with stores := [e] })] } }
    let s' := { base with blocks := [(2 ^ 32 + 1, { blk0 with blkid := 1, clusize := 1, groups := [(0, { grp0 with stores := [e] })] })] }
    shows (exec (.fence .blk (c 0 0 0 0)) s) (fun t => t.mem.byte 0x100) = some 7 ∧
    shows (exec (.fence .blk (c 0 0 0 0)) s') (fun t => t.mem.byte 0x100) = some 0 := by decide +kernel

/-- R214: the value waits for the completion; R111: lanes out of the window are switched off, the others load (R215). -/
theorem test_lane_load :
    let s := { issuing { regs [(4, 0x100)] with vregs := lanes [(10, 1, 1)] } { frag0 with em := 3 } with mem := [⟨0x104, 7⟩] }
    shows (exec (.ldG ⟨0, 0, false, 6, 2, true, 0, 6, 4, 10, none⟩) s) (fun t => (t.gv.v 6 1, t.gv.loads.map (·.regs))) = some (0, [[6]]) ∧
    shows (match exec (.ldG ⟨0, 0, false, 6, 2, true, 0, 6, 4, 10, none⟩) s with | .next t => exec (.loadCompletion ⟨2 ^ 32, 0⟩) t | r => r)
      (fun t => (t.gv.v 6 1, t.gv.loads)) = some (7, []) := by decide +kernel
theorem test_window_bounds :
    let s := issuing { regs [(4, 0xFFFC)] with vregs := lanes [(10, 1, 1), (6, 0, 5)] } { frag0 with em := 3 }
    shows (exec (.stS ⟨0, 0, false, 6, 2, true, 0, 6, 4, 10, none⟩) s) (fun t => (t.bv.window.get 0xFFFC, t.gv.fmask)) = some (5, 2) := by decide +kernel

/-- R223: lanes that name one word act in ascending order, each receives what the lower ones left. -/
theorem test_atomic_add :
    let s := { issuing { regs [(8, 0x100)] with vregs := lanes [(9, 0, 1), (9, 1, 2), (9, 2, 4)] } { frag0 with em := 7 } with mem := [⟨0x100, 10⟩] }
    shows (exec (.atomAdd (mx 6 6 8 2 ⟨false, false, 2, 0, 9, 0⟩)) s) (fun t => (t.mem.byte 0x100, t.gv.loads.map (fun e => [0, 1, 2].map (SMap.setAll [] e.writes |>.get <| 6 * 64 + ·)))) =
      some (17, [[10, 11, 13]]) := by decide +kernel

/-- The first two rows of the table of R229. -/
theorem test_counted_barrier :
    let two := fun (x : Nat) => { issuing (regs [(7, 8)]) frag0 with blk := { blk0 with bars := List.replicate 16 { Barrier.reset with m := 2, x := x } } }
    shows (exec (.barExpect (c 0 0 4 7)) (two 0)) (fun t => ((t.bar (2 ^ 32) 4).a, (t.bar (2 ^ 32) 4).x)) = some (0, 8) ∧
    shows (exec (.barArrive (c 0 0 4 0)) (two 8)) (fun t => ((t.bar (2 ^ 32) 4).a, (t.bar (2 ^ 32) 4).x, (t.bar (2 ^ 32) 4).phase)) = some (1, 8, 0) := by decide +kernel

/-- R231: Nmax 4 leaves room for three groups; R234: `vgrow` past 256 registers answers 1. -/
theorem test_spawn :
    shows (exec (.spawn (c 0 5 6 7 1)) { issuing (regs [(6, 0x4000), (7, 9)]) frag0 with blk := { blk0 with regblk := 1 } })
      (fun t => (t.gv.sreg 5, t.bv.groups.length, t.bv.groups.map (·.2.role))) = some (3, 3, [1, 1, 1]) := by decide +kernel
theorem test_vgrow_past_the_file :
    shows (exec (.vgrow (c 0 5 0 0 1)) base) (fun t => t.gv.sreg 5) = some 1 := by decide +kernel

/-- R236: the mask of tokens with errors, the status of the lowest, and the errors gone. -/
theorem test_wait_takes_errors :
    let s := issuing { grp0 with toks := [⟨0, 0, 0⟩, ⟨0, 5, 0⟩, ⟨0, 0, 0⟩, ⟨0, 3, 0⟩, ⟨0, 0, 0⟩, ⟨0, 0, 0⟩, ⟨0, 0, 0⟩, ⟨0, 0, 0⟩] } frag0
    shows (exec (.wait (c 0 5 0 0 0x0A)) s) (fun t => (t.gv.sreg 5, t.gv.toks.map (·.err))) = some (0x5000A, [0, 0, 0, 0, 0, 0, 0, 0]) := by
  decide +kernel

/-- R323's example: the distances are 4 and 1. -/
theorem test_signatures :
    let s := issuing { regs [(9, 0xF)] with vregs := lanes [(20, 0, 0xFF), (20, 1, 0xF), (21, 1, 0x80000000)] } { frag0 with em := 3 }
    shows (exec (.sgsel (c 0 3 20 9 3)) s) (fun t => t.gv.kraw 3) = some 2 ∧
    shows (exec (.sgcnt (c 0 4 20 9 4)) s) (fun t => t.gv.sreg 4) = some 2 := by decide +kernel

set_option maxRecDepth 100000 in
/-- R273: a product of 8-bit integers reaches its tile when it completes: 2 × (−1) + 3 × 5 in row 0, column 1. -/
theorem test_matrix_product :
    let s := issuing { grp0 with vregs := lanes [(16, 0, 0x00000302), (32, 1, 0x000005FF)] } { frag0 with em := 3 }
    shows (match exec (.mmaS .numeric ⟨0, 0, false, false, 1, 16, 32, 0⟩) s with | .next t => exec (.matrixTileUpdate 0) t | r => r)
      (fun t => (t.core 0).acc) = some [(1 * 0x4000 + 0 * 256 + 1, 13)] := by decide +kernel

/-- R353, R157: a privileged pair in a user group is UNDEF with UCODE 1; R361: `evsig` raises its vector. -/
theorem test_privileged :
    (match base.decodeWords 0x00001814000000F1 0 with | .ok _ => none | .error n => some n) = some 1 ∧
    shows (exec (.evsig (c 0 0 2 0)) (issuing { regs [(2, 5)] with plevel := 1 } frag0)) (fun t => t.irqs) = some [(0, 5)] := by decide +kernel

/-- R115, R455: an error in HBM poisons its sector; at 115 degrees the module goes off. -/
theorem test_events :
    shows (exec (.uncorrectableError (.hbm 0x45)) State.reset) (fun t => (t.poison, t.husk.uncErr)) = some ([2], 1) ∧
    shows (exec (.thermalShutdown 115) State.reset) (fun t => (t.husk.off, t.husk.fail)) = some (true, 7) := by decide +kernel

/-- The step fetches and runs the word that is placed: `exit` (R179), and `add.s64 s3, s4, -5` of spec/06. -/
theorem test_step_runs_what_is_placed :
    shows (step (State.reset.withFetchWord 64 0x0000000000000600)) (fun t => t.allGroups.length) = some 0 ∧
    shows (step (State.reset.withFetchWord 128 0x00000000FFFFFFFB600000100C001010)) (fun t => t.allGroups.map (fun q => q.2.2.2.sreg 3)) =
      some [0xFFFFFFFFFFFFFFFB] := by decide +kernel

end Sys2Proof.Tests
end

