-- ==== Sys2Proof/Tests/Witness.lean ====
section
/-!
SUPPORT. For every statement that has hypotheses, concrete states and operands that meet them, clause by clause. A hypothesis
`s.Clear i` is met by `base` for every instruction (`base_clear`), and by any group built from it (`clear_of`).
-/

open Sys2Proof Sys2Proof.Machine

set_option Elab.async false

namespace Sys2Proof.Tests
/-- A fragment issues in a group with nothing in flight. -/
theorem clear_of (s : State) (i : Instr) (h : s.iss = true) (ht : s.grp.toks = List.replicate 8 .reset) (hl : s.grp.loads = [])
    (hh : s.grp.held = []) (hf : ∀ f ∈ s.grp.frags, f.2.owes = []) : s.Clear i := by
  have hk : ∀ t, s.grp.tok t = .reset := fun t => by
    simp only [Group.tok, ht, List.getD_eq_getElem?_getD, List.getElem?_replicate]
    split <;> rfl
  refine ⟨h, ?_, ?_, ?_, ?_, ?_⟩
  · simp [Group.waits, hk, Token.reset]
  · simp [Group.badTok, hk, Token.reset]
  · simp [Group.scored, Group.loading, Group.piped, hl, hh]
  · simp only [Group.owed, List.any_eq_false]
    intro f hm
    simp [hf f hm]
  · simp [Group.serving, hl]

theorem issuing_clear (g : Group) (f : Fragment) (i : Instr) (ht : g.toks = List.replicate 8 .reset) (hl : g.loads = [])
    (hh : g.held = []) (hf : g.frags = []) : (issuing g f).Clear i :=
  clear_of _ i rfl ht hl hh (by simp [issuing, hf])

theorem base_clear (i : Instr) : base.Clear i := issuing_clear _ _ i rfl rfl rfl rfl

/-- The next state meets a test. -/
def good (r : Host.Outcome State Fault Refusal) (f : State → Bool) : Bool := match r with | .next t => f t | _ => false

/-- An outcome answers ok, and its value meets a test. -/
def got {α ε : Type} (r : Except ε α) (f : α → Bool) : Bool := match r with | .ok x => f x | .error _ => false
def failed {α ε : Type} (r : Except ε α) (f : ε → Bool) : Bool := match r with | .ok _ => false | .error e => f e

/-! ### The machine and its traps -/

theorem witness_StepKeepsMemoryForm :
    let s := { State.reset with mem := [⟨5, 1⟩, ⟨9, 2⟩] }
    s.mem.wf = true ∧ good (step s) (fun _ => true) = true := by decide +kernel

theorem witness_DecodeReadsWhatEncodeWrites :
    (Instr.scalarAdd (c 3 3 4 5)).wf .full = true ∧ (Instr.brv ⟨0, 5, 16, some 0x200⟩).wf .full = true := by decide +kernel

theorem witness_EncodeWritesWhatDecodeReads :
    got (decode .full 0x480024081C2A6030 0) (fun _ => true) = true ∧ got (decode .full 0x0000004014001002 0x200) (fun _ => true) = true := by
  decide +kernel

/-- The fragment that `withFetchWord` selects, with changes to its group; and what its fetch gives. -/
def selected (w : Nat) (f : Group → Group) (p : Part → Part) : State :=
  let s := (State.reset.withFetchWord 64 w).modPart 0 p
  match s.slots with
  | r :: _ => s.modGroup r.blk r.grp f
  | [] => s
def fetched (s : State) (test : State → W64 → W64 → Bool) : Bool :=
  match s.slots with
  | r :: rest =>
    (match ({ s with slots := rest } : State).take r with
     | some t => !s.iss && s.dueSample.isNone && t.mayIssue && !t.atJoin t.frag.pc &&
       (match t.fetch with | (u, .ok (w0, w1)) => test u w0 w1 | _ => false)
     | none => false)
  | [] => false

/-- The first word of an instruction. -/
def wordOf (i : Instr) : Nat := match encode i with | some (w, _) => w.toNat | none => 0

/-- A word that is undefined, one that runs, one that waits on a token, one under a PC breakpoint, a load that a missing page holds,
the words of a long instruction. -/
theorem witness_StepRunsTheDecodedInstruction :
    let brk : DebugSlot := [0x10, 0, 0, 0, 0x8000000000000000]
    fetched (selected 0xFC id id) (fun u w0 w1 => failed (u.decodeWords w0 w1) (fun _ => true)) = true ∧
    fetched (selected 0 id id) (fun u w0 w1 => got (u.decodeWords w0 w1) (fun i =>
      good (exec i u) (fun v => !u.stalled v && u.breakHere.isNone))) = true ∧
    fetched (selected 0x40000 (fun g => { g with toks := setNth g.toks 0 ⟨1, 0, 0⟩ }) id) (fun u w0 w1 =>
      got (u.decodeWords w0 w1) (fun i => good (exec i u) (fun v => u.stalled v))) = true ∧
    fetched (selected 0 id (fun p => { p with ctxs := p.ctxs.map (fun x => (x.1, { x.2 with dbg := some brk })) })) (fun u w0 w1 =>
      got (u.decodeWords w0 w1) (fun i => good (exec i u) (fun v => !u.stalled v && u.breakHere.isSome))) = true ∧
    fetched (selected 0xFC id (fun p => { p with ctxs := p.ctxs.map (fun x => (x.1, { x.2 with dbg := some brk })) })) (fun u w0 w1 =>
      failed (u.decodeWords w0 w1) (fun _ => u.breakHere.isSome)) = true ∧
    fetched { (issuing (regs [(4, 0x20000)]) frag0).stow with
        slots := [⟨2 ^ 32, 0, 0⟩], mem := Memory.write [] 0x3000 (leBytes (wordOf (.scalarLd (m 6 5 4 0))) 8) } (fun u w0 w1 =>
      got (u.decodeWords w0 w1) (fun i => good (exec i u) (fun v => !u.stalled v && u.breakHere.isNone && !u.issuedAs v && v.heldAt u))) = true ∧
    (let s := { base with mem := Memory.write [] 0x3000 (leBytes 0x0000004014001002 8) }
     s.frag.pc.toNat < 2 ^ 55 ∧ (s.frag.pc + 8).toNat < 2 ^ 55 ∧
     got (s.xlate s.blk.part s.blk.core s.ctxid s.frag.pc.toNat .fetch).2 (fun x => !s.poisoned x.key 8 && isLong (s.mem.word x.key)) = true ∧
     got (s.xlate s.blk.part s.blk.core s.ctxid (s.frag.pc + 8).toNat .fetch).2 (fun x => !s.poisoned x.key 8) = true) ∧
    (let s := issuing grp0 { frag0 with bpSkip := some 0x3000 }
     s.frag.bpSkip = some s.frag.pc ∧ base.frag.bpSkip ≠ some base.frag.pc) ∧
    (let s := base
     s.frag.pc.toNat < 2 ^ 55 ∧ got (s.xlate s.blk.part s.blk.core s.ctxid s.frag.pc.toNat .fetch).2 (fun x => !s.poisoned x.key 8 &&
       !isLong (s.mem.word x.key)) = true) := by decide +kernel

/-- Inside a handler, without a handler, in a user and in a system group; outside one. -/
def trapped (plevel : Nat) : State := issuing { grp0 with plevel := plevel, trap := { grp0.trap with act := 1, pc := 0x3008, em := 1 } } frag0

theorem witness_TrapEntry :
    (base.iss = true ∧ base.grp.inTrap = false ∧ base.grp.trap.hdl ≠ 0) ∧
    ((trapped 0).iss = true ∧ (trapped 0).grp.inTrap = true ∧ (trapped 0).blk.part < (trapped 0).parts.length ∧ (trapped 0).grp.plevel = 0) ∧
    (0 < (trapped 1).grp.plevel ∧ (trapped 1).grp.inTrap = true) ∧
    (issuing { grp0 with trap := .reset } frag0).grp.trap.hdl = 0 := by decide +kernel

theorem witness_TrapInstructions (o : COps) :
    (base.Clear (.trap o) ∧ base.Clear (.tret o) ∧ base.grp.inTrap = false ∧ base.grp.trap.hdl ≠ 0) ∧
    ((trapped 0).Clear (.tret o) ∧ (trapped 0).grp.inTrap = true ∧ ∀ p ∈ (trapped 0).grp.frags, p.2.inHandler = false) ∧
    ∃ p ∈ (issuing { (trapped 0).grp with frags := [(1, { frag0 with inHandler := true })] } frag0).grp.frags, p.2.inHandler = true :=
  ⟨⟨base_clear _, base_clear _, by decide +kernel, by decide +kernel⟩,
   ⟨issuing_clear _ _ _ rfl rfl rfl rfl, by decide +kernel, by decide +kernel⟩, by decide +kernel⟩

/-! ### Scalar and control -/

theorem witness_ScalarArithmetic (o : COps) : base.Clear (.scalarAdd o) ∧ base.Clear (.scalarMulh o) ∧ base.Clear (.scalarShl o) ∧
    base.Clear (.scalarClz o) ∧ base.Clear (.scalarPopc o) := ⟨base_clear _, base_clear _, base_clear _, base_clear _, base_clear _⟩

/-- By zero; the least number by -1; a plain division; at 8 and at 64 bits. -/
def dividing (a b : W64) : State := issuing (regs [(4, a), (5, b)]) frag0

theorem witness_ScalarDivision :
    (∀ a b i, (dividing a b).Clear i) ∧
    (let o := c 0 3 4 5
     o.val ((dividing 7 0).sB o) = 0 ∧
     (o.x.toNat < 4 ∧ o.val ((dividing 0x80 0xFF).sreg o.a) = -(2 ^ (8 * 2 ^ (o.x.toNat % 4) - 1) : Nat) ∧ o.val ((dividing 0x80 0xFF).sB o) = -1) ∧
     (o.val ((dividing 0x81 0xFF).sB o) ≠ 0 ∧ o.val ((dividing 0x81 0xFF).sreg o.a) ≠ -(2 ^ (8 * 2 ^ (o.x.toNat % 4) - 1) : Nat))) ∧
    (let o := c 7 3 4 5
     o.val ((dividing (-1) 0).sB o) = 0 ∧ ¬ o.x.toNat < 4 ∧ o.val ((dividing (-1) 3).sB o) ≠ 0) :=
  ⟨fun _ _ _ => issuing_clear _ _ _ rfl rfl rfl rfl, by decide +kernel, by decide +kernel⟩

theorem witness_ScalarBitFields : (∀ o, base.Clear (.scalarBfx o) ∧ base.Clear (.scalarBfi o)) ∧
    (c 2 3 4 5).x.toNat % 4 ≠ 3 ∧ (c 3 3 4 5).x.toNat % 4 = 3 ∧ (c 7 3 4 5).x.toNat % 4 = 3 :=
  ⟨fun _ => ⟨base_clear _, base_clear _⟩, by decide, by decide, by decide⟩

theorem witness_ScalarCompareAndMove (o : COps) : base.Clear (.scalarCmp .eq o) ∧ base.Clear (.scalarMov o) ∧ base.Clear (.lea o) ∧
    base.Clear (.scalarSel o) ∧ base.Clear (.li { o with imm := some 7 }) :=
  ⟨base_clear _, base_clear _, base_clear _, base_clear _, base_clear _⟩

/-- `brv` with no lane, every lane, some lanes taken, among so many other fragments. -/
def splitting (k : W64) (n : Nat) : State :=
  issuing { grp0 with kregs := [(5, k)], frags := (List.range n).map (fun i => (i + 1, { frag0 with em := 1 })) } frag0

/-- A group with other fragments, in the table and in the spill area, of which `parked` tells which is parked and since when; the
issuing fragment has a join at an address, the group `n` others. -/
def filled (parked : List (Option Nat)) (spilled : List Nat) (at_ : W64) (n : Nat) : State :=
  let f := fun (p : Option Nat × Nat) => (p.2 + 1, { frag0 with
    st := match p.1 with | some _ => .parked 9 | none => .run, parkedAt := p.1.getD 0, issued := 10 * p.2 })
  let l := (parked.zip (List.range parked.length)).map f
  issuing { grp0 with
    kregs := [(5, 0xFF)], joins := (0, ⟨at_, 0xFFFFFFFFFFFFFFFF, 0⟩) :: (List.range n).map (fun i => (i + 1, ⟨0x9000, 1, 0⟩))
    frags := l ++ spilled.map (fun e => (e + 10, { frag0 with spilled := some e })) } { frag0 with joins := [0] }

/-- A fragment with one join of its stack at 0x3008, which expects lanes, and an outer one elsewhere. -/
def joining (expected : W64) : State :=
  issuing { grp0 with joins := [(0, ⟨0x3008, expected, 0⟩), (1, ⟨0x4000, 0xFFFFFFFFFFFFFFFF, 0⟩)] } { frag0 with em := 3, joins := [0, 1] }

theorem witness_Branches_joins :
    (let ok := fun (e : W64) => let s := joining e
      s.iss = true ∧ s.atJoin 0x3010 = false ∧ s.atJoin 0x3008 = true ∧ s.grp.pend = [] ∧ s.frag.joins = 0 :: [1] ∧
      s.grp.joins.find 0 = some ⟨0x3008, e, 0⟩ ∧ s.grp.frags = [] ∧ ∀ q ∈ [1], (s.grp.joins.find q).map (·.addr) = some 0x4000
     ok 3 ∧ ok 7) ∧
    ((7 : W64) ≠ 0 ∧ 0 ||| (joining 7).frag.em ≠ 7 ∧ (joining 3).frag.em = 3) := by decide +kernel

theorem witness_Branches_room (f : Nat) : (splitting 0xFF 0).grp.frags.has f = false := rfl

/-- What a state of `filled` has: the entries that the table holds, the join records, and what a split needs. -/
def splits (s : State) (held joins : Nat) : Bool :=
  let taken := s.frag.em &&& ~~~s.grp.fmask &&& s.kreg 5
  taken != 0 && taken != s.frag.em && decide (s.grp.frags.length + 1 < 32) && !s.grp.frags.has s.fkey && decide (s.fkey < 32) &&
  s.grp.frags.all (fun p => decide (p.1 < 32)) && decide ((s.grp.frags.map (·.1)).Nodup) && decide (s.grp.joins.length < 64) &&
  s.table.length + (if s.frag.spilled = none then 1 else 0) == held && s.grp.joins.length == joins

theorem has_of_all (m : KL Fragment) (h : m.all (fun p => decide (p.1 < 32)) = true) (f : Nat) (hf : 32 ≤ f) : m.has f = false := by
  induction m with
  | nil => rfl
  | cons p m ih =>
    simp only [List.all_cons, Bool.and_eq_true, decide_eq_true_eq] at h
    simp only [KL.has, KL.find]
    rw [if_neg (by omega)]
    exact ih h.2

/-- A split with room, at a table with a free entry and at one of two fragments; one that spills the running fragment that issued
least recently, and one the fragment parked earliest; one that passes the join storage. The target, and the address behind the
branch, at no join, at the new one, at the outer one. -/
theorem witness_Branches_splits :
    (∀ l e a n i, (filled l e a n).Clear i) ∧
    (splits (filled [none, some 3] [] 0x4000 0) 3 1 ∧ splits (filled [none] [] 0x4000 2) 2 3 ∧
     splits (filled [none, none, none] [] 0x4000 0) 4 1 ∧ splits (filled [none, some 5, some 3] [0, 2] 0x4000 0) 4 1 ∧
     splits (filled [none] [] 0x4000 3) 2 4) = true ∧
    (∀ p ∈ (filled [none, none, none] [] 0x4000 0).table, p.2.st = .run) ∧
    ((∃ p ∈ (filled [none, some 5, some 3] [0, 2] 0x4000 0).table, p.2.st = .parked 9) ∧
      ∃ p ∈ (filled [none, some 5, some 3] [0, 2] 0x4000 0).grp.frags, p.2.spilled = some 0) ∧
    (let s := filled [none, some 3] [] 0x4000 0
     s.frag.pc = 0x3000 ∧ s.atJoin 0x3080 = false ∧ s.atJoin 0x3010 = false ∧
     (0x200 : W32).signExtend 64 + s.frag.pc ≠ 0x3080 ∧ (0x80 : W32).signExtend 64 + s.frag.pc = 0x3080 ∧
     (0x10 : W32).signExtend 64 + s.frag.pc = 0x3010) ∧
    (let at_ := fun (a : W64) (l : W64) =>
      let s := filled [none, some 3] [] a 0
      s.frag.joins = [0] ∧ s.grp.joins.find 0 = some ⟨a, 0xFFFFFFFFFFFFFFFF, 0⟩ ∧ 0 ||| l ≠ 0xFFFFFFFFFFFFFFFF
     at_ 0x3080 0xFF ∧ at_ 0x3010 (frag0.em &&& ~~~0xFF) ∧
     (filled [none, some 3] [] 0x3080 0).atJoin 0x3010 = false ∧ (filled [none, some 3] [] 0x3010 0).atJoin 0x3080 = false) := by
  refine ⟨fun l e a n i => clear_of _ i rfl rfl rfl rfl ?_, ?_⟩
  · intro f hf
    simp only [filled, issuing, List.mem_append, List.mem_map] at hf
    rcases hf with ⟨⟨p, k⟩, -, rfl⟩ | ⟨e, -, rfl⟩
    · cases p <;> rfl
    · rfl
  · decide +kernel

theorem witness_Branches :
    (∀ i, base.Clear i) ∧ (∀ k i, (splitting k 0).Clear i) ∧ (∀ i, (splitting 1 31).Clear i) ∧
    ((regs [(5, 0x4000)]).sreg 5).toNat % 8 = 0 ∧ ((regs [(5, 0x4004)]).sreg 5).toNat % 8 ≠ 0 ∧
    (let taken := fun (s : State) => s.frag.em &&& ~~~s.grp.fmask &&& s.kreg 5
     (0x204 : W32).toNat % 8 ≠ 0 ∧ (0x200 : W32).toNat % 8 = 0 ∧ taken (splitting 0 0) = 0 ∧
     taken (splitting (-1) 0) = frag0.em ∧ taken (splitting (-1) 0) ≠ 0 ∧
     (taken (splitting 1 31) ≠ 0 ∧ taken (splitting 1 31) ≠ frag0.em ∧ (splitting 1 31).grp.frags.length + 1 = 32) ∧
     splits (splitting 0xFF 0) 1 0 = true) := by
  refine ⟨base_clear, fun _ i => issuing_clear _ _ i rfl rfl rfl rfl, fun i => clear_of _ i rfl rfl rfl rfl ?_, ?_⟩
  · decide +kernel
  · decide +kernel

/-- The state with a change to partition 0. -/
def withPart (f : Part → Part) : State := base.modPart 0 f
def tracing (r : Ring) : State := withPart (fun p => { p with tr := { r with en := true, log2 := 4 } })
def debugging : State := withPart (fun p => { p with ctxs := p.ctxs.map (fun x => (x.1, { x.2 with dbg := some (List.replicate 16 0) })) })

theorem withPart_clear (f : Part → Part) (i : Instr) : (withPart f).Clear i := clear_of _ i rfl rfl rfl rfl (by simp [withPart, State.modPart, base, issuing, grp0, Group.reset])

theorem witness_TraceBreakAndNoEffect :
    (∀ i, base.Clear i ∧ (∀ f, (withPart f).Clear i)) ∧ base.pointHere.isNone = true ∧ base.slot = none ∧
    (base.part base.blk.part).tr.en = false ∧
    (base.grids.find base.blk.grid).isSome = true ∧ base.blk.part < base.parts.length ∧ base.gkey < 64 ∧ base.blk.blkid < 2 ^ 32 ∧
    ((tracing .reset).part 0).tr.full = false ∧ ((tracing .reset).part 0).tr.en = true ∧ ((tracing .reset).part 0).trfilt = 0 ∧
    ((tracing { Ring.reset with tail := 16 }).part 0).tr.full = true ∧ debugging.slot ≠ none := by
  refine ⟨fun i => ⟨base_clear i, fun f => withPart_clear f i⟩, ?_⟩
  decide +kernel

/-- A second fragment; a token outstanding; a block-mate that has yet to arrive anywhere. -/
def paired : State := issuing { grp0 with frags := [(1, { frag0 with em := 1 })] } frag0
def awaiting : State := issuing { grp0 with toks := setNth grp0.toks 0 ⟨1, 0, 0⟩ } frag0
def asleep : State := { base with blk := { blk0 with groups := [(1, { grp0 with frags := [(0, { frag0 with st := .sleep 5 })] })] } }
def mated : State := { base with blk := { blk0 with groups := [(1, grp0)], bars := List.replicate 16 { Barrier.reset with m := 2 } } }

theorem awaiting_clear : awaiting.Clear (.exit (c 0 0 0 0)) ∧ awaiting.Clear (.leave (c 0 0 0 0)) := by
  constructor <;> exact ⟨rfl, by decide +kernel, by decide +kernel, by decide +kernel, by decide +kernel, by decide +kernel⟩

theorem witness_SleepingAndLeaving :
    (∀ i, base.Clear i ∧ paired.Clear i ∧ mated.Clear i) ∧ (awaiting.Clear (.exit (c 0 0 0 0)) ∧ awaiting.Clear (.leave (c 0 0 0 0))) ∧
    ((asleep.fragment (2 ^ 32) 1 0).map (·.st) = some (.sleep 5) ∧ asleep.ctxTime 0 (asleep.ctxOf blk0) < 5 ∧
      5 ≤ ({ asleep with time := 5 } : State).ctxTime 0 (asleep.ctxOf blk0)) ∧
    (paired.grp.frags ≠ [] ∧ paired.grp.frags.has paired.fkey = false ∧ paired.frag.joins = [] ∧ paired.grp.pend = []) ∧
    (awaiting.grp.frags = [] ∧ awaiting.grp.waits 0xFF = true) ∧
    (base.grp.frags = [] ∧ base.grp.waits 0xFF = false ∧ base.grp.badTok 0xFF = none ∧ base.blk.groups.has base.gkey = false) ∧
    (let s := mated
     s.grp.waits 0xFF = false ∧ s.grp.badTok 0xFF = none ∧ s.grp.stores = [] ∧ s.grp.fmask = 0 ∧ s.blk.groups.has s.gkey = false ∧
     s.blk.bars.length = 16 ∧ (∀ b < 28, 16 ≤ b → ∃ g ∈ s.blk.groups, g.2.arrived.find b = none) ∧
     ∀ b < 16, ¬ ((s.bar s.bkey b).a - (if s.grp.arrived.find b = some (s.bar s.bkey b).phase then 1 else 0) = (s.bar s.bkey b).m - 1 ∧
       1 < (s.bar s.bkey b).m ∧ (s.bar s.bkey b).x ≤ (s.bar s.bkey b).c)) := by
  refine ⟨fun i => ⟨base_clear i, clear_of _ i rfl rfl rfl rfl ?_, clear_of _ i rfl rfl rfl rfl ?_⟩, awaiting_clear, ?_⟩
  · decide +kernel
  · decide +kernel
  · decide +kernel

/-! ### Special registers -/

theorem witness_SpecialRegisterRead : (∀ i, base.Clear i) ∧ (c 0 6 0 0 0).c = 0 ∧ (c 0 6 0 0 0x2A).c ≠ 0 ∧ base.grp.winsel < 2 ^ 16 ∧
    (base.ctx base.blk.part base.ctxid).map (·.st) = some .running ∧ base.grids.find base.blk.grid = some grid0 :=
  ⟨base_clear, by decide, by decide, by decide +kernel⟩

/-- A value in s4, with a change to partition 0. -/
def writing (v : W64) (f : Part → Part) : State := (issuing (regs [(4, v)]) frag0).modPart 0 f
theorem writing_clear (v : W64) (f : Part → Part) (i : Instr) : (writing v f).Clear i :=
  clear_of _ i rfl rfl rfl rfl (by simp [writing, State.modPart, issuing, regs, grp0, Group.reset])

theorem witness_SpecialRegisterWrites :
    (∀ v f i, (writing v f).Clear i) ∧
    (let v := fun (x : W64) => (writing x id).sreg 4
     (v 1).toNat / 2 ^ 32 % 2 ^ 16 < base.blk.winsize / 65536 ∧ fmtOk ((v 1).extractLsb' 0 16) = false ∧ fmtOk ((v 0).extractLsb' 0 16) = true ∧
     base.blk.winsize / 65536 ≤ (v 0x100000000).toNat / 2 ^ 32 % 2 ^ 16 ∧ (v 4).toNat % 8 ≠ 0 ∧ (v 8).toNat % 8 = 0 ∧
     (c 0 0 4 0 0x0D).c.toNat < 0x80 ∧ 2 ^ 56 ≤ (v 0x100000000000000).toNat ∧ (v 0xFFFFFFFFFFFFFF).toNat < 2 ^ 56) ∧
    (let x := part0
     0 < (writing 0 id).parts.length ∧ x.held = [] ∧ 2 ^ x.log2n < (x.fqtail - (2 : W64).setWidth 32).toNat ∧
     (x.fqtail - (0 : W64).setWidth 32).toNat ≤ 2 ^ x.log2n ∧ x.en = false ∧ x.tr.en = false ∧
     2 ^ x.tr.log2 < (x.tr.tail - (2 : W64).setWidth 32).toNat ∧ (x.tr.tail - (0 : W64).setWidth 32).toNat ≤ 2 ^ x.tr.log2 ∧
     (0x41 * 2 ^ 16 : Nat) / 2 ^ 16 % 32 < 4 ∧ 4 ≤ (0x100000 : W64).toNat / 2 ^ 16 % 32 ∧ (0x100000 : W64).toNat / 2 ^ 16 % 32 ≤ 20 ∧
     (0x100000 : W64).toNat % 2 = 0 ∧ (1 : W64).toNat % 2 = 1 ∧ (3 : W64).toNat / 2 % 2 = 1) ∧
    ((writing 0 (fun p => { p with tr := { p.tr with en := true } })).part 0).tr.en = true := by
  refine ⟨writing_clear, ?_⟩
  decide +kernel

/-- The partition's registers, and a ring: its base, control, head and drop count; EN set and clear, with limits kept and broken. -/
theorem witness_SpecialRegisterWrites_rings :
    (let v := fun (x : W64) => (writing x id).sreg (c 0 0 4 0).a
     ((v 1).getLsbD 0 = true ∧ (v 0x50000).getLsbD 0 = false ∧ (v 1).toNat / 2 ^ 16 % 32 < 6 ∧ 6 ≤ (v 0x70000).toNat / 2 ^ 16 % 32) ∧
     (c 0 0 4 0 0x82).c = 0x82 ∧ (c 0 0 4 0 0x99).c = 0x99 ∧ (c 0 0 4 0 0x8F).c = 0x8F ∧ (c 0 0 4 0 0x90).c = 0x90 ∧
     (c 0 0 4 0 0x91).c = 0x91 ∧ (c 0 0 4 0 0x93).c = 0x93) ∧
    ((writing 0 (fun p => { p with en := true })).part 0).en = true ∧
    (let w := fun (f : Ring → Ring) => ((writing 1 (fun p => { p with sm := f p.sm })).part 0).ring 1
     (w id).en = false ∧ (w (fun r => { r with en := true })).en = true ∧ ¬ 4 ≤ (w id).log2 ∧
     (let y := w (fun r => { r with log2 := 4, period := 16, base := 0x10000 })
      y.en = false ∧ 4 ≤ y.log2 ∧ y.log2 ≤ 20 ∧ 16 ≤ y.period ∧ y.period < 2 ^ 16 ∧ y.base.toNat % (32 * 2 ^ y.log2) = 0)) ∧
    (State.reset.partOfDie 0 = 0 ∧ ({ base with cores := [(0, .reset)] } : State).cores.has 0 = true) := by decide +kernel

/-! ### Lane instructions -/

theorem witness_LaneOperands : (63 : Nat) < 64 ∧ base.iss = true ∧ (c 0 0 4 0 0x0D).imm = none := by decide +kernel

theorem witness_LaneArithmetic : (∀ i, base.Clear i) ∧ (c 3 6 8 10).x.toNat % 4 ≠ 2 ∧ (c 2 6 8 10).x.toNat % 4 = 2 ∧
    (c 6 6 8 10).x.toNat % 4 = 2 := ⟨base_clear, by decide, by decide, by decide⟩

theorem witness_LaneCompareAndMasks (i : Instr) : base.Clear i := base_clear i

theorem witness_CrossLaneInstructions : (∀ f i, (issuing grp0 f).Clear i) ∧ ((c 0 6 8 10).x ≠ 2 ∧ (c 0 6 8 10).x ≠ 3 ∧ (c 0 6 8 10).x = 0) ∧
    (c 2 6 8 10).x = 2 ∧ (c 3 6 8 10).x = 3 ∧ (c 1 6 8 10).x ≠ 0 ∧ base.active 0 false ≠ 0 ∧
    (issuing grp0 { frag0 with em := 0 }).active 0 false = 0 ∧ Instr.ballot (c 0 6 3 0) ∈ [Instr.voteAll (c 0 6 3 0), .voteAny (c 0 6 3 0), .ballot (c 0 6 3 0)] :=
  ⟨fun _ i => issuing_clear _ _ i rfl rfl rfl rfl, by decide, by decide, by decide, by decide, by decide +kernel, by decide +kernel, by decide⟩

theorem witness_FloatArithmetic : (∀ i, base.Clear i) ∧ (Flt.f32.decode 0x3F800000).isFin = true ∧ (Flt.f32.decode 0xBF800000).isFin = true ∧
    (Flt.f32.decode 0x40800000).isFin = true := ⟨base_clear, by decide +kernel, by decide +kernel, by decide +kernel⟩

theorem witness_FloatArithmetic_values : Flt.f32.val 0xBF800000 < 0 ∧ Flt.f32.val 0x3F800000 = (1 : Int) ∧ Flt.f32.val 0x40800000 = 2 ^ (2 : Int) := by
  have h : Flt.f32.decode 0xBF800000 = .fin true 8388608 (-23) ∧ Flt.f32.decode 0x3F800000 = .fin false 8388608 (-23) ∧
      Flt.f32.decode 0x40800000 = .fin false 8388608 (-21) := by decide +kernel
  simp only [Flt.val, h.1, h.2.1, h.2.2, Num.val]
  norm_num

/-- 3 × 2^0 fits binary32 and binary16, and so do a subnormal and the largest number. -/
theorem witness_RoundingIsCorrect :
    (0 < 3 ∧ (Flt.f32.roundFin .rne false false 3 0 false).1 % 2 ^ 31 ≤ Flt.f32.maxBits) ∧
    (Flt.f16.roundFin .rup false true 1 (-24) false).1 % 2 ^ 15 ≤ Flt.f16.maxBits ∧
    (Flt.f16.roundFin .rtz false false 65504 0 false).1 % 2 ^ 15 ≤ Flt.f16.maxBits := by decide +kernel

theorem val_fin (s : Bool) (m : Nat) (e : Int) : (Num.fin s m e).val = (if s then -1 else 1) * (m : ℚ) * 2 ^ e := rfl

theorem witness_FloatOperationsRoundOnce :
    let a : Machine.Num := .fin false 3 0
    let b : Machine.Num := .fin true 3 0
    let z : Machine.Num := .fin false 0 0
    let n : Machine.Num := .fin true 0 0
    (a.isFin = true ∧ b.isFin = true ∧ z.isFin = true) ∧ a.val + a.val ≠ 0 ∧ (a.val + b.val = 0 ∧ a.neg ≠ b.neg) ∧
    (z.val + n.val = 0 ∧ z.neg ≠ n.neg) ∧ a.val * b.val ≠ 0 ∧ a.val * b.val + z.val ≠ 0 ∧ (z.isZero = true ∧ n.isZero = true) ∧
    (a.isZero = false ∧ b.isZero = false ∧ b.neg = true) := by
  simp only [val_fin]
  norm_num
  decide

/-- 1 / 3 and its root: finite, not 0, the results within range. -/
theorem witness_FloatOperationsRoundOnce_roots :
    ((Flt.f32.decode 0x3F800000).isFin = true ∧ (Flt.f32.decode 0x40400000).isFin = true ∧
      (Flt.f32.div .rne (Flt.f32.decode 0x3F800000) (Flt.f32.decode 0x40400000)).1 % 2 ^ 31 ≤ Flt.f32.maxBits) ∧
    (RM.rtz = .rtz ∨ RM.rtz = .rdn) ∧ (Flt.f32.sqrt .rne (Flt.f32.decode 0x40400000)).1 ≤ Flt.f32.maxBits := by decide +kernel

theorem witness_FloatMinimumAndCompare : (∀ i, base.Clear i) ∧ (c 3 6 8 10).x.toNat % 4 = 3 ∧ (c 1 6 8 10).x.toNat % 4 ≠ 3 ∧
    ((Flt.f32.decode 0x7FC00000).isNan = true ∧ (Flt.f32.decode 0x3F800000).isNan = false) ∧
    ((Flt.f32.decode 0x3F800000).isFin = true ∧ (Flt.f32.decode 0x40000000).isFin = true) ∧
    ((Flt.f32.decode 0x80000000).neg = true ∧ (Flt.f32.decode 0).neg = false) :=
  ⟨base_clear, by decide, by decide, by decide +kernel, by decide +kernel, by decide +kernel⟩

theorem witness_FloatMinimumAndCompare_values : Flt.f32.val 0x3F800000 < Flt.f32.val 0x40000000 ∧ Flt.f32.val 0x80000000 = 0 ∧ Flt.f32.val 0 = 0 := by
  have h : Flt.f32.decode 0x3F800000 = .fin false 8388608 (-23) ∧ Flt.f32.decode 0x40000000 = .fin false 8388608 (-22) ∧
      Flt.f32.decode 0x80000000 = .fin true 0 (-149) ∧ Flt.f32.decode 0 = .fin false 0 (-149) := by decide +kernel
  simp only [Flt.val, h.1, h.2.1, h.2.2.1, h.2.2.2, val_fin]
  norm_num

theorem witness_FloatConvert : (∀ i, base.Clear i) ∧
    ((c 0 5 6 0 0xD8).c.toNat / 16 = 13 ∧ (c 0 5 6 0 0x8D).c.toNat % 16 = 13 ∧ (c 4 5 6 0 0x28).x.getLsbD 2 = true) ∧
    (c 0 5 6 0 0x28).c.toNat / 16 = 2 ∧ (c 4 5 6 0 0xB8).c.toNat / 16 = 11 := ⟨base_clear, by decide, by decide, by decide⟩

/-- Of each kind of binary32 and of e4m3 a value: the default NaN, a signalling one, an infinity, a finite one, zeros. -/
theorem witness_FloatConvert_kinds :
    (let ones := fun (y : Nat) => y / 2 ^ 23 % 2 ^ 8 = 2 ^ 8 - 1
     let pay := fun (y : Nat) => y % 2 ^ 23
     Flt.f32.mw = 23 ∧ Flt.f32.ew = 8 ∧ Flt.f32.width = 32 ∧ (ones 0x7F800001 ∧ pay 0x7F800001 ≠ 0 ∧ (pay 0x7F800001).testBit 22 = false) ∧
     (ones 0xFFC00000 ∧ (pay 0xFFC00000).testBit 22 = true) ∧ (ones 0xFF800000 ∧ pay 0xFF800000 = 0) ∧ ¬ ones 0x3F800000 ∧
     (0x7F % 128 = 127 ∧ 0xFF % 128 = 127 ∧ 0x38 % 128 ≠ 127)) ∧
    (BitVec.ofNat (8 * 2 ^ (2 % 4)) 0xFFFFFFFF).toInt = -1 ∧ 1 - 2 * ((1 : Nat) % 2 : Int) < 0 := by decide +kernel

/-! ### Memory -/

/-- The state in which an instruction with no WAIT has issued. -/
def mk (s : State) : State := s.marked (.nop (c 0 0 0 0))
theorem mk_eq (s : State) (i : Instr) (h : i.waitBits = 0) : s.marked i = mk s := by
  have h0 : (Instr.nop (c 0 0 0 0)).waitBits = 0 := by decide
  simp only [mk, State.marked, h, h0]

/-- A word shape, a float under a tag, a window of 64 KiB. -/
def word4 (acc : Acc) : Shape := ⟨6, false, acc⟩

theorem witness_AddressFaults :
    ((2 ^ 55 + 2 ^ 32 < 2 ^ 56 ∧ base.blk.clusize ≤ bits (2 ^ 55 + 2 ^ 32) 32 4) ∧
      bits (2 ^ 55 + 2 ^ 36) 36 19 ≠ 0 ∧ bits (2 ^ 55 + 2 ^ 30) 30 2 ≠ 0) ∧
    ((base.block base.bkey).map (·.winsize) = some 65536 ∧ 65536 ≤ 65536 ∧ 65536 < 2 ^ 30) ∧
    ((word4 .load).nb (blk0.winfmt.get 0) = some 4 ∧ 65533 < 65536 ∧ 65536 < 65533 + 4 ∧ 65532 + 4 ≤ 65536 ∧ 65532 % 4 = 0 ∧
      65530 + 4 ≤ 65536 ∧ 65530 % 4 ≠ 0 ∧ (word4 .load).hdr (blk0.winfmt.get 0) = false) ∧
    ((⟨8, false, .load⟩ : Shape).nb 0x8000 = none) ∧
    (blk0.priv < 0 + (word4 .store).plain ∧ 2 + (word4 .store).plain ≤ 16 ∧ 2 % (word4 .store).plain ≠ 0 ∧ 4 % (word4 .store).plain = 0 ∧
      12 + (word4 .store).plain ≤ 16) ∧
    (let l : List Checked := [(0, 0, .viol 1), (1, 4, .misal), (2, 8, .miss 8), (3, 12, .prot 1 12), (63, 16, .poison 16)]
     (∀ x ∈ l, x.1 < 64) ∧ l.any (fun x => isMisal x.2.2) = true ∧ (l.drop 2).any (fun x => isMisal x.2.2) = false ∧
     (l.drop 2).any (fun x => isMiss x.2.2) = true ∧ (l.drop 3).any (fun x => isMisal x.2.2 || isMiss x.2.2) = false ∧
     (l.drop 3).any (fun x => isProt x.2.2) = true ∧ (l.drop 4).any (fun x => isMisal x.2.2 || isMiss x.2.2 || isProt x.2.2) = false ∧
     (l.drop 4).any (fun x => isPoison x.2.2) = true ∧ (l.take 1).all (fun x => isViol x.2.2 || isOk x.2.2) = true) := by decide +kernel

/-- A window of two granules: the first under tag 5, its headers in the second, or in one that is not there. -/
def headed (geom : BitVec 16) (tag1 : BitVec 16) : Block :=
  { blk0 with winsize := 131072, winfmt := [(0, 0x5000 ||| geom), (1, tag1)] }

theorem witness_AddressFaults_headers :
    (let h : Shape := ⟨9, true, .load⟩
     let g := fun (b : Block) => hdrGranule (b.winfmt.get 0) 0
     h.nb ((headed 1 0).winfmt.get 0) = some 2 ∧ 0 + 2 ≤ (headed 1 0).winsize ∧ 1 % 2 ≠ 0 ∧
     h.hdr ((headed 1 0).winfmt.get 0) = true ∧ g (headed 0xFFF 0) < 0 ∧ (0 ≤ g (headed 1 0) ∧ g (headed 1 0) < 2) ∧
     fmtTag ((headed 1 0x1000).winfmt.get (g (headed 1 0x1000)).toNat) ≠ 0 ∧ fmtTag ((headed 1 0).winfmt.get (g (headed 1 0)).toNat) = 0) := by
  decide +kernel

/-- The first entry of the tables of a context: root at 0x2000, one entry for each level, the leaf of page 0 at `at_`. -/
def tabled (leaf : Nat) : State :=
  { base with
    mem := (Memory.write (Memory.write (Memory.write (Memory.write [] 0x2000 (leBytes (0x4000 + 1) 8)) 0x4000 (leBytes (0x6000 + 1) 8))
      0x6000 (leBytes (0x8000 + 1) 8)) 0x8000 (leBytes leaf 8))
    parts := [{ part0 with tlb := [], ctxs := [(1, ⟨.running, [0x2001, 0, 0, 0, 0, 0, 0, 0], 0, 0, [], [], false, false, none⟩)] }, .reset, .reset, .reset] }

/-- Of a core's entry, of one of its die's TLB alone, of a walk, and of a context that is not there: what each clause asks. -/
theorem witness_Translation :
    (let hit := fun (s : State) (who va : Nat) => (s.part 0).tlbHit who 1 va
     let shared := withPart (fun p => { p with tlb := [{ tlb0 with who := 63 }] })
     hit base 0 0xFFFF = some tlb0 ∧ tlb0.leaf.getLsbD 2 = true ∧ tlb0.leaf.extractLsb' 5 2 = 0 ∧ tlb0.leaf.getLsbD 4 = true ∧
     (0x383 : W64).getLsbD 2 = false ∧ (0x383 : W64).getLsbD 3 = false ∧ (0x383 : W64).getLsbD 4 = false ∧
     ((0x393 : W64).getLsbD 4 = true ∧ (0x393 : W64).getLsbD 9 = true) ∧
     ((0x1DF : W64).getLsbD 2 = true ∧ (0x1DF : W64).extractLsb' 5 2 = 2 ∧ (base.part 0).routes.has 0 = false) ∧
     (hit shared 0 0 = none ∧ hit shared (dieTlb 0) 0 = some { tlb0 with who := 63 }) ∧
     hit (tabled 0x1F) 0 0 = none ∧ hit (tabled 0x1F) (dieTlb 0) 0 = none ∧
     ((tabled 0x1F).ctx 0 1).map (fun x => (tabled 0x1F).ctxEntryOk 0 x.entry) = some true ∧
     got ((tabled 0x1F).walkFrom 0 0 [3, 2, 1, 0] 0x2000) (fun r => r.1 == 0) = true ∧
     failed ((tabled 0).walkFrom 0 0 [3, 2, 1, 0] 0x2000) (fun _ => true) = true ∧ (base.ctx 0 2).isNone = true) ∧
    (tlb0.who % 64 ≠ 63 ∧ (dieTlb 0) % 64 = 63 ∧ (part0.tlb.filter (fun u => u.who == tlb0.who)).length < 256) := by decide +kernel

/-- A base address in s4. -/
def addressing (a : W64) (f : Fragment) : State := issuing { regs [(4, a)] with vregs := lanes [(6, 0, 5), (10, 1, 1)] } f
theorem addressing_clear (a : W64) (f : Fragment) (i : Instr) : (addressing a f).Clear i := issuing_clear _ _ i rfl rfl rfl rfl

/-- A word and a doubleword of private memory: present, the first page absent, the second absent, without permission; and an unlisted
tag, at the window's end and before it. -/
def privAt (pbase : Nat) : State := { base with blk := { blk0 with priv := 16 }, grp := { grp0 with pbase := pbase } }

theorem witness_AddressFaults_private :
    (let p : Shape := ⟨7, false, .store⟩
     let first := fun (s : State) => (s.xlate 0 0 1 (s.grp.pbase + 1024) .store)
     let last := fun (s : State) => ((first s).1.xlate 0 0 1 (s.grp.pbase + 1024 + 256) .store)
     p.plain = 8 ∧ (0 + 8 - 1) / 4 * 4 = 4 ∧ 0 + p.plain ≤ (privAt 0).blk.priv ∧ (2 + (word4 .store).plain - 1) / 4 * 4 = 4 ∧
     (got (first (privAt 0)).2 (fun _ => true) = true ∧ got (last (privAt 0)).2 (fun _ => true) = true) ∧
     failed (first (privAt 64512)).2 (fun e => e == .miss) = true ∧
     (got (first (privAt 64256)).2 (fun _ => true) = true ∧ failed (last (privAt 64256)).2 (fun e => e == .miss) = true) ∧
     (let s := { privAt 0 with parts := [{ part0 with tlb := [{ tlb0 with leaf := 0x383 }] }, .reset, .reset, .reset] }
      failed (first s).2 (fun e => e == .prot 1) = true ∧ failed (last s).2 (fun e => e == .prot 1) = true)) ∧
    ((⟨8, false, .atomic⟩ : Shape).flt.isSome = true ∧ (⟨8, false, .atomic⟩ : Shape).nb 0x8000 = none ∧
      65533 < 65536 ∧ 65536 < 65533 + (⟨8, false, .atomic⟩ : Shape).plain ∧ 65532 + (⟨8, false, .atomic⟩ : Shape).plain ≤ 65536) := by
  decide +kernel

theorem witness_ScalarLoadsAndStores :
    (∀ a i, (addressing a frag0).Clear i) ∧ 8 ≤ (8 : BitVec 4).toNat ∧ (6 : BitVec 4).toNat < 8 ∧
    (let r := fun (a : Nat) (acc : Acc) => ((mk (addressing 0 frag0)).checkScalar 6 a acc).2
     isOk (r 0xFFFC .load) = true ∧ isOk (r 0xFFFC .store) = true ∧ isOk (r (2 ^ 55) .load) = true ∧ isViol (r (2 ^ 56) .load) = true ∧ isViol (r (2 ^ 56) .store) = true ∧
     0xFFFE % 2 ^ (6 % 4) ≠ 0 ∧ isMiss (r 0x10000 .load) = true) := by
  refine ⟨fun a i => addressing_clear a _ i, ?_⟩
  decide +kernel

/-- Two lanes of one instruction. -/
def two : Fragment := { frag0 with em := 3 }
def ofLane (a : W64) : State := addressing a two
def lane32 : MOps := ⟨0, 0, false, 6, 2, true, 0, 6, 4, 10, none⟩

/-- A load all of whose lanes survive, one with a lane out of the window, one on an absent page. -/
theorem witness_LaneLoads :
    (∀ a i, (ofLane a).Clear i) ∧
    (laneStop ((mk (ofLane 0x100)).checked lane32 .load (chkGlobal lane32)).2 false).isNone = true ∧
    ((mk (ofLane 0x100)).checked lane32 .load (chkGlobal lane32)).2.all (fun x => isOk x.2.2) = true ∧
    (laneStop ((mk (ofLane 0x20000)).checked lane32 .load (chkGlobal lane32)).2 false).isSome = true ∧
    (laneStop ((mk (ofLane 0x10000)).checked lane32 .load (chkOwn lane32)).2 false).isNone = true ∧
    ((mk (ofLane 0x10000)).checked lane32 .load (chkOwn lane32)).2.all (fun x => isViol x.2.2) = true ∧
    ((mk (ofLane 0)).checked lane32 .load (chkPrivate lane32)).2.all (fun x => isViol x.2.2) = true ∧
    (base.group base.bkey base.gkey).map (·.loads) = some [] ∧
    good (exec (.ldG lane32) (ofLane 0x100)) (fun t => match t.group t.bkey t.gkey with | some g => g.loads.length == 1 | none => false) = true ∧
    (fmtTag 0x1000 = 1 ∧ fmtTag 0x3000 = 3 ∧ fmtTag 0x7000 = 7 ∧ fmtTag 0 = 0) := by
  refine ⟨fun a i => addressing_clear a _ i, ?_⟩
  decide +kernel

/-- Both lanes at one address, with private memory. -/
def private16 : State := { ofLane 0 with blk := { blk0 with priv := 16 } }

theorem witness_LaneStores :
    (∀ a i, (ofLane a).Clear i) ∧ (∀ i, private16.Clear i) ∧
    (laneStop ((mk (ofLane 0x100)).checked lane32 .store (chkGlobal lane32)).2 true).isNone = true ∧
    ((mk (ofLane 0x100)).checked lane32 .store (chkGlobal lane32)).2.map (fun x => isOk x.2.2) = [true, true] ∧
    (laneStop ((mk (ofLane 0x20000)).checked lane32 .store (chkGlobal lane32)).2 true).isSome = true ∧
    ((mk (ofLane 0xFFFC)).checked lane32 .store (chkOwn lane32)).2.map (fun x => (isOk x.2.2, isViol x.2.2)) = [(true, false), (false, true)] ∧
    (laneStop ((mk private16).checked lane32 .store (chkPrivate lane32)).2 true).isNone = true ∧
    ((mk private16).checked lane32 .store (chkPrivate lane32)).2.map (fun x => isOk x.2.2) = [true, true] := by
  refine ⟨fun a i => addressing_clear a _ i, fun i => clear_of _ i rfl rfl rfl rfl ?_, ?_⟩
  · decide +kernel
  · decide +kernel

/-- `st.m` with a mask in OFS7's place: the own member, no member, a member that is not there. -/
def multi (mask : BitVec 16) (ty : BitVec 4) : MOps := ⟨0, 0, false, ty, 2, true, 0, 6, 4, 10, some ⟨false, false, 0, 0, mask, 0⟩⟩

theorem witness_MulticastStore :
    (∀ a i, (ofLane a).Clear i) ∧ multiMask (multi 1 6) = [0] ∧ multiMask (multi 0 6) = [] ∧ multiMask (multi 2 6) = [1] ∧
    base.blk.clusize ≤ 1 ∧ 0 < base.blk.clusize ∧ (ofLane 0x100).member 0 = some (2 ^ 32) ∧ ((multi 1 6).shape .store).ty < 8 ∧
    (let s := ofLane 0x100
     laneStop ((mk s).checkAll (fun a l => (a, if 2 ^ 30 ≤ a.ea (multi 1 6) l then .viol 2 else a.checkMulti ((multi 1 6).shape .store) ([0].filterMap a.member) (a.ea (multi 1 6) l)))
       (fun l => (mk s).ea (multi 1 6) l) (lanesOf ((mk s).active 0 false))).2 true = none) := by
  refine ⟨fun a i => addressing_clear a _ i, ?_⟩
  decide +kernel

/-- A store of a group to bytes. -/
def sent (d : StoreTo) (l : List StoreByte) (pub : Nat := 0) : StoreEnt := ⟨d, l, pub, .group, none, .none⟩

/-- A published store to memory, one to another block's window, one to the own window. -/
def stored (e : StoreEnt) : State := { base with
  grp := { grp0 with stores := [sent (.mem 1) [⟨0x200, 0x200, 1⟩], e] }
  blocks := [(2 ^ 32 + 1, { blk0 with blkid := 1 })] }

theorem witness_WritesReachTheirHome :
    (let ready := fun (e : StoreEnt) => ((stored e).group (2 ^ 32) 0).map (fun g => g.stores.find? (·.ready)) = some (some e) ∧
       ((stored e).block (2 ^ 32)).isSome = true
     ready (sent (.mem 1) [⟨0x100, 0x100, 7⟩] 1) ∧ ready (sent (.priv 1) [⟨0x400, 0x400, 7⟩] 5) ∧ ready (sent .phys [⟨0x100, 0x100, 7⟩] 1) ∧
     ready (sent .own [⟨0x100, 3, 7⟩] 2) ∧ ready (sent (.window (2 ^ 32 + 1)) [⟨0x100, 0, 7⟩, ⟨0x100, 0, 8⟩] 2) ∧
     ready { sent (.mem 1) [⟨0x100, 0x100, 7⟩] 1 with org := { Origin.none with past := [4] } } ∧
     ((stored (sent (.window (2 ^ 32 + 1)) [] 2)).block (2 ^ 32 + 1)).isSome = true ∧
     ((stored (sent .own [] 2)).group (2 ^ 32) 0).isSome = true) ∧
    (stored (sent (.mem 1) [⟨0x100, 0x100, 7⟩] 1)).Mapped 0 0 1 0x100 0x100 1 ∧
    (stored (sent (.mem 1) [⟨0x100, 0x100, 7⟩] 1)).deviceOnly 0x100 = false := by
  refine ⟨by decide +kernel, ?_, by decide +kernel⟩
  intro i hi
  obtain rfl : i = 0 := by omega
  exact ⟨tlb0, 0, by decide +kernel⟩

/-! ### Copies, atomics, fences, barriers, groups, waits, launches -/

def copyOps : MOps := ⟨0, 0, false, 1, 2, true, 0, 6, 4, 10, none⟩
def copying (a : W64) (n : Nat) : State :=
  issuing { regs [(4, a)] with vregs := lanes [(6, 0, 0x20), (6, 1, 0x40), (10, 1, 4)], toks := setNth grp0.toks 1 ⟨n, 0, 0⟩ } two
def checkedCopy (s : State) (out : Bool) : List Checked :=
  ((mk s).checkAll (fun a l => a.checkCopy copyOps out l) (fun l => (mk s).ea copyOps l) (lanesOf ((mk s).active 0 false))).2
/-- A copy of one lane under way. -/
def copyJob (out : Bool) (a : W64) : CopyJob := ⟨out, 2 ^ 32, 0, 1, 0x3000, 1, [(0, a, 0x20)], none, 0, [], [], [(0, a.toNat)]⟩
def copied (out : Bool) (a : W64) : State := (copying 0x100 1).modCore 0 (fun x => { x with copies := [(5, copyJob out a)] })

theorem copying_clear (a : W64) (n : Nat) : (copying a n).Clear (.cpy16 copyOps) ∧ (copying a n).Clear (.cpy16Out copyOps) := by
  constructor <;> exact ⟨rfl, rfl, rfl, rfl, rfl, rfl⟩

theorem witness_AsynchronousCopies :
    (∀ a n, (copying a n).Clear (.cpy16 copyOps) ∧ (copying a n).Clear (.cpy16Out copyOps)) ∧
    (255 ≤ ((copying 0x100 255).grp.tok 1).count ∧ ((copying 0x100 254).grp.tok 1).count < 255) ∧
    (laneStop (checkedCopy (copying 0x100 0) false) false).isNone = true ∧ (checkedCopy (copying 0x100 0) false).map (fun x => isOk x.2.2) = [true, true] ∧
    (laneStop (checkedCopy (copying 0x100 0) true) true).isNone = true ∧ (laneStop (checkedCopy (copying 0x20000 0) false) false).isSome = true ∧
    (checkedCopy (copying 0x100000000000000 0) false).map (fun x => isOk x.2.2) = [false, false] ∧
    (copying 0x100 0).grp.toks.length = 8 := by
  refine ⟨copying_clear, ?_⟩
  decide +kernel

theorem mapped_page (s : State) (h : (s.part 0).tlb = [tlb0]) (a n : Nat) (ha : a + n ≤ 65536) : s.Mapped 0 0 1 a a n := by
  intro i hi
  have hit : (s.part 0).tlbHit 0 1 (a + i) = some tlb0 := by
    rw [Part.tlbHit, h]
    have hz : (a + i) >>> lvlShift 0 = 0 := by
      rw [Nat.shiftRight_eq_div_pow]
      exact Nat.div_eq_of_lt (by simp [lvlShift]; omega)
    simp [tlb0, hz]
  have key : s.leafKeyOf 0 tlb0 (a + i) = a + i := by
    have : bits (0x19F : W64).toNat 16 36 = 0 ∧ bits (0x19F : W64).toNat 5 2 = 0 := by decide
    simp only [State.leafKeyOf, tlb0, this.1, this.2, lvlShift, hbmKey]
    norm_num
    omega
  have leaf : bitAt tlb0.leaf.toNat 3 = true ∧ bits tlb0.leaf.toNat 5 2 = 0 := by decide
  refine ⟨tlb0, 0, hit, by decide, ?_⟩
  simp only [State.xlate, State.leafOf, hit, leaf.1, leaf.2, key]
  rfl

theorem witness_AsynchronousCopies_done (out : Bool) :
    let s := copied out 0x100
    ((s.core 0).copies.find 5 = some (copyJob out 0x100) ∧ (copyJob out 0x100).heldBy = none ∧ (s.block (2 ^ 32)).isSome = true ∧
     (s.group (2 ^ 32) 0).map (fun g => (g.stores, g.toks.length)) = some ([], 8) ∧ s.ctxIs 0 1 .halted = false ∧
     (copyJob out 0x100).lanes = [(0, 0x100, 0x20)] ∧ (0x100 : W64).toNat < 2 ^ 55 ∧ (copyJob out 0x100).tok < 8 ∧
     (copyJob out 0x100).done = [] ∧ (copyJob out 0x100).words = [] ∧
     got (s.xlate 0 0 1 0x100 (if out then .store else .load)).2 (fun u => u.key == 0x100 &&
       (s.group (2 ^ 32) 0).map (fun g => s.poisonedFor (s.viewOf (2 ^ 32) g) 0x100 16) == some false) = true) ∧
    s.Mapped 0 0 1 0x100 0x100 16 ∧
    failed ((s.modPart 0 (fun p => { p with tlb := [{ tlb0 with leaf := 0x183 }] })).xlate 0 0 1 0x100 (if out then .store else .load)).2
      (fun e => e == .prot 1) = true := by
  refine ⟨?_, mapped_page _ ?_ _ _ (by omega), ?_⟩ <;> cases out <;> decide +kernel

def atomOps (ty : BitVec 4) : MOps := mx ty 8 4 12 ⟨false, false, 2, 0, 6, 0⟩

theorem witness_Atomics :
    (∀ a i, (ofLane a).Clear i) ∧ (atomOps 6).long = some ⟨false, false, 2, 0, 6, 0⟩ ∧
    ((2 : BitVec 4).toNat = 2 ∧ (0 : BitVec 4).toNat ≠ 2 ∧ (8 : BitVec 4).toNat = 8) ∧
    (laneStop ((mk (ofLane 0x100)).checked (atomOps 6) .atomic (chkGlobal (atomOps 6))).2 true).isNone = true ∧
    (laneStop ((mk (ofLane 0x20000)).checked (atomOps 6) .atomic (chkGlobal (atomOps 6))).2 true).isSome = true ∧
    (ofLane 0x100).grp.stores = [] ∧ (ofLane 0x100).grp.seen = [] ∧
    ((mk (ofLane 0x100)).checked (atomOps 6) .atomic (chkGlobal (atomOps 6))).2.map (·.2.2) = [.ok (.mem 0x100) 0x100 0 none, .ok (.mem 0x100) 0x100 0 none] ∧
    ((mk (ofLane 0x100)).checked (atomOps 6) .atomic (chkGlobal (atomOps 6))).1.parts = (ofLane 0x100).parts := by
  refine ⟨fun a i => addressing_clear a _ i, ?_⟩
  decide +kernel

/-- A compare-and-swap of two lanes at one address, with both passes to make. -/
def serving : State :=
  let v : AtomServe := ⟨true, 8, false, 0, 1, [⟨0, none, 0x100, 0x100, 5, 0⟩, ⟨1, none, 0x100, 0x100, 6, 5⟩]⟩
  { base with grp := { grp0 with loads := [⟨[8], [], some v⟩] } }

theorem witness_Atomics_serving :
    (serving.group (2 ^ 32) 0).map (fun g => (g.loads.length, g.stores, g.seen, (g.loads.head?.bind (·.serve)).map (fun v => (v.acq, v.lanes.length)))) =
      some (1, [], [], some (0, 2)) ∧ (serving.block (2 ^ 32)).isSome = true ∧ serving.Mapped 0 0 1 0x100 0x100 4 ∧
    (∀ i < 4, serving.deviceOnly (0x100 + i) = false) :=
  ⟨by decide +kernel, by decide +kernel, mapped_page _ (by decide +kernel) 0x100 4 (by omega), by decide +kernel⟩

theorem witness_Atomics_mapped : ((mk (ofLane 0x100)).checked (atomOps 6) .atomic (chkGlobal (atomOps 6))).1.Mapped 0 0 1 0x100 0x100 4 ∧
    ∀ i < 4, ((mk (ofLane 0x100)).checked (atomOps 6) .atomic (chkGlobal (atomOps 6))).1.deviceOnly (0x100 + i) = false :=
  ⟨mapped_page _ (by decide +kernel) 0x100 4 (by omega), by decide +kernel⟩

/-- One store under way, unpublished, in a user and in a system group. -/
def fencing (plevel : Nat) : State :=
  issuing { grp0 with plevel := plevel, stores := [sent (.mem 1) [⟨0x100, 0x100, 7⟩]] } frag0

theorem witness_Fence :
    (∀ p i, (fencing p).Clear i) ∧
    (∀ q ∈ (fencing 0).allGroups, (q.1, q.2.2.1) ≠ ((fencing 0).bkey, (fencing 0).gkey) → q.2.2.2.stores = []) ∧ (fencing 0).blk.rest = [] ∧ (fencing 0).grp.seen = [] ∧
    (fencing 0).grp.plevel = 0 ∧ 0 < (fencing 1).grp.plevel ∧ (∀ e ∈ (fencing 0).grp.stores, e.pub < 3 ∧ e.dst ≠ .window (fencing 0).bkey ∧ e.org.past = []) ∧
    (Scope.blk.subCode + 1 < 4 ∧ Scope.dev.subCode + 1 = 3 ∧ Scope.sys.subCode + 1 = 4) ∧
    (∀ e ∈ (fencing 1).grp.stores.filter (fun e => ((fencing 1).marked (.fence .dev (c 0 0 0 0))).grp.mine e && decide (e.need ≤ 3)),
      ∃ x, e.dst = .mem x ∧ ∀ y ∈ e.bytes, (fencing 1).Mapped 0 0 x y.at_ y.key 1) := by
  refine ⟨fun p i => issuing_clear _ _ i rfl rfl rfl rfl, by decide +kernel, by decide +kernel, by decide +kernel, by decide +kernel, by decide +kernel,
    by decide +kernel, by decide, ?_⟩
  intro e he
  have hl : (fencing 1).grp.stores.filter (fun e => ((fencing 1).marked (.fence .dev (c 0 0 0 0))).grp.mine e && decide (e.need ≤ 3)) =
      [sent (.mem 1) [⟨0x100, 0x100, 7⟩]] := by decide +kernel
  rw [hl] at he
  obtain rfl : e = _ := by simpa using he
  refine ⟨1, rfl, ?_⟩
  intro y hy
  obtain rfl : y = _ := by simpa [sent] using hy
  exact mapped_page _ (by decide +kernel) 0x100 1 (by omega)

/-- A group of one fragment at block barriers of two members, one of them arrived or not. -/
def barring (r : Barrier) (g : Group) : State := { issuing g frag0 with blk := { blk0 with bars := List.replicate 16 r } }

/-- Its fragment arrived in phase 0 of barrier 4, now in phase n. -/
def arrivedIn (n : Nat) : State := { issuing grp0 { frag0 with phases := [(4, 0)] } with blk := { blk0 with bars := List.replicate 16 ⟨1, 0, 0, 0, n, 0⟩ } }

theorem witness_Barriers :
    (∀ r i, (barring r grp0).Clear i) ∧ (∀ n i, (arrivedIn n).Clear i) ∧ (∀ i, (barring ⟨1, 0, 0, 0, 0, 0⟩ (regs [(7, 0x80000000)])).Clear i) ∧
    (let s := barring ⟨2, 0, 0, 0, 0, 0⟩ grp0
     let r := s.bar s.bkey (barOf 4)
     barOf 4 = 4 ∧ barOf 0xC0 = 24 ∧ s.coResident = false ∧ s.barBad 4 = false ∧ s.frag.phases.find 4 = none ∧ s.blk.bars.length = 16 ∧
     s.grp.frags = [] ∧ s.grp.pend = [] ∧ s.grp.stores = [] ∧ s.grp.seen = [] ∧ (∀ q ∈ s.allGroups, q.2.2.2.stores.any (·.ready) = false) ∧
     s.blk.groups.has s.gkey = false ∧ s.grp.arrived.find 4 ≠ some r.phase ∧ r.a + 1 < r.m ∧ s.atJoin 0x3008 = false ∧
     (s.grp.pend.find 4).isNone = true ∧ ¬ (r.a = r.m ∧ 0 < r.m) ∧ r.x + (s.sreg 7).toNat ≤ 2 ^ 31) ∧
    (let r := (barring ⟨1, 0, 0, 0, 0, 0⟩ grp0).bar (2 ^ 32) 4
     r.a + 1 = r.m ∧ r.x ≤ r.c) ∧
    (let r := (barring ⟨1, 0, 0, 3, 0, 0⟩ grp0).bar (2 ^ 32) 4
     r.c < r.x) ∧
    ((barring ⟨1, 0, 0, 0, 0, 0⟩ { grp0 with pend := [(4, (0x2000, []))] }).grp.pend.find 4 = some (0x2000, []) ∧ frag0.pc ≠ 0x2000) ∧
    ((arrivedIn 1).barBad 4 = false ∧ (arrivedIn 1).frag.phases.find 4 = some 0 ∧ 0 < ((arrivedIn 1).bar (2 ^ 32) 4).phase ∧
      ((arrivedIn 0).bar (2 ^ 32) 4).phase ≤ 0) ∧
    (16 ≤ barOf 0x40 ∧ 2 ^ 31 < 1 + ((barring ⟨1, 0, 0, 1, 0, 0⟩ (regs [(7, 0x80000000)])).sreg 7).toNat) := by
  refine ⟨fun r i => clear_of _ i rfl rfl rfl rfl (by simp [barring, issuing, grp0, Group.reset]),
    fun n i => clear_of _ i rfl rfl rfl rfl (by simp [arrivedIn, issuing, grp0, Group.reset]),
    fun i => clear_of _ i rfl rfl rfl rfl (by simp [barring, issuing, regs, grp0, Group.reset]), ?_⟩
  decide +kernel

/-- A group that waits in `vgrow` for one block of registers. -/
def growing (held : Nat) (others : Nat) : State :=
  let g := { grp0 with vblk := List.range held, frags := [(0, { frag0 with st := .vgrow 1 5 1 })] }
  let fill := { grp0 with vblk := (List.range others).map (held + ·), frags := [] }
  { State.reset with blocks := [(2 ^ 32, { blk0 with groups := [(0, g), (1, fill)] })], grids := [(1, grid0)], parts := [part0, .reset, .reset, .reset] }

theorem witness_GroupResources :
    (∀ l i, (issuing (regs l) frag0).Clear i) ∧
    (((regs [(6, 0x4004)]).sreg 6).toNat % 8 ≠ 0 ∧ ((regs [(6, 0x4000)]).sreg 6).toNat % 8 = 0 ∧ 4 ≤ (c 0 5 6 7 4).c.toNat ∧ (c 0 5 6 7 3).c.toNat < 4 ∧
      base.blk.groups.has base.gkey = false ∧ base.blk.bars.length = 16) ∧
    (15 < (c 0 5 0 0 16).c.toNat ∧ (c 0 5 0 0 0).c.toNat = 0 ∧ (c 0 5 0 0 15).c.toNat ≤ 15 ∧ 16 < base.grp.vblk.length + 1 ∧
      ({ grp0 with vblk := [0] } : Group).vblk.length + 15 ≤ 16) := by
  refine ⟨fun l i => issuing_clear _ _ i rfl rfl rfl rfl, ?_⟩
  decide +kernel

theorem witness_GroupResources_grant :
    (match oldestReq ((growing 2 2).vreqs 0) with
     | some r => r == ⟨2 ^ 32, 0, 0, 1, 5, 1⟩ | none => false) = true ∧
    ((growing 2 2).block (2 ^ 32)).isSome = true ∧ (growing 2 2).iss = false ∧
    ((growing 2 2).group (2 ^ 32) 0).map (fun g => (g.frags.has 0, decide (g.vblk.length + 1 ≤ 16), g.plevel)) = some (true, true, 0) ∧
    ((growing 2 2).freeVblks 0 false 1).length = 1 ∧
    (let full := growing 2 254
     (full.freeVblks 0 false 1).length < 1 ∧ (full.vreqs 0).length = 1 ∧
     ∀ p ∈ full.onCore 0, ∀ q ∈ full.groupsOf p.1, q.2.plevel = 0 → ∀ f ∈ q.2.frags, f.2.stuck = true) := by decide +kernel

theorem witness_TokenWaits :
    (∀ i, base.Clear i) ∧ awaiting.Clear (.wait (c 0 5 0 0 1)) ∧ awaiting.Clear (.waitY (c 0 5 0 0 1)) ∧
    awaiting.grp.waits 1 = true ∧ base.grp.waits 0xFF = false ∧ base.grp.toks.length = 8 ∧
    ((some 0x204#64).getD 0).toNat % 8 ≠ 0 ∧ ((some 0x200#64).getD 0).toNat % 8 = 0 := by
  refine ⟨base_clear, ⟨rfl, by decide +kernel, by decide +kernel, by decide +kernel, by decide +kernel, by decide +kernel⟩,
    ⟨rfl, by decide +kernel, by decide +kernel, by decide +kernel, by decide +kernel, by decide +kernel⟩, by decide +kernel, by decide +kernel, by decide +kernel,
    by decide, by decide⟩

theorem quiet_of (s : State) (h : s.allGroups.all (fun q => q.2.2.2.stores == []) = true) (h2 : s.allBlocks.all (fun p => p.2.rest == []) = true)
    (h3 : s.grids.all (fun p => p.2.rest == []) = true) : s.Quiet := by
  refine ⟨fun q hq => ?_, fun p hp => ?_, fun p hp => ?_⟩
  · simpa using List.all_eq_true.mp h q hq
  · simpa using List.all_eq_true.mp h2 p hp
  · simpa using List.all_eq_true.mp h3 p hp

/-- A launcher: the packet's address in s4, the table's in s5; its grid at a depth; a device queue of so many packets. -/
def launching (a b : W64) (depth n : Nat) : State :=
  { issuing (regs [(4, a), (5, b)]) frag0 with
    grids := [(1, { grid0 with depth := depth })]
    parts := [{ part0 with devq := List.replicate n ⟨1, 1, 0, 2, [], none, 0⟩ }, .reset, .reset, .reset] }
theorem launching_clear (a b : W64) (d n : Nat) (i : Instr) : (launching a b d n).Clear i := clear_of _ i rfl rfl rfl rfl (by simp [launching, issuing, regs, grp0, Group.reset])

/-- Queue 1 of partition 0, its ring of 16 packets at 0x400 with one packet in it. -/
def queued (words : List (Nat × Nat)) : State :=
  { State.reset with
    mem := words.foldl (fun m p => Memory.write m p.1 (leBytes p.2 8))
      (Memory.write (Memory.write (Memory.write (Memory.write [] 64 (leBytes 1 8)) 88 (leBytes 0x400 8)) 96 (leBytes (1 + 4 * 2 ^ 48) 8))
        104 (leBytes (2 ^ 32) 8))
    parts := [{ part0 with tlb := [{ tlb0 with who := dieTlb 0 }] }, .reset, .reset, .reset] }
/-- What holds of the packet at its head; the read leaves the state as it was. -/
def heading (words : List (Nat × Nat)) (test : State → List W64 → Bool) : Bool :=
  let s := queued words
  match s.headPacket 0 1 with | (t, some w) => decide (t = s) && w.length == 8 && test s w | _ => false

theorem witness_LaunchesAndQueues :
    (∀ a b d n i, (launching a b d n).Clear i) ∧
    (let s := launching 0x1000 0x2000 1 0
     s.grids.find s.blk.grid = some { grid0 with depth := 1 } ∧ s.Quiet ∧ s.blk.part < s.parts.length) ∧
    ((0x1008 : W64).toNat % 64 ≠ 0 ∧ (0x2008 : W64).toNat % 16 ≠ 0 ∧ (0x1000 : W64).toNat % 64 = 0 ∧ (0x2000 : W64).toNat % 16 = 0 ∧
     4096 ≤ ((launching 0x1000 0 1 4096).part 0).devq.length ∧ ((launching 0x1000 0 1 0).part 0).devq.length < 4096) ∧
    (let s := launching 0x1000 0x2000 1 0
     ((mk s).loadWords 0x1000 8 0).1 = mk s ∧ got ((mk s).loadWords 0x1000 8 0).2 (fun ws => ws.length == 8) = true ∧
     failed (((mk s).boundary 3).loadWords 0x20000 8 0).2 (fun _ => true) = true) ∧
    (let s := queued []
     let e := s.queEnt 0 1
     s.iss = false ∧ (s.part 0).pstate ≠ 0 ∧ e.tail = 1 ∧ e.head = 0 ∧ e.log2 = 4 ∧ (∀ g ∈ s.grids, g.2.unread = false) ∧ s.queueOpen 0 1 = true ∧ s.queueBad 0 1 = false ∧
       { s with poison := [2] }.queueBad 0 1 = true) ∧
    heading [] (fun _ w => pkTy w == 0 && (List.range 8).all (fun i => w.getD i 0 == 0)) = true ∧
    heading [(0x408, 1)] (fun _ w => pkTy w == 0 && wordsNat w != 0) = true ∧
    heading [(0x400, 2), (0x418, 0x3000), (0x3000, 5)] (fun s w => pkTy w == 2 && !waitBad w &&
      decide (s.schedRead 0 (s.queEnt 0 1).ctx (wbits w 192 64) 8 = (s, .ok (leBytes 5 8))) && decide (wbits w 256 64 ≤ 5)) = true ∧
    heading [(0x400, 2), (0x418, 0x3000), (0x420, 9)] (fun s w => !waitBad w &&
      decide (s.schedRead 0 (s.queEnt 0 1).ctx (wbits w 192 64) 8 = (s, .ok (leBytes 0 8))) && decide (0 < wbits w 256 64)) = true ∧
    heading [(0x400, 1 + 2 ^ 32), (0x408, 0x1000)] (fun _ w => pkTy w == 1 && !launchBad w && wbits w 32 32 != 0) = true ∧
    heading [(0x400, 1)] (fun _ w => pkTy w == 1 && wbits w 32 32 == 0) = true ∧ heading [(0x400, 7)] (fun _ w => decide (3 ≤ pkTy w)) = true ∧
    (let s := { queued [] with parts := [{ part0 with devq := [⟨1, 1, 0, 2, [], none, 0⟩] }, .reset, .reset, .reset] }
     (∀ g ∈ s.grids, g.2.unread = false) ∧ (s.part 0).devq = [⟨1, 1, 0, 2, [], none, 0⟩] ∧ (s.part 0).devq.find? (fun d => match s.ctx 0 d.ctx with | some x => !x.loaded | none => true) = some ⟨1, 1, 0, 2, [], none, 0⟩ ∧
      (s.part 0).pstate = 2 ∧ s.devHeld 0 = false ∧
      (s.part 1).pstate ≠ 2 ∧ (s.part 0).next ≠ 0 ∧ s.grids = []) := by
  refine ⟨launching_clear, ⟨by decide +kernel, quiet_of _ (by decide +kernel) (by decide +kernel) (by decide +kernel), by decide +kernel⟩, ?_⟩
  decide +kernel

/-- A row-major descriptor image of 64 words of 32 bits of 16 elements, its location matrix the identity but for `sw`, where
the two lowest bits are exchanged. -/
def tiny (ew : Nat) (sw : Bool) (base : Nat) : List W64 :=
  let rows := (List.range 48).map (fun j => if sw && j == 0 then 2 else if sw && j == 1 then 1 else 2 ^ j)
  ([ew * 2 ^ 17 + 4 * 2 ^ 23, base, 9, 0, 14 + 4 * 2 ^ 58, 0, 0, 0, 0, 0, 0, 0, 0, 0, 0, 0] ++ rows).map (BitVec.ofNat 64)

/-- t1 and t2 hold descriptors; s4 an address, s5 a value. -/
def tensors (w1 w2 : List W64) (a b : W64) (mem : Memory) (f : Fragment) : State :=
  { issuing { (((regs [(4, a), (5, b)]).setTimg 1 w1).setTimg 2 w2) with
      vregs := lanes [(6, 0, 3), (6, 1, 15), (6, 2, 5), (8, 0, 7), (8, 1, 7)] } f with mem := mem }
theorem tensors_clear (w1 w2 : List W64) (a b : W64) (mem : Memory) (f : Fragment) (i : Instr) : (tensors w1 w2 a b mem f).Clear i :=
  clear_of _ i rfl rfl rfl rfl (by simp [tensors, issuing, regs, grp0, Group.reset, Group.setTimg])

def tops (d a b : BitVec 8) (long : Option TExt := none) : TOps := ⟨0, 0, false, 0, false, 1, false, 0, d, a, b, long⟩

/-- The image in memory at 0x4000. -/
def imageMem (w : List W64) : Memory :=
  (w.flatMap (fun x => leBytes x.toNat 8)).zipIdx.filterMap (fun p => if p.1 = 0 then none else some ⟨0x4000 + p.2, p.1⟩)

theorem witness_DescriptorRegisters :
    (∀ w1 w2 a b m f i, (tensors w1 w2 a b m f).Clear i) ∧
    (let w := tiny 4 false 0x100
     let s := tensors w w 0x200 0x4000 [] frag0
     s.grp.inFlightT 1 = false ∧ (tensors (setNth w 3 (progWord 2 0 1 0 0)) w 0 0 [] frag0).grp.inFlightT 1 = true ∧
     imgOk w = true ∧ s.grp.timg 1 = w ∧ imgOk (setNth (s.grp.timg 1) 1 0x200) = true ∧ imgOk (setNth (s.grp.timg 1) 1 0x220) = false ∧
     (Desc.of w).ndim = 0 ∧ 8 ≤ (8 : BitVec 8).toNat ∧ (7 : BitVec 8).toNat < 8 ∧ (Desc.of w).ndim < (9 : BitVec 8).toNat - 8 ∧
     64 ≤ (64 : BitVec 8).toNat ∧ (63 : BitVec 8).toNat < 64) ∧
    (let w := tiny 4 false 0x100
     let s := tensors w w 0x4000 0 (imageMem w) frag0
     let o := tops 1 4 0
     s.mem.wf = true ∧ s.timgAddr o = 0x4000 ∧ (tensors w w 0x4008 0 [] frag0).timgAddr o % 64 ≠ 0 ∧
     (match (mk s).loadWords 0x4000 64 0 with | (_, .ok ws) => ws == w && imgOk ws && bits (imgWord ws 3) 62 2 == 0 | _ => false) = true) ∧
    (let w := tiny 4 false 0x100
     let s := tensors w w 0x4000 0 [] frag0
     (match (mk s).storePlaces 0x4000 64 0 with
      | (_, .ok l) => l.length == 64 && decide ((l.map (·.1)).take 3 = [.mem 0x4000, .mem 0x4008, .mem 0x4010]) | _ => false) = true) := by
  refine ⟨tensors_clear, ?_⟩
  decide +kernel

/-- No lane must wait, for itself or for the place of its element. -/
def allFree (s : State) (write : Bool) (l : List (Nat × Nat × Elem)) : Bool :=
  l.all (fun e => match e.2.2.res with | .later => false | .ok pl _ _ => e.2.2.ph || (s.elemHeld write pl).isNone | _ => true)
theorem allFree_later (s : State) (write : Bool) (l : List (Nat × Nat × Elem)) (h : allFree s write l = true) : ∀ e ∈ l, e.2.2.res ≠ .later ∧
    (e.2.2.ph = false → ∀ pl va fmt, e.2.2.res = .ok pl va fmt → s.elemHeld write pl = none) := by
  intro e he
  have := List.all_eq_true.mp h e he
  constructor
  · intro hl; simp [hl] at this
  · intro hp pl va fmt hl
    simpa [hl, hp] using this

/-- A descriptor image of kind `k`. -/
def ofKind (k : Nat) (w : List W64) : List W64 := setNth w 0 (w.getD 0 0 + BitVec.ofNat 64 k)

theorem witness_ElementAccess :
    (∀ w1 w2 a b m f i, (tensors w1 w2 a b m f).Clear i) ∧
    (let w := tiny 4 false 0x100
     let s := tensors w w 0 0 [] { frag0 with em := 7 }
     let o := tops 8 1 6
     (Desc.of w).ew ≠ 5 ∧ memberArg s.blk (Desc.of w) (some ⟨1, 0⟩) = none ∧ (Desc.of w).kind ≠ 4 ∧ (Desc.of w).width = 32 ∧
     s.ElemClear (.tldE o) o false 0 ∧ s.ElemClear (.tstE o) o true 0 ∧
     ((mk s).checkElems o w (Desc.of w) 0 false).2.1.map (fun e => (e.1, e.2.1, e.2.2.ph, match e.2.2.res with | .ok (.byte pl 0) _ _ => decide (pl = .mem (0x100 + 4 * e.2.1)) | _ => false)) =
       [(0, 3, false, true), (1, 15, true, true), (2, 5, false, true)] ∧ s.nearResults = []) ∧
    (let w := ofKind 2 (tiny 4 false (2 ^ 30))
     let t := tensors w w 0 0 [] { frag0 with em := 1 }
     let s : State := { t with blk := { t.blk with acc := true } }
     let o := tops 8 1 6
     s.ElemClear (.tstE o) o true 0 ∧
     ((mk s).checkElems o w (Desc.of w) 0 true).2.1.map (fun e => (e.1, e.2.2.ph, match e.2.2.res with | .ok (.acc 0 i) _ _ => i | _ => 0)) = [(0, false, 3)]) ∧
    (let w := tiny 4 false 0x100
     let s := tensors w w 0 0 [] { frag0 with em := 1 }
     let o := { tops 8 1 5 with sb := true }
     ((mk s).checkElems o w (Desc.of w) 0 false).2.1.length = 1) := by
  refine ⟨tensors_clear, ?_, ?_, by decide +kernel⟩
  · refine ⟨by decide +kernel, by decide +kernel, by decide +kernel, by decide +kernel, ?_, ?_, by decide +kernel, by decide +kernel⟩
    · exact ⟨by decide +kernel, by decide +kernel, by decide +kernel, by decide +kernel, by decide +kernel, allFree_later _ _ _ (by decide +kernel)⟩
    · exact ⟨by decide +kernel, by decide +kernel, by decide +kernel, by decide +kernel, by decide +kernel, allFree_later _ _ _ (by decide +kernel)⟩
  · exact ⟨⟨by decide +kernel, by decide +kernel, by decide +kernel, by decide +kernel, by decide +kernel, allFree_later _ _ _ (by decide +kernel)⟩, by decide +kernel⟩

/-- s5 holds the word of a record's kind, type and length; v8 to v39 hold words in lane 0. -/
def piping (k : W64) (em : W64) : State := issuing { regs [(5, k)] with vregs := lanes [(8, 0, 0x40003F80)] } { frag0 with em := em }

theorem witness_TransformPipe :
    (∀ k em i, (piping k em).Clear i) ∧
    (64 ≤ (c 0 6 8 5 64).c.toNat ∧ (32 ≤ (c 0 6 8 5 33).c.toNat ∧ (c 0 6 8 5 33).c.toNat % 32 ≠ 0) ∧ (c 0 6 8 5 32).c.toNat ≤ 32 ∧
      (c 0 6 8 5 31).c.toNat ≤ 32 ∧ (c 0 6 8 5 7).c.toNat % 16 < 8 ∧ 10 < (c 0 6 8 5 11).c.toNat % 16 ∧ 32 ≤ (c 0 6 8 5 40).c.toNat ∧
      (c 0 6 8 5 26).c.toNat = 16 + 10 ∧ (c 0 6 8 5 9).c.toNat = 9) ∧
    (let ok := fun (o : COps) => decide (o.b.toNat ∈ List.range' 1 16 ∧ o.c.toNat / 16 ∈ [0, 8, 9, 10, 11, 12] ∧ o.c.toNat % 16 ∈ [0, 8, 9, 10, 11, 12] ∧
        (o.x.getLsbD 2 = true → o.c.toNat / 16 = 11 ∨ o.c.toNat / 16 = 12))
     [c 0 6 8 0 0xA8, c 0 6 8 17 0xA8, c 0 6 8 16 0x18, c 4 6 8 16 0xA8, c 0 6 8 16 0xA8, c 4 6 8 1 0xBA, { c 0 6 8 1 0x8A with sa := true }].map ok =
       [false, false, false, false, true, true, true]) ∧
    ((piping 0 1).allLanes = false ∧ (piping 0 (-1)).allLanes = true ∧ (c 0 6 8 5 6).c.toNat ∉ [1, 2, 3, 4, 5, 7, 8] ∧
      (c 0 6 8 5 5).c.toNat ∈ [1, 2, 3, 4, 5, 7, 8] ∧ (∀ r < 8, ∀ l < 64, (piping 0 (-1)).gv.v (16 + r) l = 0) ∧ (piping 0 (-1)).gv.v 8 0 ≠ 0) ∧
    (let k := fun (kind e n : Nat) => ((piping (BitVec.ofNat 64 (kind * 2 ^ 62 + e * 2 ^ 51 + n)) (-1)).sreg 5).toNat
     (bits (k 0 5 (litLen 5)) 62 2 = 0 ∧ bits (k 0 5 (litLen 5)) 51 4 = 5 ∧ bits (k 0 5 (litLen 5)) 0 32 = litLen 5) ∧
     (bits (k 1 5 0) 62 2 = 1 ∧ bits (k 1 5 0) 0 32 = 0) ∧ bits (k 2 5 0) 62 2 = 2 ∧ 16 + etagRegs 5 ≤ 16 * base.grp.vblk.length ∧
     ¬ (250 + etagRegs 5 ≤ 16 * base.grp.vblk.length) ∧
     base.grp.scored (VUse.rng 16 (etagRegs 5) :: usesFrom (c 0 16 8 5) (etagRegs 5)) = false ∧ base.grp.owed [VUse.rng 16 (etagRegs 5)] = false) ∧
    (let j : PipeJob := ⟨2 ^ 32, 0, 6, 2, [(384, 1)]⟩
     let s := ({ base with blocks := [(2 ^ 32, { blk0 with groups := [(0, { grp0 with held := [(6, 2)] })] })] } : State).modCore 0 (fun x => { x with pipe := [j, j] })
     (s.core 0).pipe = j :: [j] ∧ (s.group j.blk j.grp).isSome = true) := by
  refine ⟨fun k em i => issuing_clear _ _ i rfl rfl rfl rfl, ?_⟩
  decide +kernel

/-- Matrix operands; a group among a quad whose others wait at the same instruction, or at none. -/
def mma (ty : BitVec 4) (d : BitVec 8) : XOps := ⟨0, ty, false, false, d, 8, 16, 0⟩
def meetingUp (n : Nat) (ty : BitVec 4) : State :=
  let w : Group := { grp0 with frags := [(0, { frag0 with st := .rendezvous false .numeric (mma ty 0) 1 })] }
  { issuing { grp0 with quad := 3 } frag0 with
    gkey := 3
    blk := { blk0 with quadk := true, groups := ((List.range 3).map (fun i => (i, { (if i < n then w else grp0) with quad := i }))) } }
def multiplying (jobs : List MmaJob) : State := base.modCore 0 (fun x => { x with jobs := jobs })
def partOf (d : Nat) : MmaPart := ⟨2 ^ 32, 0, 0, 0, 3, d, lanes [(0, 0, 0x01010101)], lanes [(0, 1, 0x02020202)], []⟩

theorem meetingUp_clear (n : Nat) (ty : BitVec 4) (i : Instr) : (meetingUp n ty).Clear i :=
  clear_of _ i rfl rfl rfl rfl (by simp [meetingUp, issuing, grp0, Group.reset])
theorem multiplying_clear (jobs : List MmaJob) (i : Instr) : (multiplying jobs).Clear i :=
  clear_of _ i rfl rfl rfl rfl (by simp [multiplying, State.modCore, base, issuing, grp0, Group.reset])

theorem witness_MatrixProducts :
    (∀ jobs i, (multiplying jobs).Clear i) ∧ (∀ n ty i, (meetingUp n ty).Clear i) ∧
    (mmaTypeOk .numeric (mma 5 0) = false ∧ mmaTypeOk .numeric (mma 10 0) = true ∧ mmaTypeOk .numeric (mma 0 0) = true) ∧
    (let j := fun (d : Nat) => (⟨0, .numeric, 0, [partOf d]⟩ : MmaJob)
     (multiplying [j 0]).tileBusy 0 0 = true ∧ (multiplying [j 1]).tileBusy 0 0 = false ∧ (multiplying [j 1]).arrayFree blk0 0 true = true ∧
     (multiplying [j 1]).arrayFree blk0 0 false = false ∧ (multiplying [j 1, j 2, j 3, j 1]).arrayFree blk0 0 true = false ∧
     (multiplying []).arrayFree blk0 0 false = true ∧
     ((multiplying [j 0, j 1]).core 0).jobs = j 0 :: [j 1] ∧ (j 0).parts = [partOf 0] ∧ (partOf 0).live.getLsbD 1 = true) ∧
    (base.meeting false = none ∧ base.meeting true = none) ∧
    (let l := (List.range 4).map (fun i => (2 ^ 32, i))
     let s := meetingUp 0 0
     s.meeting false = some l ∧ s.waiters l = [] ∧ s.grp.waiter = none ∧
       1 < (l.filter (fun p => !(p.1 == s.bkey && p.2 == s.gkey))).length) := by
  refine ⟨multiplying_clear, meetingUp_clear, ?_⟩
  decide +kernel

theorem witness_MatrixProducts_meeting :
    (let l := (List.range 4).map (fun i => (2 ^ 32, i))
     let s := meetingUp 3 0
     let t := s.modCore 0 (fun x => { x with jobs := [⟨0, .numeric, 0, [partOf 0]⟩] })
     let others := l.filter (fun p => !(p.1 == s.bkey && p.2 == s.gkey))
     let ws := s.waiters others
     s.meeting false = some l ∧ (s.bkey, s.gkey) ∈ l ∧ s.grp.waiter = none ∧ ws.length = others.length ∧
     (∀ w ∈ ws, w.2.2.differs false .numeric (mma 0 1) = false ∧
       (s.group w.1 w.2.1).map (fun g => (decide (g.stop = .no), g.inTrap, g.joins.length, g.pend.length)) = some (true, false, 0, 0)) ∧
     t.meeting false = some l ∧ t.grp.waiter = none ∧ t.waiters others = ws ∧
     (l.any (fun p => match t.group p.1 p.2, t.block p.1 with | some g, some x => !(t.arrayUse x.core g.quad).isEmpty | _, _ => false)) = true ∧
     (l.all (fun p => match s.group p.1 p.2, s.block p.1 with
       | some g, some x => (s.arrayUse x.core g.quad).isEmpty && (List.range 4).all (fun k => !s.tileBusy x.core (4 * g.quad + k))
       | _, _ => false)) = true ∧ (∀ w ∈ ws, w.2.2.ops.d.toNat < 4)) := by
  decide +kernel

theorem witness_Accumulators :
    (∀ jobs i, (multiplying jobs).Clear i) ∧
    (let bad := fun (l : Bool) (cb : Nat) (whole : Bool) => decide (4 < cb ∨ (cb = 4 ∧ whole = false)) || (l && decide (1 ≤ cb ∧ cb ≤ 3))
     bad false 5 true = true ∧ bad true 1 true = true ∧ bad false 4 true = false ∧ bad false 4 false = true ∧ bad false 3 false = false) ∧
    ((multiplying [⟨0, .numeric, 0, [partOf 0]⟩]).tileBusy 0 0 = true ∧ (multiplying []).tileBusy 0 0 = false) ∧
    ((0x3F800000 : Nat) / 2 ^ 31 = 0 ∧ 1 ≤ (0x3F800000 : Nat) / 2 ^ 23 ∧ (0x3F800000 : Nat) / 2 ^ 23 < 255 ∧ (0xBF800000 : Nat) / 2 ^ 31 = 1 ∧
      (0x00000001 : Nat) / 2 ^ 23 % 256 = 0 ∧ (0x7F800000 : Nat) / 2 ^ 23 % 256 = 255) ∧
    ((c 0 6 0 0 0x80).c.toNat / 16 = 8 ∧ (c 0 6 0 0 0x80).x = 0 ∧ (c 3 6 0 0 0xA0).c.toNat / 16 = 10 ∧ (c 3 6 0 0 0xA0).x.toNat < 4 ∧
      (c 0 6 0 0 0xB0).c.toNat / 16 = 11 ∧ (c 0 6 0 0 0x10).c.toNat / 16 ∉ [0, 2, 8, 9, 10, 11, 12] ∧
      (Flt.f32.decode 0x80000000).isZero = true) :=
  ⟨multiplying_clear, by decide, by decide +kernel, by decide, by decide +kernel⟩

/-- Rows of NaN, of a NaN and a number, of infinities, of zeros, of numbers; the factors and scales of the clauses. -/
theorem witness_Accumulators_rows :
    (let nan := fun (x : Nat) => (Flt.f32.decode x).isNan
     let fin := fun (x : Nat) => (Flt.f32.decode x).isFin
     nan 0x7FC00000 = true ∧ nan 0x3F800000 = false ∧ nan 0x7F800000 = false ∧ fin 0x3F800000 = true ∧ fin 0x80000000 = true ∧
     (Flt.f32.decode 0).isZero = true ∧ (Flt.f32.decode 0x3F800000).isZero = false ∧ 0xFF800000 % 2 ^ 31 = 0x7F800000 ∧
     0x3F800000 / 2 ^ 31 = 0 ∧ 1 ≤ 0x3F800000 / 2 ^ 23 ∧ 0x3F800000 / 2 ^ 23 < 255) := by decide +kernel

def layoutOps : TOps := tops 2 1 0
/-- The state after `trel t2, t1`, with a change to the job and to partition 0. -/
def relaying (w1 w2 : List W64) (f : Relayout → Relayout) (p : Part → Part) : State :=
  match exec (.trel layoutOps) (tensors w1 w2 0 0 [] frag0) with
  | .next t => (t.modCore 0 (fun x => { x with rels := x.rels.map (fun r => (r.1, f r.2)) })).modPart 0 p
  | _ => base
/-- Its job, block and group, when the engine may go on with it, meet a test, which is given the state after the source's first page
was looked up, and whether the source is a stream. -/
def relaid (s : State) (test : State → Bool → Relayout → Block → Group → Bool) : Bool :=
  match (s.core 0).rels with
  | [(job, j)] =>
    (match s.block j.blk, s.group j.blk j.grp with
     | some x, some g => j.heldBy.isNone && !j.gone && !s.behind 0 job j && !s.engineStops j x && !j.cred && !j.grow && j.slabs.isEmpty &&
         g.toks.length == 8 && decide (j.tok < 8) &&
         (match s.isStream j x (Desc.of j.src) with | (s1, .inr st) => test s1 st j x g | _ => false)
     | _, _ => false)
  | _ => false
def movedOf (s : State) (st : Bool) (j : Relayout) (x : Block) : (State × Relayout) × Option Halt :=
  match j.passes[j.pass]? with
  | some p => s.doBlock j x p ((gfInverse (Desc.of j.dst).n (j.before j.pass)).getD []) (!j.inplace && j.pass == 0) st
  | none => ((s, j), none)
def blocksOf (j : Relayout) : Nat := match j.passes[j.pass]? with | some p => j.blocks p | none => 0

/-- What is asked of the operands of `trel t2, t1` and of `tlay t2, t1`: fit, and something to move. -/
def fitCopy (w1 w2 : List W64) : Bool :=
  !imgNull w2 && (Desc.of w2).state != 3 && (memberArg blk0 (Desc.of w2) none).isSome && !imgNull w1 && (Desc.of w1).state != 3 &&
  (Desc.of w1).ndim == (Desc.of w2).ndim && (Desc.of w1).dims.map (·.2) == (Desc.of w2).dims.map (·.2)
def fitPlace (w1 w2 : List W64) : Bool :=
  !imgNull w2 && (Desc.of w2).state != 3 && (memberArg blk0 (Desc.of w2) none).isSome && (Desc.of w1).n == (Desc.of w2).n &&
  imgOk (w2.take 16 ++ w1.drop 16)

theorem witness_Relayouts :
    (∀ w1 w2 a b m f i, (tensors w1 w2 a b m f).Clear i) ∧
    (let w1 := tiny 4 false 0x100
     let w2 := tiny 4 true 0x200
     fitCopy w1 w2 = true ∧ fitCopy (tiny 4 false 0x100) (List.replicate 64 0) = false ∧ fitPlace w1 w2 = true ∧
     ((0x3F800000 : W32).getLsbD 31 = false ∧ (0x3F800000 : W32).extractLsb' 23 8 ≠ 0 ∧ (0x3F800000 : W32).extractLsb' 23 8 ≠ 255) ∧
     (tensors w1 (setNth w2 3 (progWord 2 0 1 0 0)) 0 0 [] frag0).grp.inFlightT 2 = true ∧
     (tensors w1 w2 0 0 [] frag0).grp.inFlightT 2 = false ∧ (tensors w1 w2 0 0 [] frag0).gv.toks.length = 8 ∧
     passesOf (Desc.of w2) (Desc.of w2).rows (Desc.of w1).rows false ≠ [] ∧ passesOf (Desc.of w2) (Desc.of w2).rows (Desc.of w2).rows false = [] ∧
     passesOf (Desc.of w2) (Desc.of w1).rows (Desc.of w2).rows true ≠ [] ∧ (Desc.of w2).kind ≠ 4 ∧
     ((copying 0x100 255).grp.tok 1).count = 255 ∧
     (let s := mk (tensors w1 w2 0 0 [] frag0)
      (match s.slabSides (s.newJob layoutOps false 0 0x3F800000 w1 w2 (Desc.of w1).rows (passesOf (Desc.of w2) (Desc.of w1).rows (Desc.of w2).rows true)) with
      | (_, some j) => j.slabs.isEmpty | _ => false) = true) ∧
     (let v2 := ofKind 4 (tiny 4 true 0)
      let sides := fun (m : Memory) =>
        (let s := mk (tensors w1 v2 0 0 m frag0)
         (s.slabSides (s.newJob layoutOps false 0 0x3F800000 w1 v2 (Desc.of w1).rows
           (passesOf (Desc.of v2) (Desc.of w1).rows (Desc.of v2).rows true))).2.map (fun j => (j.slabs, j.fail)))
      fitCopy w1 v2 = true ∧ passesOf (Desc.of v2) (Desc.of w1).rows (Desc.of v2).rows true ≠ [] ∧
        sides [⟨1, 0xF2⟩, ⟨2, 0xFF⟩, ⟨3, 0xFF⟩] = none ∧ sides [⟨1, 2⟩] = some ([0], 0))) := by
  refine ⟨tensors_clear, ?_⟩
  decide +kernel

theorem witness_Relayouts_engine :
    (let w1 := tiny 4 false 0x100
     let w2 := tiny 4 true 0x200
     let r := fun (f : Relayout → Relayout) (p : Part → Part) => relaying w1 w2 f p
     let same := fun (j : Relayout) (u : State × Relayout) (g : Group) => match u.1.group j.blk j.grp with | some h => decide (h.toks = g.toks) | none => false
     relaid (r id id) (fun s st j x _ => !j.started && !(r id id).startWaits j x && (match s.relayoutStart j x st with | (_, .inr 0) => true | _ => false)) = true ∧
     relaid (relaying w1 (tiny 4 true 0x100) id id) (fun s st j x g => !j.started && !s.startWaits j x &&
       (match s.relayoutStart j x st with | (u, .inr (_ + 1)) => same j u g | _ => false)) = true ∧
     relaid (r (fun j => { j with started := true }) id) (fun s st j x _ => j.started && j.cursor + 1 != blocksOf j && (movedOf s st j x).2.isNone) = true ∧
     relaid (r (fun j => { j with started := true, cursor := blocksOf j - 1 }) id) (fun s st j x g => j.cursor + 1 == blocksOf j &&
       j.pass + 1 == j.passes.length && (match movedOf s st j x with | (u, none) => same j u g | _ => false)) = true ∧
     relaid (r (fun j => { j with started := true }) (fun y => { y with tlb := [{ tlb0 with leaf := 0x183 }] })) (fun s st j x g =>
       match movedOf s st j x with | (u, some (.stop (_ + 1))) => same j u g | _ => false) = true ∧
     relaid (relaying w1 (tiny 4 true 0x10000) (fun j => { j with started := true }) id) (fun s st j x _ =>
       match movedOf s st j x with | (_, some (.miss _ _)) => true | _ => false) = true ∧
     relaid (relaying w1 (tiny 4 true 0x10000) (fun j => { j with inplace := true }) id) (fun s st j x _ => !j.started && !s.startWaits j x &&
       match s.relayoutStart j x st with | (_, .inl (.miss _ _)) => true | _ => false) = true) := by decide +kernel

theorem witness_Relayouts_waits :
    (let s := (relaying (tiny 4 false 0x100) (ofKind 2 (tiny 4 true (2 ^ 30))) id id).modCore 0 (fun x => { x with jobs := [⟨0, .numeric, 0, [partOf 0]⟩] })
     relaid s (fun _ _ j x _ => !j.started && s.startWaits j x)) = true := by decide +kernel

def kops (d a b c : BitVec 8) : KOps := ⟨0, 1, d, a, b, c⟩
/-- A mask program of one rule, in a slot of four; s4 and s5 are given. -/
def maskProg (ctl : Nat) : List W64 := [1, 0, BitVec.ofNat 64 ctl, BitVec.ofNat 64 (2 ^ 32 * 5)]
def masking (a b : W64) (slot : Option MaskSlot) (words : List W64) (w1 : List W64) : State :=
  { issuing ((regs [(4, a), (5, b)]).setTimg 1 w1) frag0 with
    blk := { blk0 with masks := [none, slot, none, none] }
    mem := Memory.write [] 0x4000 (wordsLe words) }
theorem masking_clear (a b : W64) (sl : Option MaskSlot) (ws w1 : List W64) (i : Instr) : (masking a b sl ws w1).Clear i :=
  clear_of _ i rfl rfl rfl rfl (by simp [masking, issuing, regs, grp0, Group.reset, Group.setTimg])

theorem witness_MaskUnitAndSignatures :
    (∀ a b sl ws w1 i, (masking a b sl ws w1).Clear i) ∧ (∀ i, base.Clear i) ∧
    (1 < (kops 5 4 5 2).c.toNat ∧ (kops 5 4 5 1).c.toNat ≤ 1 ∧ 2 < (kops 5 4 5 3).c.toNat ∧ (kops 5 4 5 2).c.toNat ≤ 2 ∧
      (masking 0 0 none [] []).bv.masks.length = 4 ∧ (masking 0 0 none [] []).nearResults = []) ∧
    (let half := fun (x : W64) (j : Nat) => (x.extractLsb' (32 * j) 32).toNat
     half 0x100000002 1 < half 0x100000002 0 ∧ half 0x200000001 0 ≤ half 0x200000001 1) ∧
    (let m : MaskSlot := ⟨wordsLe (maskProg 0), 100, 100, []⟩
     let s := masking 0x200000001 0x500000003 (some m) [] []
     s.bv.masks.getD 1 none = some m ∧ (masking 0 0 none [] []).bv.masks.getD 1 none = none ∧
     (match s.mark.maskDocsOf m (posRange 1 2) (posRange 3 5) with | (_, .ok _) => true | _ => false) = true ∧
     (match s.mark.maskDocsOf m ((lanesOf s.mark.live).map (1 + ·)) ((List.range 64).map (3 + ·)) with | (_, .ok _) => true | _ => false) = true ∧
     accCols s.blk.lcore true 0 = some (List.range 64) ∧ s.tileBusy 0 0 = false) ∧
    (let s := fun (ctl : Nat) => masking 0x4000 0x500000003 none (maskProg ctl) (tiny 4 false 0x100)
     let words := fun (ctl : Nat) (f : List Byte → Bool) => (match (s ctl).mark.maskWords 0x4000 with | (_, .ok ws) => f (wordsLe ws) | _ => false)
     words 0 (fun p => (maskBad p).isNone && !maskDocs p) = true ∧ words 0x40 (fun p => (maskBad p).isNone && maskDocs p) = true ∧
     words 0xC0 (fun p => maskBad p == some 2) = true ∧ docOk ((s 0).grp.timg 1) 3 5 = true ∧ docOk ((s 0).grp.timg 1) 3 15 = false ∧
     (s 0).grp.inFlightT 1 = false ∧ 0x4008 % 16 ≠ 0) ∧
    (accCols base.blk.lcore false 0 ≠ none ∧ accCols base.blk.lcore false 5 = none ∧ base.tileBusy 0 0 = false ∧ 64 < (65 : BitVec 8).toNat ∧
      (issuing grp0 { frag0 with em := 0 }).frag.em &&& ~~~grp0.fmask = 0 ∧ base.frag.em &&& ~~~base.grp.fmask ≠ 0) := by
  refine ⟨masking_clear, base_clear, ?_⟩
  decide +kernel

/-! ### Privileged instructions -/

def ctx5 (st : CtxSt) : Ctx := ⟨st, [0x200001, 0, 0, 0, 0, 0, 0, 0], 0, 7, [], [], false, false, none⟩
/-- Context 5 beside context 1, with changes; s4 holds a CTXID and s5 an address; page 0 of context 0 is mapped; the token counts. -/
def ruling (cid a : W64) (n : Nat) (x : Option Ctx) (p : Part → Part) : State :=
  { issuing { regs [(4, cid), (5, a)] with plevel := 1, toks := setNth grp0.toks 1 ⟨n, 0, 0⟩ } frag0 with
    mem := Memory.write [] 320 (leBytes 0x200001 8)
    parts := [p { part0 with tlb := [tlb0, { tlb0 with who := 63, ctx := 0 }], ctxs := match x with
      | some y => [(1, ⟨.running, [0x100001, 0, 0, 0, 0, 0, 0, 0], 0, 0, [], [], false, false, none⟩), (5, y)]
      | none => part0.ctxs }, .reset, .reset, .reset] }
theorem waits_zero (g : Group) : g.waits 0 = false ∧ g.badTok 0 = none := by
  have h : maskToks 0#8 = [] := by decide
  constructor <;> simp [Group.waits, Group.badTok, h]
theorem ruling_clear (cid a : W64) (n : Nat) (x : Option Ctx) (p : Part → Part) (o : COps) (h : o.wait = 0) :
    (ruling cid a n x p).Clear (.ctxhalt o) ∧ (ruling cid a n x p).Clear (.ctxsave o) ∧ (ruling cid a n x p).Clear (.ctxload o) ∧
    (ruling cid a n x p).Clear (.ctxrun o) ∧ (ruling cid a n x p).Clear (.ctxkill o) := by
  have hw : ∀ i : Instr, i.waitBits = 0 → (ruling cid a n x p).grp.waits i.waitBits = false ∧ (ruling cid a n x p).grp.badTok i.waitBits = none :=
    fun i hi => hi ▸ waits_zero _
  exact ⟨⟨rfl, (hw (.ctxhalt o) h).1, (hw (.ctxhalt o) h).2, rfl, rfl, rfl⟩, ⟨rfl, (hw (.ctxsave o) h).1, (hw (.ctxsave o) h).2, rfl, rfl, rfl⟩, ⟨rfl, (hw (.ctxload o) h).1, (hw (.ctxload o) h).2, rfl, rfl, rfl⟩, ⟨rfl, (hw (.ctxrun o) h).1, (hw (.ctxrun o) h).2, rfl, rfl, rfl⟩, ⟨rfl, (hw (.ctxkill o) h).1, (hw (.ctxkill o) h).2, rfl, rfl, rfl⟩⟩

theorem witness_ContextControl :
    (∀ cid a n x p, (ruling cid a n x p).Clear (.ctxhalt (c 0 0 4 5 1)) ∧ (ruling cid a n x p).Clear (.ctxsave (c 0 0 4 5 1)) ∧
      (ruling cid a n x p).Clear (.ctxload (c 0 0 4 5 1)) ∧ (ruling cid a n x p).Clear (.ctxrun (c 0 0 4 5 1)) ∧
      (ruling cid a n x p).Clear (.ctxkill (c 0 0 4 5 1)) ∧ (ruling cid a n x p).grp.toks.length = 8) ∧
    (let s := ruling 5 0x400 0 (some (ctx5 .running)) id
     s.Quiet ∧ s.blk.part < s.parts.length ∧ (0 < (s.sreg 4).toNat ∧ (s.sreg 4).toNat < 2 ^ 16) ∧ ¬ (0 < ((ruling 0 0 0 none id).sreg 4).toNat) ∧
     (s.gv.tok 1).count < 255 ∧ 255 ≤ ((ruling 5 0 255 none id).gv.tok 1).count ∧ (0x400 : W64).toNat % 64 = 0 ∧ (0x420 : W64).toNat % 64 ≠ 0) ∧
    (∀ st, (ruling 5 0x400 0 (some (ctx5 st)) id).ctx 0 5 = some (ctx5 st)) ∧ (ctx5 .halted).save = [] ∧ (ctx5 .halted).loaded = false ∧
    (let s := ruling 5 0x400 0 none id
     s.ctx 0 5 = none ∧ (s.part 0).pstate = 2 ∧ (∀ l ∈ (s.part 0).loads, l.ctx ≠ 5)) ∧
    (ruling 5 0x400 0 (some (ctx5 .halted)) id).ctxGrids 0 5 = [] ∧
    (let s := ruling 5 0x400 0 (some (ctx5 .halted)) id
     s.runReads 0 5 = none ∧ { s with poison := [10] }.runReads 0 5 = some 320) ∧
    ((ruling 5 0 0 none (fun p => { p with loads := [⟨5, 0x400, ⟨2 ^ 32, 0, 1⟩⟩] })).part 0).loads.any (fun l => l.ctx == 5) = true := by
  refine ⟨fun cid a n x p => ⟨(ruling_clear cid a n x p _ rfl).1, (ruling_clear cid a n x p _ rfl).2.1, (ruling_clear cid a n x p _ rfl).2.2.1,
    (ruling_clear cid a n x p _ rfl).2.2.2.1, (ruling_clear cid a n x p _ rfl).2.2.2.2, by simp [ruling, issuing, setNth, regs, grp0, Group.reset]⟩, ⟨quiet_of _ (by decide +kernel) (by decide +kernel) (by decide +kernel), by decide +kernel⟩, ?_⟩
  refine ⟨fun st => by cases st <;> decide +kernel, ?_⟩
  decide +kernel

/-- A context being halted, saved or loaded for token 1 of group 0. -/
def within (x : Option Ctx) (p : Part → Part) : State :=
  let s := ruling 0 0 1 x p
  { s with iss := false, blocks := [(2 ^ 32, { blk0 with groups := [(0, s.grp)] })] }
def ref1 : TokRef := ⟨2 ^ 32, 0, 1⟩
/-- The image of context 5 with nothing in it, as R404 and R407 lay it out: a header, and records of types 6, 7 and 8. -/
def imageWords : List W64 :=
  [3299982527815, 0, 1407374883553280, 13680358706, 320, 9144734142134304512, 575325517271860319, 7] ++
  [549755879174, 0, 0, 0, 0, 0, 0, 0, 2097153, 0, 0, 0, 0, 0, 0, 0, 274877972231, 0, 0, 0, 0, 0, 0, 0, 274877972232, 0, 0, 0, 0, 0, 0, 0]
/-- That image at 0x4000, context 5 not there, its load under way. -/
def reloading : State :=
  let s := within none (fun y => { y with loads := [⟨5, 0x4000, ref1⟩] })
  { s with mem := s.mem ++ (wordsLe imageWords).zipIdx.filterMap (fun p => if p.1 = 0 then none else some ⟨0x4000 + p.2, p.1⟩) }
def reloaded (s : State) (test : State → Nat ⊕ (List W64 × List ImgRec) → Bool) : Bool :=
  let s1 := s.modPart 0 (fun y => { y with loads := y.loads.erase ⟨5, 0x4000, ref1⟩ })
  match s1.readImage 0 0x4000 with | (u, r) => test u r

theorem witness_ContextControl_halt :
    (let s := within (some { ctx5 .halting with halt := [ref1] }) id
     s.ctx 0 5 = some { ctx5 .halting with halt := [ref1] } ∧ s.ctxBusy 0 5 = false ∧ (s.group (2 ^ 32) 0).map (fun g => g.toks.length) = some 8 ∧
     (s.flushCtx 0 5).2 = true) ∧
    (let gone := [sent (.mem 5) [⟨0x20000, 0x20000, 1⟩] 3]
     let s := within (some { ctx5 .halting with halt := [ref1] }) id
     let t := { s with
       grids := [(1, grid0), (5, { grid0 with ctx := 5 })]
       blocks := s.blocks ++ [(5 * 2 ^ 32, { blk0 with grid := 5, rest := gone })] }
     t.ctxBusy 0 5 = false ∧ (t.flushCtx 0 5).2 = false) := by
  decide +kernel

theorem mapped_zero (s : State) (h : (s.part 0).tlb = [tlb0, { tlb0 with who := 63, ctx := 0 }]) (a n : Nat) (ha : a + n ≤ 65536) : s.Mapped 0 63 0 a a n := by
  intro i hi
  have hit : (s.part 0).tlbHit 63 0 (a + i) = some { tlb0 with who := 63, ctx := 0 } := by
    rw [Part.tlbHit, h]
    have hz : (a + i) >>> lvlShift 0 = 0 := by
      rw [Nat.shiftRight_eq_div_pow]
      exact Nat.div_eq_of_lt (by simp [lvlShift]; omega)
    simp [tlb0, hz]
  have key : s.leafKeyOf 0 { tlb0 with who := 63, ctx := 0 } (a + i) = a + i := by
    have : bits (0x19F : W64).toNat 16 36 = 0 ∧ bits (0x19F : W64).toNat 5 2 = 0 := by decide
    simp only [State.leafKeyOf, tlb0, this.1, this.2, lvlShift, hbmKey]
    norm_num
    omega
  have leaf : bitAt tlb0.leaf.toNat 3 = true ∧ bits tlb0.leaf.toNat 5 2 = 0 := by decide
  refine ⟨{ tlb0 with who := 63, ctx := 0 }, 0, hit, by decide, ?_⟩
  simp only [State.xlate, State.leafOf, hit, leaf.1, leaf.2, key]
  rfl

def saving : State := within (some { ctx5 .halted with save := [(0x4000, ref1)] }) id

theorem witness_ContextControl_save :
    saving.entryBad 0 5 = false ∧ { saving with poison := [10] }.entryBad 0 5 = true ∧ saving.iss = false ∧ (saving.ctx 0 5).map (·.save) = some [(0x4000, ref1)] ∧
    (saving.group ref1.blk ref1.grp).map (fun g => g.toks.length) = some 8 ∧
    (saving.image 0 5).length = 320 ∧
    (∀ i < 320, got (saving.xlate 0 63 0 (0x4000 + i) .store).2 (fun u => u.key == 0x4000 + i) = true ∧ (saving.xlate 0 63 0 (0x4000 + i) .store).1 = saving) := by
  decide +kernel
theorem witness_ContextControl_save_mapped : saving.Mapped 0 63 0 0x4000 0x4000 320 := mapped_zero saving rfl _ _ (by omega)

theorem witness_ContextControl_refused_load :
    (let s := within none (fun y => { y with loads := [⟨5, 0x4000, ref1⟩] })
     s.entryBad 0 5 = false ∧ { s with poison := [10] }.entryBad 0 5 = true ∧ s.iss = false ∧ (s.part 0).loads.find? (fun l => l.ctx == 5) = some ⟨5, 0x4000, ref1⟩ ∧ (s.group ref1.blk ref1.grp).map (fun g => g.toks.length) = some 8 ∧
     reloaded s (fun _ r => match r with | .inl (_ + 1) => true | _ => false) = true) ∧
    ((within none (fun y => { y with loads := [⟨5, 0x4000, ref1⟩] })).part 0).pstate = 2 ∧
    ((within none (fun y => { y with pstate := 1, loads := [⟨5, 0x4000, ref1⟩] })).part 0).pstate ≠ 2 := by decide +kernel

set_option maxRecDepth 1000000 in
/-- The image is read; it is placed, but not where the context's table entry has gone. -/
theorem witness_ContextControl_placed_load :
    reloaded reloading (fun u r => match r with
      | .inr (h, rs) =>
        (match u.placeImage 0 5 h rs with | .inl v => v.group ref1.blk ref1.grp == reloading.group ref1.blk ref1.grp | .inr _ => false) &&
        (match ({ u with mem := Memory.write u.mem 320 (leBytes 0 8) } : State).placeImage 0 5 h rs with | .inr (_ + 1) => true | _ => false)
      | _ => false) = true := by decide +kernel

theorem withPart_quiet (f : Part → Part) : (withPart f).Quiet := quiet_of _ (by rfl) (by rfl) (by rfl)

/-- A CTXID and an address in s4 and s5. -/
def naming (a b : W64) (f : State → State) : State := f (issuing { regs [(4, a), (5, b)] with plevel := 1 } frag0)

theorem witness_TranslationInvalidation :
    (let s := naming 1 0 id
     s.Quiet ∧ s.Clear (.tlbinv (c 0 0 4 5)) ∧ s.Clear (.tlbinvAll (c 0 0 4 0)) ∧ s.blk.part < s.parts.length ∧ (s.sreg 4).toNat < 2 ^ 16 ∧ (s.ctx 0 1).isSome = true ∧
     (s.part 0).tlb.any (fun e => decide (e.ctx = 1 ∧ e.at_ = 0 >>> lvlShift e.level)) = true) ∧
    (naming 1 0 id).ctxServing 0 1 = false ∧ (naming 1 0 id).entryBad 0 1 = false ∧ (naming 1 0 (fun s => { s with poison := [2] })).entryBad 0 1 = true ∧
    (naming 1 0 (fun s => { s with blocks := [(2 ^ 32 + 1, { blk0 with groups := [(0, serving.grp)] })] })).ctxServing 0 1 = true ∧
    2 ^ 16 ≤ ((naming 0x10000 0 id).sreg 4).toNat :=
  ⟨⟨quiet_of _ (by decide +kernel) (by decide +kernel) (by decide +kernel), clear_of _ _ rfl rfl rfl rfl (by decide +kernel), clear_of _ _ rfl rfl rfl rfl (by decide +kernel),
    by decide +kernel⟩, by decide +kernel⟩

/-- An outstanding record of a class, with SEQ 7, that stopped group 1. -/
def outst (cls ctx : Nat) (grid : Option Nat) : Outst := ⟨3, cls, ctx, none, grid, 2 ^ 32, 1, 0, none, false, some 7⟩
def resolving (seq act : W64) (r : Outst) (st : CtxSt) : State :=
  naming seq act (fun s => { s with
    parts := [{ part0 with outs := [r], ctxs := part0.ctxs ++ [(5, ctx5 st)] }, .reset, .reset, .reset]
    blk := { blk0 with groups := [(1, { grp0 with stop := .fault 3 })] }
    grids := [(1, grid0), (2, { grid0 with parent := 9 })] })

theorem witness_FaultResolution :
    (∀ seq act r st i, (resolving seq act r st).Clear i) ∧
    (let find := fun (s : State) => (s.part 0).outs.find? (fun r => r.seq == some ((s.sreg 4).toNat % 2 ^ 16))
     let s := fun (seq act : W64) => resolving seq act (outst 4 5 (some 2)) .halted
     (s 7 0).Quiet ∧ (s 7 0).blk.part < (s 7 0).parts.length ∧ find (s 7 0) = some (outst 4 5 (some 2)) ∧ find (s 8 0) = none ∧
     ((s 7 0).sreg 5).toNat = 0 ∧ ((s 7 1).sreg 5).toNat = 1 ∧ ((s 7 2).sreg 5).toNat = 2 ∧ ((s 7 3).sreg 5).toNat ≠ 0 ∧
     (∀ q ∈ (s 7 0).grids, q.2.todo = []) ∧ ((outst 4 5 (some 2)).cls ≠ 8 ∧ (outst 4 5 (some 2)).cls ≠ 9 ∧ (outst 4 5 (some 2)).cls ≠ 11) ∧
     (s 7 0).group (2 ^ 32) 1 ≠ none ∧ ((s 7 0).grids.find 2).isSome = true ∧ gridPart 2 = 0 ∧ (outst 4 5 (some 2)).sched = false ∧
     (∀ q ∈ (s 7 1).grids, ({ grid0 with parent := 9 } : Grid).parentOf 2 q.1 q.2 = false) ∧
     ((s 7 1).part 0).devq = [] ∧ (s 7 2).ctx 0 5 = some (ctx5 .halted) ∧ (ctx5 .halted).st ≠ .ended ∧ (s 7 2).ctxGrids 0 5 = [] ∧
     (ctx5 .halted).halt = [] ∧ (ctx5 .halted).save = []) := by
  refine ⟨fun seq act r st i => clear_of _ i rfl rfl rfl rfl (by simp [resolving, naming, issuing, regs, grp0, Group.reset]),
    quiet_of _ (by decide +kernel) (by decide +kernel) (by decide +kernel), ?_⟩
  decide +kernel

/-- The configuration record of a module with every D-core of die 0, and one partition. -/
def record0 : List W64 := packWords 8 [(2 ^ 34 - 1, 248)]
def reaching (a b : W64) : State := naming a b (fun s => { s with
  husk := { s.husk with record := record0 }
  blocks := [(blockKey (gridKey 0 1) 7, { blk0 with blkid := 7, groups := [(0, { grp0 with frags := [(0, frag0)] })] })] })
theorem reaching_clear (a b : W64) (i : Instr) : (reaching a b).Clear i := clear_of _ i rfl rfl rfl rfl (by simp [reaching, naming, issuing, regs, grp0, Group.reset])

theorem witness_PrivilegedAccess :
    (∀ a b i, (reaching a b).Clear i) ∧
    (let s := reaching 0x100 0
     2 ^ 13 ≤ (0x2000 : W64).toNat ∧ (0x1FFF : W64).toNat < 2 ^ 13 ∧ (0x104 : W64).toNat % 8 ≠ 0 ∧
     (2 ^ 52 ≤ (0x7FFFFFFFFFFFFFF8 : W64).toNat ∧ (0x7FFFFFFFFFFFFFF8 : W64).toNat < 2 ^ 63) ∧
     ((0xFFFFFFFFFFFF8 : W64).toNat < 2 ^ 52 ∧ s.hbmBytes 0 < (0xFFFFFFFFFFFF8 : W64).toNat + 8) ∧
     ((0x100 : W64).toNat % 8 = 0 ∧ (0x100 : W64).toNat + 8 ≤ s.hbmBytes 0 ∧ s.poisonedFor (s.viewOf s.bkey s.gv) (hbmKey 0 0x100) 8 = false) ∧
     s.physOf 0 0x8000000140000008 = some (.core 1 1 8) ∧ s.physOf 0 0x8000000000000008 = some (.core 0 0 8) ∧ (s.windowAt 0 8).isSome = true ∧ 2 ^ 11 ≤ (0x800 : W64).toNat ∧ (0x7FF : W64).toNat < 2 ^ 11 ∧ s.Quiet) ∧
    (let s := reaching 0x100000007 0
     let bk := blockKey (gridKey 0 ((s.sreg 4).toNat / 2 ^ 32)) ((s.sreg 4).toNat % 2 ^ 32)
     s.Quiet ∧ bk ≠ s.bkey ∧ (s.block bk).map (fun x => (x.retired, x.groups.all (fun g => g.2.frags.all (fun f => decide (f.2.st = .run))))) = some (false, true)) ∧
    (base.grp.plevel = 0 ∧ (base.part 0).decClass base.blk.lcore (bits (0xF1 : W64).toNat 0 8 * 16 + bits (0xF1 : W64).toNat 8 4) = 3) := by
  refine ⟨reaching_clear, ?_, ?_, by decide +kernel⟩
  · refine ⟨?_, ?_, ?_, ?_, ?_, ?_, ?_, ?_, ?_, ?_, ?_, quiet_of _ (by decide +kernel) (by decide +kernel) (by decide +kernel)⟩ <;> decide +kernel
  · exact ⟨quiet_of _ (by decide +kernel) (by decide +kernel) (by decide +kernel), by decide +kernel⟩

/-- Whatever the host bus answers, one of the two clauses on a host aperture applies. -/
theorem witness_PrivilegedAccess_host (q a : Nat) : Config.hostBus q a = none ∨ ∃ b, Config.hostBus q a = some b := by
  cases Config.hostBus q a <;> simp

/-! ### Scheduling -/

/-- No fragment issues: the blocks and grids of the scheduler, all D-cores of die 0. -/
def scheduling (bs : KL Block) (gs : KL Grid) : State :=
  { State.reset with blocks := bs, grids := gs, parts := [part0, .reset, .reset, .reset], husk := { Husk.reset with record := record0, step := 6 } }
/-- A grid of two blocks of one group each, none started: N0 1, NMAX 4, 16 registers, cluster 1; it may migrate. -/
def grid2 : Grid :=
  { grid0 with packet := [0x200000011, 0x100, 0, 0, 0, 0, 0, 0], nblk := 2, next := 0, kd := packWords 8 [(1, 5), (1, 6), (4, 14), (1, 21), (1, 28), (1, 36)] }

theorem witness_DispatchAndCompletion :
    (let s := scheduling [] [(1, grid2)]
     s.iss = false ∧ s.ranked 0 = [(1, grid2)] ∧ grid2.ragged = none ∧ grid2.pk 9 1 = 0 ∧ grid2.again = [] ∧ grid2.nextIds = [0] ∧
     (s.placeNext 1 grid2).isSome = true) ∧
    (let g := { grid2 with kd := packWords 8 [(1, 5), (4, 14), (1, 21), (1, 28), (1, 36), (0xFFFF, 192)] }
     (scheduling [] [(1, g)]).ranked 0 = [(1, g)] ∧ (scheduling [] [(1, g)]).placeNext 1 g = none) ∧
    (let g := { grid2 with next := 2, retired := 2 }
     let s := scheduling [] [(1, g)]
     s.ctxIs 0 g.ctx .halted = false ∧ s.gridDone 1 = true ∧ g.todo = [] ∧ g.rest = [] ∧ g.recAddr = 0 ∧ g.pk 192 64 = 0 ∧
     (scheduling [] [(1, grid2)]).gridDone 1 = false) ∧
    (let g := { grid2 with ragged := some 0x4000, list := some [⟨0x100, 70⟩, ⟨0x200, 5⟩], next := 1, nblk := 3 }
     let s := scheduling [] [(1, g)]
     s.ranked 0 = [(1, g)] ∧ g.list ≠ none ∧ (s.placeNext 1 g).isSome = true ∧ g.nextIds = [1] ∧ g.pk 8 1 = 0 ∧
     s.blocks.find (blockKey 1 1) = none ∧ [(⟨0x100, 70⟩ : Ragged), ⟨0x200, 5⟩][0]? = some ⟨0x100, 70⟩ ∧ 1 < cdiv 70 64) := by decide +kernel

/-- The code object of context 1 whose one migration point is at 0x3000 in the D-core text. -/
def image1 : Image := ⟨0, 1, 0, 0x1000, 0x2000, 0x6000, [⟨0x1000, 0x1000, [(0, 1, 1)]⟩]⟩
def pointing (b : Block) (f : Fragment) (more : KL Fragment) : State :=
  { issuing { grp0 with frags := more } f with blk := b, grids := [(1, grid2)], images := [image1] }
/-- One group whose one fragment is in the state given, in block 0 of grid 1. -/
def standing (st : FragSt) (x : Block) : State :=
  { scheduling [(2 ^ 32, { x with groups := [(0, { grp0 with frags := [(0, { frag0 with st := st, partner := some (0x1000, 0x1000) })], vblk := [0] })] })] [(1, grid2)] with
    images := [image1] }

theorem witness_MigrationAndGuards :
    (∀ b f i, (pointing b f []).Clear i) ∧ (∀ b f i, (pointing b f [(1, { frag0 with em := 1 })]).Clear i) ∧
    (let s := pointing { blk0 with mig := .set } frag0 []
     s.pointHere.isSome = true ∧ s.grp.inTrap = false ∧ s.frag.moved = false ∧ s.blk.mig ≠ .none ∧ s.grp.frags = [] ∧ s.migratable s.bkey s.blk = true ∧
     (pointing blk0 { frag0 with moved := true } []).frag.moved = true ∧ (pointing blk0 frag0 []).blk.mig = .none ∧
     (pointing blk0 frag0 [(1, { frag0 with em := 1 })]).grp.frags ≠ [] ∧
     (let t := pointing { blk0 with clusize := 2 } frag0 []
      t.migratable t.bkey t.blk = false)) ∧
    (let s := standing (.mig false) { blk0 with mig := .set }
     let x := { blk0 with mig := .set, groups := [(0, { grp0 with frags := [(0, { frag0 with st := .mig false, partner := some (0x1000, 0x1000) })], vblk := [0] })] }
     s.iss = false ∧ s.blocks.find (2 ^ 32) = some x ∧ s.Quiet ∧ x.groups ≠ [] ∧ (∀ g ∈ x.groups, g.2.atMig = true ∧ g.2.stop = .no) ∧
     s.blockBusy (2 ^ 32) = false ∧ s.ctxIs 0 (s.ctxOf x) .running = true ∧ (s.targets x).find? (fun c => s.fitsOther x x.groups c) = some 34 ∧
     s.imageOf x = some image1 ∧
     (let y := { x with winsize := 2 ^ 30 }
      (s.targets y).find? (fun c => s.fitsOther y y.groups c) = none ∧ y.mig ≠ .none ∧
      (x.groups.map (·.1)).Nodup ∧ (∀ g ∈ x.groups, g.2.joins = [] ∧ g.2.pend = [] ∧ g.2.frags.length = 1))) ∧
    (let gs : KL Group := [(0, { grp0 with frags := [(0, { frag0 with st := .mig false })] }), (1, { grp0 with frags := [(0, { frag0 with st := .sleep 5 })] })]
     (∀ g ∈ gs, g.2.frags ≠ [] ∧ (g.2.atMig = true ∨ ∀ f ∈ g.2.frags, f.2.waitsElse = true)) ∧ (∃ g ∈ gs, g.2.atMig = true) ∧
     (∃ g ∈ gs, ∀ f ∈ g.2.frags, f.2.waitsElse = true)) ∧
    (let g := { grid2 with queue := some 1, next := 2 }
     let s := { standing .run { blk0 with mig := .none } with grids := [(1, g)], mem := Memory.write [] (64 + 48) [3] }
     s.queueBad 0 1 = false ∧ g.queue = some 1 ∧ (s.queEnt 0 1).tailn = 3 ∧ g.kdRead = true ∧ g.pk 8 1 = 0 ∧ g.kdb 6 1 = 1 ∧ g.next = g.nblk ∧ g.again = [] ∧
     (s.blocks.filter (fun b => b.2.grid == 1 && !b.2.retired)).length ≤ 3 ∧ (s.blocks.map (fun b => s.migratable b.1 b.2)) = [true]) ∧
    ((standing .run blk0).group (2 ^ 32) 0 ≠ none ∧ (64 : Nat) ≤ 64) ∧
    (let s := (standing .run { blk0 with lastIss := 5 }).modPart 0 (fun p => { p with wdog := 1 })
     (s.part 0).wdog ≠ 0 ∧ (s.blocks.map (fun b => s.wdogExempt b.1 b.2)) = [false] ∧ s.time < 5 + (s.part 0).wdog.toNat * 1000000) := by
  refine ⟨fun b f i => clear_of _ i rfl rfl rfl rfl (by simp [pointing, issuing, grp0, Group.reset]), fun b f i => clear_of _ i rfl rfl rfl rfl ?_, ?_, ?_, ?_⟩
  · simp only [pointing, issuing, List.mem_singleton, forall_eq]; rfl
  · decide +kernel
  · refine ⟨by decide +kernel, by decide +kernel, quiet_of _ (by decide +kernel) (by decide +kernel) (by decide +kernel), ?_⟩
    decide +kernel
  · decide +kernel

/-- A block whose `mig.req` finds no core. -/
theorem witness_MigrationAndGuards_none :
    (let x := { blk0 with mig := .none, winsize := 2 ^ 30, groups := [(0, { grp0 with frags := [(0, { frag0 with st := .mig true, partner := some (0x1000, 0x1000) })], vblk := [0] })] }
     let s := standing (.mig true) { blk0 with mig := .none, winsize := 2 ^ 30 }
     s.blocks.find (2 ^ 32) = some x ∧ (s.targets x).find? (fun c => s.fitsOther x x.groups c) = none ∧ s.blockBusy (2 ^ 32) = false ∧
     (∀ g ∈ x.groups, g.2.atMig = true ∧ g.2.stop = .no)) ∧
    (let s := { (standing .run { blk0 with lastIss := 5 }).modPart 0 (fun p => { p with wdog := 1 }) with time := 1000005 }
     5 + (s.part 0).wdog.toNat * 1000000 ≤ s.time) := by decide +kernel

theorem witness_StorageErrors :
    (let s := scheduling [(2 ^ 32, blk0)] [(1, grid2)]
     s.iss = false ∧ s.blocks.find (2 ^ 32) = some blk0 ∧ s.grids.find blk0.grid = some grid2 ∧ grid2.kdb 9 1 = 0 ∧ (s.part blk0.part).outs = [] ∧
     grid2.todo = []) ∧
    (let g := { grid2 with kd := packWords 8 [(1, 9)] }
     let s := fun (n : Nat) => scheduling [(2 ^ 32, { blk0 with runs := n })] [(1, g)]
     g.kdb 9 1 = 1 ∧ (∀ m ∈ (s 1).blocks, m.2.runs < 3) ∧ ∃ m ∈ (s 3).blocks, 3 ≤ m.2.runs) := by
  decide +kernel

/-- A quadrant due for a sample; records waiting in the FIFOs. -/
def sampling (n : Nat) (fifo mem : List (List W64)) (op : List MemSample) : State :=
  ((standing .run blk0).modCore 0 (fun x => { x with samp := ⟨n, 0, fifo, []⟩ :: List.replicate 3 .reset, memFifo := mem, memOpen := op })).modPart 0
    (fun p => { p with sm := { Ring.reset with en := true, period := 8, log2 := 4 }, ms := { Ring.reset with log2 := 4 } })

/-- An open record of lane 0's load into a register that has come. -/
def mem1 : MemSample := ⟨2 ^ 32, 0, [1, 2], false, [0], [6], [], none, 0, []⟩

theorem witness_Sampling :
    (let s := sampling 8 [[1, 2, 3, 4]] [[1, 2, 3, 4, 5, 6, 7, 8]] [mem1]
     (s.core 0).samp.length = 4 ∧ s.partOfDie 0 < s.parts.length ∧ s.sampleDue 0 0 = true ∧ (sampling 7 [] [] []).sampleDue 0 0 = false ∧
     (match s.sampleSlot 0 0 (slotsPerQuad false) 0 with | some (_, bk, x, gk, g) => (s.sampled [] bk gk x g).isSome | none => false) = true ∧
     s.sampleSlot 0 1 (slotsPerQuad false) 0 = none ∧ (s.core 0).memOpen.find? (fun r => s.memDone r) = some mem1 ∧
     (s.core 0).memFifo = [1, 2, 3, 4, 5, 6, 7, 8] :: [] ∧ (s.part 0).ms.full = false ∧ (s.part 0).sm.full = false ∧
     ((s.core 0).samp.getD 0 .reset).fifo = [1, 2, 3, 4] :: []) := by decide +kernel

theorem witness_HostAndSession :
    (let s := scheduling [] []
     0x100 / 4 * 4 + 4 ≤ s.hbmBytes 0 ∧ s.poisoned (hbmKey 0 0x100) 4 = false ∧ s.husk.step = 6 ∧ s.huskUp = true ∧
     State.reset.husk.step ≠ 6 ∧ State.reset.huskUp = false ∧ s.husk.off = false ∧
     ({ s with husk := { s.husk with off := true } } : State).husk.off = true ∧ s.husk.step < 16 ∧ s.husk.fail < 256 ∧
     (∀ p < 4, (s.part p).pstate < 4) ∧ s.deviceOnly (hbmKey 0 0x100) = false) ∧
    (([1, 2, 3, 4] : List Byte).length = 4 ∧ 0x10000 ≤ 0x10040 ∧ 0x10040 < 0x11000 ∧ 0x10040 % 64 = 0 ∧ 0x10044 % 64 ≠ 0) := by decide +kernel

/-- A record that keeps R453's limits: 32 D-cores of each die; with core 32 of die 0 in place of core 0. -/
def record1 (first : Nat) : List W64 :=
  packWords 8 [(0x4346, 0), (1, 16), (7, 32), (1, 236), (1000, 416), (first, 248), (2 ^ 32 - 1, 282), (2 ^ 32 - 1, 316), (2 ^ 32 - 1, 350)]

/-- The partition commands' states, and records and images as they must be but for the signatures, which are open values: of a
`Signed` nothing here says whether it verifies. -/
theorem witness_PartitionsAndPower :
    (let s := fun (st : Nat) => (scheduling [] []).modPart 0 (fun p => { p with pstate := st })
     let off := { s 0 with husk := { (s 0).husk with step := 0 } }
     0 < (s 0).parts.length ∧ ((s 0).husk.step = 6 ∧ (s 0).husk.off = false) ∧ ¬ (off.husk.step = 6) ∧ 0 < (s 0).partCount ∧ (s 0).partCount ≤ 1 ∧
     ((s 2).part 0).pstate = 2 ∧ ((s 3).part 0).pstate = 3 ∧ (s 3).iss = false ∧ ((s 0).part 0).pstate = 0 ∧
     (∀ c ∈ ((s 3).modPart 0 (fun p => { p with ctxs := [] })).parts.flatMap (·.ctxs), c.1 = 0) ∧ off.husk.step = 0 ∧ off.husk.off = false) ∧
    (let w := record1 (2 ^ 32 - 1)
     let w2 := record1 (2 ^ 33 - 2)
     let s := { scheduling [] [] with husk := { Husk.reset with record := w, serial := 6, step := 6 }, parts := List.replicate 4 .reset }
     recordOk w 6 = true ∧ recordOk w2 6 = true ∧ (wordsLe w).length = 64 ∧ toWords (wordsLe w) 8 = w ∧ s.touchedOff w2 = true ∧ s.partOfDie 0 = 0 ∧
     (∀ e < 4, enableOf w2 e ≠ enableOf s.husk.record e ↔ e = 0) ∧
     (∀ j < 34, (enableOf w2 0).testBit j = true ∧ (enableOf s.husk.record 0).testBit j = false ↔ j = 32) ∧
     wbits w2 234 6 = wbits s.husk.record 234 6) ∧
    (let s := fun (t b : Nat) => { (scheduling [] []).modPart 0 (fun p => { p with pstate := 1, bootAt := some b }) with time := t }
     ((s 0 0).part 0).bootAt = some 0 ∧ (s 10000000000 0).time ≤ 0 + 10000000000 ∧ 0 + 10000000000 < (s 10000000001 0).time ∧
     ((s 0 0).part 0).pstate = 1 ∧ (s 0 0).husk.step ≠ 5 ∧
     (let u := { s 0 0 with husk := { Husk.reset with step := 5, record := record0 } }
      u.husk.step = 5 ∧ ∀ q < u.partCount, q ≠ 0 → (u.part q).pstate = 2)) ∧
    (∀ im : Signed, signedOk im = true ∨ signedOk im = false) := by
  refine ⟨by decide +kernel, by decide +kernel, by decide +kernel, fun im => by cases signedOk im <;> simp⟩

/-! ### Completion on plain operands -/

/-- s4 holds a value to write. -/
def writeV (v : W64) : State := issuing (regs [(4, v)]) frag0

theorem witness_PlainOperandsComplete :
    (∀ v i, (writeV v).Clear i) ∧
    (let ok := fun (v : W64) => decide ((writeV v).blk.part < (writeV v).parts.length ∧ ((writeV v).part 0).held = [] ∧
        ((writeV v).part 0).tr.en = false ∧ (writeV v).sreg 4 = v ∧ 0 < (writeV v).blk.winsize / 65536 ∧ ((writeV v).part 0).fqtail = 0 ∧
        ((writeV v).part 0).tr.tail = 0)
     ok 0 = true ∧ ok 0x50000 = true ∧ ok 0x3000 = true) ∧
    ((c 0 6 4 0 0x99).c ≠ 0 ∧ (c 0 6 4 0 0x99).d ≠ 0 ∧ (c 0 6 4 0 0x99).c = 0x99 ∧ (c 0 6 4 0 0x20).c = 0x20 ∧ (0x3000 : W64).toNat % 8 = 0) :=
  ⟨fun _ i => issuing_clear _ _ i rfl rfl rfl rfl, by decide +kernel, by decide⟩

theorem witness_PlainOperandsComplete_lanes :
    (let s := piping (BitVec.ofNat 64 (2 ^ 62 + 7 * 2 ^ 51)) (-1)
     (∀ i, s.Clear i) ∧ s.allLanes = true ∧ s.sreg 5 = BitVec.ofNat 64 (2 ^ 62 + 7 * 2 ^ 51) ∧ s.sreg 4 = 0 ∧
     16 + etagRegs 7 ≤ 16 * s.grp.vblk.length ∧ s.grp.scored (VUse.rng 16 (etagRegs 7) :: usesFrom { c 0 16 4 5 with sa := true } (etagRegs 7)) = false ∧
     s.grp.owed [VUse.rng 16 (etagRegs 7)] = false) ∧
    (let s := pointing blk0 frag0 [(1, { frag0 with em := 1 })]
     (∃ tb, s.pointHere = some tb) ∧ s.grp.inTrap = false ∧ s.grp.frags ≠ [] ∧ s.blk.mig = .none) := by
  refine ⟨⟨fun i => issuing_clear _ _ i rfl rfl rfl rfl, by decide +kernel⟩, ⟨⟨_, rfl⟩, by decide +kernel⟩⟩

theorem witness_PlainOperandsComplete_events :
    (let j : PipeJob := ⟨2 ^ 32, 0, 6, 2, [(384, 1)]⟩
     ((base.modCore 0 (fun x => { x with pipe := [j] })).core 0).pipe = j :: []) ∧
    (let e : StoreEnt := sent .own [⟨0, 0, 7⟩] 4
     let s := scheduling [(2 ^ 32, { blk0 with groups := [(0, { grp0 with stores := [e] })] })] [(1, grid2)]
     (s.block (2 ^ 32)).isSome = true ∧ (s.group (2 ^ 32) 0).map (·.stores) = some [e] ∧ e.ready = true ∧ e.dst = .own) ∧
    (let g := { grid2 with queue := some 1, next := 2 }
     let s := { standing .run { blk0 with mig := .none } with grids := [(1, g)], mem := Memory.write [] (64 + 48) [1] }
     s.queueBad 0 1 = false ∧ (s.queEnt 0 1).tailn = 1 ∧ s.blocks.map (fun b => (b.2.grid, b.2.retired, b.2.lcore, s.migratable b.1 b.2)) = [(1, false, false, true)] ∧
     g.kdb 6 1 = 1 ∧ g.next = g.nblk) ∧
    (let s := standing .run { blk0 with lastIss := 0 }
     ((s.modPart 0 (fun p => { p with wdog := 1 })).part 0).wdog ≠ 0 ∧ 0 + (1 : BitVec 16).toNat * 1000000 ≤ 1000000) ∧
    ((standing .run blk0).modGroup (2 ^ 32) 0 (fun g => { g with starve := 64 })).group (2 ^ 32) 0 ≠ none := by decide +kernel

/-- What the partitions and the module need is as for `Obligations.PartitionsAndPower`; here a partition of each state, of a module
that is up, with no context, and one at power-on. -/
theorem witness_PlainOperandsComplete_module :
    (let s := fun (st : Nat) => (scheduling [] []).modPart 0 (fun p => { p with pstate := st, ctxs := [], bootAt := some 0 })
     (s 2).huskUp = true ∧ 0 < (s 2).partCount ∧ (s 2).iss = false ∧ (∀ st < 4, ((s st).part 0).pstate = st ∧ ((s st).part 0).ctxs = [] ∧
       ((s st).part 0).bootAt = some 0) ∧ 0 < (s 2).parts.length ∧ 0 + 10000000000 < ({ s 1 with time := 10000000001 } : State).time ∧
     (((s 1).modPart 0 (fun p => { p with bootAt := none })).part 0).bootAt = none) ∧
    (State.reset.husk.step = 0 ∧ State.reset.husk.off = false ∧ State.reset.iss = false ∧ wbits (record1 (2 ^ 32 - 1)) 234 2 = 0) := by decide +kernel

/-- The decode table of a kind of core as shipped, two bits an entry. -/
def shippedTable (lcore : Bool) : List Byte :=
  (List.range 1024).map (fun i => BitVec.ofNat 8 (shippedClass lcore (4 * i) + 4 * shippedClass lcore (4 * i + 1) +
    16 * shippedClass lcore (4 * i + 2) + 64 * shippedClass lcore (4 * i + 3)))

theorem shippedClass_lt (lcore : Bool) (e : Nat) : shippedClass lcore e < 4 := by
  unfold shippedClass
  split
  · omega
  · split
    · omega
    · split <;> omega

theorem witness_PlainOperandsComplete_tables (lcore : Bool) : (decTable lcore (shippedTable lcore)).isSome = true := by
  have hl : (shippedTable lcore).length = 1024 := by simp [shippedTable]
  have key : ∀ e < 4096, bits ((shippedTable lcore).getD (e / 4) 0).toNat (2 * (e % 4)) 2 = shippedClass lcore e := by
    intro e he
    have hi : e / 4 < 1024 := by omega
    have a := shippedClass_lt lcore (4 * (e / 4))
    have b := shippedClass_lt lcore (4 * (e / 4) + 1)
    have c := shippedClass_lt lcore (4 * (e / 4) + 2)
    have d := shippedClass_lt lcore (4 * (e / 4) + 3)
    have hg : ((shippedTable lcore).getD (e / 4) 0).toNat = shippedClass lcore (4 * (e / 4)) + 4 * shippedClass lcore (4 * (e / 4) + 1) +
        16 * shippedClass lcore (4 * (e / 4) + 2) + 64 * shippedClass lcore (4 * (e / 4) + 3) := by
      simp only [shippedTable, List.getD_eq_getElem?_getD, List.getElem?_map, List.getElem?_range hi, Option.map_some, Option.getD_some,
        BitVec.toNat_ofNat]
      omega
    rw [hg, bits]
    have hs : e = 4 * (e / 4) + e % 4 := by omega
    have h4 : e % 4 = 0 ∨ e % 4 = 1 ∨ e % 4 = 2 ∨ e % 4 = 3 := by omega
    rcases h4 with h | h | h | h <;> rw [h] at hs ⊢ <;> (conv => rhs; rw [hs]) <;>
      simp only [Nat.mul_zero, Nat.mul_one, Nat.reduceMul, Nat.reducePow, Nat.add_zero] <;> omega
  unfold decTable
  rw [if_neg (by rw [hl]; decide)]
  simp only
  rw [if_pos]
  · rfl
  · rw [List.all_eq_true]
    intro x hx
    obtain ⟨e, he, rfl⟩ := List.mem_map.mp hx
    simp only [key e (List.mem_range.mp he), beq_self_eq_true, Bool.true_or]

end Sys2Proof.Tests
end

section
/-!
PROOFS. Scalar division (R167) and scalar bit fields (R170): the arithmetic of each, then what issuing the instruction gives.
-/

namespace Sys2Proof

/-! ### Typed results that agree modulo 2^w (R165) -/

theorem COps.w_pos (o : COps) : 0 < o.w := by unfold COps.w; positivity

/-- Only the residue modulo 2^w of an integer reaches the register. -/
theorem COps.ext_congr (o : COps) {y z : Int} (h : y % (2 ^ o.w : Nat) = z % (2 ^ o.w : Nat)) : o.ext y = o.ext z := by
  rw [← o.result_ext, ← o.result_ext, COps.result, COps.result, h]

theorem COps.ext_zero (o : COps) : o.ext 0 = 0 := by simp [COps.ext, BitVec.signExtend]

/-- The least signed number of w bits is its own negative modulo 2^w. -/
theorem COps.ext_neg_least (o : COps) : o.ext (-(-(2 ^ (o.w - 1) : Nat) : Int)) = o.ext (-(2 ^ (o.w - 1) : Nat)) := by
  have hpow : 2 ^ o.w = 2 * 2 ^ (o.w - 1) := by rw [← Nat.pow_succ', Nat.succ_eq_add_one, Nat.sub_add_cancel o.w_pos]
  have hneg : (-(-(2 ^ (o.w - 1) : Nat)) : Int) = -(2 ^ (o.w - 1) : Nat) + (2 ^ o.w : Nat) := by omega
  exact o.ext_congr (by rw [hneg, Int.add_emod_right])

end Sys2Proof

namespace Sys2Proof.Machine

/-! ### The quotient and the remainder of R167 -/

@[simp] theorem divInt_zero (a : Int) : divInt a 0 = -1 := rfl
@[simp] theorem remInt_zero (a : Int) : remInt a 0 = a := rfl
theorem divInt_neg_one (a : Int) : divInt a (-1) = -a := by simp [divInt]
theorem remInt_neg_one (a : Int) : remInt a (-1) = 0 := by simp [remInt]
theorem divInt_of_ne {a b : Int} (h : b ≠ 0) : divInt a b = a.tdiv b := if_neg h
theorem remInt_of_ne {a b : Int} (h : b ≠ 0) : remInt a b = a - b * a.tdiv b := by rw [remInt, if_neg h, Int.tmod_def]

/-! ### Bits of the fields of R170 and R195 -/

/-- The low W bits of an n-bit field, sign-extended: the field below n, its top bit from n on. -/
theorem testBit_intBits_sextI {f n W j : Nat} (hn : 0 < n) (hj : j < W) :
    (intBits (sextI f n) W).testBit j = if j < n then f.testBit j else f.testBit (n - 1) := by
  have hword : intBits (sextI f n) W = ((BitVec.ofNat n f).signExtend W).toNat := by
    rw [sextI_toInt f hn, BitVec.signExtend, BitVec.toNat_ofInt, intBits]
  rw [hword, BitVec.testBit_toNat, BitVec.getLsbD_signExtend, BitVec.msb_eq_getLsbD_last, BitVec.getLsbD_ofNat,
    BitVec.getLsbD_ofNat]
  have htop : n - 1 < n := Nat.sub_one_lt_of_lt hn
  by_cases hjn : j < n <;> simp [hj, hjn, htop]

/-- The field of n bits at p. -/
theorem testBit_field (a p n j : Nat) : ((a >>> p) % 2 ^ n).testBit j = (decide (j < n) && a.testBit (p + j)) := by
  rw [Nat.testBit_mod_two_pow, Nat.testBit_shiftRight]

/-- Bit j of an extracted field of length n at p, a field longer than W being cut to W. -/
theorem testBit_bfx (W pb : Nat) (signed : Bool) (a b : Nat) {p n j : Nat} (hp : p = b % 2 ^ pb)
    (hn : n = min (bits b 8 (pb + 1)) W) (hj : j < W) :
    (bfx W pb signed a b).testBit j =
      if n = 0 then false else if j < n then a.testBit (p + j) else signed && a.testBit (p + n - 1) := by
  have hdef : bfx W pb signed a b = if n = 0 then 0 else
      if signed then intBits (sextI ((a >>> p) % 2 ^ n) n) W else (a >>> p) % 2 ^ n := by rw [hp, hn]; rfl
  rw [hdef]
  by_cases h0 : n = 0
  · simp [h0]
  · have hpos : 0 < n := Nat.pos_of_ne_zero h0
    rw [if_neg h0, if_neg h0]
    cases signed with
    | false =>
      rw [if_neg Bool.false_ne_true, testBit_field]
      by_cases hjn : j < n <;> simp [hjn]
    | true =>
      have htop : p + (n - 1) = p + n - 1 := by omega
      rw [if_pos rfl, testBit_intBits_sextI hpos hj, testBit_field, testBit_field]
      by_cases hjn : j < n <;> simp [hjn, hpos, htop]

/-- The mask of n bits at p, below W. -/
theorem testBit_fieldMask (n p W j : Nat) :
    (((2 ^ n - 1) <<< p) % 2 ^ W).testBit j = (decide (j < W) && (decide (p ≤ j) && decide (j - p < n))) := by
  rw [Nat.testBit_mod_two_pow, Nat.testBit_shiftLeft, Nat.testBit_two_pow_sub_one]

/-- Bit j of the destination of an insert of length n at p: the field inside, the old bit outside. -/
theorem testBit_bfi (W pb d a b : Nat) {p n j : Nat} (hp : p = b % 2 ^ pb) (hn : n = min (bits b 8 (pb + 1)) W) (hj : j < W) :
    (bfi W pb d a b).testBit j = if p ≤ j ∧ j < p + n then a.testBit (j - p) else d.testBit j := by
  have hdef : bfi W pb d a b = (d &&& (2 ^ W - 1 - ((2 ^ n - 1) <<< p) % 2 ^ W)) |||
      (((a % 2 ^ n) <<< p) &&& (((2 ^ n - 1) <<< p) % 2 ^ W)) := by rw [hp, hn]; rfl
  have hmask := testBit_fieldMask n p W j
  have hlt : ((2 ^ n - 1) <<< p) % 2 ^ W < 2 ^ W := Nat.mod_lt _ (by positivity)
  rw [hdef, Nat.testBit_or, Nat.testBit_and, Nat.testBit_and, Nat.sub_sub, Nat.add_comm 1, Nat.testBit_two_pow_sub_succ hlt,
    hmask, Nat.testBit_shiftLeft, Nat.testBit_mod_two_pow]
  by_cases hin : p ≤ j ∧ j < p + n
  · have hjn : j - p < n := by omega
    simp [hj, hin, hjn]
  · have hout : ¬ (p ≤ j ∧ j - p < n) := by omega
    rw [if_neg hin]
    by_cases hpj : p ≤ j
    · have hjn : ¬ j - p < n := fun h => hout ⟨hpj, h⟩
      simp [hj, hjn]
    · simp [hj, hpj]

/-! ### What issuing a scalar instruction gives -/

section
variable {i : Instr} {s : State}

/-- An effect counts only in the state in which the instruction has issued. -/
theorem issue_congr {f g : State → Except Stop State} (h : f (s.marked i) = g (s.marked i)) : issue i s f = issue i s g := by
  simp only [issue, h]

theorem writesS_of_ok {d : BitVec 8} {v : W64} {body : State → Except Stop State} (he : exec i s = issue i s body)
    (hb : body (s.marked i) = .ok (((s.marked i).setS d v).advance i)) : WritesS i s d v :=
  writesS_of (he.trans (issue_congr hb))

theorem traps_of_error {cause ucode : Nat} {body : State → Except Stop State} (he : exec i s = issue i s body)
    (hb : body (s.marked i) = .error (.trap cause ucode)) : Traps i s cause ucode :=
  fun h => he.trans (issue_error h hb)

theorem writesS_scalarOp {o : COps} {v : State → W64} (he : exec i s = scalarOp i o s v) :
    WritesS i s o.d (v (s.marked i)) :=
  writesS_of_ok (body := fun a => .ok ((a.setS o.d (v a)).advance i)) he rfl

/-- What the instructions of major 0x10 on two operands write (R165). -/
theorem writesS_scalarBin {o : COps} {f : Int → Int → Int} (he : exec i s = scalarBin i o s f) :
    WritesS i s o.d (o.ext (f (o.val (s.sreg o.a)) (o.val (s.sB o)))) := by
  simpa only [marked_sreg, marked_sB, COps.opnd_val64, COps.result_ext] using writesS_scalarOp he

end

section
variable (o : COps) (s : State)

theorem exec_scalarDiv : exec (.scalarDiv o) s = execScalarDiv o s := rfl
theorem exec_scalarRem : exec (.scalarRem o) s = execScalarRem o s := rfl
theorem exec_scalarBfx : exec (.scalarBfx o) s = execScalarBfx o s := rfl
theorem exec_scalarBfi : exec (.scalarBfi o) s = execScalarBfi o s := rfl

theorem scalarDiv_writes : WritesS (.scalarDiv o) s o.d (o.ext (divInt (o.val (s.sreg o.a)) (o.val (s.sB o)))) :=
  writesS_scalarBin (exec_scalarDiv o s)

theorem scalarRem_writes : WritesS (.scalarRem o) s o.d (o.ext (remInt (o.val (s.sreg o.a)) (o.val (s.sB o)))) :=
  writesS_scalarBin (exec_scalarRem o s)

theorem scalarBfx_traps (h : o.x.toNat % 4 ≠ 3) : Traps (.scalarBfx o) s 1 8 :=
  traps_of_error (exec_scalarBfx o s) (if_pos h)

theorem scalarBfi_traps (h : o.x.toNat % 4 ≠ 3) : Traps (.scalarBfi o) s 1 8 :=
  traps_of_error (exec_scalarBfi o s) (if_pos h)

theorem scalarBfx_writes (h : o.x.toNat % 4 = 3) :
    WritesS (.scalarBfx o) s o.d (BitVec.ofNat 64 (bfx 64 6 o.signed (s.sreg o.a).toNat (s.sB o).toNat)) :=
  writesS_of_ok (exec_scalarBfx o s) (if_neg (not_not.mpr h))

theorem scalarBfi_writes (h : o.x.toNat % 4 = 3) :
    WritesS (.scalarBfi o) s o.d (BitVec.ofNat 64 (bfi 64 6 (s.sreg o.d).toNat (s.sreg o.a).toNat (s.sB o).toNat)) :=
  writesS_of_ok (exec_scalarBfi o s) (if_neg (not_not.mpr h))

end

/-! ### The statements -/

/-- Settles O12: the three cases of R167 are three values of the model's quotient and remainder; in the case of the least
number by -1 the quotient -a is a again modulo 2^w. -/
theorem scalarDivision : Obligations.ScalarDivision := by
  unfold Obligations.ScalarDivision
  intro o s
  have hdiv := scalarDiv_writes o s
  have hrem := scalarRem_writes o s
  refine ⟨fun hb => ?byZero, fun _ ha hb => ?leastByNegOne, fun hb _ => ?otherwise⟩
  case byZero =>
    rw [hb] at hdiv hrem
    exact ⟨hdiv, hrem⟩
  case leastByNegOne =>
    have hself : o.ext (-o.val (s.sreg o.a)) = o.ext (o.val (s.sreg o.a)) := by rw [ha]; exact o.ext_neg_least
    rw [hb, divInt_neg_one, hself] at hdiv
    rw [hb, remInt_neg_one, o.ext_zero] at hrem
    exact ⟨hdiv, hrem⟩
  case otherwise =>
    rw [divInt_of_ne hb] at hdiv
    rw [remInt_of_ne hb] at hrem
    exact ⟨hdiv, hrem⟩

/-- Settles O13: the width decides between the trap and the write, and the word written is read bit by bit. -/
theorem scalarBitFields : Obligations.ScalarBitFields := by
  unfold Obligations.ScalarBitFields
  intro o s
  have hlen : min ((s.sB o).toNat / 256 % 128) 64 = min (bits (s.sB o).toNat 8 (6 + 1)) 64 := by
    rw [bits, Nat.shiftRight_eq_div_pow]; rfl
  refine ⟨fun hx => ⟨scalarBfx_traps o s hx, scalarBfi_traps o s hx⟩, fun hx => ⟨⟨_, scalarBfx_writes o s hx, fun j hj => ?bfx⟩,
    ⟨_, scalarBfi_writes o s hx, fun j hj => ?bfi⟩⟩⟩
  case bfx =>
    rw [BitVec.getLsbD_ofNat, testBit_bfx 64 6 _ _ _ rfl hlen hj]
    simp only [hj, decide_true, Bool.true_and, BitVec.testBit_toNat, COps.signed, Nat.reducePow]
  case bfi =>
    rw [BitVec.getLsbD_ofNat, testBit_bfi 64 6 _ _ _ rfl hlen hj]
    simp only [hj, decide_true, Bool.true_and, BitVec.testBit_toNat, Nat.reducePow]

end Sys2Proof.Machine
end

section
/-!
PROOFS. Lane integer arithmetic (R192 to R195): the operations modulo 2^w, the counts, and what issuing a lane instruction gives.
-/

namespace Sys2Proof

/-! ### Typed operands and results (R165, R192) -/

section
variable (o : COps) (x : W64)

/-- A typed operand is the low w bits, or these less 2^w. -/
theorem COps.val_eq_or : o.val x = (x.toNat % 2 ^ o.w : Nat) ∨ o.val x = (x.toNat % 2 ^ o.w : Nat) - (2 ^ o.w : Nat) := by
  have hval : o.val x = if o.x.toNat < 4 then (x.setWidth o.w).toInt else ((x.setWidth o.w).toNat : Int) := rfl
  rw [hval, BitVec.toInt_eq_toNat_cond, BitVec.toNat_setWidth]
  by_cases hsigned : o.x.toNat < 4
  · rw [if_pos hsigned]
    split
    · exact .inl rfl
    · exact .inr rfl
  · exact .inl (if_neg hsigned)

theorem COps.val_bounds : -((2 ^ o.w : Nat) : Int) ≤ o.val x ∧ o.val x < (2 ^ o.w : Nat) := by
  have hlow : x.toNat % 2 ^ o.w < 2 ^ o.w := Nat.mod_lt _ (by positivity)
  rcases o.val_eq_or x with h | h <;> omega

theorem COps.intBits_val : Machine.intBits (o.val x) o.w = x.toNat % 2 ^ o.w := by
  have hmod : o.val x % (2 ^ o.w : Nat) = (x.toNat % 2 ^ o.w : Nat) := by
    rcases o.val_eq_or x with h | h
    · rw [h, ← Int.natCast_emod, Nat.mod_mod]
    · rw [h, Int.sub_emod_right, ← Int.natCast_emod, Nat.mod_mod]
  rw [Machine.intBits, hmod, Int.toNat_natCast]

end

/-- Equal residues of natural numbers give equal results. -/
theorem COps.ext_natCast_congr (o : COps) {m n : Nat} (h : m % 2 ^ o.w = n % 2 ^ o.w) : o.ext (m : Int) = o.ext (n : Int) :=
  o.ext_congr (by exact_mod_cast h)

/-- The bitwise operations at width w are those on the registers, taken modulo 2^w. -/
theorem COps.ext_intAnd (o : COps) (x y : W64) : o.ext (Machine.intAnd o.w (o.val x) (o.val y)) = o.ext ((x &&& y).toNat : Int) :=
  o.ext_natCast_congr (by
    rw [o.intBits_val, o.intBits_val, ← Nat.and_mod_two_pow, Nat.mod_mod, BitVec.toNat_and])

theorem COps.ext_intOr (o : COps) (x y : W64) : o.ext (Machine.intOr o.w (o.val x) (o.val y)) = o.ext ((x ||| y).toNat : Int) :=
  o.ext_natCast_congr (by
    rw [o.intBits_val, o.intBits_val, ← Nat.or_mod_two_pow, Nat.mod_mod, BitVec.toNat_or])

theorem COps.ext_intXor (o : COps) (x y : W64) : o.ext (Machine.intXor o.w (o.val x) (o.val y)) = o.ext ((x ^^^ y).toNat : Int) :=
  o.ext_natCast_congr (by
    rw [o.intBits_val, o.intBits_val, ← Nat.xor_mod_two_pow, Nat.mod_mod, BitVec.toNat_xor])

/-- A left shift by w or more leaves a multiple of 2^w. -/
theorem COps.ext_shl (o : COps) (a : Int) (n : Nat) :
    o.ext (a * (2 ^ n : Nat)) = o.ext (if o.w ≤ n then 0 else a * (2 ^ n : Nat)) := by
  split
  case isTrue h =>
    have hdvd : ((2 ^ o.w : Nat) : Int) ∣ a * (2 ^ n : Nat) :=
      Dvd.dvd.mul_left (Int.natCast_dvd_natCast.mpr (Nat.pow_dvd_pow 2 h)) a
    exact o.ext_congr (by rw [Int.emod_eq_zero_of_dvd hdvd, Int.zero_emod])
  case isFalse => rfl

/-- A right shift by w or more leaves the sign alone. -/
theorem COps.val_shr (o : COps) (x : W64) (n : Nat) :
    o.val x / (2 ^ n : Nat) = if o.w ≤ n then (if o.val x < 0 then -1 else 0) else o.val x / (2 ^ n : Nat) := by
  split
  case isTrue h =>
    have hpow : 2 ^ o.w ≤ 2 ^ n := Nat.pow_le_pow_right Nat.two_pos h
    obtain ⟨hlow, hhigh⟩ := o.val_bounds x
    split
    case isTrue hneg => exact Int.ediv_eq_neg_one_of_neg_of_le hneg (by omega)
    case isFalse hpos => exact Int.ediv_eq_zero_of_lt (by omega) (by omega)
  case isFalse => rfl

end Sys2Proof

namespace Sys2Proof.Machine

/-! ### Counts (R166, R193) -/

theorem lenN_le (x w : Nat) : lenN x w ≤ w := by
  induction w with
  | zero => exact le_rfl
  | succ n ih =>
    rw [lenN]
    split
    · exact le_rfl
    · exact Nat.le_succ_of_le ih

/-- Above the highest set bit all bits are clear. -/
theorem testBit_eq_false_of_lenN_le {x w j : Nat} (hlen : lenN x w ≤ j) (hj : j < w) : x.testBit j = false := by
  induction w with
  | zero => exact absurd hj (Nat.not_lt_zero j)
  | succ n ih =>
    rw [lenN] at hlen
    split at hlen
    case isTrue => omega
    case isFalse hclear =>
      rcases Nat.lt_succ_iff_lt_or_eq.mp hj with hjn | rfl
      · exact ih hlen hjn
      · exact Bool.eq_false_of_not_eq_true hclear

/-- The bit that the length ends at is set. -/
theorem testBit_lenN_sub_one {x w : Nat} (hpos : 0 < lenN x w) : x.testBit (lenN x w - 1) = true := by
  induction w with
  | zero => exact absurd hpos (Nat.lt_irrefl 0)
  | succ n ih =>
    rw [lenN] at hpos ⊢
    split
    case isTrue hset => exact hset
    case isFalse hclear =>
      rw [if_neg hclear] at hpos
      exact ih hpos

theorem clzN_le (x w : Nat) : clzN x w ≤ w := Nat.sub_le _ _

theorem sub_clzN (x w : Nat) : w - clzN x w = lenN x w := Nat.sub_sub_self (lenN_le x w)

/-- The highest clzN x w of the low w bits are clear. -/
theorem testBit_eq_false_of_sub_clzN_le {x w j : Nat} (hj : w - clzN x w ≤ j) (hjw : j < w) : x.testBit j = false :=
  testBit_eq_false_of_lenN_le (sub_clzN x w ▸ hj) hjw

/-- The next bit, if there is one, is set. -/
theorem testBit_sub_clzN_sub_one {x w : Nat} (h : clzN x w < w) : x.testBit (w - clzN x w - 1) = true := by
  have hpos : 0 < w - clzN x w := Nat.sub_pos_of_lt h
  rw [sub_clzN] at hpos ⊢
  exact testBit_lenN_sub_one hpos

theorem popN_eq_length_filter (x w : Nat) : popN x w = ((List.range w).filter (fun j => x.testBit j)).length := by
  induction w with
  | zero => rfl
  | succ n ih =>
    rw [popN, ih, List.range_succ, List.filter_append, List.length_append]
    cases hbit : x.testBit n <;> simp [b2n, hbit]

/-- The length of a lane's field, as R195 gives it and as the model takes it. -/
theorem laneFieldLen_eq (b : Nat) : min (b / 256 % 64) 32 = min (bits b 8 (5 + 1)) 32 := by
  rw [bits, Nat.shiftRight_eq_div_pow]; rfl

/-! ### Lane operands as typed integers (R192) -/

section
variable (s : State) (o : COps) (l : Nat)

/-- A(l) as a word of 64 bits. -/
def State.wordA : W64 := BitVec.ofNat 64 (s.lA o o.w64 l)

/-- B(l) as a word of 64 bits. -/
def State.wordB : W64 := BitVec.ofNat 64 (s.lB o o.w64 l)

/-- lopnd(A(l)). -/
def State.lopA : Int := o.val (s.wordA o l)

/-- lopnd(B(l)). -/
def State.lopB : Int := o.val (s.wordB o l)

/-- lopnd(C(l)). -/
def State.lopC : Int := o.val (BitVec.ofNat 64 (s.lC o o.w64 l))

theorem opnd_lA : o.opnd (s.lA o o.w64 l) = s.lopA o l := o.opnd_val _
theorem opnd_lB : o.opnd (s.lB o o.w64 l) = s.lopB o l := o.opnd_val _
theorem opnd_lC : o.opnd (s.lC o o.w64 l) = s.lopC o l := o.opnd_val _

theorem lA_single_lt : s.lA o false l < 2 ^ 32 := by
  unfold State.lA
  split
  · exact Nat.mod_lt _ (by decide)
  · exact BitVec.isLt _

/-- A single lane register has no bits from bit 32 on. -/
theorem testBit_lA_single (j : Nat) : (decide (j < 32) && (s.lA o false l).testBit j) = (s.lA o false l).testBit j := by
  by_cases hj : j < 32
  · simp [hj]
  · have hpow : 2 ^ 32 ≤ 2 ^ j := Nat.pow_le_pow_right Nat.two_pos (Nat.le_of_not_lt hj)
    rw [Nat.testBit_lt_two_pow (Nat.lt_of_lt_of_le (lA_single_lt s o l) hpow), Bool.and_false]

end

/-! ### What issuing a lane instruction gives -/

section
variable {i : Instr} {o : COps} {s : State}

theorem writesV_of_ok {wide : Bool} {f : Nat → Nat} {body : State → Except Stop State} (he : exec i s = issue i s body)
    (hb : body (s.marked i) = .ok (((s.marked i).mapLanes o wide f).advance i)) : WritesV i s o wide f :=
  writesV_of (f := fun _ => f) (he.trans (issue_congr hb)) (fun _ => rfl)

theorem writesV_laneOp {f : State → Nat → Nat} (he : exec i s = laneOp i o s f) : WritesV i s o o.w64 (f (s.marked i)) :=
  writesV_of_ok (body := fun a => .ok ((a.mapLanes o o.w64 (f a)).advance i)) he rfl

/-- A lane operation whose result is an integer `y` writes any integer `z` that lresult does not tell from it. -/
theorem writesV_typed {y : State → Nat → Int} {z : Nat → Int} (he : exec i s = laneOp i o s (fun a l => (o.result (y a l)).toNat))
    (hz : ∀ l, o.ext (y (s.marked i) l) = o.ext (z l)) : WritesV i s o o.w64 (fun l => (o.ext (z l)).toNat) := by
  have hw := writesV_laneOp he
  simp only [o.result_ext, hz] at hw
  exact hw

/-- What the binary operations of major 0x30 write (R193). -/
theorem writesV_laneBin {f : Int → Int → Int} {z : Nat → Int} (he : exec i s = laneBin i o s f)
    (hz : ∀ l, o.ext (f (s.lopA o l) (s.lopB o l)) = o.ext (z l)) : WritesV i s o o.w64 (fun l => (o.ext (z l)).toNat) :=
  writesV_typed (y := fun a l => f (o.opnd (a.lA o o.w64 l)) (o.opnd (a.lB o o.w64 l))) he
    (fun l => by rw [marked_lA, marked_lB, opnd_lA, opnd_lB, hz])

end

section
variable (o : COps) (s : State)

theorem laneAdd_writes : WritesV (.laneAdd o) s o o.w64 (fun l => (o.ext (s.lopA o l + s.lopB o l)).toNat) :=
  writesV_laneBin (show _ = execLaneAdd o s from rfl) (fun _ => rfl)

theorem laneSub_writes : WritesV (.laneSub o) s o o.w64 (fun l => (o.ext (s.lopA o l - s.lopB o l)).toNat) :=
  writesV_laneBin (show _ = execLaneSub o s from rfl) (fun _ => rfl)

theorem laneMul_writes : WritesV (.laneMul o) s o o.w64 (fun l => (o.ext (s.lopA o l * s.lopB o l)).toNat) :=
  writesV_laneBin (show _ = execLaneMul o s from rfl) (fun _ => rfl)

theorem laneMulh_writes :
    WritesV (.laneMulh o) s o o.w64 (fun l => (o.ext (s.lopA o l * s.lopB o l / (2 ^ o.w : Nat))).toNat) :=
  writesV_laneBin (show _ = execLaneMulh o s from rfl) (fun _ => rfl)

theorem laneAnd_writes :
    WritesV (.laneAnd o) s o o.w64 (fun l => (o.ext ((s.wordA o l &&& s.wordB o l).toNat : Int)).toNat) :=
  writesV_laneBin (show _ = execLaneAnd o s from rfl) (fun _ => o.ext_intAnd _ _)

theorem laneOr_writes :
    WritesV (.laneOr o) s o o.w64 (fun l => (o.ext ((s.wordA o l ||| s.wordB o l).toNat : Int)).toNat) :=
  writesV_laneBin (show _ = execLaneOr o s from rfl) (fun _ => o.ext_intOr _ _)

theorem laneXor_writes :
    WritesV (.laneXor o) s o o.w64 (fun l => (o.ext ((s.wordA o l ^^^ s.wordB o l).toNat : Int)).toNat) :=
  writesV_laneBin (show _ = execLaneXor o s from rfl) (fun _ => o.ext_intXor _ _)

theorem laneMin_writes :
    WritesV (.laneMin o) s o o.w64 (fun l => (o.ext (if s.lopA o l ≤ s.lopB o l then s.lopA o l else s.lopB o l)).toNat) :=
  writesV_laneBin (show _ = execLaneMin o s from rfl) (fun _ => by rw [min_def])

theorem laneMax_writes :
    WritesV (.laneMax o) s o o.w64 (fun l => (o.ext (if s.lopA o l ≤ s.lopB o l then s.lopB o l else s.lopA o l)).toNat) :=
  writesV_laneBin (show _ = execLaneMax o s from rfl) (fun _ => by rw [max_def])

theorem laneShl_writes : WritesV (.laneShl o) s o o.w64 (fun l => (o.ext (if o.w ≤ shiftCount (s.lB o false l) then 0
    else s.lopA o l * (2 ^ shiftCount (s.lB o false l) : Nat))).toNat) :=
  writesV_typed (show _ = execLaneShl o s from rfl) (fun l => by rw [marked_lA, marked_lB, opnd_lA, o.ext_shl])

theorem laneShr_writes : WritesV (.laneShr o) s o o.w64 (fun l => (o.ext (if o.w ≤ shiftCount (s.lB o false l) then
    (if s.lopA o l < 0 then -1 else 0) else s.lopA o l / (2 ^ shiftCount (s.lB o false l) : Nat))).toNat) :=
  writesV_typed (show _ = execLaneShr o s from rfl) (fun l => by
    rw [marked_lA, marked_lB, opnd_lA, State.lopA, ← o.val_shr])

theorem mad_writes :
    WritesV (.mad o) s o o.w64 (fun l => (o.ext (s.lopA o l * s.lopB o l + s.lopC o l)).toNat) :=
  writesV_typed (show _ = execMad o s from rfl) (fun l => by
    rw [marked_lA, marked_lB, marked_lC, opnd_lA, opnd_lB, opnd_lC])

theorem laneSel_writes :
    WritesV (.laneSel o) s o o.w64 (fun l => (o.ext (if (s.kreg o.c).getLsbD l then s.lopA o l else s.lopB o l)).toNat) :=
  writesV_typed (show _ = execLaneSel o s from rfl) (fun l => by
    rw [marked_kreg, marked_lA, marked_lB, opnd_lA, opnd_lB])

theorem laneMov_writes : WritesV (.laneMov o) s o o.w64 (fun l => (o.ext (s.lopB o l)).toNat) :=
  writesV_typed (show _ = execLaneMov o s from rfl) (fun l => by rw [marked_lB, opnd_lB])

theorem laneClz_writes : WritesV (.laneClz o) s o o.w64 (fun l => clzN (s.lA o o.w64 l) o.w) :=
  writesV_laneOp (show _ = execLaneClz o s from rfl)

theorem lanePopc_writes : WritesV (.lanePopc o) s o o.w64
    (fun l => ((List.range o.w).filter (fun j => (s.lA o o.w64 l).testBit j)).length) := by
  have hw := writesV_laneOp (show _ = execLanePopc o s from rfl)
  simpa only [popN_eq_length_filter, marked_lA] using hw

theorem exec_laneBfx : exec (.laneBfx o) s = execLaneBfx o s := rfl
theorem exec_laneBfi : exec (.laneBfi o) s = execLaneBfi o s := rfl

theorem laneBfx_traps (h : o.x.toNat % 4 ≠ 2) : Traps (.laneBfx o) s 1 8 :=
  traps_of_error (exec_laneBfx o s) (if_pos h)

theorem laneBfi_traps (h : o.x.toNat % 4 ≠ 2) : Traps (.laneBfi o) s 1 8 :=
  traps_of_error (exec_laneBfi o s) (if_pos h)

theorem laneBfx_writes (h : o.x.toNat % 4 = 2) :
    WritesV (.laneBfx o) s o false (fun l => bfx 32 5 o.signed (s.lA o false l) (s.lB o false l)) :=
  writesV_of_ok (exec_laneBfx o s) (if_neg (not_not.mpr h))

theorem laneBfi_writes (h : o.x.toNat % 4 = 2) :
    WritesV (.laneBfi o) s o false (fun l => bfi 32 5 (s.grp.v o.d.toNat l).toNat (s.lA o false l) (s.lB o false l)) :=
  writesV_of_ok (exec_laneBfi o s) (if_neg (not_not.mpr h))

end

/-! ### The statement -/

/-- Settles O21: each operation by what issuing it writes; the counts by the highest set bit and by counting bit for bit; of the
bit fields the width decides between the trap and the write, which is read bit by bit. -/
theorem laneArithmetic : Obligations.LaneArithmetic := by
  unfold Obligations.LaneArithmetic
  refine ⟨fun o s => ?results, fun o s => ⟨?clz, ?popc, fun hx => ⟨laneBfx_traps o s hx, laneBfi_traps o s hx⟩,
    fun hx => ⟨⟨_, laneBfx_writes o s hx, fun l _ j hj => ?bfx⟩, ⟨_, laneBfi_writes o s hx, fun l _ j hj => ?bfi⟩⟩⟩⟩
  case results =>
    exact ⟨laneAdd_writes o s, laneSub_writes o s, laneMul_writes o s, laneMulh_writes o s, laneAnd_writes o s,
      laneOr_writes o s, laneXor_writes o s, laneMin_writes o s, laneMax_writes o s, laneShl_writes o s, laneShr_writes o s,
      mad_writes o s, laneSel_writes o s, laneMov_writes o s⟩
  case clz =>
    exact ⟨_, laneClz_writes o s,
      fun _ => ⟨clzN_le _ _, fun _ => testBit_eq_false_of_sub_clzN_le, testBit_sub_clzN_sub_one⟩⟩
  case popc => exact lanePopc_writes o s
  case bfx =>
    rw [testBit_bfx 32 5 _ _ _ rfl (laneFieldLen_eq _) hj]
    simp only [testBit_lA_single, Bool.and_assoc, COps.signed, Nat.reducePow]
  case bfi =>
    rw [testBit_bfi 32 5 _ _ _ rfl (laneFieldLen_eq _) hj]
    simp only [BitVec.testBit_toNat, Nat.reducePow]

end Sys2Proof.Machine
end
